-- ==== Sys2Proof/Word.lean ====
section
/-! DEFINITION. The word types of the Swehild (R5, R6) and their plainest arithmetic. -/

namespace Sys2Proof

/-- A byte (R6). -/
abbrev Byte := BitVec 8
/-- A half (R6). -/
abbrev Half16 := BitVec 16
/-- A word (R6): the width of a v register. -/
abbrev Word := BitVec 32
/-- A doubleword (R6): the width of an instruction word. -/
abbrev Dword := BitVec 64

/-- The all-ones word: the MR that means "no meeting pending" (R12), the %fltdst that names nothing (R31). -/
abbrev allOnes : Word := 0xFFFFFFFF#32

end Sys2Proof
end

