-- ==== Sys2Proof/Syntax.lean ====
section
/-! DEFINITION. Instructions, half operations and events of the Swehild: one constructor of `Instr` for each row of
the opcode table. Operand fields carry the widths of R72; C carries its kind (R73); wide fields that several
instructions share are small structures. Events carry what names the agent concerned. -/

namespace Sys2Proof

abbrev VReg := BitVec 8
abbrev PReg := BitVec 3
abbrev HReg := BitVec 4
abbrev KReg := BitVec 6
abbrev SlotN := BitVec 2
abbrev RecN := BitVec 4
abbrev CvN := BitVec 4

/-- Scope and guard (R69): bits 63:62 with bits 44:41. -/
inductive Scope where
  | lane (pg : PReg) (pn : Bool)
  | group
  | set (cv : CvN)
  | team (cv : CvN)
  deriving DecidableEq, Repr

/-- What every full-form word carries besides its operands: scope, wait mask (R70) and bit 2 (R42). -/
structure Iss where
  scope : Scope
  wt : BitVec 8
  ru : Bool
  deriving DecidableEq, Repr

/-- Operand C with its kind CK (R73). -/
inductive COp where
  | v (n : VReg)
  | imm (n : BitVec 8)
  | k (n : KReg)
  | s (n : BitVec 8)
  deriving DecidableEq, Repr

/-- The modifiers of the FP class (R75): rounding, FTZ, negate A, negate C, absolute A. -/
structure FpMod where
  rm : BitVec 2
  ftz : Bool
  na : Bool
  nc : Bool
  abs : Bool
  deriving DecidableEq, Repr

/-- The ICMP conditions (R75). -/
inductive ICond where
  | eq | ne | lt | le | gt | ge
  deriving DecidableEq, Repr

/-- The FCMP conditions (R154). -/
inductive FCond where
  | eq | ne | lt | le | gt | ge | un | ord
  deriving DecidableEq, Repr

/-- The two forms of PMOV (R119). -/
inductive PmovOp where
  | get (d : VReg)
  | put (mask : BitVec 7) (c : COp)
  deriving DecidableEq, Repr

/-- The VOTE modes (R141). -/
inductive VoteMode where
  | every | some | same | lanes | count | first | rank
  deriving DecidableEq, Repr

/-- The SHFL modes (R142). -/
inductive ShflMode where
  | from | rot | swap | step
  deriving DecidableEq, Repr

/-- The REDUX operations (R143). -/
inductive ReduxOp where
  | add | minu | mins | maxu | maxs | and | or | xor
  deriving DecidableEq, Repr

/-- The MATCH modes (R144). -/
inductive MatchMode where
  | peers | head | nclass | order
  deriving DecidableEq, Repr

/-- The TRET modes (R276). -/
inductive TretMode where
  | retry | next | subst
  deriving DecidableEq, Repr

/-- The FCVT formats (R158). -/
inductive CvtFmt where
  | f32 | f16 | bf16 | e4m3 | e5m2
  deriving DecidableEq, Repr

/-- The memory sizes (R169). -/
inductive MSize where
  | b8 | b16 | b32 | b64 | b128 | s8 | s16
  deriving DecidableEq, Repr

/-- The four address spaces (R167). -/
inductive Space where
  | global | basin | slip | cistern
  deriving DecidableEq, Repr

/-- Size, space, high bit of the reuse distance and swizzle of a Memory-class word (R41, R75). -/
structure MemMod where
  size : MSize
  space : Space
  far : Bool
  swz : BitVec 3
  deriving DecidableEq, Repr

/-- The ATOM and RED variants (R179). -/
inductive AtomOp where
  | add | and | or | xor | minu | mins | maxu | maxs | exch | inc | dec
  | add64 | exch64 | or64 | and64 | fadd
  deriving DecidableEq, Repr

/-- The scope group of an atomic, MOD5:4 (R178). -/
inductive SGroup where
  | team | die | device | system
  deriving DecidableEq, Repr

/-- The FENCE scopes (R75). -/
inductive FScope where
  | group | team | cluster | die | device | system
  deriving DecidableEq, Repr

/-- The FENCE kinds (R41). -/
inductive FKind where
  | acq | rel | acqrel | full
  deriving DecidableEq, Repr

/-- The CCTL operations (R188). -/
inductive CctlOp where
  | inv | invall | iinv | iinvall
  deriving DecidableEq, Repr

/-- The items HINF reads (R202). -/
inductive HinfSel where
  | depth | rows | shared | refs | pc | lane
  deriving DecidableEq, Repr

/-- The MRD formats (R242). -/
inductive MrdFmt where
  | f32 | bf16 | f16 | fp8
  deriving DecidableEq, Repr

/-- The MST formats (R260). -/
inductive MstFmt where
  | f32 | bf16 | f16 | fp8 | i32
  deriving DecidableEq, Repr

/-- The COLL operations (R261). -/
inductive CollOp where
  | aradd | armax | aravimx | gather | rsadd
  deriving DecidableEq, Repr

/-- The fields of a sequence slot (R269, R271). -/
inductive SlotField where
  | ntok | ctx | commit | done
  deriving DecidableEq, Repr

/-- The half opcodes (R95). -/
inductive HOp where
  | nop | mov | iadd | isub | imul | and | or | xor | shl | shr | sar | imin | imax
  | fadd | fmul | fmin | fmax | hadd2 | hmul2 | f2i | i2f | icmp | popc | clz
  deriving DecidableEq, Repr

/-- One half of a paired word (R79). -/
structure Half where
  hop : HOp
  pg : PReg
  pn : Bool
  d : BitVec 8
  a : BitVec 8
  ak : Bool
  hmod : BitVec 3
  deriving DecidableEq, Repr

/-- What a host write to a register carries: a word or a doubleword. -/
inductive RegVal where
  | word (v : Word)
  | dword (v : Dword)
  deriving DecidableEq, Repr

def RegVal.toNat : RegVal → Nat
  | .word v => v.toNat
  | .dword v => v.toNat

def RegVal.wide : RegVal → Bool
  | .word _ => false
  | .dword _ => true

/-- The states of a Dexgal Link port (R394, R395), and of the link of a PCIe port (R366, R387). -/
inductive LinkSt where
  | down | training | up | recovery
  deriving DecidableEq, Repr

/-- What a host read names: a BAR2 offset of a partition's function (R389), or a BAR0 offset of function 0, the module function, or 1 + k,
that of partition k (R384, R385). -/
inductive PciBar where
  | bar2 (p : Nat)
  | bar0 (fn : Nat)
  deriving DecidableEq, Repr

/-- The kinds of an inbound AtomicOp (R387). -/
inductive AOpKind where
  | fetchAdd | swap | cas
  deriving DecidableEq, Repr

/-- How an outbound request through the external aperture ends (R391). -/
inductive OutResult where
  | data (bytes : List Byte)
  | acked
  | error (timeout : Bool)
  deriving DecidableEq, Repr

/-- The instructions, the paired word, the word that is not an instruction, and the events of the opcode table. -/
inductive Instr where
  -- integer, move and predicate (R86)
  | nop (i : Iss)
  | mov (i : Iss) (d : VReg) (c : COp)
  | movs (i : Iss) (d : VReg) (n : BitVec 8) (clr : Bool)
  | kset (i : Iss) (d : KReg) (c : COp)
  | iadd (i : Iss) (d a : VReg) (c : COp) (sgn sat : Bool)
  | isub (i : Iss) (d a : VReg) (c : COp) (sgn sat : Bool)
  | imul (i : Iss) (d a : VReg) (c : COp) (sgn sat : Bool)
  | imulh (i : Iss) (d a : VReg) (c : COp) (sgn : Bool)
  | imad (i : Iss) (d a b : VReg) (c : COp) (sgn sat : Bool)
  | imadw (i : Iss) (d a b c : VReg) (sgn : Bool)
  | iaddw (i : Iss) (d a : VReg) (c : COp) (sgn sat : Bool)
  | idiv (i : Iss) (d a : VReg) (c : COp) (sgn : Bool)
  | irem (i : Iss) (d a : VReg) (c : COp) (sgn : Bool)
  | imin (i : Iss) (d a : VReg) (c : COp) (sgn : Bool)
  | imax (i : Iss) (d a : VReg) (c : COp) (sgn : Bool)
  | iabs (i : Iss) (d : VReg) (c : COp) (sat : Bool)
  | and (i : Iss) (d a : VReg) (c : COp)
  | or (i : Iss) (d a : VReg) (c : COp)
  | xor (i : Iss) (d a : VReg) (c : COp)
  | andn (i : Iss) (d a : VReg) (c : COp)
  | shl (i : Iss) (d a : VReg) (c : COp)
  | shr (i : Iss) (d a : VReg) (c : COp)
  | sar (i : Iss) (d a : VReg) (c : COp)
  | rot (i : Iss) (d a : VReg) (c : COp)
  | shf (i : Iss) (d a b : VReg) (c : COp)
  | popc (i : Iss) (d : VReg) (c : COp)
  | clz (i : Iss) (d : VReg) (c : COp)
  | brev (i : Iss) (d : VReg) (c : COp)
  | bfx (i : Iss) (d a : VReg) (c : COp) (sgn : Bool)
  | bfi (i : Iss) (d a b : VReg) (c : COp)
  | prmt (i : Iss) (d a b : VReg) (c : COp)
  | lea (i : Iss) (d a : VReg) (c : COp) (sh : BitVec 3)
  | isel (i : Iss) (d a : VReg) (c : COp) (p : PReg) (neg : Bool)
  | icmp (i : Iss) (d : PReg) (a : VReg) (c : COp) (cond : ICond) (sgn : Bool)
  | plop (i : Iss) (d a b e : PReg) (lut : BitVec 8)
  | pmov (i : Iss) (op : PmovOp)
  | pairedWord (x y : Half)
  -- control, rendezvous and system (R87)
  | bra (i : Iss) (c : COp)
  | call (i : Iss) (d : VReg) (c : COp)
  | ret (i : Iss) (a : VReg)
  | smeet (i : Iss) (target : Option COp)
  | exit (i : Iss)
  | yield (i : Iss)
  | nap (i : Iss) (c : COp)
  | bar (i : Iss)
  | cvset (i : Iss) (n : CvN) (c : COp)
  | cvleave (i : Iss) (n : CvN)
  | vote (i : Iss) (d : BitVec 8) (a : PReg) (neg : Bool) (mode : VoteMode)
  | shfl (i : Iss) (d a : VReg) (q : PReg) (c : COp) (mode : ShflMode) (w : BitVec 2)
  | redux (i : Iss) (d a : VReg) (op : ReduxOp) (pref : Bool)
  | match_ (i : Iss) (d a : VReg) (mode : MatchMode) (b64 : Bool)
  | islast (i : Iss) (d : PReg)
  | trap (i : Iss)
  | bkpt (i : Iss)
  | tret (i : Iss) (mode : TretMode) (b : VReg)
  | csrr (i : Iss) (d : VReg) (csr : BitVec 8)
  | csrw (i : Iss) (csr : BitVec 8) (a : VReg)
  | lnch (i : Iss) (p : PReg) (d a : VReg) (off : COp) (b : VReg)
  | succ (i : Iss)
  | pwait (i : Iss) (p : PReg)
  -- floating point and conversion (R88)
  | fadd (i : Iss) (d a : VReg) (c : COp) (m : FpMod)
  | fmul (i : Iss) (d a : VReg) (c : COp) (m : FpMod)
  | ffma (i : Iss) (d a b : VReg) (c : COp) (m : FpMod)
  | fmin (i : Iss) (d a : VReg) (c : COp) (m : FpMod)
  | fmax (i : Iss) (d a : VReg) (c : COp) (m : FpMod)
  | fcmp (i : Iss) (d : PReg) (a : VReg) (c : COp) (cond : FCond) (ftz : Bool)
  | fcls (i : Iss) (d a : VReg)
  | frnd (i : Iss) (d a : VReg) (m : FpMod)
  | frcp (i : Iss) (d a : VReg) (m : FpMod)
  | frsq (i : Iss) (d a : VReg) (m : FpMod)
  | fsqrt (i : Iss) (d a : VReg) (m : FpMod)
  | fdiv (i : Iss) (d a : VReg) (c : COp) (m : FpMod)
  | fex2 (i : Iss) (d a : VReg) (m : FpMod)
  | flg2 (i : Iss) (d a : VReg) (m : FpMod)
  | fgumb (i : Iss) (d a : VReg) (c : COp)
  | rngc (i : Iss) (d a : VReg) (c : COp)
  | f2i (i : Iss) (d a : VReg) (m : FpMod)
  | i2f (i : Iss) (d a : VReg) (rm : BitVec 2) (sgn : Bool)
  | fcvt (i : Iss) (d a : VReg) (dst src : CvtFmt) (rm : BitVec 2) (ftz na nsat : Bool)
  | hadd2 (i : Iss) (d a : VReg) (c : COp) (m : FpMod)
  | hmul2 (i : Iss) (d a : VReg) (c : COp) (m : FpMod)
  | hfma2 (i : Iss) (d a b : VReg) (c : COp) (m : FpMod)
  | hmnx2 (i : Iss) (d a : VReg) (c : COp) (m : FpMod)
  | pk8 (i : Iss) (d a : VReg) (c : COp) (hi e5m2 ftz : Bool) (rm : BitVec 2) (nsat : Bool)
  | upk8 (i : Iss) (d a : VReg) (n : BitVec 2) (e5m2 : Bool)
  | pk4 (i : Iss) (d a : VReg) (c : COp) (n : BitVec 2) (ftz : Bool) (rm : BitVec 2)
  | upk4 (i : Iss) (d a : VReg) (c : COp) (n : BitVec 3)
  | fscl (i : Iss) (d a : VReg) (c : COp) (m : FpMod)
  -- memory, atomic and fence (R89)
  | ld (i : Iss) (d a : VReg) (off : COp) (m : MemMod)
  | st (i : Iss) (d a : VReg) (off : COp) (m : MemMod)
  | ldc (i : Iss) (d a : VReg) (off : COp) (m : MemMod)
  | ldfe (i : Iss) (d a : VReg) (off : COp) (m : MemMod) (clear : Bool)
  | stfe (i : Iss) (d a : VReg) (off : COp) (m : MemMod)
  | atom (i : Iss) (d a : VReg) (off : COp) (b : VReg) (op : AtomOp) (sg : SGroup)
  | acas (i : Iss) (d a : VReg) (off : COp) (b : VReg) (b64 : Bool) (sg : SGroup)
  | afadd (i : Iss) (d a : VReg) (off : COp) (b : VReg) (sg : SGroup)
  | ab2add (i : Iss) (a : VReg) (off : COp) (b : VReg) (sg : SGroup)
  | avimx (i : Iss) (d a : VReg) (off : COp) (b : VReg) (red : Bool) (sg : SGroup)
  | red (i : Iss) (a : VReg) (off : COp) (b : VReg) (op : AtomOp) (sg : SGroup)
  | fence (i : Iss) (sc : FScope) (kind : FKind)
  | pref (i : Iss) (a : VReg) (off : COp) (m : MemMod)
  | cctl (i : Iss) (op : CctlOp) (a : VReg) (off : COp)
  | lsacq (i : Iss) (p : PReg) (d a b : VReg) (c : COp)
  | lsrel (i : Iss) (a : VReg)
  -- snapshots, allotment, tasks and cascades (R90)
  | snap (i : Iss) (p : PReg) (d : HReg) (e : VReg)
  | rstr (i : Iss) (a : HReg) (c : COp)
  | sprt (i : Iss) (p : PReg) (d : VReg) (a : HReg) (c : COp)
  | drop (i : Iss) (d : HReg)
  | hdup (i : Iss) (d a : HReg)
  | hspl (i : Iss) (d : VReg) (b : HReg) (a : VReg) (off : COp) (full : Bool)
  | hldm (i : Iss) (p : PReg) (d : HReg) (a : VReg) (off : COp)
  | hinf (i : Iss) (d : VReg) (a : HReg) (sel : HinfSel)
  | xacq (i : Iss) (p : PReg) (n : BitVec 2)
  | xrel (i : Iss) (n : BitVec 2)
  | spawn (i : Iss) (p : PReg) (a : VReg) (off : COp)
  | qenq (i : Iss) (p : PReg) (a : VReg) (off : COp) (b : VReg)
  | qdeq (i : Iss) (p : PReg) (d a : VReg) (off : COp)
  | csub (i : Iss) (p : PReg) (d a : VReg) (off : COp) (b : VReg)
  | esc (i : Iss) (p : PReg) (a : VReg)
  | cret (i : Iss) (a : VReg)
  -- matrix (R91)
  | slrsv (i : Iss) (p : PReg) (d : RecN) (a : VReg)
  | slrel (i : Iss) (d : RecN)
  | mma (i : Iss) (d : SlotN) (a : VReg) (b : RecN) (c : COp) (nb : BitVec 4) (pair : Bool)
  | mmag (i : Iss) (d : SlotN) (a : VReg) (b : RecN) (c : COp) (nb : BitVec 4)
  | mzero (i : Iss) (d : SlotN) (i40 : Bool)
  | mrd (i : Iss) (d : VReg) (a : SlotN) (kb : KReg) (c : COp) (fmt : MrdFmt) (e5m2 scl guid : Bool)
  | mwr (i : Iss) (d : SlotN) (a : VReg) (c : COp) (i32 : Bool)
  | mscl (i : Iss) (d : SlotN) (a : VReg)
  | mchk (i : Iss) (d : VReg) (a : SlotN) (clr : Bool)
  | slcb (i : Iss) (d : BitVec 2) (a : VReg) (off : COp)
  | mxcfg (i : Iss) (d : RecN) (c : COp) (tscale : Bool)
  -- engines and the generation loop (R92)
  | cpy (i : Iss) (d a b : VReg) (c : COp) (tk : BitVec 3)
  | cpyg (i : Iss) (d a b : VReg) (c : COp) (tk : BitVec 3)
  | cpys (i : Iss) (d a b : VReg) (c : COp) (tk : BitVec 3)
  | carm (i : Iss) (a : VReg) (off : COp) (b : VReg)
  | cwait (i : Iss) (d a : VReg) (off : COp) (b : VReg)
  | ctest (i : Iss) (p : PReg) (d a : VReg) (off : COp) (b : VReg)
  | mst (i : Iss) (d : VReg) (a : SlotN) (b : VReg) (c : COp) (fmt : MstFmt) (tk : BitVec 3)
  | coll (i : Iss) (d a b : VReg) (c : COp) (op : CollOp) (tk : BitVec 3)
  | phash (i : Iss) (d a b : VReg)
  | pgpin (i : Iss) (p : PReg) (a : VReg) (off : COp)
  | pgunpin (i : Iss) (p : PReg) (a : VReg) (off : COp)
  | slcommit (i : Iss) (p : PReg) (d a : VReg) (c : COp)
  | slqry (i : Iss) (d a b : VReg) (set : Bool) (field : SlotField)
  /-- A word that is not an instruction reaches issue (R99). -/
  | illop (w : Dword)
  -- events: threads, groups and teams
  | threadArrives (t g : Nat) (lanes : BitVec 32) (sc : Scope)
  | rdvtmo (t g : Nat) (cv : Option CvN)
  | passedOverBound (t g : Nat)
  | groupSwap (core sub : Nat)
  | starvedPromotion (t g : Nat)
  | loadLands (id lane : Nat)
  | napEnd (t g l : Nat)
  | ldfeWake (t g l : Nat)
  | cwaitWake (t g l : Nat)
  | pwaitRelease (t g : Nat)
  | xacqMap (t g : Nat)
  | kilnfull (t g : Nat)
  | wdog (t g l : Nat)
  | remtmo (t g l : Nat)
  | trapEntry (t g : Nat)
  | teamEnd (t : Nat)
  | swapOut (t : Nat)
  | accessConfirmed (id : Nat)
  | runAhead (id : Nat)
  -- events: matrix unit, engines, collectives
  | matrixUnitPerform (core : Nat)
  | pairedStart (core : Nat)
  | pairedMmaTimeout (core : Nat)
  | arrive (id : Nat)
  | fail (id : Nat) (code : BitVec 7)
  | efault (id : Nat)
  | flit (id node : Nat) (chunk : Nat) (hops : Nat) (data : List Byte) (sum : Word)
  | collComplete (id : Nat)
  | collTimeout (id : Nat)
  | failureNotice (id : Nat)
  | partialGroup (pk : Nat)
  | leaseExpiry (p e : Nat)
  | roundCommit (p : Nat)
  -- events: launch engine and placement
  | dequeue (p : Nat)
  | semaphorePoll (p q : Nat)
  | admit_ (p : Nat) (lnum : Word)
  | place (p : Nat)
  | urgent (p : Nat) (lnum : Word)
  | launchEnd (p : Nat) (lnum : Word)
  -- events: host commands and memory service
  | qtail (p q : Nat) (v : Word)
  | preempt (p : Nat)
  | resume (p : Nat)
  | resumePlacement (p : Nat)
  | end_ (p : Nat)
  | fqhead (p : Nat) (v : Word)
  | eactRetry (p page : Nat)
  | eactUnresolvable (p page : Nat)
  | mqtail (p : Nat) (v : Word)
  | migrate (p : Nat)
  | migdone (p : Nat)
  | migabort (p : Nat) (line : Option Nat)
  | all (p : Nat)
  | page (p page : Nat)
  | translationDropDone (p : Nat)
  | evict (p h : Nat)
  | demote (p h : Nat)
  | slotWrite (p off width : Nat) (v : Dword)
  | registerWrite (fn off : Nat) (v : RegVal)
  | inboundPostedWrite (port req p off : Nat) (bytes : List Byte) (ep : Bool)
  | inboundRead (port req : Nat) (bar : PciBar) (off len : Nat)
  | inboundAtomicop (port req p off : Nat) (wide : Bool) (kind : AOpKind) (a b : Dword)
  | outboundCompletion (id : Nat) (r : OutResult)
  | completionTimeout (id : Nat)
  -- events: links, partitions and module
  | linkState (port : Nat) (st : LinkSt)
  | recoveryLimit (port : Nat)
  | cxlPortDown (port : Nat)
  | hold (v : BitVec 8)
  | inrstClear (p : Nat)
  | getlimits
  | gettelem
  | setcap
  | setwarn
  | getageing
  | replan (core : Nat)
  | replanEnd (core : Nat)
  | thermalTrip
  | freeze
  | frz
  | readOut (net : Nat)
  | moduleReset
  | bringupStage (ok : Bool)
  | reachesHome (id : Nat)
  | wctPassed (t g l : Nat)
  | matrixInstructionFinish (core : Nat)
  | fetchFault (t g : Nat) (lanes : BitVec 32)
  | pgpinAnswer (t g l : Nat)
  | powerToken (die cluster : Nat)
  | firmwareThrottle (die mv share rate : Nat)
  | fusedCeiling (die : Nat)
  | slackMeasurement (core : Nat) (ps : Word)
  | mainRailLoss
  | moduleResetAssert
  | pcieLinkState (port : Nat) (st : LinkSt)
  | busMasterEnable (p port : Nat) (en : Bool)
  | vectorUnmask (p v : Nat)
  | diepart (reg : Nat) (v : Dword)
  | unknownCommand
  deriving DecidableEq, Repr

end Sys2Proof
end

