-- ==== Sys2Proof/WellFormed.lean ====
section
/-! DEFINITION. Which terms of `Instr` are instruction words: the conditions of R84 that are not already in the types
of the fields, each with the rule of R98 that a term breaking it fails. -/

namespace Sys2Proof

/-- The rules of R98 by which a word is not an instruction. -/
inductive Reject where
  /-- The opcode is unassigned (R94). -/
  | unassigned
  /-- The opcode does not permit the scope (R86 to R92). -/
  | scope
  /-- G scope with bits 44:41 nonzero (R69). -/
  | sel
  /-- A nonzero bit in an unused field, or a field out of its kind's range (R72). -/
  | field
  /-- A CK value that the instruction does not accept (R73). -/
  | kind
  /-- A reserved MOD bit or value, or reserved B bits in a memory instruction (R75, R76). -/
  | modifier
  /-- A pair, quad or block register out of alignment or bound (R77). -/
  | pair
  /-- A paired word with SC other than 00, or with bit 0 set (R79). -/
  | pairForm
  /-- An unassigned half opcode (R96). -/
  | half
  /-- A NOP half with a nonzero D, A, AK or HMOD (R80). -/
  | nopHalf
  /-- A bank or same-destination rule broken (R81). -/
  | bank
  /-- A reserved HMOD bit or value (R82). -/
  | hmod
  /-- The term is an event, or a word already known not to be an instruction: it has no encoding. -/
  | notWord
  deriving DecidableEq, Repr

/-- `x` is a multiple of `n` (R77). -/
def multiple (n : Nat) (x : BitVec 8) : Bool := x.toNat % n == 0

/-- The bits of `x` from bit `n` up are zero (R72). -/
def small (n : Nat) (x : BitVec 8) : Bool := x.toNat < 2 ^ n

/-- The first rule of a list that fails. -/
def rules : List (Bool × Reject) → Option Reject
  | [] => none
  | (ok, why) :: rest => if ok then rules rest else some why

/-- The scope is one of those the opcode permits: L, G, S, T. -/
def Scope.within (l g s t : Bool) : Scope → Bool
  | .lane .. => l
  | .group => g
  | .set _ => s
  | .team _ => t

/-- The kind of C is accepted: v register, imm8, k register, special register (R73). -/
def COp.among (v i k s : Bool) : COp → Bool
  | .v _ => v
  | .imm _ => i
  | .k _ => k
  | .s _ => s

/-- C read as a v pair is even (R77). -/
def COp.pairV : COp → Bool
  | .v n => multiple 2 n
  | _ => true

/-- C read as a k pair is even (R138). -/
def COp.pairK : COp → Bool
  | .k n => !n.getLsbD 0
  | _ => true

/-- The VOTE modes whose destination is a predicate (R141). -/
def VoteMode.toPred : VoteMode → Bool
  | .every | .some | .same => true
  | .lanes | .count | .first | .rank => false

/-- Bytes of a memory size (R169). -/
def MSize.bytes : MSize → Nat
  | .b8 | .s8 => 1
  | .b16 | .s16 => 2
  | .b32 => 4
  | .b64 => 8
  | .b128 => 16

/-- Registers of a memory size (R169). -/
def MSize.regs : MSize → Nat
  | .b64 => 2
  | .b128 => 4
  | _ => 1

/-- The sizes that sign-extend (R169). -/
def MSize.signed : MSize → Bool
  | .s8 | .s16 => true
  | _ => false

/-- The register operand of a memory size is aligned (R77, R169). -/
def MSize.regOk (z : MSize) (d : VReg) : Bool := multiple z.regs d

/-- The spaces addressed by a pair: global and Cistern (R167). -/
def Space.wide : Space → Bool
  | .global | .cistern => true
  | .basin | .slip => false

/-- A nonzero swizzle needs Basin (R170). -/
def MemMod.swzOk (m : MemMod) : Bool := m.swz == 0#3 || m.space == .basin

/-- The base register of the space is aligned (R167). -/
def MemMod.baseOk (m : MemMod) (a : VReg) : Bool := !m.space.wide || multiple 2 a

/-- The 64-bit variants of ATOM and RED (R179). -/
def AtomOp.wide : AtomOp → Bool
  | .add64 | .exch64 | .or64 | .and64 => true
  | _ => false

/-- The variants ATOM accepts (R179). -/
def AtomOp.inAtom : AtomOp → Bool
  | .fadd => false
  | _ => true

/-- The variants RED accepts (R179). -/
def AtomOp.inRed : AtomOp → Bool
  | .exch | .exch64 => false
  | _ => true

/-- The CCTL operations that take an address (R188). -/
def CctlOp.byLine : CctlOp → Bool
  | .inv | .iinv => true
  | .invall | .iinvall => false

/-- The classes of half operation (R82). -/
inductive HClass where
  | nop | int | fp | cmp
  deriving DecidableEq, Repr

/-- The class of a half operation (R82). -/
def HOp.cls : HOp → HClass
  | .nop => .nop
  | .icmp => .cmp
  | .fadd | .fmul | .fmin | .fmax | .hadd2 | .hmul2 | .f2i => .fp
  | _ => .int

/-- The half writes a v register (R80). -/
def HOp.writesV : HOp → Bool
  | .nop | .icmp => false
  | _ => true

/-- The rules on one half: R80 for NOP, R82 for HMOD, R81 for the D field of ICMP. -/
def halfCheck (h : Half) : Option Reject :=
  match h.hop.cls with
  | .nop => rules [(h.d == 0#8 && h.a == 0#8 && !h.ak && h.hmod == 0#3, .nopHalf)]
  | .int => rules [(h.hmod.ult 2#3, .hmod)]
  | .fp => none
  | .cmp => rules [(h.hmod.ult 6#3, .hmod), (small 3 h.d, .bank)]

/-- The rules on a paired word (R81). The bank of a register is its number mod 4. -/
def pairCheck (x y : Half) : Option Reject :=
  match halfCheck x with
  | some why => some why
  | none =>
    match halfCheck y with
    | some why => some why
    | none =>
      rules [(!(x.hop.writesV && y.hop.writesV) || x.d.toNat % 4 != y.d.toNat % 4, .bank),
        (x.hop == .nop || y.hop == .nop || x.ak || y.ak || x.a.toNat % 4 != y.a.toNat % 4, .bank),
        (!(x.hop == .icmp && y.hop == .icmp) || x.d != y.d || x.d == 7#8, .bank)]

/-- Scope, wait mask and bit 2 of a full-form instruction. -/
def Instr.iss : Instr → Option Iss
  | .nop i .. | .mov i .. | .movs i .. | .kset i .. | .iadd i .. | .isub i .. | .imul i .. | .imulh i ..
  | .imad i .. | .imadw i .. | .iaddw i .. | .idiv i .. | .irem i .. | .imin i .. | .imax i .. | .iabs i ..
  | .and i .. | .or i .. | .xor i .. | .andn i .. | .shl i .. | .shr i .. | .sar i .. | .rot i .. | .shf i ..
  | .popc i .. | .clz i .. | .brev i .. | .bfx i .. | .bfi i .. | .prmt i .. | .lea i .. | .isel i ..
  | .icmp i .. | .plop i .. | .pmov i .. | .bra i .. | .call i .. | .ret i .. | .smeet i .. | .exit i ..
  | .yield i .. | .nap i .. | .bar i .. | .cvset i .. | .cvleave i .. | .vote i .. | .shfl i .. | .redux i ..
  | .match_ i .. | .trap i .. | .bkpt i .. | .tret i .. | .csrr i .. | .csrw i .. | .islast i .. | .lnch i ..
  | .succ i .. | .pwait i .. | .fadd i .. | .fmul i .. | .ffma i .. | .fmin i .. | .fmax i .. | .fcmp i ..
  | .fcls i .. | .frnd i .. | .frcp i .. | .frsq i .. | .fsqrt i .. | .fdiv i .. | .fex2 i .. | .flg2 i ..
  | .fgumb i .. | .rngc i .. | .f2i i .. | .i2f i .. | .fcvt i .. | .hadd2 i .. | .hmul2 i .. | .hfma2 i ..
  | .hmnx2 i .. | .pk8 i .. | .upk8 i .. | .pk4 i .. | .upk4 i .. | .fscl i .. | .ld i .. | .st i .. | .ldc i ..
  | .ldfe i .. | .stfe i .. | .atom i .. | .acas i .. | .afadd i .. | .ab2add i .. | .avimx i .. | .red i ..
  | .fence i .. | .pref i .. | .cctl i .. | .lsacq i .. | .lsrel i .. | .snap i .. | .rstr i .. | .sprt i ..
  | .drop i .. | .hdup i .. | .hspl i .. | .hldm i .. | .hinf i .. | .xacq i .. | .xrel i .. | .spawn i ..
  | .qenq i .. | .qdeq i .. | .csub i .. | .esc i .. | .cret i .. | .slrsv i .. | .slrel i .. | .mma i ..
  | .mmag i .. | .mzero i .. | .mrd i .. | .mwr i .. | .mscl i .. | .mchk i .. | .slcb i .. | .mxcfg i ..
  | .cpy i .. | .cpyg i .. | .cpys i .. | .carm i .. | .cwait i .. | .ctest i .. | .mst i .. | .coll i ..
  | .phash i .. | .pgpin i .. | .pgunpin i .. | .slcommit i .. | .slqry i .. => some i
  | .pairedWord .. => none
  | .illop .. | .threadArrives .. | .rdvtmo .. | .passedOverBound .. | .groupSwap .. | .starvedPromotion ..
  | .loadLands .. | .napEnd .. | .ldfeWake .. | .cwaitWake .. | .pwaitRelease .. | .xacqMap .. | .kilnfull ..
  | .wdog .. | .remtmo .. | .trapEntry .. | .teamEnd .. | .swapOut .. | .accessConfirmed .. | .runAhead ..
  | .matrixUnitPerform .. | .pairedStart .. | .pairedMmaTimeout .. | .arrive .. | .fail .. | .efault ..
  | .flit .. | .collComplete .. | .collTimeout .. | .failureNotice .. | .partialGroup .. | .leaseExpiry ..
  | .roundCommit .. | .dequeue .. | .semaphorePoll .. | .admit_ .. | .place .. | .urgent .. | .launchEnd ..
  | .qtail .. | .preempt .. | .resume .. | .resumePlacement .. | .end_ .. | .fqhead .. | .eactRetry ..
  | .eactUnresolvable .. | .mqtail .. | .migrate .. | .migdone .. | .migabort .. | .all .. | .page ..
  | .translationDropDone .. | .evict .. | .demote .. | .slotWrite .. | .registerWrite .. | .inboundPostedWrite ..
  | .inboundRead .. | .inboundAtomicop .. | .outboundCompletion .. | .completionTimeout .. | .linkState ..
  | .recoveryLimit .. | .cxlPortDown .. | .hold .. | .inrstClear .. | .getlimits .. | .gettelem .. | .setcap ..
  | .setwarn .. | .getageing .. | .replan .. | .replanEnd .. | .thermalTrip .. | .freeze .. | .frz ..
  | .readOut .. | .moduleReset .. | .bringupStage .. | .reachesHome .. | .wctPassed ..
  | .matrixInstructionFinish .. | .fetchFault .. | .pgpinAnswer .. | .powerToken .. | .firmwareThrottle ..
  | .fusedCeiling .. | .slackMeasurement .. | .mainRailLoss .. | .moduleResetAssert .. | .pcieLinkState ..
  | .busMasterEnable .. | .vectorUnmask .. | .diepart .. | .unknownCommand .. => none

/-- The first rule of R98 that the term breaks; `none` when the term is an instruction word (R84). -/
def Instr.check : Instr → Option Reject
  | .nop i =>
    rules [(i.scope.within true false false false, .scope), (!i.ru, .field)]
  | .mov i _ _ =>
    rules [(i.scope.within true true false false, .scope)]
  | .movs i _ n clr =>
    rules [(i.scope.within true true false false, .scope), (!clr || n = 18#8, .modifier)]
  | .kset i _ c =>
    rules [(i.scope.within false false false true, .scope), (c.among true true true false, .kind)]
  | .iadd i _ _ _ _ _ =>
    rules [(i.scope.within true true false false, .scope)]
  | .isub i _ _ _ _ _ =>
    rules [(i.scope.within true true false false, .scope)]
  | .imul i _ _ _ _ _ =>
    rules [(i.scope.within true true false false, .scope)]
  | .imulh i _ _ _ _ =>
    rules [(i.scope.within true true false false, .scope)]
  | .imad i _ _ _ _ _ _ =>
    rules [(i.scope.within true true false false, .scope)]
  | .imadw i d _ _ c _ =>
    rules [(i.scope.within true true false false, .scope), (multiple 2 d, .pair), (multiple 2 c, .pair)]
  | .iaddw i d a c _ _ =>
    rules [(i.scope.within true true false false, .scope), (multiple 2 d, .pair), (multiple 2 a, .pair),
      (c.pairV, .pair)]
  | .idiv i _ _ _ _ =>
    rules [(i.scope.within true true false false, .scope)]
  | .irem i _ _ _ _ =>
    rules [(i.scope.within true true false false, .scope)]
  | .imin i _ _ _ _ =>
    rules [(i.scope.within true true false false, .scope)]
  | .imax i _ _ _ _ =>
    rules [(i.scope.within true true false false, .scope)]
  | .iabs i _ _ _ =>
    rules [(i.scope.within true true false false, .scope)]
  | .and i _ _ _ =>
    rules [(i.scope.within true true false false, .scope)]
  | .or i _ _ _ =>
    rules [(i.scope.within true true false false, .scope)]
  | .xor i _ _ _ =>
    rules [(i.scope.within true true false false, .scope)]
  | .andn i _ _ _ =>
    rules [(i.scope.within true true false false, .scope)]
  | .shl i _ _ _ =>
    rules [(i.scope.within true true false false, .scope)]
  | .shr i _ _ _ =>
    rules [(i.scope.within true true false false, .scope)]
  | .sar i _ _ _ =>
    rules [(i.scope.within true true false false, .scope)]
  | .rot i _ _ _ =>
    rules [(i.scope.within true true false false, .scope)]
  | .shf i _ _ _ _ =>
    rules [(i.scope.within true true false false, .scope)]
  | .popc i _ _ =>
    rules [(i.scope.within true true false false, .scope)]
  | .clz i _ _ =>
    rules [(i.scope.within true true false false, .scope)]
  | .brev i _ _ =>
    rules [(i.scope.within true true false false, .scope)]
  | .bfx i _ _ c _ =>
    rules [(i.scope.within true true false false, .scope), (c.among true false true true, .kind)]
  | .bfi i _ _ _ c =>
    rules [(i.scope.within true true false false, .scope), (c.among true false true true, .kind)]
  | .prmt i _ _ _ _ =>
    rules [(i.scope.within true true false false, .scope)]
  | .lea i _ _ _ _ =>
    rules [(i.scope.within true true false false, .scope)]
  | .isel i _ _ _ _ _ =>
    rules [(i.scope.within true true false false, .scope)]
  | .icmp i _ _ _ _ _ =>
    rules [(i.scope.within true true false false, .scope)]
  | .plop i _ _ _ _ _ =>
    rules [(i.scope.within true true false false, .scope)]
  | .pmov i _ =>
    rules [(i.scope.within true true false false, .scope)]
  | .bra i c =>
    rules [(i.scope.within true false false false, .scope), (c.among true true true false, .kind)]
  | .call i _ c =>
    rules [(i.scope.within true false false false, .scope), (c.among true true true false, .kind)]
  | .ret i _ =>
    rules [(i.scope.within true false false false, .scope)]
  | .smeet i t =>
    rules [(i.scope.within true false false false, .scope), (t.all fun c => c.among true true true false, .kind)]
  | .exit i =>
    rules [(i.scope.within true true false false, .scope)]
  | .yield i =>
    rules [(i.scope.within true true false false, .scope)]
  | .nap i c =>
    rules [(i.scope.within true true false false, .scope), (c.among true true true false, .kind)]
  | .bar i =>
    rules [(i.scope.within false true true true, .scope)]
  | .cvset i _ c =>
    rules [(i.scope.within false false false true, .scope), (c.among true true true false, .kind),
      (c.pairV && c.pairK, .pair)]
  | .cvleave i _ =>
    rules [(i.scope.within false true false false, .scope)]
  | .vote i d _ _ mode =>
    rules [(i.scope.within false true true true, .scope), (!mode.toPred || small 3 d, .field)]
  | .shfl i _ _ _ c _ _ =>
    rules [(i.scope.within false true false false, .scope), (c.among true true true false, .kind)]
  | .redux i _ _ _ _ =>
    rules [(i.scope.within false true true true, .scope)]
  | .match_ i _ a _ b64 =>
    rules [(i.scope.within false true false false, .scope), (!b64 || multiple 2 a, .pair)]
  | .trap i =>
    rules [(i.scope.within true false false false, .scope)]
  | .bkpt i =>
    rules [(i.scope.within true false false false, .scope)]
  | .tret i mode b =>
    rules [(i.scope.within false true false false, .scope), (mode = .subst || b = 0#8, .field)]
  | .csrr i _ _ =>
    rules [(i.scope.within true true false false, .scope)]
  | .csrw i _ _ =>
    rules [(i.scope.within false false false true, .scope)]
  | .islast i _ =>
    rules [(i.scope.within false false true true, .scope)]
  | .lnch i _ _ a off _ =>
    rules [(i.scope.within true true false false, .scope), (off.among true true true false, .kind),
      (multiple 2 a, .pair)]
  | .succ i =>
    rules [(i.scope.within false false false true, .scope)]
  | .pwait i _ =>
    rules [(i.scope.within false true false true, .scope)]
  | .fadd i _ _ _ _ =>
    rules [(i.scope.within true true false false, .scope)]
  | .fmul i _ _ _ _ =>
    rules [(i.scope.within true true false false, .scope)]
  | .ffma i _ _ _ _ _ =>
    rules [(i.scope.within true true false false, .scope)]
  | .fmin i _ _ _ m =>
    rules [(i.scope.within true true false false, .scope), (m.rm = 0#2, .modifier)]
  | .fmax i _ _ _ m =>
    rules [(i.scope.within true true false false, .scope), (m.rm = 0#2, .modifier)]
  | .fcmp i _ _ _ _ _ =>
    rules [(i.scope.within true true false false, .scope)]
  | .fcls i _ _ =>
    rules [(i.scope.within true true false false, .scope)]
  | .frnd i _ _ m =>
    rules [(i.scope.within true true false false, .scope), (!m.nc, .modifier)]
  | .frcp i _ _ m =>
    rules [(i.scope.within true true false false, .scope), (!m.nc, .modifier)]
  | .frsq i _ _ m =>
    rules [(i.scope.within true true false false, .scope), (!m.nc, .modifier)]
  | .fsqrt i _ _ m =>
    rules [(i.scope.within true true false false, .scope), (!m.nc, .modifier)]
  | .fdiv i _ _ _ _ =>
    rules [(i.scope.within true true false false, .scope)]
  | .fex2 i _ _ m =>
    rules [(i.scope.within true true false false, .scope), (!m.nc, .modifier)]
  | .flg2 i _ _ m =>
    rules [(i.scope.within true true false false, .scope), (!m.nc, .modifier)]
  | .fgumb i _ _ c =>
    rules [(i.scope.within true true false false, .scope), (c.among true true true false, .kind)]
  | .rngc i _ _ c =>
    rules [(i.scope.within true true false false, .scope), (c.among true true true false, .kind)]
  | .f2i i _ _ _ =>
    rules [(i.scope.within true true false false, .scope)]
  | .i2f i _ _ _ _ =>
    rules [(i.scope.within true true false false, .scope)]
  | .fcvt i _ _ dst _ _ _ _ nsat =>
    rules [(i.scope.within true true false false, .scope), (!nsat || dst = .e4m3 || dst = .e5m2, .modifier)]
  | .hadd2 i _ _ _ _ =>
    rules [(i.scope.within true true false false, .scope)]
  | .hmul2 i _ _ _ _ =>
    rules [(i.scope.within true true false false, .scope)]
  | .hfma2 i _ _ _ _ _ =>
    rules [(i.scope.within true true false false, .scope)]
  | .hmnx2 i _ _ _ m =>
    rules [(i.scope.within true true false false, .scope), (!m.rm.getLsbD 1, .modifier)]
  | .pk8 i _ _ _ _ _ _ _ _ =>
    rules [(i.scope.within true true false false, .scope)]
  | .upk8 i _ _ _ _ =>
    rules [(i.scope.within true true false false, .scope)]
  | .pk4 i _ _ _ _ _ _ =>
    rules [(i.scope.within true true false false, .scope)]
  | .upk4 i _ _ c _ =>
    rules [(i.scope.within true true false false, .scope), (c.among true true true false, .kind)]
  | .fscl i _ _ _ _ =>
    rules [(i.scope.within true true false false, .scope)]
  | .ld i d a off m =>
    rules [(i.scope.within true true false false, .scope), (off.among true true true false, .kind),
      (m.swzOk, .modifier), (m.baseOk a, .pair), (m.size.regOk d, .pair)]
  | .st i d a off m =>
    rules [(i.scope.within true true false false, .scope), (off.among true true true false, .kind),
      (m.swzOk, .modifier), (m.baseOk a, .pair), (m.size.regOk d, .pair), (!m.size.signed, .modifier)]
  | .ldc i d a off m =>
    rules [(i.scope.within true true false false, .scope), (off.among true true true false, .kind),
      (m.swzOk, .modifier), (m.baseOk a, .pair), (m.size.regOk d, .pair), (m.space.wide, .modifier)]
  | .ldfe i d a off m _ =>
    rules [(i.scope.within true true false false, .scope), (off.among true true true false, .kind), (m.swzOk, .modifier), (m.baseOk a, .pair),
      (m.size.regOk d, .pair), (m.space = .basin, .modifier)]
  | .stfe i d a off m =>
    rules [(i.scope.within true true false false, .scope), (off.among true true true false, .kind),
      (m.swzOk, .modifier), (m.baseOk a, .pair), (m.size.regOk d, .pair), (!m.size.signed, .modifier),
      (m.space = .basin, .modifier)]
  | .atom i d a off b op _ =>
    rules [(i.scope.within true true false false, .scope), (off.among true true true false, .kind),
      (multiple 2 a, .pair), (op.inAtom, .modifier), (!op.wide || (multiple 2 d && multiple 2 b), .pair)]
  | .acas i d a off b b64 _ =>
    rules [(i.scope.within true true false false, .scope), (off.among true true true false, .kind),
      (multiple 2 a, .pair), (if b64 then multiple 2 d && multiple 4 b else multiple 2 b, .pair)]
  | .afadd i _ a off _ _ =>
    rules [(i.scope.within true true false false, .scope), (off.among true true true false, .kind),
      (multiple 2 a, .pair)]
  | .ab2add i a off _ _ =>
    rules [(i.scope.within true true false false, .scope), (off.among true true true false, .kind),
      (multiple 2 a, .pair)]
  | .avimx i d a off b noRet _ =>
    rules [(i.scope.within true true false false, .scope), (off.among true true true false, .kind),
      (multiple 2 a, .pair), (multiple 2 b, .pair),
      (if noRet then d = 0#8 else multiple 2 d, if noRet then .field else .pair)]
  | .red i a off b op _ =>
    rules [(i.scope.within true true false false, .scope), (off.among true true true false, .kind),
      (multiple 2 a, .pair), (op.inRed, .modifier), (!op.wide || multiple 2 b, .pair)]
  | .fence i _ _ =>
    rules [(i.scope.within true true false false, .scope)]
  | .pref i a off m =>
    rules [(i.scope.within true true false false, .scope), (off.among true true true false, .kind), (m.swzOk, .modifier), (m.baseOk a, .pair),
      (m.space.wide, .modifier)]
  | .cctl i op a off =>
    rules [(i.scope.within true true false true, .scope), (off.among true true true false, .kind),
      (op.byLine || i.scope.within false false false true, .scope), (op.byLine || (a = 0#8 && off = .v 0#8), .field),
      (op != .inv || multiple 2 a, .pair)]
  | .lsacq i _ _ a _ c =>
    rules [(i.scope.within false false false true, .scope), (c.among true false true false, .kind),
      (multiple 2 a, .pair)]
  | .lsrel i _ =>
    rules [(i.scope.within false false false true, .scope)]
  | .snap i _ _ _ =>
    rules [(i.scope.within true false false false, .scope)]
  | .rstr i _ c =>
    rules [(i.scope.within true false false false, .scope), (c.among true true true false, .kind)]
  | .sprt i _ _ _ c =>
    rules [(i.scope.within true false false false, .scope), (c.among true true true false, .kind)]
  | .drop i _ =>
    rules [(i.scope.within true false false false, .scope)]
  | .hdup i _ _ =>
    rules [(i.scope.within true false false false, .scope)]
  | .hspl i _ _ a off _ =>
    rules [(i.scope.within true false false false, .scope), (off.among true true true false, .kind),
      (multiple 2 a, .pair)]
  | .hldm i _ _ a off =>
    rules [(i.scope.within true false false false, .scope), (off.among true true true false, .kind),
      (multiple 2 a, .pair)]
  | .hinf i _ _ _ =>
    rules [(i.scope.within true false false false, .scope)]
  | .xacq i _ n =>
    rules [(i.scope.within false true false false, .scope), (n != 0#2, .field)]
  | .xrel i n =>
    rules [(i.scope.within false true false false, .scope), (n != 0#2, .field)]
  | .spawn i _ a off =>
    rules [(i.scope.within true true false false, .scope), (off.among true true true false, .kind),
      (multiple 2 a, .pair)]
  | .qenq i _ a off b =>
    rules [(i.scope.within true true false false, .scope), (off.among true true true false, .kind),
      (multiple 2 a, .pair), (multiple 4 b, .pair)]
  | .qdeq i _ d a off =>
    rules [(i.scope.within true true false false, .scope), (off.among true true true false, .kind),
      (multiple 2 a, .pair), (multiple 4 d, .pair)]
  | .csub i _ _ a off _ =>
    rules [(i.scope.within true true false false, .scope), (off.among true true true false, .kind),
      (multiple 2 a, .pair)]
  | .esc i _ _ =>
    rules [(i.scope.within true false false false, .scope)]
  | .cret i _ =>
    rules [(i.scope.within true false false false, .scope)]
  | .slrsv i _ _ a =>
    rules [(i.scope.within false false false true, .scope), (multiple 8 a, .pair)]
  | .slrel i _ =>
    rules [(i.scope.within false false false true, .scope)]
  | .mma i _ a _ c nb _ =>
    rules [(i.scope.within false false true true, .scope), (c.among true true true false, .kind),
      (multiple 8 a, .pair), (nb.ult 12#4, .modifier)]
  | .mmag i d a _ c nb =>
    rules [(i.scope.within false false true true, .scope), (c.among true true true false, .kind),
      (multiple 8 a, .pair), (nb.ult 12#4, .modifier), (!d.getLsbD 0, .field)]
  | .mzero i _ _ =>
    rules [(i.scope.within false false true true, .scope)]
  | .mrd i d a kb c fmt e5m2 scl guid =>
    rules [(i.scope.within false false true true, .scope), (c.among true true true false, .kind),
      (multiple 8 d, .pair), (!e5m2 || fmt = .fp8, .modifier), (scl || kb = 0#6, .field),
      (!guid || !a.getLsbD 0, .field)]
  | .mwr i _ a c _ =>
    rules [(i.scope.within false false true true, .scope), (c.among true true true false, .kind),
      (multiple 8 a, .pair)]
  | .mscl i _ _ =>
    rules [(i.scope.within false false true true, .scope)]
  | .mchk i _ _ _ =>
    rules [(i.scope.within false false true true, .scope)]
  | .slcb i _ a off =>
    rules [(i.scope.within false false false true, .scope), (off.among true true true false, .kind),
      (multiple 2 a, .pair)]
  | .mxcfg i _ c _ =>
    rules [(i.scope.within false false false true, .scope), (c.among true true true false, .kind)]
  | .cpy i d a b c _ =>
    rules [(i.scope.within false false false true, .scope), (c.among true true true false, .kind),
      (multiple 2 d, .pair), (multiple 2 a, .pair), (multiple 2 b, .pair)]
  | .cpyg i d a b c _ =>
    rules [(i.scope.within false false false true, .scope), (c.among true true true false, .kind),
      (multiple 2 d, .pair), (multiple 2 a, .pair), (multiple 4 b, .pair)]
  | .cpys i d a b c _ =>
    rules [(i.scope.within false false false true, .scope), (c.among true true true false, .kind),
      (multiple 2 d, .pair), (multiple 2 a, .pair), (multiple 4 b, .pair)]
  | .carm i _ off _ =>
    rules [(i.scope.within true true false true, .scope), (off.among true true true false, .kind)]
  | .cwait i _ _ off _ =>
    rules [(i.scope.within true true true true, .scope), (off.among true true true false, .kind)]
  | .ctest i _ _ _ off _ =>
    rules [(i.scope.within true true false false, .scope), (off.among true true true false, .kind)]
  | .mst i d _ b c _ _ =>
    rules [(i.scope.within false false true true, .scope), (c.among true true true false, .kind),
      (multiple 2 d, .pair), (multiple 2 b, .pair)]
  | .coll i d a b c _ _ =>
    rules [(i.scope.within false false false true, .scope), (c.among true true true false, .kind),
      (multiple 2 d, .pair), (multiple 2 a, .pair), (multiple 4 b, .pair)]
  | .phash i _ _ b =>
    rules [(i.scope.within true true false false, .scope), (multiple 8 b, .pair), (b.ule 240#8, .pair)]
  | .pgpin i _ a off =>
    rules [(i.scope.within true true false false, .scope), (off.among true true true false, .kind),
      (multiple 2 a, .pair)]
  | .pgunpin i _ a off =>
    rules [(i.scope.within true true false false, .scope), (off.among true true true false, .kind),
      (multiple 2 a, .pair)]
  | .slcommit i _ _ _ c =>
    rules [(i.scope.within true false false false, .scope), (c.among true true true false, .kind)]
  | .slqry i _ _ b set _ =>
    rules [(i.scope.within true false false false, .scope), (set || b = 0#8, .field)]
  | .pairedWord x y => pairCheck x y
  | .illop .. | .threadArrives .. | .rdvtmo .. | .passedOverBound .. | .groupSwap .. | .starvedPromotion ..
  | .loadLands .. | .napEnd .. | .ldfeWake .. | .cwaitWake .. | .pwaitRelease .. | .xacqMap .. | .kilnfull ..
  | .wdog .. | .remtmo .. | .trapEntry .. | .teamEnd .. | .swapOut .. | .accessConfirmed .. | .runAhead ..
  | .matrixUnitPerform .. | .pairedStart .. | .pairedMmaTimeout .. | .arrive .. | .fail .. | .efault ..
  | .flit .. | .collComplete .. | .collTimeout .. | .failureNotice .. | .partialGroup .. | .leaseExpiry ..
  | .roundCommit .. | .dequeue .. | .semaphorePoll .. | .admit_ .. | .place .. | .urgent .. | .launchEnd ..
  | .qtail .. | .preempt .. | .resume .. | .resumePlacement .. | .end_ .. | .fqhead .. | .eactRetry ..
  | .eactUnresolvable .. | .mqtail .. | .migrate .. | .migdone .. | .migabort .. | .all .. | .page ..
  | .translationDropDone .. | .evict .. | .demote .. | .slotWrite .. | .registerWrite .. | .inboundPostedWrite ..
  | .inboundRead .. | .inboundAtomicop .. | .outboundCompletion .. | .completionTimeout .. | .linkState ..
  | .recoveryLimit .. | .cxlPortDown .. | .hold .. | .inrstClear .. | .getlimits .. | .gettelem .. | .setcap ..
  | .setwarn .. | .getageing .. | .replan .. | .replanEnd .. | .thermalTrip .. | .freeze .. | .frz ..
  | .readOut .. | .moduleReset .. | .bringupStage .. | .reachesHome .. | .wctPassed ..
  | .matrixInstructionFinish .. | .fetchFault .. | .pgpinAnswer .. | .powerToken .. | .firmwareThrottle ..
  | .fusedCeiling .. | .slackMeasurement .. | .mainRailLoss .. | .moduleResetAssert .. | .pcieLinkState ..
  | .busMasterEnable .. | .vectorUnmask .. | .diepart .. | .unknownCommand .. => some .notWord

/-- The term is an instruction word. -/
def Instr.WellFormed (i : Instr) : Bool := i.check.isNone

end Sys2Proof
end

