-- ==== Sys2Proof/Decode.lean ====
section
/-! DEFINITION. From bits to instructions and back, from the encoding tables of the spec: the fields of both forms (R68,
R79), the decoder (R97), and the encoder. A word that is not an instruction is rejected with the rule it breaks (R98). -/

namespace Sys2Proof

/-- The fields of a full-form word (R68). -/
structure Raw where
  sc : BitVec 2
  opc : BitVec 8
  wt : BitVec 8
  sel : BitVec 4
  d : BitVec 8
  a : BitVec 8
  b : BitVec 8
  c : BitVec 8
  m : BitVec 6
  ru : BitVec 1
  ck : BitVec 2
  deriving DecidableEq, Repr

/-- The fields of a word with H = 0 (R68). -/
def Raw.unpack (w : Dword) : Raw :=
  { sc := w.extractLsb' 62 2, opc := w.extractLsb' 53 8, wt := w.extractLsb' 45 8, sel := w.extractLsb' 41 4,
    d := w.extractLsb' 33 8, a := w.extractLsb' 25 8, b := w.extractLsb' 17 8, c := w.extractLsb' 9 8,
    m := w.extractLsb' 3 6, ru := w.extractLsb' 2 1, ck := w.extractLsb' 0 2 }

/-- The word with these fields and H = 0 (R68). -/
def Raw.pack (r : Raw) : Dword :=
  r.sc ++ 0#1 ++ r.opc ++ r.wt ++ r.sel ++ r.d ++ r.a ++ r.b ++ r.c ++ r.m ++ r.ru ++ r.ck

/-! ## Codes of the modifiers -/

def ICond.code : ICond → BitVec 3
  | .eq => 0 | .ne => 1 | .lt => 2 | .le => 3 | .gt => 4 | .ge => 5

/-- R75. -/
def ICond.ofCode (x : BitVec 3) : Option ICond :=
  match x.toNat with
  | 0 => some .eq | 1 => some .ne | 2 => some .lt | 3 => some .le | 4 => some .gt | 5 => some .ge | _ => none

def FCond.code : FCond → BitVec 3
  | .eq => 0 | .ne => 1 | .lt => 2 | .le => 3 | .gt => 4 | .ge => 5 | .un => 6 | .ord => 7

/-- R154. -/
def FCond.ofCode (x : BitVec 3) : Option FCond :=
  match x.toNat with
  | 0 => some .eq | 1 => some .ne | 2 => some .lt | 3 => some .le | 4 => some .gt | 5 => some .ge | 6 => some .un
  | _ => some .ord

def VoteMode.code : VoteMode → BitVec 3
  | .every => 0 | .some => 1 | .same => 2 | .lanes => 3 | .count => 4 | .first => 5 | .rank => 6

/-- R141. -/
def VoteMode.ofCode (x : BitVec 3) : Option VoteMode :=
  match x.toNat with
  | 0 => Option.some .every | 1 => Option.some .some | 2 => Option.some .same | 3 => Option.some .lanes | 4 => Option.some .count | 5 => Option.some .first
  | 6 => Option.some .rank | _ => none

def ShflMode.code : ShflMode → BitVec 2
  | .from => 0 | .rot => 1 | .swap => 2 | .step => 3

/-- R142. -/
def ShflMode.ofCode (x : BitVec 2) : Option ShflMode :=
  match x.toNat with
  | 0 => some .from | 1 => some .rot | 2 => some .swap | _ => some .step

def ReduxOp.code : ReduxOp → BitVec 3
  | .add => 0 | .minu => 1 | .mins => 2 | .maxu => 3 | .maxs => 4 | .and => 5 | .or => 6 | .xor => 7

/-- R143. -/
def ReduxOp.ofCode (x : BitVec 3) : Option ReduxOp :=
  match x.toNat with
  | 0 => some .add | 1 => some .minu | 2 => some .mins | 3 => some .maxu | 4 => some .maxs | 5 => some .and
  | 6 => some .or | _ => some .xor

def MatchMode.code : MatchMode → BitVec 2
  | .peers => 0 | .head => 1 | .nclass => 2 | .order => 3

/-- R144. -/
def MatchMode.ofCode (x : BitVec 2) : Option MatchMode :=
  match x.toNat with
  | 0 => some .peers | 1 => some .head | 2 => some .nclass | _ => some .order

def TretMode.code : TretMode → BitVec 2
  | .retry => 0 | .next => 1 | .subst => 2

/-- R276. -/
def TretMode.ofCode (x : BitVec 2) : Option TretMode :=
  match x.toNat with
  | 0 => some .retry | 1 => some .next | 2 => some .subst | _ => none

def CvtFmt.code : CvtFmt → BitVec 3
  | .f32 => 0 | .f16 => 1 | .bf16 => 2 | .e4m3 => 3 | .e5m2 => 4

/-- R158. -/
def CvtFmt.ofCode (x : BitVec 3) : Option CvtFmt :=
  match x.toNat with
  | 0 => some .f32 | 1 => some .f16 | 2 => some .bf16 | 3 => some .e4m3 | 4 => some .e5m2 | _ => none

def MSize.code : MSize → BitVec 3
  | .b8 => 0 | .b16 => 1 | .b32 => 2 | .b64 => 3 | .b128 => 4 | .s8 => 5 | .s16 => 6

/-- R169. -/
def MSize.ofCode (x : BitVec 3) : Option MSize :=
  match x.toNat with
  | 0 => some .b8 | 1 => some .b16 | 2 => some .b32 | 3 => some .b64 | 4 => some .b128 | 5 => some .s8
  | 6 => some .s16 | _ => none

def Space.code : Space → BitVec 2
  | .global => 0 | .basin => 1 | .slip => 2 | .cistern => 3

/-- R167. -/
def Space.ofCode (x : BitVec 2) : Space :=
  match x.toNat with
  | 0 => .global | 1 => .basin | 2 => .slip | _ => .cistern

def AtomOp.code : AtomOp → BitVec 4
  | .add => 0 | .and => 1 | .or => 2 | .xor => 3 | .minu => 4 | .mins => 5 | .maxu => 6 | .maxs => 7 | .exch => 8
  | .inc => 9 | .dec => 10 | .add64 => 11 | .exch64 => 12 | .or64 => 13 | .and64 => 14 | .fadd => 15

/-- R179. -/
def AtomOp.ofCode (x : BitVec 4) : Option AtomOp :=
  match x.toNat with
  | 0 => some .add | 1 => some .and | 2 => some .or | 3 => some .xor | 4 => some .minu | 5 => some .mins
  | 6 => some .maxu | 7 => some .maxs | 8 => some .exch | 9 => some .inc | 10 => some .dec | 11 => some .add64
  | 12 => some .exch64 | 13 => some .or64 | 14 => some .and64 | _ => some .fadd

def SGroup.code : SGroup → BitVec 2
  | .team => 0 | .die => 1 | .device => 2 | .system => 3

/-- R178. -/
def SGroup.ofCode (x : BitVec 2) : Option SGroup :=
  match x.toNat with
  | 0 => some .team | 1 => some .die | 2 => some .device | _ => some .system

def FScope.code : FScope → BitVec 3
  | .group => 0 | .team => 1 | .cluster => 2 | .die => 3 | .device => 4 | .system => 5

/-- R75. -/
def FScope.ofCode (x : BitVec 3) : Option FScope :=
  match x.toNat with
  | 0 => some .group | 1 => some .team | 2 => some .cluster | 3 => some .die | 4 => some .device
  | 5 => some .system | _ => none

def FKind.code : FKind → BitVec 2
  | .acq => 0 | .rel => 1 | .acqrel => 2 | .full => 3

/-- R41. -/
def FKind.ofCode (x : BitVec 2) : Option FKind :=
  match x.toNat with
  | 0 => some .acq | 1 => some .rel | 2 => some .acqrel | _ => some .full

def CctlOp.code : CctlOp → BitVec 3
  | .inv => 0 | .invall => 1 | .iinv => 2 | .iinvall => 3

/-- R188. -/
def CctlOp.ofCode (x : BitVec 3) : Option CctlOp :=
  match x.toNat with
  | 0 => some .inv | 1 => some .invall | 2 => some .iinv | 3 => some .iinvall | _ => none

def HinfSel.code : HinfSel → BitVec 3
  | .depth => 0 | .rows => 1 | .shared => 2 | .refs => 3 | .pc => 4 | .lane => 5

/-- R202. -/
def HinfSel.ofCode (x : BitVec 3) : Option HinfSel :=
  match x.toNat with
  | 0 => some .depth | 1 => some .rows | 2 => some .shared | 3 => some .refs | 4 => some .pc | 5 => some .lane
  | _ => none

def MrdFmt.code : MrdFmt → BitVec 2
  | .f32 => 0 | .bf16 => 1 | .f16 => 2 | .fp8 => 3

/-- R242. -/
def MrdFmt.ofCode (x : BitVec 2) : Option MrdFmt :=
  match x.toNat with
  | 0 => some .f32 | 1 => some .bf16 | 2 => some .f16 | _ => some .fp8

def MstFmt.code : MstFmt → BitVec 3
  | .f32 => 0 | .bf16 => 1 | .f16 => 2 | .fp8 => 3 | .i32 => 4

/-- R260. -/
def MstFmt.ofCode (x : BitVec 3) : Option MstFmt :=
  match x.toNat with
  | 0 => some .f32 | 1 => some .bf16 | 2 => some .f16 | 3 => some .fp8 | 4 => some .i32 | _ => none

def CollOp.code : CollOp → BitVec 3
  | .aradd => 0 | .armax => 1 | .aravimx => 2 | .gather => 3 | .rsadd => 4

/-- R261. -/
def CollOp.ofCode (x : BitVec 3) : Option CollOp :=
  match x.toNat with
  | 0 => some .aradd | 1 => some .armax | 2 => some .aravimx | 3 => some .gather | 4 => some .rsadd | _ => none

def SlotField.code : SlotField → BitVec 2
  | .ntok => 0 | .ctx => 1 | .commit => 2 | .done => 3

/-- R271. -/
def SlotField.ofCode (x : BitVec 2) : Option SlotField :=
  match x.toNat with
  | 0 => some .ntok | 1 => some .ctx | 2 => some .commit | _ => some .done

def HOp.code : HOp → BitVec 6
  | .nop => 0x00 | .mov => 0x01 | .iadd => 0x02 | .isub => 0x03 | .imul => 0x04 | .and => 0x05 | .or => 0x06
  | .xor => 0x07 | .shl => 0x08 | .shr => 0x09 | .sar => 0x0A | .imin => 0x0B | .imax => 0x0C | .fadd => 0x0D
  | .fmul => 0x0E | .fmin => 0x0F | .fmax => 0x10 | .hadd2 => 0x11 | .hmul2 => 0x12 | .f2i => 0x13 | .i2f => 0x14
  | .icmp => 0x15 | .popc => 0x16 | .clz => 0x17

/-- R95. -/
def HOp.ofCode (x : BitVec 6) : Option HOp :=
  match x.toNat with
  | 0x00 => some .nop | 0x01 => some .mov | 0x02 => some .iadd | 0x03 => some .isub | 0x04 => some .imul
  | 0x05 => some .and | 0x06 => some .or | 0x07 => some .xor | 0x08 => some .shl | 0x09 => some .shr
  | 0x0A => some .sar | 0x0B => some .imin | 0x0C => some .imax | 0x0D => some .fadd | 0x0E => some .fmul
  | 0x0F => some .fmin | 0x10 => some .fmax | 0x11 => some .hadd2 | 0x12 => some .hmul2 | 0x13 => some .f2i
  | 0x14 => some .i2f | 0x15 => some .icmp | 0x16 => some .popc | 0x17 => some .clz | _ => none

/-- MOD of the FP class (R75). -/
def fpBits (m : FpMod) : BitVec 6 :=
  BitVec.ofBool m.abs ++ BitVec.ofBool m.nc ++ BitVec.ofBool m.na ++ BitVec.ofBool m.ftz ++ m.rm

/-- MOD of the Memory class (R75). -/
def memBits (m : MemMod) : BitVec 6 := BitVec.ofBool m.far ++ m.space.code ++ m.size.code

/-- B of a memory instruction: full-empty qualifier and swizzle (R75). -/
def swzBits (fe : BitVec 2) (m : MemMod) : BitVec 8 := 0#3 ++ fe ++ m.swz

/-- The scope's SC and bits 44:41 (R69). -/
def Scope.bits : Scope → BitVec 2 × BitVec 4
  | .lane pg pn => (0#2, pg ++ BitVec.ofBool pn)
  | .group => (1#2, 0#4)
  | .set cv => (2#2, cv)
  | .team cv => (3#2, cv)

/-- CK and C (R73). -/
def COp.bits : COp → BitVec 2 × BitVec 8
  | .v n => (0#2, n)
  | .imm n => (1#2, n)
  | .k n => (2#2, 0#2 ++ n)
  | .s n => (3#2, n)

/-- The fields of a full-form word. -/
def full (i : Iss) (opc d a b : BitVec 8) (c : COp) (m : BitVec 6) : Raw :=
  { sc := i.scope.bits.1, opc, wt := i.wt, sel := i.scope.bits.2, d, a, b, c := c.bits.2, m,
    ru := BitVec.ofBool i.ru, ck := c.bits.1 }

/-! ## Reading fields -/

/-- A field the instruction does not use is zero (R72). -/
def zero (x : BitVec 8) (k : Except Reject Instr) : Except Reject Instr := if x = 0#8 then k else .error .field

/-- C is unused: zero with CK = 00 (R72). -/
def noC (r : Raw) (k : Except Reject Instr) : Except Reject Instr :=
  if r.c = 0#8 ∧ r.ck = 0#2 then k else .error .field

/-- The MOD bits of the mask are reserved (R76). -/
def reserved (r : Raw) (mask : BitVec 6) (k : Except Reject Instr) : Except Reject Instr :=
  if r.m &&& mask = 0#6 then k else .error .modifier

/-- A 2-bit operand in an 8-bit field (R72). -/
def low2 (x : BitVec 8) (k : BitVec 2 → Except Reject Instr) : Except Reject Instr :=
  if x.extractLsb' 2 6 = 0#6 then k (x.extractLsb' 0 2) else .error .field

/-- A 3-bit operand in an 8-bit field (R72). -/
def low3 (x : BitVec 8) (k : BitVec 3 → Except Reject Instr) : Except Reject Instr :=
  if x.extractLsb' 3 5 = 0#5 then k (x.extractLsb' 0 3) else .error .field

/-- A 4-bit operand in an 8-bit field (R72). -/
def low4 (x : BitVec 8) (k : BitVec 4 → Except Reject Instr) : Except Reject Instr :=
  if x.extractLsb' 4 4 = 0#4 then k (x.extractLsb' 0 4) else .error .field

/-- A 6-bit operand in an 8-bit field (R72). -/
def low6 (x : BitVec 8) (k : BitVec 6 → Except Reject Instr) : Except Reject Instr :=
  if x.extractLsb' 6 2 = 0#2 then k (x.extractLsb' 0 6) else .error .field

/-- A 7-bit operand in an 8-bit field (R119). -/
def low7 (x : BitVec 8) (k : BitVec 7 → Except Reject Instr) : Except Reject Instr :=
  if x.extractLsb' 7 1 = 0#1 then k (x.extractLsb' 0 7) else .error .field

/-- C with its kind (R73). -/
def cop (r : Raw) (k : COp → Except Reject Instr) : Except Reject Instr :=
  match r.ck.toNat with
  | 0 => k (.v r.c)
  | 1 => k (.imm r.c)
  | 2 => if r.c.extractLsb' 6 2 = 0#2 then k (.k (r.c.extractLsb' 0 6)) else .error .field
  | _ => k (.s r.c)

/-- C is a v register. -/
def cV (r : Raw) (k : VReg → Except Reject Instr) : Except Reject Instr :=
  if r.ck = 0#2 then k r.c else .error .kind

/-- C is an 8-bit constant. -/
def cImm (r : Raw) (k : BitVec 8 → Except Reject Instr) : Except Reject Instr :=
  if r.ck = 1#2 then k r.c else .error .kind

/-- C is a special register. -/
def cSpec (r : Raw) (k : BitVec 8 → Except Reject Instr) : Except Reject Instr :=
  if r.ck = 3#2 then k r.c else .error .kind

/-- A modifier value that is assigned (R76). -/
def enum {α : Type} (x : Option α) (k : α → Except Reject Instr) : Except Reject Instr :=
  match x with
  | some v => k v
  | none => .error .modifier

/-- MOD of the FP class (R75). -/
def fpOf (m : BitVec 6) : FpMod :=
  { rm := m.extractLsb' 0 2, ftz := m.getLsbD 2, na := m.getLsbD 3, nc := m.getLsbD 4, abs := m.getLsbD 5 }

/-- MOD and B of the Memory class, with the full-empty qualifier the instruction takes (R75). -/
def memOf (r : Raw) (fe : BitVec 2) (k : MemMod → Except Reject Instr) : Except Reject Instr :=
  if r.b.extractLsb' 3 5 = 0#3 ++ fe then
    enum (MSize.ofCode (r.m.extractLsb' 0 3)) fun size =>
      k { size, space := Space.ofCode (r.m.extractLsb' 3 2), far := r.m.getLsbD 5, swz := r.b.extractLsb' 0 3 }
  else .error .modifier

/-- SC and bits 44:41 (R69). -/
def scopeOf (r : Raw) : Except Reject Scope :=
  match r.sc.toNat with
  | 0 => .ok (.lane (r.sel.extractLsb' 1 3) (r.sel.getLsbD 0))
  | 1 => if r.sel = 0#4 then .ok .group else .error .sel
  | 2 => .ok (.set r.sel)
  | _ => .ok (.team r.sel)

/-! ## The opcode map -/

/-- Integer opcodes (R86, R103 to R119). -/
def buildInteger (r : Raw) (i : Iss) : Except Reject Instr :=
  match r.opc.toNat with
  | 0x00 =>
    zero r.d <| zero r.a <| zero r.b <| noC r <| reserved r 0b111111#6 <| .ok (.nop i)
  | 0x01 =>
    zero r.a <| zero r.b <| reserved r 0b111111#6 <| cop r fun c => .ok (.mov i r.d c)
  | 0x02 =>
    zero r.a <| zero r.b <| reserved r 0b111110#6 <| cSpec r fun n => .ok (.movs i r.d n (r.m.getLsbD 0))
  | 0x03 =>
    zero r.a <| zero r.b <| reserved r 0b111111#6 <| low6 r.d fun d => cop r fun c => .ok (.kset i d c)
  | 0x04 =>
    zero r.b <| reserved r 0b111100#6 <| cop r fun c => .ok (.iadd i r.d r.a c (r.m.getLsbD 0) (r.m.getLsbD 1))
  | 0x05 =>
    zero r.b <| reserved r 0b111100#6 <| cop r fun c => .ok (.isub i r.d r.a c (r.m.getLsbD 0) (r.m.getLsbD 1))
  | 0x06 =>
    zero r.b <| reserved r 0b111100#6 <| cop r fun c => .ok (.imul i r.d r.a c (r.m.getLsbD 0) (r.m.getLsbD 1))
  | 0x07 =>
    zero r.b <| reserved r 0b111110#6 <| cop r fun c => .ok (.imulh i r.d r.a c (r.m.getLsbD 0))
  | 0x08 =>
    reserved r 0b111100#6 <| cop r fun c => .ok (.imad i r.d r.a r.b c (r.m.getLsbD 0) (r.m.getLsbD 1))
  | 0x09 =>
    reserved r 0b111110#6 <| cV r fun c => .ok (.imadw i r.d r.a r.b c (r.m.getLsbD 0))
  | 0x0A =>
    zero r.b <| reserved r 0b111100#6 <| cop r fun c => .ok (.iaddw i r.d r.a c (r.m.getLsbD 0) (r.m.getLsbD 1))
  | 0x0B =>
    zero r.b <| reserved r 0b111110#6 <| cop r fun c => .ok (.idiv i r.d r.a c (r.m.getLsbD 0))
  | 0x0C =>
    zero r.b <| reserved r 0b111110#6 <| cop r fun c => .ok (.irem i r.d r.a c (r.m.getLsbD 0))
  | 0x0D =>
    zero r.b <| reserved r 0b111110#6 <| cop r fun c => .ok (.imin i r.d r.a c (r.m.getLsbD 0))
  | 0x0E =>
    zero r.b <| reserved r 0b111110#6 <| cop r fun c => .ok (.imax i r.d r.a c (r.m.getLsbD 0))
  | 0x0F =>
    zero r.a <| zero r.b <| reserved r 0b111101#6 <| cop r fun c => .ok (.iabs i r.d c (r.m.getLsbD 1))
  | 0x10 =>
    zero r.b <| reserved r 0b111111#6 <| cop r fun c => .ok (.and i r.d r.a c)
  | 0x11 =>
    zero r.b <| reserved r 0b111111#6 <| cop r fun c => .ok (.or i r.d r.a c)
  | 0x12 =>
    zero r.b <| reserved r 0b111111#6 <| cop r fun c => .ok (.xor i r.d r.a c)
  | 0x13 =>
    zero r.b <| reserved r 0b111111#6 <| cop r fun c => .ok (.andn i r.d r.a c)
  | 0x14 =>
    zero r.b <| reserved r 0b111111#6 <| cop r fun c => .ok (.shl i r.d r.a c)
  | 0x15 =>
    zero r.b <| reserved r 0b111111#6 <| cop r fun c => .ok (.shr i r.d r.a c)
  | 0x16 =>
    zero r.b <| reserved r 0b111111#6 <| cop r fun c => .ok (.sar i r.d r.a c)
  | 0x17 =>
    zero r.b <| reserved r 0b111111#6 <| cop r fun c => .ok (.rot i r.d r.a c)
  | 0x18 =>
    reserved r 0b111111#6 <| cop r fun c => .ok (.shf i r.d r.a r.b c)
  | 0x19 =>
    zero r.a <| zero r.b <| reserved r 0b111111#6 <| cop r fun c => .ok (.popc i r.d c)
  | 0x1A =>
    zero r.a <| zero r.b <| reserved r 0b111111#6 <| cop r fun c => .ok (.clz i r.d c)
  | 0x1B =>
    zero r.a <| zero r.b <| reserved r 0b111111#6 <| cop r fun c => .ok (.brev i r.d c)
  | 0x1C =>
    zero r.b <| reserved r 0b111110#6 <| cop r fun c => .ok (.bfx i r.d r.a c (r.m.getLsbD 0))
  | 0x1D =>
    reserved r 0b111111#6 <| cop r fun c => .ok (.bfi i r.d r.a r.b c)
  | 0x1E =>
    reserved r 0b111111#6 <| cop r fun c => .ok (.prmt i r.d r.a r.b c)
  | 0x1F =>
    zero r.b <| reserved r 0b111000#6 <| cop r fun c => .ok (.lea i r.d r.a c (r.m.extractLsb' 0 3))
  | 0x20 =>
    zero r.b <| reserved r 0b110000#6 <| cop r fun c => .ok (.isel i r.d r.a c (r.m.extractLsb' 0 3) (r.m.getLsbD
      3))
  | 0x21 =>
    zero r.b <| reserved r 0b110000#6 <| low3 r.d fun d => cop r fun c => enum (ICond.ofCode (r.m.extractLsb' 0 3))
      fun cond => .ok (.icmp i d r.a c cond (r.m.getLsbD 3))
  | 0x22 =>
    reserved r 0b111000#6 <| low3 r.d fun d => low3 r.a fun a => low3 r.b fun b => cImm r fun lut => .ok (.plop i d
      a b (r.m.extractLsb' 0 3) lut)
  | 0x23 =>
    zero r.b <| reserved r 0b111110#6 <|
      if r.m.getLsbD 0 then zero r.d <| low7 r.a fun mask => cop r fun c => .ok (.pmov i (.put mask c))
      else zero r.a <| noC r <| .ok (.pmov i (.get r.d))
  | _ => .error .unassigned

/-- Control opcodes (R87, R121 to R144, R278). -/
def buildControl (r : Raw) (i : Iss) : Except Reject Instr :=
  match r.opc.toNat with
  | 0x30 =>
    zero r.d <| zero r.a <| zero r.b <| reserved r 0b111111#6 <| cop r fun c => .ok (.bra i c)
  | 0x31 =>
    zero r.a <| zero r.b <| reserved r 0b111111#6 <| cop r fun c => .ok (.call i r.d c)
  | 0x32 =>
    zero r.d <| zero r.b <| noC r <| reserved r 0b111111#6 <| .ok (.ret i r.a)
  | 0x33 =>
    zero r.d <| zero r.a <| zero r.b <| reserved r 0b111110#6 <|
      if r.m.getLsbD 0 then noC r <| .ok (.smeet i none) else cop r fun c => .ok (.smeet i (some c))
  | 0x34 =>
    zero r.d <| zero r.a <| zero r.b <| noC r <| reserved r 0b111111#6 <| .ok (.exit i)
  | 0x35 =>
    zero r.d <| zero r.a <| zero r.b <| noC r <| reserved r 0b111111#6 <| .ok (.yield i)
  | 0x36 =>
    zero r.d <| zero r.a <| zero r.b <| reserved r 0b111111#6 <| cop r fun c => .ok (.nap i c)
  | 0x37 =>
    zero r.d <| zero r.a <| zero r.b <| noC r <| reserved r 0b111111#6 <| .ok (.bar i)
  | 0x38 =>
    zero r.a <| zero r.b <| reserved r 0b111111#6 <| low4 r.d fun n => cop r fun c => .ok (.cvset i n c)
  | 0x39 =>
    zero r.a <| zero r.b <| noC r <| reserved r 0b111111#6 <| low4 r.d fun n => .ok (.cvleave i n)
  | 0x3A =>
    zero r.b <| noC r <| reserved r 0b110000#6 <| low3 r.a fun a => enum (VoteMode.ofCode (r.m.extractLsb' 0 3)) fun
      mode => .ok (.vote i r.d a (r.m.getLsbD 3) mode)
  | 0x3B =>
    reserved r 0b110000#6 <| low3 r.b fun q => cop r fun c => enum (ShflMode.ofCode (r.m.extractLsb' 0 2)) fun mode
      => .ok (.shfl i r.d r.a q c mode (r.m.extractLsb' 2 2))
  | 0x3C =>
    zero r.b <| noC r <| reserved r 0b110000#6 <| enum (ReduxOp.ofCode (r.m.extractLsb' 0 3)) fun op => .ok (.redux
      i r.d r.a op (r.m.getLsbD 3))
  | 0x3D =>
    zero r.b <| noC r <| reserved r 0b111000#6 <| enum (MatchMode.ofCode (r.m.extractLsb' 0 2)) fun mode => .ok
      (.match_ i r.d r.a mode (r.m.getLsbD 2))
  | 0x3E =>
    zero r.d <| zero r.a <| zero r.b <| noC r <| reserved r 0b111111#6 <| .ok (.trap i)
  | 0x3F =>
    zero r.d <| zero r.a <| zero r.b <| noC r <| reserved r 0b111111#6 <| .ok (.bkpt i)
  | 0x40 =>
    zero r.d <| zero r.a <| noC r <| reserved r 0b111100#6 <| enum (TretMode.ofCode (r.m.extractLsb' 0 2)) fun mode
      => .ok (.tret i mode r.b)
  | 0x41 =>
    zero r.a <| zero r.b <| reserved r 0b111111#6 <| cImm r fun csr => .ok (.csrr i r.d csr)
  | 0x42 =>
    zero r.d <| zero r.b <| reserved r 0b111111#6 <| cImm r fun csr => .ok (.csrw i csr r.a)
  | 0x43 =>
    zero r.a <| zero r.b <| noC r <| reserved r 0b111111#6 <| low3 r.d fun d => .ok (.islast i d)
  | 0x44 =>
    reserved r 0b111000#6 <| cop r fun off => .ok (.lnch i (r.m.extractLsb' 0 3) r.d r.a off r.b)
  | 0x45 =>
    zero r.d <| zero r.a <| zero r.b <| noC r <| reserved r 0b111111#6 <| .ok (.succ i)
  | 0x46 =>
    zero r.d <| zero r.a <| zero r.b <| noC r <| reserved r 0b111000#6 <| .ok (.pwait i (r.m.extractLsb' 0 3))
  | _ => .error .unassigned

/-- Float opcodes (R88, R145 to R165). -/
def buildFloat (r : Raw) (i : Iss) : Except Reject Instr :=
  match r.opc.toNat with
  | 0x48 =>
    zero r.b <| cop r fun c => .ok (.fadd i r.d r.a c (fpOf r.m))
  | 0x49 =>
    zero r.b <| cop r fun c => .ok (.fmul i r.d r.a c (fpOf r.m))
  | 0x4A =>
    cop r fun c => .ok (.ffma i r.d r.a r.b c (fpOf r.m))
  | 0x4B =>
    zero r.b <| cop r fun c => .ok (.fmin i r.d r.a c (fpOf r.m))
  | 0x4C =>
    zero r.b <| cop r fun c => .ok (.fmax i r.d r.a c (fpOf r.m))
  | 0x4D =>
    zero r.b <| reserved r 0b110000#6 <| low3 r.d fun d => cop r fun c => enum (FCond.ofCode (r.m.extractLsb' 0 3))
      fun cond => .ok (.fcmp i d r.a c cond (r.m.getLsbD 3))
  | 0x4E =>
    zero r.b <| noC r <| reserved r 0b111111#6 <| .ok (.fcls i r.d r.a)
  | 0x4F =>
    zero r.b <| noC r <| .ok (.frnd i r.d r.a (fpOf r.m))
  | 0x50 =>
    zero r.b <| noC r <| .ok (.frcp i r.d r.a (fpOf r.m))
  | 0x51 =>
    zero r.b <| noC r <| .ok (.frsq i r.d r.a (fpOf r.m))
  | 0x52 =>
    zero r.b <| noC r <| .ok (.fsqrt i r.d r.a (fpOf r.m))
  | 0x53 =>
    zero r.b <| cop r fun c => .ok (.fdiv i r.d r.a c (fpOf r.m))
  | 0x54 =>
    zero r.b <| noC r <| .ok (.fex2 i r.d r.a (fpOf r.m))
  | 0x55 =>
    zero r.b <| noC r <| .ok (.flg2 i r.d r.a (fpOf r.m))
  | 0x56 =>
    zero r.b <| reserved r 0b111111#6 <| cop r fun c => .ok (.fgumb i r.d r.a c)
  | 0x57 =>
    zero r.b <| reserved r 0b111111#6 <| cop r fun c => .ok (.rngc i r.d r.a c)
  | 0x58 =>
    zero r.b <| noC r <| .ok (.f2i i r.d r.a (fpOf r.m))
  | 0x59 =>
    zero r.b <| noC r <| reserved r 0b101100#6 <| .ok (.i2f i r.d r.a (r.m.extractLsb' 0 2) (r.m.getLsbD 4))
  | 0x5A =>
    noC r <| reserved r 0b010000#6 <| low6 r.b fun b => enum (CvtFmt.ofCode (b.extractLsb' 3 3)) fun dst =>
      enum (CvtFmt.ofCode (b.extractLsb' 0 3)) fun src =>
      .ok (.fcvt i r.d r.a dst src (r.m.extractLsb' 0 2) (r.m.getLsbD 2) (r.m.getLsbD 3) (r.m.getLsbD 5))
  | 0x5B =>
    zero r.b <| cop r fun c => .ok (.hadd2 i r.d r.a c (fpOf r.m))
  | 0x5C =>
    zero r.b <| cop r fun c => .ok (.hmul2 i r.d r.a c (fpOf r.m))
  | 0x5D =>
    cop r fun c => .ok (.hfma2 i r.d r.a r.b c (fpOf r.m))
  | 0x5E =>
    zero r.b <| cop r fun c => .ok (.hmnx2 i r.d r.a c (fpOf r.m))
  | 0x5F =>
    zero r.b <| cop r fun c => .ok (.pk8 i r.d r.a c (r.m.getLsbD 0) (r.m.getLsbD 1) (r.m.getLsbD 2)
      (r.m.extractLsb' 3 2) (r.m.getLsbD 5))
  | 0x60 =>
    zero r.b <| noC r <| reserved r 0b111000#6 <| .ok (.upk8 i r.d r.a (r.m.extractLsb' 0 2) (r.m.getLsbD 2))
  | 0x61 =>
    zero r.b <| reserved r 0b100000#6 <| cop r fun c => .ok (.pk4 i r.d r.a c (r.m.extractLsb' 0 2) (r.m.getLsbD 2)
      (r.m.extractLsb' 3 2))
  | 0x62 =>
    zero r.b <| reserved r 0b111000#6 <| cop r fun c => .ok (.upk4 i r.d r.a c (r.m.extractLsb' 0 3))
  | 0x63 =>
    zero r.b <| cop r fun c => .ok (.fscl i r.d r.a c (fpOf r.m))
  | _ => .error .unassigned

/-- Memory opcodes (R89, R167 to R191). -/
def buildMemory (r : Raw) (i : Iss) : Except Reject Instr :=
  match r.opc.toNat with
  | 0x70 =>
    cop r fun off => memOf r 0#2 fun m => .ok (.ld i r.d r.a off m)
  | 0x71 =>
    cop r fun off => memOf r 0#2 fun m => .ok (.st i r.d r.a off m)
  | 0x72 =>
    cop r fun off => memOf r 0#2 fun m => .ok (.ldc i r.d r.a off m)
  | 0x73 =>
    cop r fun off =>
      if r.b.extractLsb' 3 2 = 2#2 then memOf r 2#2 fun m => .ok (.ldfe i r.d r.a off m true)
      else memOf r 1#2 fun m => .ok (.ldfe i r.d r.a off m false)
  | 0x74 =>
    cop r fun off => memOf r 0#2 fun m => .ok (.stfe i r.d r.a off m)
  | 0x75 =>
    cop r fun off => enum (AtomOp.ofCode (r.m.extractLsb' 0 4)) fun op => enum (SGroup.ofCode (r.m.extractLsb' 4 2))
      fun sg => .ok (.atom i r.d r.a off r.b op sg)
  | 0x76 =>
    reserved r 0b001110#6 <| cop r fun off => enum (SGroup.ofCode (r.m.extractLsb' 4 2)) fun sg => .ok (.acas i r.d
      r.a off r.b (r.m.getLsbD 0) sg)
  | 0x77 =>
    reserved r 0b001111#6 <| cop r fun off => enum (SGroup.ofCode (r.m.extractLsb' 4 2)) fun sg => .ok (.afadd i r.d
      r.a off r.b sg)
  | 0x78 =>
    zero r.d <| reserved r 0b001111#6 <| cop r fun off => enum (SGroup.ofCode (r.m.extractLsb' 4 2)) fun sg => .ok
      (.ab2add i r.a off r.b sg)
  | 0x79 =>
    reserved r 0b001110#6 <| cop r fun off => enum (SGroup.ofCode (r.m.extractLsb' 4 2)) fun sg => .ok (.avimx i r.d
      r.a off r.b (r.m.getLsbD 0) sg)
  | 0x7A =>
    zero r.d <| cop r fun off => enum (AtomOp.ofCode (r.m.extractLsb' 0 4)) fun op => enum (SGroup.ofCode
      (r.m.extractLsb' 4 2)) fun sg => .ok (.red i r.a off r.b op sg)
  | 0x7B =>
    zero r.d <| zero r.a <| zero r.b <| noC r <| reserved r 0b100000#6 <| enum (FScope.ofCode (r.m.extractLsb' 0 3))
      fun sc => enum (FKind.ofCode (r.m.extractLsb' 3 2)) fun kind => .ok (.fence i sc kind)
  | 0x7C =>
    zero r.d <| cop r fun off => memOf r 0#2 fun m => .ok (.pref i r.a off m)
  | 0x7D =>
    zero r.d <| zero r.b <| reserved r 0b111000#6 <| enum (CctlOp.ofCode (r.m.extractLsb' 0 3)) fun op => cop r fun
      off => .ok (.cctl i op r.a off)
  | 0x7E =>
    reserved r 0b111000#6 <| cop r fun c => .ok (.lsacq i (r.m.extractLsb' 0 3) r.d r.a r.b c)
  | 0x7F =>
    zero r.d <| zero r.b <| noC r <| reserved r 0b111111#6 <| .ok (.lsrel i r.a)
  | _ => .error .unassigned

/-- Snapshot opcodes (R90, R220). -/
def buildSnapshot (r : Raw) (i : Iss) : Except Reject Instr :=
  match r.opc.toNat with
  | 0x90 =>
    zero r.b <| noC r <| reserved r 0b111000#6 <| low4 r.d fun d => .ok (.snap i (r.m.extractLsb' 0 3) d r.a)
  | 0x91 =>
    zero r.d <| zero r.b <| reserved r 0b111111#6 <| low4 r.a fun a => cop r fun c => .ok (.rstr i a c)
  | 0x92 =>
    zero r.b <| reserved r 0b111000#6 <| low4 r.a fun a => cop r fun c => .ok (.sprt i (r.m.extractLsb' 0 3) r.d a
      c)
  | 0x93 =>
    zero r.a <| zero r.b <| noC r <| reserved r 0b111111#6 <| low4 r.d fun d => .ok (.drop i d)
  | 0x94 =>
    zero r.b <| noC r <| reserved r 0b111111#6 <| low4 r.d fun d => low4 r.a fun a => .ok (.hdup i d a)
  | 0x95 =>
    reserved r 0b110111#6 <| low4 r.b fun b => cop r fun off => .ok (.hspl i r.d b r.a off (r.m.getLsbD 3))
  | 0x96 =>
    zero r.b <| reserved r 0b111000#6 <| low4 r.d fun d => cop r fun off => .ok (.hldm i (r.m.extractLsb' 0 3) d r.a
      off)
  | 0x97 =>
    zero r.b <| noC r <| reserved r 0b111000#6 <| low4 r.a fun a => enum (HinfSel.ofCode (r.m.extractLsb' 0 3)) fun
      sel => .ok (.hinf i r.d a sel)
  | 0x98 =>
    zero r.a <| zero r.b <| noC r <| reserved r 0b111000#6 <| low2 r.d fun n => .ok (.xacq i (r.m.extractLsb' 0 3)
      n)
  | 0x99 =>
    zero r.a <| zero r.b <| noC r <| reserved r 0b111111#6 <| low2 r.d fun n => .ok (.xrel i n)
  | 0x9A =>
    zero r.d <| zero r.b <| reserved r 0b111000#6 <| cop r fun off => .ok (.spawn i (r.m.extractLsb' 0 3) r.a off)
  | 0x9B =>
    zero r.d <| reserved r 0b111000#6 <| cop r fun off => .ok (.qenq i (r.m.extractLsb' 0 3) r.a off r.b)
  | 0x9C =>
    zero r.b <| reserved r 0b111000#6 <| cop r fun off => .ok (.qdeq i (r.m.extractLsb' 0 3) r.d r.a off)
  | 0x9D =>
    reserved r 0b111000#6 <| cop r fun off => .ok (.csub i (r.m.extractLsb' 0 3) r.d r.a off r.b)
  | 0x9E =>
    zero r.d <| zero r.b <| noC r <| reserved r 0b111000#6 <| .ok (.esc i (r.m.extractLsb' 0 3) r.a)
  | 0x9F =>
    zero r.d <| zero r.b <| noC r <| reserved r 0b111111#6 <| .ok (.cret i r.a)
  | _ => .error .unassigned

/-- Matrix opcodes (R91, R246). -/
def buildMatrix (r : Raw) (i : Iss) : Except Reject Instr :=
  match r.opc.toNat with
  | 0xA0 =>
    zero r.b <| noC r <| reserved r 0b111000#6 <| low4 r.d fun d => .ok (.slrsv i (r.m.extractLsb' 0 3) d r.a)
  | 0xA1 =>
    zero r.a <| zero r.b <| noC r <| reserved r 0b111111#6 <| low4 r.d fun d => .ok (.slrel i d)
  | 0xA2 =>
    reserved r 0b100000#6 <| low2 r.d fun d => low4 r.b fun b => cop r fun c => .ok (.mma i d r.a b c
      (r.m.extractLsb' 0 4) (r.m.getLsbD 4))
  | 0xA3 =>
    reserved r 0b110000#6 <| low2 r.d fun d => low4 r.b fun b => cop r fun c => .ok (.mmag i d r.a b c
      (r.m.extractLsb' 0 4))
  | 0xA4 =>
    zero r.a <| zero r.b <| noC r <| reserved r 0b111110#6 <| low2 r.d fun d => .ok (.mzero i d (r.m.getLsbD 0))
  | 0xA5 =>
    reserved r 0b100000#6 <| low2 r.a fun a => low6 r.b fun kb => cop r fun c => enum (MrdFmt.ofCode
      (r.m.extractLsb' 0 2)) fun fmt => .ok (.mrd i r.d a kb c fmt (r.m.getLsbD 2) (r.m.getLsbD 3) (r.m.getLsbD 4))
  | 0xA6 =>
    zero r.b <| reserved r 0b111110#6 <| low2 r.d fun d => cop r fun c => .ok (.mwr i d r.a c (r.m.getLsbD 0))
  | 0xA7 =>
    zero r.b <| noC r <| reserved r 0b111111#6 <| low2 r.d fun d => .ok (.mscl i d r.a)
  | 0xA8 =>
    zero r.b <| noC r <| reserved r 0b111110#6 <| low2 r.a fun a => .ok (.mchk i r.d a (r.m.getLsbD 0))
  | 0xA9 =>
    zero r.b <| reserved r 0b111111#6 <| low2 r.d fun d => cop r fun off => .ok (.slcb i d r.a off)
  | 0xAA =>
    zero r.a <| zero r.b <| reserved r 0b111110#6 <| low4 r.d fun d => cop r fun c => .ok (.mxcfg i d c (r.m.getLsbD
      0))
  | _ => .error .unassigned

/-- Engine opcodes (R92, R278). -/
def buildEngine (r : Raw) (i : Iss) : Except Reject Instr :=
  match r.opc.toNat with
  | 0xB0 =>
    reserved r 0b111000#6 <| cop r fun c => .ok (.cpy i r.d r.a r.b c (r.m.extractLsb' 0 3))
  | 0xB1 =>
    reserved r 0b111000#6 <| cop r fun c => .ok (.cpyg i r.d r.a r.b c (r.m.extractLsb' 0 3))
  | 0xB2 =>
    reserved r 0b111000#6 <| cop r fun c => .ok (.cpys i r.d r.a r.b c (r.m.extractLsb' 0 3))
  | 0xB3 =>
    zero r.d <| reserved r 0b111111#6 <| cop r fun off => .ok (.carm i r.a off r.b)
  | 0xB4 =>
    reserved r 0b111111#6 <| cop r fun off => .ok (.cwait i r.d r.a off r.b)
  | 0xB5 =>
    reserved r 0b111000#6 <| cop r fun off => .ok (.ctest i (r.m.extractLsb' 0 3) r.d r.a off r.b)
  | 0xB6 =>
    low2 r.a fun a => cop r fun c => enum (MstFmt.ofCode (r.m.extractLsb' 3 3)) fun fmt => .ok (.mst i r.d a r.b c
      fmt (r.m.extractLsb' 0 3))
  | 0xB7 =>
    cop r fun c => enum (CollOp.ofCode (r.m.extractLsb' 3 3)) fun op => .ok (.coll i r.d r.a r.b c op
      (r.m.extractLsb' 0 3))
  | 0xB8 =>
    noC r <| reserved r 0b111111#6 <| .ok (.phash i r.d r.a r.b)
  | 0xB9 =>
    zero r.d <| zero r.b <| reserved r 0b111000#6 <| cop r fun off => .ok (.pgpin i (r.m.extractLsb' 0 3) r.a off)
  | 0xBA =>
    zero r.d <| zero r.b <| reserved r 0b111000#6 <| cop r fun off => .ok (.pgunpin i (r.m.extractLsb' 0 3) r.a off)
  | 0xBB =>
    zero r.b <| reserved r 0b111000#6 <| cop r fun c => .ok (.slcommit i (r.m.extractLsb' 0 3) r.d r.a c)
  | 0xBC =>
    noC r <| reserved r 0b111000#6 <| enum (SlotField.ofCode (r.m.extractLsb' 0 2)) fun field => .ok (.slqry i r.d
      r.a r.b (r.m.getLsbD 2) field)
  | _ => .error .unassigned

/-- The instruction that the fields name, before the conditions of `Instr.check`. -/
def build (r : Raw) (i : Iss) : Except Reject Instr :=
  if r.opc.ult 0x30#8 then buildInteger r i
  else if r.opc.ult 0x48#8 then buildControl r i
  else if r.opc.ult 0x70#8 then buildFloat r i
  else if r.opc.ult 0x90#8 then buildMemory r i
  else if r.opc.ult 0xA0#8 then buildSnapshot r i
  else if r.opc.ult 0xB0#8 then buildMatrix r i
  else buildEngine r i

/-- The term, if it is an instruction word. -/
def checked (i : Instr) : Except Reject Instr :=
  match i.check with
  | none => .ok i
  | some why => .error why

/-- A full-form word (R84). -/
def decodeFull (r : Raw) : Except Reject Instr :=
  match scopeOf r with
  | .error why => .error why
  | .ok scope =>
    match build r { scope, wt := r.wt, ru := r.ru == 1#1 } with
    | .error why => .error why
    | .ok i => checked i

/-- One half (R79). -/
def halfOf (h : BitVec 30) : Option Half :=
  (HOp.ofCode (h.extractLsb' 24 6)).map fun hop =>
    { hop, pg := h.extractLsb' 21 3, pn := h.getLsbD 20, d := h.extractLsb' 12 8, a := h.extractLsb' 4 8,
      ak := h.getLsbD 3, hmod := h.extractLsb' 0 3 }

/-- The 30 bits of a half (R79). -/
def Half.bits (h : Half) : BitVec 30 :=
  h.hop.code ++ h.pg ++ BitVec.ofBool h.pn ++ h.d ++ h.a ++ BitVec.ofBool h.ak ++ h.hmod

/-- A paired word (R79, R84). -/
def decodePair (w : Dword) : Except Reject Instr :=
  if w.extractLsb' 62 2 = 0#2 ∧ w.extractLsb' 0 1 = 0#1 then
    match halfOf (w.extractLsb' 31 30), halfOf (w.extractLsb' 1 30) with
    | some x, some y => checked (.pairedWord x y)
    | _, _ => .error .half
  else .error .pairForm

/-- The instruction a word is, or the rule it breaks (R97, R98). -/
def decode (w : Dword) : Except Reject Instr :=
  if w.getLsbD 61 then decodePair w else decodeFull (Raw.unpack w)

/-- A doubleword from bytes, least significant first (R5). -/
def dwordOfBytes : List Byte → Dword
  | [] => 0#64
  | b :: rest => (dwordOfBytes rest <<< 8) ||| b.setWidth 64

/-- The bytes of a doubleword as they lie in memory (R5). -/
def bytesOfDword (w : Dword) : List Byte :=
  (List.range 8).map fun k => w.extractLsb' (8 * k) 8

/-- The instruction in eight bytes of memory, the lowest address first. -/
def decodeBytes (bs : List Byte) : Except Reject Instr := decode (dwordOfBytes bs)

/-- What the decoder reads from an instruction whose low bits are `w`; the bits above are zero. -/
def decodeTableWord (nbits w : Nat) : Option Instr :=
  if nbits ≤ 64 then (decodeBytes (bytesOfDword (BitVec.ofNat 64 (w % 2 ^ nbits)))).toOption else none

/-! ## The encoder -/

/-- The fields of a full-form instruction. -/
def Instr.fields : Instr → Option Raw
  | .nop i =>
    some (full i 0x00#8 0#8 0#8 0#8 (.v 0#8) 0#6)
  | .mov i d c =>
    some (full i 0x01#8 d 0#8 0#8 c 0#6)
  | .movs i d n clr =>
    some (full i 0x02#8 d 0#8 0#8 (.s n) (0#5 ++ BitVec.ofBool clr))
  | .kset i d c =>
    some (full i 0x03#8 (0#2 ++ d) 0#8 0#8 c 0#6)
  | .iadd i d a c sgn sat =>
    some (full i 0x04#8 d a 0#8 c (0#4 ++ BitVec.ofBool sat ++ BitVec.ofBool sgn))
  | .isub i d a c sgn sat =>
    some (full i 0x05#8 d a 0#8 c (0#4 ++ BitVec.ofBool sat ++ BitVec.ofBool sgn))
  | .imul i d a c sgn sat =>
    some (full i 0x06#8 d a 0#8 c (0#4 ++ BitVec.ofBool sat ++ BitVec.ofBool sgn))
  | .imulh i d a c sgn =>
    some (full i 0x07#8 d a 0#8 c (0#5 ++ BitVec.ofBool sgn))
  | .imad i d a b c sgn sat =>
    some (full i 0x08#8 d a b c (0#4 ++ BitVec.ofBool sat ++ BitVec.ofBool sgn))
  | .imadw i d a b c sgn =>
    some (full i 0x09#8 d a b (.v c) (0#5 ++ BitVec.ofBool sgn))
  | .iaddw i d a c sgn sat =>
    some (full i 0x0A#8 d a 0#8 c (0#4 ++ BitVec.ofBool sat ++ BitVec.ofBool sgn))
  | .idiv i d a c sgn =>
    some (full i 0x0B#8 d a 0#8 c (0#5 ++ BitVec.ofBool sgn))
  | .irem i d a c sgn =>
    some (full i 0x0C#8 d a 0#8 c (0#5 ++ BitVec.ofBool sgn))
  | .imin i d a c sgn =>
    some (full i 0x0D#8 d a 0#8 c (0#5 ++ BitVec.ofBool sgn))
  | .imax i d a c sgn =>
    some (full i 0x0E#8 d a 0#8 c (0#5 ++ BitVec.ofBool sgn))
  | .iabs i d c sat =>
    some (full i 0x0F#8 d 0#8 0#8 c (0#4 ++ BitVec.ofBool sat ++ 0#1))
  | .and i d a c =>
    some (full i 0x10#8 d a 0#8 c 0#6)
  | .or i d a c =>
    some (full i 0x11#8 d a 0#8 c 0#6)
  | .xor i d a c =>
    some (full i 0x12#8 d a 0#8 c 0#6)
  | .andn i d a c =>
    some (full i 0x13#8 d a 0#8 c 0#6)
  | .shl i d a c =>
    some (full i 0x14#8 d a 0#8 c 0#6)
  | .shr i d a c =>
    some (full i 0x15#8 d a 0#8 c 0#6)
  | .sar i d a c =>
    some (full i 0x16#8 d a 0#8 c 0#6)
  | .rot i d a c =>
    some (full i 0x17#8 d a 0#8 c 0#6)
  | .shf i d a b c =>
    some (full i 0x18#8 d a b c 0#6)
  | .popc i d c =>
    some (full i 0x19#8 d 0#8 0#8 c 0#6)
  | .clz i d c =>
    some (full i 0x1A#8 d 0#8 0#8 c 0#6)
  | .brev i d c =>
    some (full i 0x1B#8 d 0#8 0#8 c 0#6)
  | .bfx i d a c sgn =>
    some (full i 0x1C#8 d a 0#8 c (0#5 ++ BitVec.ofBool sgn))
  | .bfi i d a b c =>
    some (full i 0x1D#8 d a b c 0#6)
  | .prmt i d a b c =>
    some (full i 0x1E#8 d a b c 0#6)
  | .lea i d a c sh =>
    some (full i 0x1F#8 d a 0#8 c (0#3 ++ sh))
  | .isel i d a c p neg =>
    some (full i 0x20#8 d a 0#8 c (0#2 ++ BitVec.ofBool neg ++ p))
  | .icmp i d a c cond sgn =>
    some (full i 0x21#8 (0#5 ++ d) a 0#8 c (0#2 ++ BitVec.ofBool sgn ++ cond.code))
  | .plop i d a b e lut =>
    some (full i 0x22#8 (0#5 ++ d) (0#5 ++ a) (0#5 ++ b) (.imm lut) (0#3 ++ e))
  | .pmov i (.get d) =>
    some (full i 0x23#8 d 0#8 0#8 (.v 0#8) 0#6)
  | .pmov i (.put mask c) =>
    some (full i 0x23#8 0#8 (0#1 ++ mask) 0#8 c 1#6)
  | .bra i c =>
    some (full i 0x30#8 0#8 0#8 0#8 c 0#6)
  | .call i d c =>
    some (full i 0x31#8 d 0#8 0#8 c 0#6)
  | .ret i a =>
    some (full i 0x32#8 0#8 a 0#8 (.v 0#8) 0#6)
  | .smeet i (some c) =>
    some (full i 0x33#8 0#8 0#8 0#8 c 0#6)
  | .smeet i none =>
    some (full i 0x33#8 0#8 0#8 0#8 (.v 0#8) 1#6)
  | .exit i =>
    some (full i 0x34#8 0#8 0#8 0#8 (.v 0#8) 0#6)
  | .yield i =>
    some (full i 0x35#8 0#8 0#8 0#8 (.v 0#8) 0#6)
  | .nap i c =>
    some (full i 0x36#8 0#8 0#8 0#8 c 0#6)
  | .bar i =>
    some (full i 0x37#8 0#8 0#8 0#8 (.v 0#8) 0#6)
  | .cvset i n c =>
    some (full i 0x38#8 (0#4 ++ n) 0#8 0#8 c 0#6)
  | .cvleave i n =>
    some (full i 0x39#8 (0#4 ++ n) 0#8 0#8 (.v 0#8) 0#6)
  | .vote i d a neg mode =>
    some (full i 0x3A#8 d (0#5 ++ a) 0#8 (.v 0#8) (0#2 ++ BitVec.ofBool neg ++ mode.code))
  | .shfl i d a q c mode w =>
    some (full i 0x3B#8 d a (0#5 ++ q) c (0#2 ++ w ++ mode.code))
  | .redux i d a op prefx =>
    some (full i 0x3C#8 d a 0#8 (.v 0#8) (0#2 ++ BitVec.ofBool prefx ++ op.code))
  | .match_ i d a mode b64 =>
    some (full i 0x3D#8 d a 0#8 (.v 0#8) (0#3 ++ BitVec.ofBool b64 ++ mode.code))
  | .trap i =>
    some (full i 0x3E#8 0#8 0#8 0#8 (.v 0#8) 0#6)
  | .bkpt i =>
    some (full i 0x3F#8 0#8 0#8 0#8 (.v 0#8) 0#6)
  | .tret i mode b =>
    some (full i 0x40#8 0#8 0#8 b (.v 0#8) (0#4 ++ mode.code))
  | .csrr i d csr =>
    some (full i 0x41#8 d 0#8 0#8 (.imm csr) 0#6)
  | .csrw i csr a =>
    some (full i 0x42#8 0#8 a 0#8 (.imm csr) 0#6)
  | .islast i d =>
    some (full i 0x43#8 (0#5 ++ d) 0#8 0#8 (.v 0#8) 0#6)
  | .lnch i p d a off b =>
    some (full i 0x44#8 d a b off (0#3 ++ p))
  | .succ i =>
    some (full i 0x45#8 0#8 0#8 0#8 (.v 0#8) 0#6)
  | .pwait i p =>
    some (full i 0x46#8 0#8 0#8 0#8 (.v 0#8) (0#3 ++ p))
  | .fadd i d a c m =>
    some (full i 0x48#8 d a 0#8 c (fpBits m))
  | .fmul i d a c m =>
    some (full i 0x49#8 d a 0#8 c (fpBits m))
  | .ffma i d a b c m =>
    some (full i 0x4A#8 d a b c (fpBits m))
  | .fmin i d a c m =>
    some (full i 0x4B#8 d a 0#8 c (fpBits m))
  | .fmax i d a c m =>
    some (full i 0x4C#8 d a 0#8 c (fpBits m))
  | .fcmp i d a c cond ftz =>
    some (full i 0x4D#8 (0#5 ++ d) a 0#8 c (0#2 ++ BitVec.ofBool ftz ++ cond.code))
  | .fcls i d a =>
    some (full i 0x4E#8 d a 0#8 (.v 0#8) 0#6)
  | .frnd i d a m =>
    some (full i 0x4F#8 d a 0#8 (.v 0#8) (fpBits m))
  | .frcp i d a m =>
    some (full i 0x50#8 d a 0#8 (.v 0#8) (fpBits m))
  | .frsq i d a m =>
    some (full i 0x51#8 d a 0#8 (.v 0#8) (fpBits m))
  | .fsqrt i d a m =>
    some (full i 0x52#8 d a 0#8 (.v 0#8) (fpBits m))
  | .fdiv i d a c m =>
    some (full i 0x53#8 d a 0#8 c (fpBits m))
  | .fex2 i d a m =>
    some (full i 0x54#8 d a 0#8 (.v 0#8) (fpBits m))
  | .flg2 i d a m =>
    some (full i 0x55#8 d a 0#8 (.v 0#8) (fpBits m))
  | .fgumb i d a c =>
    some (full i 0x56#8 d a 0#8 c 0#6)
  | .rngc i d a c =>
    some (full i 0x57#8 d a 0#8 c 0#6)
  | .f2i i d a m =>
    some (full i 0x58#8 d a 0#8 (.v 0#8) (fpBits m))
  | .i2f i d a rm sgn =>
    some (full i 0x59#8 d a 0#8 (.v 0#8) (0#1 ++ BitVec.ofBool sgn ++ 0#2 ++ rm))
  | .fcvt i d a dst src rm ftz na nsat =>
    some (full i 0x5A#8 d a (0#2 ++ dst.code ++ src.code) (.v 0#8)
      (BitVec.ofBool nsat ++ 0#1 ++ BitVec.ofBool na ++ BitVec.ofBool ftz ++ rm))
  | .hadd2 i d a c m =>
    some (full i 0x5B#8 d a 0#8 c (fpBits m))
  | .hmul2 i d a c m =>
    some (full i 0x5C#8 d a 0#8 c (fpBits m))
  | .hfma2 i d a b c m =>
    some (full i 0x5D#8 d a b c (fpBits m))
  | .hmnx2 i d a c m =>
    some (full i 0x5E#8 d a 0#8 c (fpBits m))
  | .pk8 i d a c hi e5m2 ftz rm nsat =>
    some (full i 0x5F#8 d a 0#8 c (BitVec.ofBool nsat ++ rm ++ BitVec.ofBool ftz ++ BitVec.ofBool e5m2 ++ BitVec.ofBool hi))
  | .upk8 i d a n e5m2 =>
    some (full i 0x60#8 d a 0#8 (.v 0#8) (0#3 ++ BitVec.ofBool e5m2 ++ n))
  | .pk4 i d a c n ftz rm =>
    some (full i 0x61#8 d a 0#8 c (0#1 ++ rm ++ BitVec.ofBool ftz ++ n))
  | .upk4 i d a c n =>
    some (full i 0x62#8 d a 0#8 c (0#3 ++ n))
  | .fscl i d a c m =>
    some (full i 0x63#8 d a 0#8 c (fpBits m))
  | .ld i d a off m =>
    some (full i 0x70#8 d a (swzBits 0#2 m) off (memBits m))
  | .st i d a off m =>
    some (full i 0x71#8 d a (swzBits 0#2 m) off (memBits m))
  | .ldc i d a off m =>
    some (full i 0x72#8 d a (swzBits 0#2 m) off (memBits m))
  | .ldfe i d a off m clear =>
    some (full i 0x73#8 d a (swzBits (if clear then 2#2 else 1#2) m) off (memBits m))
  | .stfe i d a off m =>
    some (full i 0x74#8 d a (swzBits 0#2 m) off (memBits m))
  | .atom i d a off b op sg =>
    some (full i 0x75#8 d a b off (sg.code ++ op.code))
  | .acas i d a off b b64 sg =>
    some (full i 0x76#8 d a b off (sg.code ++ 0#3 ++ BitVec.ofBool b64))
  | .afadd i d a off b sg =>
    some (full i 0x77#8 d a b off (sg.code ++ 0#4))
  | .ab2add i a off b sg =>
    some (full i 0x78#8 0#8 a b off (sg.code ++ 0#4))
  | .avimx i d a off b noRet sg =>
    some (full i 0x79#8 d a b off (sg.code ++ 0#3 ++ BitVec.ofBool noRet))
  | .red i a off b op sg =>
    some (full i 0x7A#8 0#8 a b off (sg.code ++ op.code))
  | .fence i sc kind =>
    some (full i 0x7B#8 0#8 0#8 0#8 (.v 0#8) (0#1 ++ kind.code ++ sc.code))
  | .pref i a off m =>
    some (full i 0x7C#8 0#8 a (swzBits 0#2 m) off (memBits m))
  | .cctl i op a off =>
    some (full i 0x7D#8 0#8 a 0#8 off (0#3 ++ op.code))
  | .lsacq i p d a b c =>
    some (full i 0x7E#8 d a b c (0#3 ++ p))
  | .lsrel i a =>
    some (full i 0x7F#8 0#8 a 0#8 (.v 0#8) 0#6)
  | .snap i p d e =>
    some (full i 0x90#8 (0#4 ++ d) e 0#8 (.v 0#8) (0#3 ++ p))
  | .rstr i a c =>
    some (full i 0x91#8 0#8 (0#4 ++ a) 0#8 c 0#6)
  | .sprt i p d a c =>
    some (full i 0x92#8 d (0#4 ++ a) 0#8 c (0#3 ++ p))
  | .drop i d =>
    some (full i 0x93#8 (0#4 ++ d) 0#8 0#8 (.v 0#8) 0#6)
  | .hdup i d a =>
    some (full i 0x94#8 (0#4 ++ d) (0#4 ++ a) 0#8 (.v 0#8) 0#6)
  | .hspl i d b a off whole =>
    some (full i 0x95#8 d a (0#4 ++ b) off (0#2 ++ BitVec.ofBool whole ++ 0#3))
  | .hldm i p d a off =>
    some (full i 0x96#8 (0#4 ++ d) a 0#8 off (0#3 ++ p))
  | .hinf i d a sel =>
    some (full i 0x97#8 d (0#4 ++ a) 0#8 (.v 0#8) (0#3 ++ sel.code))
  | .xacq i p n =>
    some (full i 0x98#8 (0#6 ++ n) 0#8 0#8 (.v 0#8) (0#3 ++ p))
  | .xrel i n =>
    some (full i 0x99#8 (0#6 ++ n) 0#8 0#8 (.v 0#8) 0#6)
  | .spawn i p a off =>
    some (full i 0x9A#8 0#8 a 0#8 off (0#3 ++ p))
  | .qenq i p a off b =>
    some (full i 0x9B#8 0#8 a b off (0#3 ++ p))
  | .qdeq i p d a off =>
    some (full i 0x9C#8 d a 0#8 off (0#3 ++ p))
  | .csub i p d a off b =>
    some (full i 0x9D#8 d a b off (0#3 ++ p))
  | .esc i p a =>
    some (full i 0x9E#8 0#8 a 0#8 (.v 0#8) (0#3 ++ p))
  | .cret i a =>
    some (full i 0x9F#8 0#8 a 0#8 (.v 0#8) 0#6)
  | .slrsv i p d a =>
    some (full i 0xA0#8 (0#4 ++ d) a 0#8 (.v 0#8) (0#3 ++ p))
  | .slrel i d =>
    some (full i 0xA1#8 (0#4 ++ d) 0#8 0#8 (.v 0#8) 0#6)
  | .mma i d a b c nb pair =>
    some (full i 0xA2#8 (0#6 ++ d) a (0#4 ++ b) c (0#1 ++ BitVec.ofBool pair ++ nb))
  | .mmag i d a b c nb =>
    some (full i 0xA3#8 (0#6 ++ d) a (0#4 ++ b) c (0#2 ++ nb))
  | .mzero i d i40 =>
    some (full i 0xA4#8 (0#6 ++ d) 0#8 0#8 (.v 0#8) (0#5 ++ BitVec.ofBool i40))
  | .mrd i d a kb c fmt e5m2 scl guid =>
    some (full i 0xA5#8 d (0#6 ++ a) (0#2 ++ kb) c (0#1 ++ BitVec.ofBool guid ++ BitVec.ofBool scl ++ BitVec.ofBool e5m2 ++ fmt.code))
  | .mwr i d a c i32 =>
    some (full i 0xA6#8 (0#6 ++ d) a 0#8 c (0#5 ++ BitVec.ofBool i32))
  | .mscl i d a =>
    some (full i 0xA7#8 (0#6 ++ d) a 0#8 (.v 0#8) 0#6)
  | .mchk i d a clr =>
    some (full i 0xA8#8 d (0#6 ++ a) 0#8 (.v 0#8) (0#5 ++ BitVec.ofBool clr))
  | .slcb i d a off =>
    some (full i 0xA9#8 (0#6 ++ d) a 0#8 off 0#6)
  | .mxcfg i d c tscale =>
    some (full i 0xAA#8 (0#4 ++ d) 0#8 0#8 c (0#5 ++ BitVec.ofBool tscale))
  | .cpy i d a b c tk =>
    some (full i 0xB0#8 d a b c (0#3 ++ tk))
  | .cpyg i d a b c tk =>
    some (full i 0xB1#8 d a b c (0#3 ++ tk))
  | .cpys i d a b c tk =>
    some (full i 0xB2#8 d a b c (0#3 ++ tk))
  | .carm i a off b =>
    some (full i 0xB3#8 0#8 a b off 0#6)
  | .cwait i d a off b =>
    some (full i 0xB4#8 d a b off 0#6)
  | .ctest i p d a off b =>
    some (full i 0xB5#8 d a b off (0#3 ++ p))
  | .mst i d a b c fmt tk =>
    some (full i 0xB6#8 d (0#6 ++ a) b c (fmt.code ++ tk))
  | .coll i d a b c op tk =>
    some (full i 0xB7#8 d a b c (op.code ++ tk))
  | .phash i d a b =>
    some (full i 0xB8#8 d a b (.v 0#8) 0#6)
  | .pgpin i p a off =>
    some (full i 0xB9#8 0#8 a 0#8 off (0#3 ++ p))
  | .pgunpin i p a off =>
    some (full i 0xBA#8 0#8 a 0#8 off (0#3 ++ p))
  | .slcommit i p d a c =>
    some (full i 0xBB#8 d a 0#8 c (0#3 ++ p))
  | .slqry i d a b set field =>
    some (full i 0xBC#8 d a b (.v 0#8) (0#3 ++ BitVec.ofBool set ++ field.code))
  | .pairedWord .. => none
  | .illop .. | .threadArrives .. | .rdvtmo .. | .passedOverBound .. | .groupSwap .. | .starvedPromotion ..
  | .loadLands .. | .napEnd .. | .ldfeWake .. | .cwaitWake .. | .pwaitRelease .. | .xacqMap .. | .kilnfull ..
  | .wdog .. | .remtmo .. | .trapEntry .. | .teamEnd .. | .swapOut .. | .accessConfirmed .. | .runAhead ..
  | .matrixUnitPerform .. | .pairedStart .. | .pairedMmaTimeout .. | .arrive .. | .fail .. | .efault ..
  | .flit .. | .collComplete .. | .collTimeout .. | .failureNotice .. | .partialGroup .. | .leaseExpiry ..
  | .roundCommit .. | .dequeue .. | .semaphorePoll .. | .admit_ .. | .place .. | .urgent .. | .launchEnd ..
  | .qtail .. | .preempt .. | .resume .. | .resumePlacement .. | .end_ .. | .fqhead .. | .eactRetry ..
  | .eactUnresolvable .. | .mqtail .. | .migrate .. | .migdone .. | .migabort .. | .all .. | .page ..
  | .translationDropDone .. | .evict .. | .demote .. | .slotWrite .. | .registerWrite .. | .inboundPostedWrite ..
  | .inboundRead .. | .inboundAtomicop .. | .outboundCompletion .. | .completionTimeout .. | .linkState ..
  | .recoveryLimit .. | .cxlPortDown .. | .hold .. | .inrstClear .. | .getlimits .. | .gettelem .. | .setcap ..
  | .setwarn .. | .getageing .. | .replan .. | .replanEnd .. | .thermalTrip .. | .freeze .. | .frz ..
  | .readOut .. | .moduleReset .. | .bringupStage .. | .reachesHome .. | .wctPassed ..
  | .matrixInstructionFinish .. | .fetchFault .. | .pgpinAnswer .. | .powerToken .. | .firmwareThrottle ..
  | .fusedCeiling .. | .slackMeasurement .. | .mainRailLoss .. | .moduleResetAssert .. | .pcieLinkState ..
  | .busMasterEnable .. | .vectorUnmask .. | .diepart .. | .unknownCommand .. => none

/-- The paired word of two halves (R79). -/
def packPair (x y : Half) : Dword := 0#2 ++ 1#1 ++ x.bits ++ y.bits ++ 0#1

/-- The word of an instruction; an event, and a word that is not an instruction, has none. -/
def Instr.encode : Instr → Option Dword
  | .pairedWord x y => some (packPair x y)
  | i => i.fields.map Raw.pack

end Sys2Proof
end

