-- ==== Sys2Proof/Config.lean ====
section
/-! DEFINITION. The figures of the module (R2), and the values the spec leaves open, as opaque constants. -/

namespace Sys2Proof.Config

/-- A free natural number for each value of the counter `State.fresh`. Nothing is known of it: it stands for every
value and every choice of moment or order that the spec leaves open (log entry 1). -/
opaque free : Nat → Nat

/-- A free doubleword for each value of the counter `State.fresh` (log entry 1). -/
opaque freeDword : Nat → Dword

/-- The fused power ceiling of the module in W (R2, R402). -/
def fusedCeiling : Word := 5200#32

/-- What the fuses and the firmware hold (R402, R404): firmware version, thermal trip in 0.1 °C, voltage ceiling in mV, and the
ceiling of each die in W (log entry 1). -/
opaque firmwareVersion : Word
opaque fusedTrip : Word
opaque fusedVoltage : Word
opaque fusedDieCeiling : Nat → Word

/-- The set of a line in an L1, in a slice of L2 and in a last-level cache, and the re-reference value at which a line is inserted
that no hint names: the spec gives none (log entry 7). -/
opaque l1Set : Nat → Nat
opaque l2Set : Nat → Nat
opaque llcSet : Nat → Nat
opaque insertAt : Nat

/-- Lines of a die's last-level cache: 128 MiB of 128 bytes (R279). -/
def llcLines : Nat := 1048576

/-- The sets of a last-level cache are a power of two that the spec does not give, so that it has 16 ways at least (log entry 7). -/
opaque llcLog : Nat
def llcSets : Nat := 2 ^ (llcLog % 17)
def llcWays : Nat := llcLines / llcSets

/-- Compute dies (R2). -/
def dies : Nat := 8
/-- Cores of a die (R2). -/
def coresPerDie : Nat := 80
/-- Columns of a die's core array (R2). -/
def columns : Nat := 10
/-- Rows of a die's core array (R2). -/
def rowsOfDie : Nat := 8
/-- Cores of the module (R2). -/
def cores : Nat := 640
/-- Sub-cores of a core (R2). -/
def subs : Nat := 4
/-- Resident group slots of a sub-core (R2). -/
def slotsPerSub : Nat := 16
/-- Active groups of a sub-core (R331). -/
def activeMax : Nat := 8
/-- Rows of a lane bank (R16). -/
def bankRows : Nat := 512
/-- Handle-table entries of a sub-core (R22). -/
def tableEntries : Nat := 1024
/-- Hardware entries of a sub-core (R22). -/
def hwEntries : Nat := 16
/-- Lines of a core's instruction cache: 128 KiB of 128 bytes (R279). -/
def icacheLines : Nat := 1024
/-- Bytes of a core's Basin (R279). -/
def basinBytes : Nat := 1572864
/-- Bytes of a core's Slip (R279). -/
def slipBytes : Nat := 1048576
/-- Bytes of a partition's HBM5 per die: two stacks of 72 GB (R2, R7). -/
def hbmPerDie : Nat := 144000000000
/-- Bytes of an LPDDR6 unit of LPDQ (R395): 128 GB (R7). -/
def lpUnit : Nat := 128000000000
/-- Bytes of the Type 3 device behind each CXL port: what is attached is not the module's, and the spec gives its most only. -/
opaque cxlDevice : Nat → Nat

/-- Bytes that a CXL port supplies: at most 2,048 GB (R7, R393). -/
def cxlPort (port : Nat) : Nat := min (cxlDevice port) 2048000000000
/-- Issue cycles after which a passed-over PC is preferred (R123). -/
def passBound : Nat := 256
/-- Cycles after which a starved pending group is promoted (R332). -/
def starveBound : Nat := 4096
/-- Engine commands a core holds in flight (R247). -/
def cmdMax : Nat := 128
/-- Instructions a matrix unit holds (R223). -/
def mxQueue : Nat := 16
/-- Launches of a partition in flight (R323). -/
def launchMax : Nat := 64
/-- Entries of a partition's spawn list, and its watermarks (R210, R211). -/
def spawnMax : Nat := 4096
def spawnHigh : Nat := 3072
def spawnLow : Nat := 1024
/-- Cycles after which a unit that is next makes its launch urgent (R328). -/
def urgentAfter : Nat := 65536
/-- Cycles of the 1 ms over which power is averaged (R402). -/
def powerWindow : Nat := 850000
/-- Cycles a link may stay in recovery (R394). -/
def recoveryMax : Nat := 850000

/-- Cycles that the re-plan of a core may take (R405). -/
def replanMax : Nat := 100000

end Sys2Proof.Config
end

