-- ==== Sys2Proof/Machine/Sparse.lean ====
section
/-! DEFINITION. Sparse tables: lists of (key, value) pairs with keys strictly rising and no entry equal to what an
unlisted key reads as. Memory is the table of bytes. -/

namespace Sys2Proof.Machine.Sparse

variable {α : Type}

/-- The value at a key; an unlisted key reads as `dflt`. -/
def get (dflt : α) : List (Nat × α) → Nat → α
  | [], _ => dflt
  | (k, v) :: rest, i => if i = k then v else get dflt rest i

/-- The table without the key. -/
def erase : List (Nat × α) → Nat → List (Nat × α)
  | [], _ => []
  | (k, v) :: rest, i => if i = k then erase rest i else (k, v) :: erase rest i

/-- The table with an entry put in its place. -/
def insert : List (Nat × α) → Nat → α → List (Nat × α)
  | [], i, x => [(i, x)]
  | (k, v) :: rest, i, x =>
    if i < k then (i, x) :: (k, v) :: rest
    else if i = k then (i, x) :: rest
    else (k, v) :: insert rest i x

/-- The table after a write: the value that an unlisted key reads as is not listed. -/
def set [DecidableEq α] (dflt : α) (m : List (Nat × α)) (i : Nat) (x : α) : List (Nat × α) :=
  if x = dflt then erase m i else insert m i x

/-- The keys of the table rise strictly from above `lo`, and no entry holds the default. -/
def above [DecidableEq α] (dflt : α) : Option Nat → List (Nat × α) → Bool
  | _, [] => true
  | lo, (k, v) :: rest =>
    (match lo with | none => true | some b => decide (b < k)) && decide (v ≠ dflt) && above dflt (some k) rest

/-- The canonical form. -/
def wf [DecidableEq α] (dflt : α) (m : List (Nat × α)) : Bool := above dflt none m

end Sys2Proof.Machine.Sparse
end

