-- ==== Sys2Proof/Machine/State.lean ====
section
/-! DEFINITION. The state of the Swehild as plain data: threads, groups, teams, cores, partitions and the module, with
the work in progress (accesses, engine commands, matrix instructions, launches) that the spec describes. Sparse tables
are lists of (key, value) pairs, keys strictly rising, no entry equal to what an unlisted key reads as. -/

namespace Sys2Proof.Machine

open Sys2Proof

/-- A sparse table (see `Machine/Sparse.lean` for reading and writing it). -/
abbrev SMap (α : Type) := List (Nat × α)

/-- The reasons a step can stop with a fault. Every fault of the spec is a NEXT state (a trap entry, a stopped team, an
ended team), so these are the model's own. -/
inductive Fault where
  /-- Raised by a meaning whose cursor names no resident team or group; `step` never sets such a cursor. Safe. -/
  | noIssuer
  deriving DecidableEq, Repr

/-- The reasons an instruction can be refused. -/
inductive Refusal where
  /-- Raised by `exec` for a constructor that has no meaning yet. Safe. -/
  | notModelled (mnemonic : String)
  deriving DecidableEq, Repr

/-! ## Threads, rows and handle entries -/

/-- The pool a physical row was taken from (R17, R195). -/
inductive Pool where
  | base (g : Nat)
  | ext (g : Nat)
  | snap
  deriving DecidableEq, Repr

/-- A physical row of a lane bank (R16). A row is free when its count is 0 and no register is pending. -/
structure Row where
  regs : Vector Word 8
  pend : BitVec 8
  poison : BitVec 8
  count : Nat
  owner : Nat
  pool : Pool
  deriving DecidableEq, Repr

/-- What an unlisted row of the Kiln reads as: free, zero, marks clear. -/
def rowDefault : Row :=
  { regs := .replicate 8 0#32, pend := 0#8, poison := 0#8, count := 0, owner := 0, pool := .snap }

/-- The items of R11 that SNAP captures. -/
structure Capture where
  pc : Word
  mr : Word
  stack : List Word
  rows : Vector (Option Nat) 32
  preds : BitVec 7
  h : Vector Word 16
  taint : BitVec 256
  tsw : Word
  parent : Word
  depth : Nat
  deriving DecidableEq, Repr

/-- A handle-table entry (R22, R195). -/
structure Entry where
  cap : Capture
  resume : BitVec 8
  owner : Nat
  refs : Nat
  lane : Nat
  spill : Dword
  deriving DecidableEq, Repr

/-- The cascade item a rung thread holds (R217). -/
structure Held where
  casc : Dword
  rung : Nat
  index : Word
  depth : Nat
  deriving DecidableEq, Repr

/-- Why a thread stands outside the grouping stage (R122, R356), with what its wait needs. -/
inductive Wait where
  | none
  | nap (til : Nat)
  | ldfe (d : VReg) (size : MSize) (off : Nat) (swz : BitVec 3) (clear : Bool)
  /-- CWAIT, or CTEST of a deterministic launch with its predicate (R258, R259). -/
  | cwait (p : Option PReg) (d : VReg) (off : Nat) (ph : Bool)
  | pwait (p : PReg)
  | xacq (n : BitVec 2) (p : PReg)
  /-- Stalled for Kiln rows (R18), until the word that stalls finds those that it needs. -/
  | kiln
  /-- PGPIN or PGUNPIN of the page of an IA (R268). -/
  | pin (ia : Nat) (p : PReg) (add : Bool)
  /-- An access issued without a speculation entry has not been confirmed (R362). -/
  | access (id : Nat)
  /-- The word waits for what it reads through the external aperture (R391). -/
  | object
  | matrix
  | commit
  /-- COLL waits until its command has read the number of nodes, on which its limits depend (R261). -/
  | coll (id : Nat)
  /-- Closed at a word that is performed at the team's turn in the commit (R344). -/
  | turn
  | spawnHold
  | queueHold (q : Dword)
  deriving DecidableEq, Repr

/-- The wide-scope instruction a thread has arrived at (R131), by the scope its word carries. -/
inductive Arr where
  | no
  | group
  | set (cv : CvN)
  | team (cv : CvN)
  deriving DecidableEq, Repr

/-- A release fence in progress (R186): the accesses numbered below the bound that it waits for, the lanes whose accesses
they are, its scope, and whether later loads wait too. -/
structure RelGate where
  bound : Nat
  lanes : BitVec 32
  sc : FScope
  full : Bool
  deriving DecidableEq, Repr

/-- An acquire in progress (R186): later loads wait for the loads numbered below the bound of the lanes named; `wide`
when the scope excludes older L1 copies. -/
structure AcqGate where
  bound : Nat
  lanes : BitVec 32
  wide : Bool
  deriving DecidableEq, Repr

/-- One thread (R11). -/
structure Thread where
  live : Bool
  /-- Started by a SPRT in this cycle: the thread counts from the next cycle (R199, R372). -/
  born : Bool
  pc : Word
  mr : Word
  stack : List Word
  rows : Vector (Option Nat) 32
  preds : BitVec 7
  h : Vector Word 16
  taint : BitVec 256
  tsw : Word
  parent : Word
  depth : Nat
  clkLatch : Option Word
  gtLatch : Option Word
  arr : Arr
  wait : Wait
  waited : Nat
  skipped : Nat
  rdv : Nat
  held : Option Held
  /-- GT at which the thread's last load observed its value; L1 copies leased before `acqTime` are not hit (R186). -/
  lastLoad : Nat
  acqTime : Nat
  acq : Option AcqGate
  rel : Option RelGate
  /-- Latest WCT of this thread's stores and of its atomics of scope group team, die, device, system (R186). -/
  wct : Vector Nat 5
  /-- Registers and predicates whose value is unknown in run-ahead (R363). -/
  unkV : BitVec 256
  unkQ : BitVec 7
  /-- Staged entries of the current round, and whether the thread has closed it (R343, R344). -/
  staged : Nat
  closed : Bool
  deriving DecidableEq, Repr

/-- A thread that has ended or was never started: no rows, no handles. -/
def threadIdle : Thread :=
  { live := false, born := false, pc := 0#32, mr := allOnes, stack := [], rows := .replicate 32 none, preds := 0#7,
    h := .replicate 16 0#32, taint := 0#256, tsw := 0#32, parent := 0#32, depth := 0, clkLatch := none,
    gtLatch := none, arr := .no, wait := .none, waited := 0, skipped := 0, rdv := 0, held := none, lastLoad := 0,
    acqTime := 0, acq := none, rel := none, wct := .replicate 5 0, unkV := 0#256, unkQ := 0#7, staged := 0, closed := false }

/-! ## Groups and teams -/

/-- A user handler in progress (R355, R356): the hardware entry's captures by lane, and the fault it serves. -/
structure Handler where
  caps : List (Nat × Capture)
  /-- The lanes of the handler set whose threads have ended in the handler (R410). -/
  out : List Nat
  /-- Width in registers of the faulting destination (R276). -/
  width : Nat
  /-- The member groups of an S- or T-scope single execution that raised the trap (R101); empty otherwise. -/
  members : List Nat
  arr : Arr
  /-- The kind of single execution that raised it after its members had gone on (R101, R233). -/
  late : Arr
  /-- The timer of the group rendezvous that the waiting threads have joined, which runs on (R135, R357). -/
  timer : Option Nat
  tskip : Nat
  deriving DecidableEq, Repr

/-- A speculation entry of a group (R362), and its run-ahead (R363) once an access has returned XLATE. -/
structure Spec where
  caps : List (Nat × Capture)
  /-- The destination registers of the access that took the entry, as they were: row, position, value, poison. -/
  olds : List (Nat × Nat × Word × Bool)
  /-- First access issued under the entry. -/
  start : Nat
  runAhead : Bool
  pages : List Nat
  words : Nat
  pc : Word
  lanes : BitVec 32
  dst : Word
  va : Dword
  deriving DecidableEq, Repr

/-- A user trap raised and not yet entered, because no hardware entry was free (R355). -/
structure TrapReq where
  code : Word
  lanes : BitVec 32
  pc : Word
  dst : Word
  width : Nat
  members : List Nat
  arr : Arr
  late : Arr
  /-- Cycles in which the entry has wanted for budget rows (R355), and those skipped (R366). -/
  waited : Nat
  skipped : Nat
  deriving DecidableEq, Repr

/-- One group (R26). -/
structure Group where
  sub : Nat
  slot : Nat
  threads : Vector Thread 32
  tokens : BitVec 8
  reserve : Bool
  active : Bool
  xhold : BitVec 3
  fltmask : Word
  fltpc : Word
  fltcode : Word
  fltdst : Word
  handler : Option Handler
  spec : Option Spec
  trap : Option TrapReq
  /-- Cycles passed over, by PC (R123). -/
  passed : List (Word × Nat)
  /-- The PC that reached the bound of R123 and is chosen at the next issue. -/
  prefer : Option Word
  /-- The PC that an L-scope YIELD asks to pass over at the next issue (R129). -/
  yielded : Option Word
  /-- Cycle since which the group has had a ready set without issuing; 0 when it has none. -/
  readySince : Nat
  /-- By PC, the cycle since which the ready set there has been ready (R333). -/
  readyAt : List (Word × Nat)
  /-- Issue cycles of its sub-core that went to single executions of other groups while it was the one ready longest (R333). -/
  passedBy : Nat
  lastIssue : Nat
  /-- Cycle in which the group joined the pending set, for R332. -/
  pendSince : Nat
  /-- Rendezvous timer of a G-scope rendezvous (R134), and the cycles it has skipped (R366). -/
  timer : Option Nat
  tskip : Nat
  gbc : BitVec 16
  /-- BARs executed: accesses numbered below the bound and issued by the member groups are performed before any access
  that this group issues now (R137). -/
  gates : List (Nat × List Nat)
  deriving DecidableEq, Repr

/-- A convergence register (R28), with the timer of its rendezvous (R134). -/
structure Cv where
  mask : Dword
  arr : Nat
  phase : Bool
  mism : Bool
  gdeg : Bool
  timer : Option Nat
  tskip : Nat
  deriving DecidableEq, Repr

def cvReset : Cv := { mask := 0#64, arr := 0, phase := false, mism := false, gdeg := false, timer := none, tskip := 0 }

/-- The shadow of a Basin word in a deterministic launch (R350). -/
structure Shadow where
  wg : Nat
  wl : Nat
  tb : BitVec 16
  gb : BitVec 16
  deriving DecidableEq, Repr

/-- A fault record (R359) before it is written to the ring. -/
structure FaultRec where
  code : BitVec 8
  cls : BitVec 2
  inh : Bool
  cv : Option CvN
  lnum : Word
  team : Nat
  core : Nat
  group : Nat
  slot : Option Nat
  pc : Word
  lanes : Word
  members : Dword
  pc2 : Word
  dst : Word
  va : Dword
  time : Nat
  pages : List Nat
  deriving DecidableEq, Repr

/-- Where a team stands with respect to its core (R353, R361, R367). -/
inductive TeamSt where
  | run
  /-- Issue has stopped; the swap-out drains before the image is written. -/
  | stopping (r : FaultRec)
  /-- Stopped in place for want of a save slot (R361). -/
  | inPlace
  /-- Swapped out to a save slot. -/
  | out (slot : Nat)
  /-- RESUME accepted, no core fits yet (R370). -/
  | resuming (slot : Nat)
  /-- Every thread has exited or the team was ended; engine commands still complete (R128, R353). -/
  | ending (fault : Bool)
  deriving DecidableEq, Repr

/-- One team (R27). -/
structure Team where
  id : Nat
  part : Nat
  lnum : Word
  index : Nat
  /-- True for a team of the grid, false for a spawned task or a cascade rung group (R320). -/
  grid : Bool
  /-- A spawned task (R210). -/
  task : Bool
  depth : Nat
  core : Nat
  s0 : Nat
  cluster : Nat
  rank : Nat
  /-- Its cluster among all that have been placed: the id of the first team of it. -/
  cid : Nat
  /-- The cores of the cluster by rank, and its size. -/
  cores : List Nat
  st : TeamSt
  k : Vector Word 64
  cvs : Vector Cv 16
  groups : List Group
  basinBase : Nat
  basinLen : Nat
  xblk : Nat
  snaprows : Nat
  trapvec : Word
  fpen : Word
  rdvwd : Word
  wdrem : Word
  gscale : Word
  burstcap : Word
  succ : Bool
  tbc : BitVec 16
  shadows : SMap Shadow
  /-- The 16-byte granules of the allocation whose full-empty bit is full (R175), and those of which an engine write has set it (R309). -/
  full : List Nat
  engFull : List Nat
  /-- Its control state has been lost, so that it cannot be resumed (R378). -/
  broken : Bool
  /-- Data errors of atomics without return that were reported while the team was being stopped: group, lanes, PC, address
  (R185). -/
  late : List (Nat × BitVec 32 × Word × Dword)
  /-- One more than the cycle in which a user trap was last delivered in it (R354). -/
  struck : Nat
  /-- GT at which it last came to its core out of a save slot: its threads hit no L1 copy leased before (R300). -/
  since : Nat
  /-- One more than the cycle in which RDVWD or WDREM was last written: waits compare with the new values from the next one on (R32). -/
  wdSet : Nat
  deriving DecidableEq, Repr

/-! ## Accesses in flight -/

/-- What an access in flight does at its home. -/
inductive AccOp where
  | load (sgn : Bool)
  | store (fe : Bool)
  | atom (op : AtomOp)
  | cas
  | fadd
  | b2add
  | vimx
  | qenq (p : PReg)
  | qdeq (p : PReg) (d : VReg)
  | csub (p : PReg) (d : VReg)
  | cret
  deriving DecidableEq, Repr

/-- One lane's part of an access in flight: its effective address, its IA (global) or the keys of its bytes (Basin, Slip),
data, and where the result lands (row key and first position in the row, or nothing). -/
structure LaneAcc where
  lane : Nat
  va : Dword
  ia : Nat
  keys : List Nat
  data : BitVec 512
  dst : Option (Nat × Nat)
  /-- Filled once the access has been performed: the value and whether it is poisoned. -/
  val : Option (BitVec 128 × Bool)
  /-- Not yet performed at the home. -/
  todo : Bool
  /-- Of AB2ADD: the addition to bits 15:0 has been performed (R316). -/
  half : Bool := false
  /-- Cycles that its thread has waited for it, and those of them that are not counted (R366). -/
  waited : Nat := 0
  skipped : Nat := 0
  deriving DecidableEq, Repr

/-- One memory instruction in flight. -/
structure Flight where
  id : Nat
  team : Nat
  group : Nat
  pc : Word
  op : AccOp
  size : Nat
  nreg : Nat
  /-- Local accesses (Basin, Slip) take their value at issue; only the landing is outstanding. -/
  remote : Bool
  /-- A Cistern-space access (R171). -/
  cistern : Bool
  confirmed : Bool
  /-- Staged for the commit of a deterministic round (R343), and how many rounds after the current one that is (R344). -/
  staged : Bool
  later : Nat
  /-- The IAs whose lanes are being performed, which no other agent writes in between (R178). -/
  hot : List Nat
  /-- The lanes on shared lines of an instruction whose other lanes make the flight numbered next (R343). -/
  mate : Bool
  /-- The replacement position of the line that it fills (R173). -/
  pos : Nat
  /-- It reads an object through the aperture for a thread that waits at its word (R391): its value is kept until the thread leaves. -/
  object : Bool
  sg : SGroup
  taint : Bool
  /-- Cycles outstanding (R331). -/
  age : Nat
  lanes : List LaneAcc
  deriving DecidableEq, Repr

/-- A line that L2 or a last-level cache holds, by its IA: its re-reference value (R173, R287), and whether it has been written since it
came from memory. -/
structure CLine where
  line : Nat
  rrpv : Nat
  dirty : Bool := false
  deriving DecidableEq, Repr

/-- A clean copy of a line in L1 (R284): the L1 that holds it (see `State.l1Of`), IA line, bytes, re-reference value. -/
structure L1Copy where
  holder : Nat
  line : Nat
  data : BitVec 1024
  poison : Bool
  began : Nat
  ends : Nat
  rrpv : Nat
  deriving DecidableEq, Repr

/-- An instruction-cache line (R286). -/
structure ILine where
  core : Nat
  line : Nat
  data : BitVec 1024
  deriving DecidableEq, Repr

/-- The loop buffer of a sub-core (R286): the words from `lo` to the branch at `hi`, and the threads (group, lane) of the
team that run from it (R189). -/
structure Loop where
  core : Nat
  sub : Nat
  team : Nat
  lo : Word
  hi : Word
  words : List Dword
  inside : List (Nat × Nat)
  deriving DecidableEq, Repr

/-! ## Matrix engine -/

/-- One accumulator slot (R29, R243). -/
structure Acc where
  cells : SMap (BitVec 40)
  poison : List Nat
  i40 : Bool
  sat : Bool
  miss : Bool
  fail : Bool
  rerun : Nat
  deriving DecidableEq, Repr

def accReset : Acc :=
  { cells := [], poison := [], i40 := false, sat := false, miss := false, fail := false, rerun := 0 }

/-- A reservation record: the eight words of R224, LIVE in bit 0 of the last. -/
abbrev RecW := Vector Word 8

/-- The B operand of a product as it was read in the execution cycle (R223, R311): the record and its number, the chunk and the first
column block, and per column block its panel and its scales as little-endian numbers; `bad` when a byte of them is poisoned. -/
structure BRead where
  img : RecW
  num : RecN
  kc : Nat
  cb : Nat
  panels : List (Nat × Nat)
  bad : Bool
  deriving DecidableEq, Repr

/-- What a queued matrix instruction will do at its turn, with the operands read at its execution (R223). A row of A is its
registers as one little-endian number; a lane without a live thread supplies 0 (R230). -/
inductive MxWork where
  | mma (d : SlotN) (rows : List Nat) (b : BRead)
  | mmag (d : SlotN) (rowsC rowsU : List Nat) (liveC liveU : Bool) (b : BRead)
  | pair (d : SlotN) (rows : List Nat) (r : RecN) (mod : Nat) (pos : Word) (b : BRead)
  | mzero (d : SlotN) (i40 : Bool)
  | mwr (d : SlotN) (i32 : Bool) (col0 : Nat) (vals : List (Nat × List Word))
  | mscl (d : SlotN) (vals : List (Nat × Word))
  | mrd (d : VReg) (a : SlotN) (fmt : MrdFmt) (e5m2 : Bool) (scl : Option Word) (guid : Option Word) (row0 col0 : Nat)
  | mchk (d : VReg) (a : SlotN) (clr : Bool)
  | slcb (d : BitVec 2) (va : Nat) (words : List Word) (bad : Bool)
  /-- SLRSV, SLREL or MXCFG of a record, whose effect came with its execution. -/
  | rec_ (r : RecN)
  | mst (a : SlotN) (fmt : MstFmt) (e5m2 : Bool) (cb nb rows stride cmd : Nat)
  deriving DecidableEq, Repr

/-- A queued matrix instruction (R223). -/
structure MxOp where
  team : Nat
  pc : Word
  /-- The scope and cv of its single execution. -/
  arr : Arr
  /-- Members in ascending group index, with their live lanes at execution. -/
  members : List (Nat × BitVec 32)
  work : MxWork
  cycles : Nat
  /-- The cycle of its execution; it starts in a later one than `after`. -/
  time : Nat
  after : Nat
  /-- Cycles a paired MMA has waited for its partner, and those it has skipped (R366). -/
  waited : Nat
  skipped : Nat
  /-- The unit has found a data error in it: it stays in the queue until the team goes on (R244). -/
  failed : Bool
  /-- The ILLOP of its execution is being handled, so that it does not start (R101, R233). -/
  held : Bool
  /-- It runs again: 1 after a mismatch of its own checksums, 2 after one of its partner's (R234). -/
  again : Nat
  deriving DecidableEq, Repr

/-- The reuse latch (R232). -/
structure Latch where
  team : Nat
  va : VReg
  arr : Arr
  members : List (Nat × BitVec 32)
  afmt : Nat
  rows : List Nat
  deriving DecidableEq, Repr

/-- The matrix state of one core (R29). -/
structure Mx where
  slots : Vector Acc 4
  recs : Vector RecW 16
  cbs : Vector (SMap Word) 4
  cbPoison : BitVec 4
  latch : Option Latch
  queue : List MxOp
  /-- The instructions being performed, each with the last of its cycles. -/
  busy : List (Nat × MxOp)
  pairs : Nat
  /-- On the even core of two: the cycle in which the paired MMAs at the heads of both queues start (R334). -/
  pairAt : Option Nat
  /-- Starts in the current burst, and the first cycle in which the unit is idle again. -/
  burst : Nat
  lastEnd : Nat
  deriving DecidableEq, Repr

def mxReset : Mx :=
  { slots := .replicate 4 accReset, recs := .replicate 16 (.replicate 8 0#32), cbs := .replicate 4 [],
    cbPoison := 0#4, latch := none, queue := [], busy := [], pairs := 0, pairAt := none, burst := 0, lastEnd := 0 }

/-! ## Engine commands -/

/-- Where 16 bytes of an engine command lie: a virtual address of the issuing context, or a byte of a core's Basin
(allocation of a team) or Slip. -/
inductive Loc where
  | va (a : Nat)
  | basin (team off : Nat) (swz : BitVec 3)
  | slip (off : Nat)
  /-- Granule `i` of what a collective has read of its source (R265), and of its topology table (R264). -/
  | buf (i : Nat)
  | tab (i : Nat)
  deriving DecidableEq, Repr

/-- One 16-byte granule still to be moved; the source is a location or a value already read. -/
structure Move where
  src : Sum Loc (BitVec 128)
  dst : Loc
  /-- The outbound request under way for it (R391). -/
  req : Option Nat
  deriving DecidableEq, Repr

/-- What a copy will move, before it has started: CPYG and CPYS read their index array first (R253). -/
inductive CmdPlan where
  | rows (src dst : Loc) (len : Nat)
  | gather (src dst : Loc) (rb nr idx : Nat)
  | scatter (src dst : Loc) (rb nr idx : Nat)
  | tile (dst : Loc)
  | coll
  deriving DecidableEq, Repr

/-- A chunk that a collective has received: of the subtree result of a child, of the result that the parent sends down, or of
a node's block (R263). -/
structure Shard where
  node : Nat
  chunk : Nat
  hops : Nat
  data : List Byte
  deriving DecidableEq, Repr

/-- A node that a collective hears from: its port, the cycles since a flit last arrived from it, and those skipped (R265). -/
structure Peer where
  node : Nat
  port : Nat
  silent : Nat
  skipped : Nat
  deriving DecidableEq, Repr

/-- A collective in progress (R261 to R265). -/
structure CollSt where
  op : CollOp
  ty : Nat
  tag : Nat
  n : Nat
  /-- Virtual addresses of the topology table, the source and the destination. -/
  table : Nat
  src : Nat
  dst : Nat
  nn : Nat
  self : Nat
  /-- The parent of each node, by number (R262). -/
  parents : List Nat
  peers : List Peer
  /-- The granules of the own contribution, read. -/
  own : SMap (BitVec 128)
  /-- What it does: 0 it reads the table's header, 1 its entries, 2 it is in its exchange. -/
  phase : Nat
  /-- The granules of the topology table, read. -/
  tab : SMap (BitVec 128)
  shards : List Shard
  /-- The chunks sent: to which peer, of which node, which chunk. -/
  sent : List (Nat × Nat × Nat)
  /-- The destination has been written. -/
  stored : Bool
  deriving DecidableEq, Repr

/-- What a collective sends to a peer (R263 to R265): a chunk of a node's shard with its hop count and checksum, or a failure
notice. -/
inductive LinkBody where
  | chunk (node chunk hops : Nat) (data : List Byte) (sum : Word)
  | failure
  deriving DecidableEq, Repr

/-- A message of a collective that has left on a Dexgal Link: the partition and the tag of the collective, the port, the peer. -/
structure LinkMsg where
  part : Nat
  tag : Nat
  port : Nat
  peer : Nat
  body : LinkBody
  deriving DecidableEq, Repr

/-- An engine command in flight (R247 to R256). -/
structure Cmd where
  id : Nat
  team : Nat
  pc : Word
  /-- The groups whose token it holds. -/
  groups : List Nat
  tk : BitVec 3
  barTeam : Nat
  barOff : Nat
  ctl : Word
  plan : CmdPlan
  started : Bool
  moves : List Move
  bytes : Nat
  err : Option (BitVec 7)
  /-- A page the command waits for (R296). -/
  page : Option Nat
  /-- Latest WCT of its writes. -/
  wct : Nat
  written : Bool
  /-- Held for the commit of a deterministic round (R348). -/
  held : Bool
  /-- Performed in the commit: its reads see memory as the commit has left it. -/
  late : Bool
  /-- The opening bytes of the round in which it was executed (R348). -/
  opening : Option (List Host.Cell)
  coll : Option CollSt
  /-- The accesses that count as earlier ones of its issuing threads are numbered below the bound; the issuing threads. -/
  bound : Nat
  issuers : List (Nat × BitVec 32)
  deriving DecidableEq, Repr

/-! ## Launches, units and cascades -/

/-- A launch record (R318), field by field. -/
structure LaunchRec where
  ok : Bool
  prio : Nat
  det : Bool
  rdi : Bool
  fuse : Bool
  mtx : Bool
  entry : Word
  code : Dword
  codeLen : Word
  teamG : Nat
  resv : Nat
  xblk : Nat
  snrows : Nat
  basin : Nat
  clw : Nat
  clh : Nat
  lease : Nat
  ctx : Nat
  rdvwd : Word
  wdrem : Word
  ext : List Nat
  ind : BitVec 3
  datak : Nat
  nbnd : Nat
  predm : Nat
  sema : Dword
  semv : Word
  predn : Word
  data : Dword
  cmpl : Dword
  msiv : Nat
  msie : Bool
  gxaddr : List Dword
  cvmask : List Dword
  kidx : List Nat
  baddr : List Dword
  ktab : List Word
  deriving DecidableEq, Repr

/-- The completion statuses of R325. -/
inductive Status where
  | ok | teamFault | badRec | badBound | readErr
  deriving DecidableEq, Repr

/-- Where a launch in flight stands (R323, R327). -/
inductive LaunchSt where
  | sema
  /-- The semaphore is met; extents, bound constants and the ownership table are being read. -/
  | reading
  | waiting
  | admitted
  | finishing (st : Status)
  deriving DecidableEq, Repr

/-- The Weir's state of a deterministic launch (R343 to R349). -/
structure Det where
  round : Nat
  /-- The bytes of memory as they stood when the round began (R345). -/
  opening : List Host.Cell
  openGt : Nat
  /-- The round has been committed, and its threads go on once GT reaches this time (R346). -/
  until_ : Option Nat
  /-- The commit of the round has begun: what it has created takes part from the next round on (R349). -/
  commit : Bool
  /-- The ownership entries in force: first line, last line, team (R341). -/
  own : List (Nat × Nat × Nat)
  deriving DecidableEq, Repr

/-- A launch in flight (R323). -/
structure Launch where
  part : Nat
  lnum : Word
  queue : Nat
  r : LaunchRec
  st : LaunchSt
  pred : Option Word
  ext : List Nat
  kv : List Word
  nextCluster : Nat
  counter : Nat
  /-- Grid teams that have executed SUCC or ended, and whether one has executed it (R273). -/
  succs : Nat
  succRan : Bool
  /-- Teams, tasks and rung groups ended and created. -/
  ended : Nat
  faulted : Bool
  wct : Nat
  /-- GT since which its next task, its next rung group and its next cluster have been next (R328). -/
  sinceTask : Nat
  sinceRung : Nat
  sinceCluster : Nat
  urgent : Bool
  /-- A page that the launch queue engine waits for (R296). -/
  page : Option Nat
  /-- Words read so far at dequeue, by virtual address; `none` for a read that failed. -/
  got : List (Nat × Option Nat)
  /-- An outbound read, or completion write, under way for it: request and virtual address (R391). -/
  req : Option (Nat × Nat)
  /-- The completion write has failed, or has been performed through the aperture (R325, R392). -/
  noCmpl : Bool
  det : Option Det
  deriving DecidableEq, Repr

/-- A one-group team awaiting placement: a spawned task (R210) or a rung group (R217). -/
structure Pending where
  /-- The number of the team that it becomes: that of its creation (R320). -/
  id : Nat
  part : Nat
  lnum : Word
  task : Bool
  rung : Nat
  index : Nat
  entry : Word
  xblk : Nat
  snrows : Nat
  basin : Nat
  depth : Nat
  /-- The core of the spawner or of the first submitter, then the cores of its cluster by rank (R210, R330). -/
  near : List Nat
  /-- GT from which every store that the spawner performed is visible (R210). -/
  after : Nat
  /-- Lane by lane: the words loaded into v0 upward and the item held; lanes beyond the list start exited. -/
  lanes : List (List Word × Option Held)
  deriving DecidableEq, Repr

/-- An item waiting at a packer (R217). -/
structure Item where
  casc : Dword
  rung : Nat
  index : Word
  frame : List Word
  time : Nat
  core : Nat
  group : Nat
  lane : Nat
  depth : Nat
  near : List Nat
  /-- The team index that the item took in a deterministic launch (R349). -/
  num : Nat
  deriving DecidableEq, Repr

/-- The packer of one rung of one cascade for one launch (R217). -/
structure Packer where
  part : Nat
  lnum : Word
  casc : Dword
  rung : Nat
  items : List Item
  deriving DecidableEq, Repr

/-! ## Saved teams, leases, partitions -/

/-- A swapped-out team: the team, and its rows, entries, Basin, Slip and matrix state, with keys relative to its core
(R368). -/
structure Saved where
  slot : Nat
  team : Team
  rows : SMap Row
  entries : List (Nat × Entry)
  basin : List Host.Cell
  slip : List Host.Cell
  mx : Option Mx
  /-- Poisoned granules of the Basin and of the Slip, by offset. -/
  poison : List (Bool × Nat)
  /-- The image as it was written to the save slot (R369): offset, bytes, value of each of its pieces. -/
  image : List (Nat × Nat × Nat)
  deriving DecidableEq, Repr

/-- A Cistern lease (R190): first line, number of lines, end tick. -/
structure Lease where
  entry : Nat
  gen : Nat
  lines : List Nat
  ends : Nat
  deriving DecidableEq, Repr

/-- A sequence slot (R269). -/
structure SeqSlot where
  ntok : Word
  ctx : Word
  commit : Word
  done : Bool
  deriving DecidableEq, Repr

def slotReset : SeqSlot := { ntok := 0#32, ctx := 0#32, commit := 0#32, done := true }

/-- A migration in progress (R294). -/
structure Mig where
  big : Bool
  page : Nat
  leaf : Nat
  src : Nat
  dst : Nat
  deriving DecidableEq, Repr

/-- One partition. Its BAR0 registers lie in `regs`, keyed by offset, one doubleword each; an unlisted register holds
the Reset value of its table. -/
structure Part where
  regs : SMap Dword
  slots : SMap SeqSlot
  leases : List Lease
  leaseGen : SMap Nat
  nextLnum : Word
  /-- The launch numbers have wrapped: every one has been accepted (R322). -/
  lapped : Bool
  /-- Launch numbers of the last record accepted into each queue since the partition's reset (R327). -/
  lastLnum : List (Nat × Word)
  /-- Ended launches: number, and whether every team ended without a team fault (R274). -/
  done : List (Word × Bool)
  /-- The predecessors of records accepted and not yet dequeued, by launch number (R327). -/
  preds : List (Word × Option Word)
  faults : List FaultRec
  /-- A RESUME that waits for a core (R370). -/
  resuming : Option Nat
  efaults : List (Nat × Nat)
  mig : Option Mig
  /-- MSI-X messages held and sent: vector v of the twin on port 1 is 2048 + v (R384, R392). -/
  msixPend : List Nat
  msixSent : List Nat
  /-- Bus Master Enable of the function on each PCIe port (R387). -/
  bme : List Bool
  /-- Cached translations that are to be dropped: of a page, or all (R290). -/
  drops : List (Option Nat)
  /-- The IAs of the task queues that QENQ and QDEQ have acted on (R214, R326). -/
  queues : List Nat
  /-- Error counters that the host has written in this cycle: they keep the value written (R379). -/
  pinned : List Nat
  deriving DecidableEq, Repr

def partReset : Part :=
  { regs := [], slots := [], leases := [], leaseGen := [], nextLnum := 1#32, lapped := false, lastLnum := [], done := [], preds := [],
    faults := [], resuming := none, efaults := [], mig := none, msixPend := [], msixSent := [],
    bme := [false, false], drops := [], queues := [], pinned := [] }

/-! ## Module -/

/-- A page found by the walk: tier, physical address of its first byte, 2 MiB or 64 KiB, key of its leaf entry. -/
structure Leaf where
  tier : Nat
  addr : Nat
  big : Bool
  entry : Nat
  deriving DecidableEq, Repr

/-- A Dexgal Link port (R394, R395): state, recoveries, cycles in the present recovery. -/
structure Link where
  st : LinkSt
  recov : BitVec 16
  time : Nat
  deriving DecidableEq, Repr

/-- An outbound request through the external aperture (R391). -/
structure OutReq where
  id : Nat
  part : Nat
  /-- The partition whose window holds the aperture. -/
  win : Nat
  path : Nat
  /-- The link port, when the path is a Dexgal Link. -/
  link : Nat
  addr : Nat
  op : AccOp
  bytes : List Byte
  len : Nat
  /-- The access it serves: flight and lane; or an engine command. -/
  flight : Option (Nat × Nat)
  cmd : Option Nat
  team : Nat
  /-- It was refused where it would have left: Bus Master Enable clear, or a window in reset (R387, R398). -/
  dead : Bool
  deriving DecidableEq, Repr

/-- A completion returned to an inbound read or AtomicOp (R389); `none` is Unsupported Request. -/
structure Reply where
  port : Nat
  req : Nat
  data : Option (List Byte)
  ep : Bool
  deriving DecidableEq, Repr

/-- Per-die power state of Thetik firmware (R401, R404). -/
structure DiePower where
  mv : Nat
  /-- The share of issue cycles in force, in 1/256, and the one set without regard to caps and warning. -/
  share : Nat
  set : Nat
  /-- Cycles from one pass of the die's power token to the next, at least, and GT of the last pass. -/
  rate : Nat
  passed : Nat
  cap : Word
  /-- The hottest sensor in 0.1 °C, as firmware has last read it. -/
  heat : Word
  /-- Hardware throttles the issue of the die in this cycle (R402). -/
  forced : Bool
  deriving DecidableEq, Repr

/-- Ageing data of a core (R404, R405). -/
structure Age where
  slack : Word
  time : Nat
  replans : Word
  deriving DecidableEq, Repr

/-- The module registers, mailbox, ports, power and reset state (R395, R403 to R407). -/
structure Module where
  diepart : Dword
  linkpart : Dword
  cxlpart : Dword
  lpdq : Dword
  hold : BitVec 8
  inrst : BitVec 8
  xacc : Dword
  links : Vector Link 16
  pcie : Vector LinkSt 2
  cxlUp : Vector Bool 4
  mbcmd : BitVec 16
  mbdb : Bool
  mbstat : Byte
  stage : Nat
  stageFailed : Bool
  mbdata : SMap Word
  moduleCap : Word
  /-- GT at which the caps were set. -/
  capTime : Nat
  warn : Word
  dies : Vector DiePower 8
  ageing : SMap Age
  replan : SMap Nat
  rail : Bool
  inReset : Bool
  frozen : Bool
  thermtrip : Bool
  deriving DecidableEq, Repr

/-- Who issues: the team, and for each member group (ascending) the lanes taking part; `cv` and `wide` describe the
single execution of an S- or T-scope word (R131). -/
structure Cursor where
  team : Nat
  pc : Word
  members : List (Nat × BitVec 32)
  arr : Arr
  deriving DecidableEq, Repr

/-- Errors that have struck and have not yet been found (R375 to R380). They come from outside the machine. -/
inductive Upset where
  /-- Uncorrectable, in the line or granule of a memory key. -/
  | mem (k : Nat)
  /-- Correctable by ECC in a partition. -/
  | corrected (p : Nat)
  /-- Uncorrectable, in a clean line of an L1, or of a core's instruction cache. -/
  | l1 (holder line : Nat)
  | icache (core line : Nat)
  /-- Uncorrectable, in the row of a lane bank. -/
  | row (k : Nat)
  /-- Uncorrectable, in an accumulator entry of a core's slot. -/
  | acc (core : Nat) (a : SlotN) (cell : Nat)
  /-- Uncorrectable, in an entry of a core's codebook table. -/
  | cb (core : Nat) (table : BitVec 2)
  /-- Uncorrectable, in the control state of a team. -/
  | control (t : Nat)
  /-- Datapaths of a sub-core compute a wrong result: in the first issue of the next word compared on them; or, `twice`, in every issue. -/
  | rdi (core sub : Nat) (paths : BitVec 32) (twice : Bool)
  /-- The next product of a core's matrix unit fails its checksum; `twice` when its rerun does too. -/
  | product (core : Nat) (twice : Bool)
  deriving DecidableEq, Repr

/-- The whole machine. -/
structure State where
  gt : Nat
  /-- Advances whenever a step consumes a free value, so that each use has its own. -/
  fresh : Nat
  /-- The inputs to come, in their order: host, ports, pins, links, firmware; each acts once GT has reached its time. -/
  agenda : List (Nat × Instr)
  upsets : List (Nat × Upset)
  cur : Cursor
  /-- Sub-cores (core × 4 + sub) that have issued in this cycle (R333). -/
  issued : List Nat
  /-- Single executions that an exit or a CVLEAVE of this cycle has completed: team, PC, kind of arrival (R135, R139). -/
  prompt : List (Nat × Word × Arr)
  nextId : Nat
  mem : List Host.Cell
  /-- Poisoned 128-byte lines and 16-byte Basin and Slip granules, by memory key of their first byte. -/
  poison : List Nat
  kiln : SMap Row
  entries : List (Nat × Entry)
  gens : SMap (BitVec 6)
  teams : List Team
  saved : List Saved
  /-- Teams that have ended while accesses of theirs are under way, without their groups. -/
  gone : List Team
  mx : List (Nat × Mx)
  flights : List Flight
  cmds : List Cmd
  l1 : List L1Copy
  icache : List ILine
  loops : List Loop
  /-- The lines of L2, and of the last-level caches (R279, R287). -/
  l2 : List CLine
  llc : List CLine
  /-- LEND of each line, and ELEND of each set of L2 (R284): slice × 1,024 + set. -/
  lend : SMap Nat
  elend : SMap Nat
  launches : List Launch
  pending : List Pending
  packers : List Packer
  /-- IAs of LOST counts to which one is still to be added, once no atomic's lanes hold the word (R178, R215). -/
  owed : List Nat
  lbinv : SMap (BitVec 16)
  /-- PWRTOK of each cluster, keyed by `Team.cid`; the tokens held: die and cluster. -/
  pwrtok : SMap Word
  tokens : List (Nat × Nat)
  /-- The cycle in which each partition last left reset, for %clock (R31). -/
  clock0 : SMap Nat
  parts : Vector Part 8
  outbox : List OutReq
  replies : List Reply
  /-- What collectives have sent (R263, R265). -/
  linkOut : List LinkMsg
  /-- Latest WCT of the posted writes of each outside requester: port, requester, time (R312). -/
  wrote : List (Nat × Nat × Nat)
  /-- Translations that page units have cached, by 64 KiB page (R288, R290). -/
  tlb : List (Nat × Leaf)
  m : Module
  deriving DecidableEq, Repr

/-- The module's Reset values (R395, R403). -/
def moduleInit : Module :=
  { diepart := 0x88888888#64, linkpart := 0x8888888888888888#64, cxlpart := 0x8888#64, lpdq := 0x40#64,
    hold := 0#8, inrst := 0#8, xacc := 0x8040201008040201#64,
    links := .replicate 16 { st := .down, recov := 0#16, time := 0 }, pcie := .replicate 2 .down,
    cxlUp := .replicate 4 false, mbcmd := 0#16, mbdb := false, mbstat := 0#8, stage := 0, stageFailed := false,
    mbdata := [], moduleCap := 0#32, capTime := 0, warn := 0#32,
    dies := .replicate 8 { mv := 0, share := 256, set := 256, rate := 1, passed := 0, cap := 0#32, heat := 0#32, forced := false }, ageing := [], replan := [],
    rail := true, inReset := false, frozen := false, thermtrip := false }

/-- The machine right after the module reset pin rises with the main rail good (R406): STAGE 0, every register at its
Reset value, memories reading zero, no team, no launch. -/
def State.reset : State :=
  { gt := 0, fresh := 0, agenda := [], upsets := [], cur := { team := 0, pc := 0#32, members := [], arr := .no }, issued := [], prompt := [],
    nextId := 1, mem := [], poison := [], kiln := [], entries := [], gens := [], teams := [], saved := [], gone := [], mx := [],
    flights := [], cmds := [], l1 := [], icache := [], loops := [], l2 := [], llc := [], lend := [], elend := [], launches := [], pending := [],
    packers := [], owed := [], lbinv := [], pwrtok := [], tokens := [], clock0 := [], parts := .replicate 8 partReset,
    outbox := [], replies := [], linkOut := [], wrote := [], tlb := [], m := moduleInit }

end Sys2Proof.Machine
end

