-- ==== Sys2Proof/Machine/Store.lean ====
section
/-! DEFINITION. The stores of the module: bytes of HBM5, LPDDR6, CXL, Basin and Slip under one key space, poison marks,
the registers of a partition, address translation (R281, R390, R396), the page walk (R288) and homes (R282). -/

namespace Sys2Proof.Machine

open Sys2Proof

/-- An element of a vector, or a default. -/
def vget {α : Type} {n : Nat} (v : Vector α n) (i : Nat) (d : α) : α := v[i]?.getD d

/-- A vector with one element replaced; an index out of range changes nothing. -/
def vset {α : Type} {n : Nat} (v : Vector α n) (i : Nat) (x : α) : Vector α n := v.setIfInBounds i x

/-! ## Keys -/

/-- What a byte that nothing has written reads as: HBM5 and LPDDR6 are cleared at bring-up (R406); Basin and Slip are
zeroed at placement (R279). DESIGN CHOICE for the CXL tier (log entry 5). -/
def unwritten : Byte := 0#8

/-- The first key of a region. -/
def regionBase (r : Nat) : Nat := r * 2 ^ 48

/-- Key of a physical address of a tier: 0 HBM5, 1 LPDDR6, 2 CXL (R289). -/
def physKey (tier addr : Nat) : Nat := regionBase tier + addr % 2 ^ 48

/-- Key of a byte of a core's Basin. -/
def basinKey (core off : Nat) : Nat := regionBase (4 + 2 * core) + off

/-- Key of a byte of a core's Slip. -/
def slipKey (core off : Nat) : Nat := regionBase (5 + 2 * core) + off

/-- Key of a row of a lane bank: core, sub-core, lane, pool index (R16). -/
def rowKey (core sub lane idx : Nat) : Nat := ((core * 4 + sub) * 32 + lane) * 512 + idx

/-- Key of a handle-table entry: core, sub-core, slot (R22). -/
def entryKey (core sub slot : Nat) : Nat := (core * 4 + sub) * 1024 + slot

/-! ## Bytes -/

/-- The byte at a key. -/
def State.byte (s : State) (k : Nat) : Byte := Sparse.get unwritten s.mem k

/-- A byte written. -/
def State.setByte (s : State) (k : Nat) (b : Byte) : State := { s with mem := Sparse.set unwritten s.mem k b }

/-- The canonical form of the memory: keys strictly rising, and no entry equal to what an unlisted key reads as. -/
def Memory.wf (m : List Host.Cell) : Bool := Sparse.wf unwritten m

/-- `n` bytes from a key as a little-endian number (R5). -/
def State.bytes (s : State) (k : Nat) : Nat → Nat
  | 0 => 0
  | n + 1 => (s.byte k).toNat + 256 * State.bytes s (k + 1) n

/-- `n` bytes written from a key, little-endian (R5). -/
def State.setBytes (s : State) (k : Nat) : Nat → Nat → State
  | 0, _ => s
  | n + 1, v => State.setBytes (s.setByte k (BitVec.ofNat 8 v)) (k + 1) n (v / 256)

/-- A list of bytes written from a key. -/
def State.setList (s : State) (k : Nat) : List Byte → State
  | [] => s
  | b :: rest => State.setList (s.setByte k b) (k + 1) rest

/-- `n` bytes from a key as a list. -/
def State.byteList (s : State) (k n : Nat) : List Byte := (List.range n).map fun j => s.byte (k + j)

/-- The unit that a poison mark covers: a 128-byte line of memory, a 16-byte granule of Basin or Slip (R378). -/
def poisonUnit (k : Nat) : Nat := if k < regionBase 4 then k - k % 128 else k - k % 16

/-- The byte lies in a poisoned line or granule. -/
def State.poisonedAt (s : State) (k : Nat) : Bool := s.poison.contains (poisonUnit k)

/-- Some byte of `n` from a key is poisoned. -/
def State.poisonedIn (s : State) (k n : Nat) : Bool := (List.range n).any fun j => s.poisonedAt (k + j)

/-- Insertion into a strictly rising list. -/
def insertNat : List Nat → Nat → List Nat
  | [], x => [x]
  | y :: ys, x => if x < y then x :: y :: ys else if x = y then y :: ys else y :: insertNat ys x

/-- The unit of a key marked poisoned. -/
def State.markPoison (s : State) (k : Nat) : State := { s with poison := insertNat s.poison (poisonUnit k) }

/-- The unit of a key no longer marked. -/
def State.clearPoison (s : State) (k : Nat) : State := { s with poison := s.poison.filter (· != poisonUnit k) }

/-! ## Registers of a partition -/

/-- The Reset value of the BAR0 register at an offset, where it is not zero (R290, R321, R358). The vectors of the MSI-X table
start masked, as PCIe has them (PRESUMED, log entry 15). -/
def regReset (off : Nat) : Dword :=
  if off = 0x018 then 0xFFFF#64
  else if off = 0x028 ∨ off = 0x050 ∨ off = 0xF08 then 4#64
  else if 0x800 ≤ off ∧ off < 0xA00 ∧ off % 32 = 8 then 1#64
  else if 0x20000 ≤ off % 0x100000 ∧ off % 0x100000 < 0x28000 ∧ off % 16 = 8 then 0x100000000#64
  else 0#64

/-- The register of a partition at a BAR0 offset; `regs` holds its difference from the Reset value. -/
def Part.reg (p : Part) (off : Nat) : Dword := Sparse.get 0#64 p.regs off ^^^ regReset off

/-- A register written whole. -/
def Part.setReg (p : Part) (off : Nat) (v : Dword) : Part :=
  { p with regs := Sparse.set 0#64 p.regs off (v ^^^ regReset off) }

/-- Bits lo to lo + w − 1 of a register. -/
def Part.fld (p : Part) (off lo w : Nat) : Nat := (p.reg off).toNat / 2 ^ lo % 2 ^ w

/-- Bits lo to lo + w − 1 of a register replaced. -/
def putBits (x : Dword) (lo w v : Nat) : Dword :=
  let n := x.toNat
  BitVec.ofNat 64 (n - n / 2 ^ lo % 2 ^ w * 2 ^ lo + v % 2 ^ w * 2 ^ lo)

def Part.setFld (p : Part) (off lo w v : Nat) : Part := p.setReg off (putBits (p.reg off) lo w v)

/-- A 32-bit counter in the low word of a register, saturating (R290, R379, R388). An error counter that the host writes in this cycle
keeps the value written. -/
def Part.bump (p : Part) (off : Nat) : Part :=
  let n := p.fld off 0 32
  if n = 2 ^ 32 - 1 ∨ off ∈ p.pinned then p else p.setFld off 0 32 (n + 1)

def State.part (s : State) (p : Nat) : Part := vget s.parts p partReset

def State.modPart (s : State) (p : Nat) (f : Part → Part) : State := { s with parts := vset s.parts p (f (s.part p)) }

/-! ## Ownership (R395) -/

/-- The nibble of an ownership register: the owner, if the valid bit is set. -/
def ownerIn (reg : Dword) (i : Nat) : Option Nat :=
  let n := reg.toNat / 2 ^ (4 * i) % 16
  if n ≥ 8 then some (n - 8) else none

/-- The dies of a partition, in ascending order. -/
def Module.diesOf (m : Module) (p : Nat) : List Nat := (List.range 8).filter fun d => ownerIn m.diepart d == some p

/-- The partition that owns a core's die. -/
def Module.partOfCore (m : Module) (core : Nat) : Option Nat := ownerIn m.diepart (core / Config.coresPerDie)

/-- Partition `p` exists: it owns a die. -/
def Module.present (m : Module) (p : Nat) : Bool := !(m.diesOf p).isEmpty

/-- Partition `j` may reach partition `k`'s window (R395). -/
def Module.mayReach (m : Module) (k j : Nat) : Bool := m.xacc.getLsbD (8 * k + j)

/-- The partition is in reset, or is entering or leaving it. -/
def Module.resetting (m : Module) (p : Nat) : Bool := m.inrst.getLsbD p

/-- Units of LPDDR6 of a partition (R395). -/
def Module.lpUnits (m : Module) (p : Nat) : Nat := m.lpdq.toNat / 2 ^ (8 * p) % 128

/-- A physical range lies in the partition's memory. HBM5 of die d is taken to lie at d × 144 GB, and LPDDR6 to be
handed out in partition order (DESIGN CHOICE, log entry 12); CXL ports lie as R393 states. -/
def Module.inRanges (m : Module) (p tier addr len : Nat) : Bool :=
  match tier with
  | 0 => len == 0 ||
      (let d0 := addr / Config.hbmPerDie
       let d1 := (addr + len - 1) / Config.hbmPerDie
       d1 < 8 && (List.range (d1 + 1 - d0)).all fun j => ownerIn m.diepart (d0 + j) == some p)
  | 1 =>
    let base := ((List.range p).map m.lpUnits).sum * Config.lpUnit
    base ≤ addr && addr + len ≤ base + m.lpUnits p * Config.lpUnit
  | 2 =>
    let port := addr / 2 ^ 41
    port < 4 && ownerIn m.cxlpart port == some p && addr % 2 ^ 41 + len ≤ Config.cxlPort port
  | _ => false

/-! ## Translation -/

/-- The permissions an access needs (R280). -/
structure Need where
  r : Bool
  w : Bool
  x : Bool
  deriving DecidableEq, Repr

def needR : Need := { r := true, w := false, x := false }
def needW : Need := { r := false, w := true, x := false }
def needRW : Need := { r := true, w := true, x := false }
def needX : Need := { r := false, w := false, x := true }

/-- Offset of range register `i` of a context (R385). -/
def rangeOff (ctx i : Nat) : Nat := 0x8000 + 512 * ctx + 32 * i

/-- The IA lies in the external aperture of its window (R390): partition, aperture, address below it. -/
def apertureOf (ia : Nat) : Option (Nat × Nat × Nat) :=
  if ia / 2 ^ 44 % 16 = 15 then some (ia / 2 ^ 48, ia / 2 ^ 40 % 16, ia % 2 ^ 40) else none

/-- The IA may be used by partition `p`: its window exists and may be reached (R396), its aperture is enabled (R390). -/
def State.iaOk (s : State) (p ia : Nat) : Bool :=
  let w := ia / 2 ^ 48
  w < 8 && s.m.present w && s.m.mayReach w p &&
    match apertureOf ia with
    | none => true
    | some (k, a, _) =>
      let pt := s.part k
      let off := 0x1200 + 16 * a
      pt.fld off 0 1 == 1 && pt.fld off 1 2 != 3 &&
        (pt.fld off 1 2 != 2 || ownerIn s.m.linkpart (pt.fld off 3 4) == some k)

/-- The access of partition `p` to an IA meets a window in reset (R398). -/
def State.windowReset (s : State) (p ia : Nat) : Bool := s.m.resetting (ia / 2 ^ 48) && ia / 2 ^ 48 != p

/-- The first range register of a list of numbers that covers the address. -/
def rangeMatch (pt : Part) (ctx va : Nat) : List Nat → Option Nat
  | [] => none
  | i :: rest =>
    let off := rangeOff ctx i
    let g := va / 2 ^ 16 % 2 ^ 41
    if pt.fld (off + 0x18) 0 1 = 1 ∧ pt.fld off 16 41 ≤ g ∧ g ≤ pt.fld (off + 8) 16 41 then some i
    else rangeMatch pt ctx va rest

/-- Translate(va, need) of R281; `none` is PERM. -/
def State.translate (s : State) (p ctx va : Nat) (need : Need) : Option Nat :=
  if va ≥ 2 ^ 57 then none
  else
    let pt := s.part p
    match rangeMatch pt ctx va (List.range 16) with
    | none => none
    | some i =>
      let off := rangeOff ctx i
      let has (b : Nat) := pt.fld (off + 0x18) b 1 == 1
      if (!need.r || has 1) && (!need.w || has 2) && (!need.x || has 3) then
        let ia := pt.fld (off + 0x10) 16 36 * 2 ^ 16 + (va - pt.fld off 16 41 * 2 ^ 16)
        if ia < 2 ^ 52 && s.iaOk p ia then some ia else none
      else none

/-- Fields of a page-table entry (R289). -/
def pteValid (e : Nat) : Bool := e % 2 == 1
def pteLeaf (e : Nat) : Bool := e / 2 % 2 == 1
def pteMig (e : Nat) : Bool := e / 4 % 2 == 1
def pteTier (e : Nat) : Nat := e / 8 % 4
def pteAddr (e : Nat) : Nat := e / 256 % 2 ^ 40 * 256
def ptePin (e : Nat) : Nat := e / 2 ^ 48
def pteReserved (e : Nat) : Nat := e / 32 % 8

/-- A pointer entry to a table of `size` bytes: tier and address; `none` ends the walk in XLATE (R288). -/
def ptePointer (e size : Nat) : Option (Nat × Nat) :=
  if pteValid e && !pteLeaf e && pteReserved e == 0 && pteTier e < 3 && ptePin e == 0 && pteAddr e % size == 0 then
    some (pteTier e, pteAddr e)
  else none

/-- A leaf entry of a page of `size` bytes in the partition's memory; `none` ends the walk in XLATE (R288). -/
def State.pteLeafOk (s : State) (p e size entry : Nat) : Option Leaf :=
  if pteValid e && pteLeaf e && pteReserved e == 0 && pteTier e < 3 && pteAddr e % size == 0 &&
      s.m.inRanges p (pteTier e) (pteAddr e) size then
    some { tier := pteTier e, addr := pteAddr e, big := size == 2 ^ 21, entry }
  else none

/-- Walk(ia) of R288 in the window's page table as it stands in memory; `none` is XLATE. -/
def State.walkTable (s : State) (ia : Nat) : Option Leaf :=
  let p := ia / 2 ^ 48
  let pt := s.part p
  let at4k (t : Nat × Nat) (idx : Nat) : Nat := physKey t.1 (t.2 + 8 * idx)
  let k1 := at4k (pt.fld 0 48 2, pt.fld 0 12 36 * 2 ^ 12) (ia / 2 ^ 39 % 512)
  match ptePointer (s.bytes k1 8) 4096 with
  | none => none
  | some t2 =>
    match ptePointer (s.bytes (at4k t2 (ia / 2 ^ 30 % 512)) 8) 4096 with
    | none => none
    | some t3 =>
      let k3 := at4k t3 (ia / 2 ^ 21 % 512)
      let e3 := s.bytes k3 8
      if pteLeaf e3 then s.pteLeafOk p e3 (2 ^ 21) k3
      else
        match ptePointer e3 256 with
        | none => none
        | some t4 =>
          let k4 := at4k t4 (ia / 2 ^ 16 % 32)
          s.pteLeafOk p (s.bytes k4 8) (2 ^ 16) k4

/-- Walk(ia) of R288. A page unit that has cached another translation of the page may use that one until it is dropped; which it
uses is free (R290; log entry 1). An address of the external aperture is never walked (R390). -/
def State.walk (s : State) (ia : Nat) : Option Leaf :=
  if (apertureOf ia).isSome then none
  else
  let now := s.walkTable ia
  match (s.tlb.filter fun x => x.1 == ia / 2 ^ 16 && some x.2 != now).map (·.2) with
  | [] => now
  | old => if Config.free s.fresh % (old.length + 1) = 0 then now else old[Config.free s.fresh % (old.length + 1) - 1]?

/-- The page unit keeps the translation of an IA in use (R288). -/
def State.cache (s : State) (ia : Nat) : State :=
  match s.walk ia with
  | none => s
  | some l => if s.tlb.contains (ia / 2 ^ 16, l) then s else { s with tlb := s.tlb ++ [(ia / 2 ^ 16, l)] }

/-- The physical key that an IA of a page has. -/
def Leaf.key (l : Leaf) (ia : Nat) : Nat := physKey l.tier (l.addr + ia % (if l.big then 2 ^ 21 else 2 ^ 16))

/-- The physical key of an IA, or `none` when no page holds it. -/
def State.iaKey (s : State) (ia : Nat) : Option Nat := (s.walk ia).map fun l => l.key ia

/-- The first IA of the page that holds an IA, for notifications and fault records: its 64 KiB granule. -/
def pageOf (ia : Nat) : Nat := ia / 2 ^ 16

/-- Home slice of a line (R282): die × 24 + slice. -/
def Module.homeSlice (m : Module) (ia : Nat) : Nat :=
  let ds := m.diesOf (ia / 2 ^ 48)
  let l := ia / 128 % 2 ^ 41
  ds.getD (l % ds.length) 0 * 24 + l / ds.length % 24

/-- A free number taken from the counter; the counter advances (log entry 1). -/
def State.draw (s : State) : Nat × State := (Config.free s.fresh, { s with fresh := s.fresh + 1 })

/-- One of `n` things, or none, chosen freely; nothing is drawn where there is none. -/
def State.oneOf (s : State) (n : Nat) : Option Nat × State :=
  if n = 0 then (none, s)
  else
    let (x, s) := s.draw
    (if x % (n + 1) = 0 then none else some (x % (n + 1) - 1), s)

end Sys2Proof.Machine
end

