-- ==== Sys2Proof/Machine/Ops.lean ====
section
/-! DEFINITION. The named operations over teams, groups, threads, rows, handle entries and meetings, and the one way a
fault is taken (R352 to R356) and returned from (R276). -/

namespace Sys2Proof.Machine

open Sys2Proof

/-- What a meaning answers. -/
abbrev Out := Host.Outcome State Fault Refusal

/-- The outcome with what follows in its state. -/
def Out.then (o : Out) (f : State → State) : Out :=
  match o with
  | .next s => .next (f s)
  | o => o

/-! ## Teams, groups, threads -/

def State.team? (s : State) (t : Nat) : Option Team := s.teams.find? (·.id == t)

/-- The team that issued an access: on its core, or ended while the access was under way. -/
def State.owner? (s : State) (t : Nat) : Option Team := (s.team? t).or (s.gone.find? (·.id == t))

def State.modTeam (s : State) (t : Nat) (f : Team → Team) : State :=
  { s with teams := s.teams.map fun x => if x.id == t then f x else x }

def Team.group? (T : Team) (g : Nat) : Option Group := T.groups[g]?

def Team.modGroup (T : Team) (g : Nat) (f : Group → Group) : Team := { T with groups := T.groups.modify g f }

def Group.thread (G : Group) (l : Nat) : Thread := vget G.threads l threadIdle

def Group.modThread (G : Group) (l : Nat) (f : Thread → Thread) : Group :=
  { G with threads := vset G.threads l (f (G.thread l)) }

def State.group? (s : State) (t g : Nat) : Option Group := (s.team? t).bind (·.group? g)

def State.modGroup (s : State) (t g : Nat) (f : Group → Group) : State := s.modTeam t (·.modGroup g f)

def State.modThread (s : State) (t g l : Nat) (f : Thread → Thread) : State := s.modGroup t g (·.modThread l f)

def State.thread (s : State) (t g l : Nat) : Thread :=
  match s.group? t g with
  | some G => G.thread l
  | none => threadIdle

/-- A lane of a group: where it stands, with its thread as it is now. -/
structure Ln where
  t : Nat
  g : Nat
  l : Nat
  core : Nat
  sub : Nat
  th : Thread
  deriving DecidableEq, Repr

def Team.ln (T : Team) (g l : Nat) : Ln :=
  match T.group? g with
  | some G => { t := T.id, g, l, core := T.core, sub := G.sub, th := G.thread l }
  | none => { t := T.id, g, l, core := T.core, sub := 0, th := threadIdle }

def allLanes : List Nat := List.range 32

/-- The lane numbers of a mask, ascending. -/
def lanesOf (mask : BitVec 32) : List Nat := allLanes.filter fun l => mask.getLsbD l

/-- The mask of a list of lanes. -/
def maskOf (ls : List Nat) : BitVec 32 := ls.foldl (fun m l => m ||| (1#32 <<< l)) 0#32

/-- The thread is live and counts: not one that a SPRT of this cycle has started (R372). -/
def Thread.here (th : Thread) : Bool := th.live && !th.born

/-- The live-lane mask (R26). -/
def Group.live (G : Group) : BitVec 32 := maskOf (allLanes.filter fun l => (G.thread l).here)

/-- The lanes that hold a thread, those started in this cycle too. -/
def Group.occupied (G : Group) : BitVec 32 := maskOf (allLanes.filter fun l => (G.thread l).live)

/-- A SPRT has started a thread in it in this cycle. -/
def Group.expecting (G : Group) : Bool := allLanes.any fun l => (G.thread l).born

/-- The thread is held at its meeting point (R124). -/
def Thread.held? (th : Thread) : Bool := th.here && th.mr == th.pc

/-- A wait that keeps a thread out of a handler set: NAP, CWAIT, LDFE, PWAIT, a stall for Kiln rows (R356). -/
def Wait.waits : Wait → Bool
  | .nap _ | .cwait .. | .ldfe .. | .pwait _ | .kiln => true
  | _ => false

/-- The thread is waiting in the sense of R356. -/
def Thread.waiting (th : Thread) : Bool := th.arr != .no || th.wait.waits || th.held?

def State.launch? (s : State) (p : Nat) (lnum : Word) : Option Launch :=
  s.launches.find? fun x => x.part == p && x.lnum == lnum

def State.modLaunch (s : State) (p : Nat) (lnum : Word) (f : Launch → Launch) : State :=
  { s with launches := s.launches.map fun x => if x.part == p && x.lnum == lnum then f x else x }

def State.launchOf (s : State) (T : Team) : Option Launch := s.launch? T.part T.lnum

/-- Context of a team's launch (R281). -/
def State.ctxOf (s : State) (T : Team) : Nat := ((s.launchOf T).map (·.r.ctx)).getD 0

/-- The launch is deterministic (R32, DETMODE). -/
def State.isDet (s : State) (T : Team) : Bool := ((s.launchOf T).map (·.r.det)).getD false

/-- The team is on its core, so that its cycles count (R134): it runs, drains, or has been stopped in place. -/
def Team.resident (T : Team) : Bool :=
  match T.st with
  | .run | .stopping _ | .inPlace => true
  | _ => false

/-! ## Rows (R14 to R20) -/

def State.row (s : State) (k : Nat) : Row := Sparse.get rowDefault s.kiln k

def State.setRow (s : State) (k : Nat) (r : Row) : State := { s with kiln := Sparse.set rowDefault s.kiln k r }

/-- A row that nothing holds and nothing will land in is free again (R16). -/
def State.putRow (s : State) (k : Nat) (r : Row) : State :=
  s.setRow k (if r.count = 0 ∧ r.pend = 0#8 then rowDefault else r)

/-- One more holder. -/
def State.incRow (s : State) (k : Nat) : State := let r := s.row k; s.putRow k { r with count := r.count + 1 }

/-- One holder fewer (R16). -/
def State.decRow (s : State) (k : Nat) : State := let r := s.row k; s.putRow k { r with count := r.count - 1 }

/-- A free row of a bank. -/
def State.freeRow? (s : State) (core sub lane : Nat) : Option Nat :=
  (List.range Config.bankRows).find? fun i => s.row (rowKey core sub lane i) == rowDefault

/-- Rows of a bank that a team has from one pool. -/
def State.poolUsed (s : State) (core sub lane owner : Nat) (pool : Pool) : Nat :=
  s.kiln.countP fun (k, r) =>
    k / Config.bankRows == rowKey core sub lane 0 / Config.bankRows && r.owner == owner && r.pool == pool

/-- A fresh row from the team's snapshot budget in a bank (R17): its pool index. -/
def State.budgetRow? (s : State) (T : Team) (sub lane : Nat) : Option Nat :=
  if s.poolUsed T.core sub lane T.id .snap < T.snaprows then s.freeRow? T.core sub lane else none

/-- The row key behind a v register of a lane, or `none` when its pointer is null (R14). -/
def Ln.key? (ln : Ln) (n : Nat) : Option Nat :=
  (vget ln.th.rows (n / 8) none).map fun i => rowKey ln.core ln.sub ln.l i

/-- A v register as a lane reads it. -/
structure Reg where
  val : Word
  taint : Bool
  poison : Bool
  pend : Bool
  unk : Bool
  deriving DecidableEq, Repr

/-- The value of a v register of a lane; a null pointer reads as zero here, after the UNALLOT test (R14). -/
def State.rd (s : State) (ln : Ln) (n : Nat) : Reg :=
  match ln.key? n with
  | none => { val := 0#32, taint := false, poison := false, pend := false, unk := false }
  | some k =>
    let r := s.row k
    { val := vget r.regs (n % 8) 0#32, taint := ln.th.taint.getLsbD n, poison := r.poison.getLsbD (n % 8),
      pend := r.pend.getLsbD (n % 8), unk := ln.th.unkV.getLsbD n }

/-- A bit of a bit vector replaced. -/
def setBit {w : Nat} (x : BitVec w) (i : Nat) (b : Bool) : BitVec w :=
  if b then x ||| (1#w <<< i) else x &&& ~~~(1#w <<< i)

/-- A predicate as a source; number 7 reads as true (R13). -/
def Thread.q (th : Thread) (p : PReg) : Bool := p == 7#3 || th.preds.getLsbD p.toNat

/-- A predicate written; number 7 discards (R13). -/
def Thread.setQ (th : Thread) (p : PReg) (b : Bool) : Thread :=
  if p = 7#3 then th else { th with preds := setBit th.preds p.toNat b, unkQ := setBit th.unkQ p.toNat false }

/-- What copying rows on write comes to (R18). -/
inductive Cow where
  | ok (s : State)
  /-- A bank has no budget row. -/
  | noRow
  /-- A row to be copied has a pending register. -/
  | pending
  deriving DecidableEq, Repr

/-- The row behind row pointer `i` of a lane made this thread's alone (R18). -/
def State.cow (s : State) (t g l i : Nat) : Cow :=
  match s.team? t with
  | none => .ok s
  | some T =>
    let ln := T.ln g l
    match vget ln.th.rows i none with
    | none => .ok s
    | some idx =>
      let k := rowKey ln.core ln.sub l idx
      let r := s.row k
      if r.count ≤ 1 then .ok s
      else if r.pend != 0#8 then .pending
      else
        match s.budgetRow? T ln.sub l with
        | none => .noRow
        | some j =>
          let s := s.putRow (rowKey ln.core ln.sub l j) { r with count := 1, owner := t, pool := .snap }
          let s := s.decRow k
          .ok (s.modThread t g l fun th => { th with rows := vset th.rows i (some j) })

/-- Every row of a list of (group, lane, row pointer) made its writer's alone: all or none (R18). -/
def State.cowAll (s : State) (t : Nat) : List (Nat × Nat × Nat) → Cow
  | [] => .ok s
  | (g, l, i) :: rest =>
    match s.cow t g l i with
    | .ok s' => State.cowAll s' t rest
    | other => other

/-- A v register of a lane written in place: the poison mark clears, the taint bit is set (R20, R104). -/
def State.wr (s : State) (t g l n : Nat) (v : Word) (taint : Bool) : State :=
  match s.team? t with
  | none => s
  | some T =>
    let ln := T.ln g l
    match ln.key? n with
    | none => s
    | some k =>
      let r := s.row k
      let s := s.putRow k { r with regs := vset r.regs (n % 8) v, poison := setBit r.poison (n % 8) false }
      s.modThread t g l fun th => { th with taint := setBit th.taint n taint, unkV := setBit th.unkV n false }

/-- A v register of a lane marked poisoned (R20). -/
def State.poisonReg (s : State) (t g l n : Nat) : State :=
  match s.team? t with
  | none => s
  | some T =>
    match (T.ln g l).key? n with
    | none => s
    | some k => let r := s.row k; s.putRow k { r with poison := setBit r.poison (n % 8) true }

/-- A v register of a lane pending (R20). -/
def State.pendReg (s : State) (t g l n : Nat) : State :=
  match s.team? t with
  | none => s
  | some T =>
    match (T.ln g l).key? n with
    | none => s
    | some k => let r := s.row k; s.putRow k { r with pend := setBit r.pend (n % 8) true }

/-! ## Handle entries (R21 to R24, R195) -/

def State.entry? (s : State) (k : Nat) : Option Entry := s.entries.lookup k

def State.setEntry (s : State) (k : Nat) (e : Entry) : State := { s with entries := Sparse.insert s.entries k e }

def State.gen (s : State) (k : Nat) : BitVec 6 := Sparse.get 0#6 s.gens k

/-- The handle value of an entry (R21). -/
def State.handle (s : State) (k : Nat) : Word :=
  BitVec.ofNat 32 (2 ^ 31 + (s.gen k).toNat * 2 ^ 12 + k / 1024 % 4 * 2 ^ 10 + k % 1024)

/-- The entry key that a handle value names on a core. -/
def handleKey (core : Nat) (h : Word) : Nat := entryKey core (h.toNat / 2 ^ 10 % 4) (h.toNat % 2 ^ 10)

/-- The entry that a handle operand names, or `none` where R23 raises HANDLE. -/
def State.entryOf (s : State) (ln : Ln) (h : Word) : Option (Nat × Entry) :=
  let k := handleKey ln.core h
  match s.entry? k with
  | none => none
  | some e =>
    if h.getLsbD 31 && h.toNat / 2 ^ 18 % 2 ^ 13 == 0 && h.toNat / 2 ^ 10 % 4 == ln.sub && h == s.handle k &&
        e.owner == ln.t then some (k, e)
    else none

/-- One more reference to the entry that a handle register names; null adds nothing. -/
def State.addRef (s : State) (core : Nat) (h : Word) : State :=
  if h = 0#32 then s
  else
    let k := handleKey core h
    match s.entry? k with
    | none => s
    | some e => s.setEntry k { e with refs := e.refs + 1 }

/-- The row keys that a capture maps. -/
def Capture.keys (c : Capture) (core sub lane : Nat) : List Nat :=
  c.rows.toList.filterMap fun o => o.map fun i => rowKey core sub lane i

/-- The non-null handle registers of a capture. -/
def Capture.handles (c : Capture) : List Word := c.h.toList.filter (· != 0#32)

/-- References removed from the entries of a worklist; an entry left with none releases its rows, drops the handle
registers it captured, and its generation advances (R22, R195). The fuel bounds the number of drops. -/
def State.dropKeys (s : State) : Nat → List Nat → State
  | 0, _ => s
  | _, [] => s
  | fuel + 1, k :: rest =>
    match s.entry? k with
    | none => State.dropKeys s fuel rest
    | some e =>
      if e.refs > 1 then State.dropKeys (s.setEntry k { e with refs := e.refs - 1 }) fuel rest
      else
        let core := k / 4096
        let sub := k / 1024 % 4
        let s := (e.cap.keys core sub e.lane).foldl State.decRow s
        let s := { s with entries := s.entries.filter (·.1 != k), gens := Sparse.set 0#6 s.gens k (s.gen k + 1#6) }
        State.dropKeys s fuel (e.cap.handles.map (handleKey core) ++ rest)

/-- The references of handle registers removed (R24, R200); null drops nothing. -/
def State.dropHandles (s : State) (core : Nat) (hs : List Word) : State :=
  let ks := (hs.filter (· != 0#32)).map (handleKey core)
  s.dropKeys (ks.length + 16 * s.entries.length + 1) ks

/-- A free slot of a sub-core's table. -/
def State.freeSlot? (s : State) (core sub : Nat) : Option Nat :=
  (List.range Config.tableEntries).find? fun i => (s.entry? (entryKey core sub i)).isNone

/-! ## Capturing and restoring (R11, R198, R355) -/

/-- The captured items of a thread (R11). -/
def Thread.capture (th : Thread) : Capture :=
  { pc := th.pc, mr := th.mr, stack := th.stack, rows := th.rows, preds := th.preds, h := th.h, taint := th.taint,
    tsw := th.tsw, parent := th.parent, depth := th.depth }

/-- A thread with the captured items in place of its own. -/
def Thread.restore (th : Thread) (c : Capture) : Thread :=
  { th with pc := c.pc, mr := c.mr, stack := c.stack, rows := c.rows, preds := c.preds, h := c.h, taint := c.taint,
            tsw := c.tsw, parent := c.parent, depth := c.depth, unkV := 0#256, unkQ := 0#7 }

/-- What an instruction or a capture wants for: a hardware entry, a budget row of a bank (R18), or the landing of the pending
registers of a row that is to be copied (R18). -/
inductive Want where
  | entry | row | landing
  deriving DecidableEq, Repr

/-- One more holder of each row of a list; at 255 holders a fresh copy from the budget of the bank is held instead
(R19). Answers the row pointers held. -/
def State.holdRows (s : State) (T : Team) (sub lane : Nat) :
    List (Option Nat) → Except Want (State × List (Option Nat))
  | [] => .ok (s, [])
  | none :: rest => (State.holdRows s T sub lane rest).map fun (s, l) => (s, none :: l)
  | some i :: rest =>
    let k := rowKey T.core sub lane i
    let r := s.row k
    if r.count < 255 then
      (State.holdRows (s.incRow k) T sub lane rest).map fun (s, l) => (s, some i :: l)
    else if r.pend != 0#8 then .error .landing
    else
      match s.budgetRow? T sub lane with
      | none => .error .row
      | some j =>
        let s := s.putRow (rowKey T.core sub lane j) { r with count := 1, owner := T.id, pool := .snap }
        (State.holdRows s T sub lane rest).map fun (s, l) => (s, some j :: l)

/-- A thread captured into a hardware entry (R355, R362). -/
def State.hwCapture (s : State) (T : Team) (ln : Ln) : Except Want (State × Capture) :=
  match s.holdRows T ln.sub ln.l ln.th.rows.toList with
  | .error w => .error w
  | .ok (s, ps) =>
    let c := { ln.th.capture with rows := Vector.ofFn fun i => ps.getD i.val none }
    .ok (ln.th.h.toList.foldl (fun s h => s.addRef ln.core h) s, c)

/-- The lanes of a list captured into one hardware entry. -/
def State.hwCaptureAll (s : State) (T : Team) (g : Nat) : List Nat → Except Want (State × List (Nat × Capture))
  | [] => .ok (s, [])
  | l :: rest =>
    match s.hwCapture T (T.ln g l) with
    | .error w => .error w
    | .ok (s, c) => (State.hwCaptureAll s T g rest).map fun (s, cs) => (s, (l, c) :: cs)

/-- What a thread holds let go: its rows and its handle registers (R128). -/
def State.releaseThread (s : State) (ln : Ln) : State :=
  let s := (ln.th.capture.keys ln.core ln.sub ln.l).foldl State.decRow s
  s.dropHandles ln.core ln.th.h.toList

/-- What a capture holds let go. -/
def State.releaseCapture (s : State) (core sub lane : Nat) (c : Capture) : State :=
  ((c.keys core sub lane).foldl State.decRow s).dropHandles core c.handles

/-- A thread takes back a hardware capture: its own holdings are released and the entry's pass to it (R276, R364). A
thread that has exited takes nothing back (R410). -/
def State.takeBack (s : State) (T : Team) (g l : Nat) (c : Capture) : State :=
  let ln := { T.ln g l with th := s.thread T.id g l }
  if ln.th.live then (s.releaseThread ln).modThread T.id g l (·.restore c)
  else s.releaseCapture ln.core ln.sub l c

/-- Hardware entries in use on a sub-core (R22). -/
def State.hwUsed (s : State) (core sub : Nat) : Nat :=
  ((s.teams.filter (·.core == core)).map fun T =>
    ((T.groups.filter (·.sub == sub)).map fun G =>
      (if G.handler.isSome then 1 else 0) + (if G.spec.isSome then 1 else 0)).sum).sum

/-! ## Meetings (R124) -/

/-- MR pops from the meeting stack (R12). -/
def Thread.pop (th : Thread) : Thread :=
  match th.stack with
  | [] => { th with mr := allOnes }
  | m :: rest => { th with mr := m, stack := rest }

/-- Every live thread whose MR is `m` stands at `m`. -/
def Group.met (G : Group) (m : Word) : Bool :=
  allLanes.all fun l => let th := G.thread l; !th.here || th.mr != m || th.pc == m

/-- The held threads whose meeting is complete released, until none is (R124). -/
def Group.settle (G : Group) : Nat → Group
  | 0 => G
  | fuel + 1 =>
    let go := allLanes.filter fun l => let th := G.thread l; th.held? && G.met th.mr
    if go.isEmpty then G else Group.settle (go.foldl (fun G l => G.modThread l Thread.pop) G) fuel

/-- Fuel that always suffices: each release pops an entry of one of 32 stacks, or empties one. -/
def settleFuel : Nat := 300

/-- Threads that have reached their meeting point have closed the round of a deterministic launch (R344), the last to come with
the others, so that no round depends on which was last (R338; DEDUCED, log entry 20). -/
def Group.closeHeld (G : Group) : Group :=
  allLanes.foldl (fun G l => if (G.thread l).held? then G.modThread l fun th => { th with closed := true } else G) G

/-- Every meeting of a group that is complete is over; `det` in a deterministic launch. -/
def Group.settled (det : Bool) (G : Group) : Group := (if det then G.closeHeld else G).settle settleFuel

def State.settle (s : State) (t g : Nat) : State :=
  let det := ((s.team? t).map s.isDet).getD false
  s.modGroup t g (·.settled det)

/-! ## Convergence registers (R28, R131, R132) -/

/-- The arrival names the convergence register `n`. -/
def Arr.names (n : Nat) : Arr → Bool
  | .set cv => cv.toNat == n
  | .team cv => cv.toNat == n
  | _ => false

/-- The address at which all live threads of a group have arrived naming `cvn`, if they have (R131). -/
def Group.signed? (G : Group) (n : Nat) : Option Word :=
  match lanesOf G.live with
  | [] => none
  | l :: rest =>
    let th := G.thread l
    if th.arr.names n && rest.all (fun j => (G.thread j).arr == th.arr && (G.thread j).pc == th.pc) then some th.pc
    else none

/-- ARR and MISM of every cv brought up to date with the arrivals (R131, R132, R135). -/
def Team.refresh (T : Team) : Team :=
  { T with cvs := Vector.ofFn fun (n : Fin 16) =>
      let c := vget T.cvs n.val cvReset
      let signed := T.groups.filterMap (·.signed? n.val)
      let mism := match signed with | [] => false | a :: rest => rest.any (· != a)
      { c with arr := signed.length, mism := c.mism || mism } }

/-! ## Groups of a single execution -/

/-- The groups of a team by number. -/
def Team.numbered (T : Team) : List (Nat × Group) := T.groups.zipIdx.map fun (G, g) => (g, G)

/-- The membership of a scope, by ascending group index (R131); groups with no live thread keep their place (R136). -/
def Team.membership (T : Team) (a : Arr) (g : Nat) : List Nat :=
  match a with
  | .no | .group => [g]
  | .set cv => (List.range T.groups.length).filter fun g => (vget T.cvs cv.toNat cvReset).mask.getLsbD g
  | .team _ => List.range T.groups.length

/-- The cv a scope names. -/
def Arr.cv? : Arr → Option CvN
  | .set cv => some cv
  | .team cv => some cv
  | _ => none

/-- A 64-bit mask of groups. -/
def groupMask (gs : List Nat) : Dword := gs.foldl (fun m g => m ||| (1#64 <<< g)) 0#64

/-! ## Faults (R352, R353) -/

/-- The fault codes (R352). -/
inductive Code where
  | illop | unallot | misalign | perm | xlate | dataerr | atompath | fpx | rdvmis | rdvtmo | race | raceSys | handle
  | rdimis | wdog | remtmo | swtrap | bkpt | stackovf | kilnfull
  deriving DecidableEq, Repr

def Code.num : Code → Nat
  | .illop => 0x01 | .unallot => 0x02 | .misalign => 0x03 | .perm => 0x04 | .xlate => 0x05 | .dataerr => 0x06
  | .atompath => 0x07 | .fpx => 0x08 | .rdvmis => 0x09 | .rdvtmo => 0x0A | .race => 0x0B | .raceSys => 0x0B
  | .handle => 0x0C | .rdimis => 0x0D | .wdog => 0x0E | .remtmo => 0x0F | .swtrap => 0x10 | .bkpt => 0x11
  | .stackovf => 0x12 | .kilnfull => 0x13

inductive Class where
  | user | system | team
  deriving DecidableEq, Repr

/-- The class of each fault (R352). -/
def Code.cls : Code → Class
  | .illop | .fpx | .race | .swtrap | .bkpt | .stackovf => .user
  | .unallot | .misalign | .rdvmis | .rdvtmo | .rdimis => .team
  | .perm | .xlate | .dataerr | .atompath | .raceSys | .handle | .wdog | .remtmo | .kilnfull => .system

/-- A fault as it is raised: its team, the group whose fault registers it sets, and the fields of its record (R359). -/
structure Raise where
  code : Code
  t : Nat
  g : Nat
  lanes : Word
  pc : Word
  dst : Word := allOnes
  width : Nat := 1
  /-- The single execution that raised it (R101); `no` for an L-scope instruction. -/
  arr : Arr := .no
  /-- The single execution that raised it when its members had gone on (R101, R233). -/
  late : Arr := .no
  members : List Nat := []
  va : Dword := 0#64
  pc2 : Word := allOnes
  pages : List Nat := []
  deriving DecidableEq, Repr

/-- The fault registers of a group (R31, R354). -/
def State.setFlt (s : State) (r : Raise) : State :=
  s.modGroup r.t r.g fun G =>
    { G with fltmask := r.lanes, fltpc := r.pc, fltcode := BitVec.ofNat 32 r.code.num, fltdst := r.dst }

/-- The record of a fault (R359). -/
def State.record (s : State) (r : Raise) (cls : BitVec 2) : FaultRec :=
  let T := s.team? r.t
  { code := BitVec.ofNat 8 r.code.num, cls,
    inh := ((s.group? r.t r.g).map (·.handler.isSome)).getD false, cv := r.arr.cv?.or r.late.cv?,
    lnum := (T.map (·.lnum)).getD 0#32, team := (T.map (·.index)).getD 0, core := (T.map (·.core)).getD 0,
    group := r.g, slot := none, pc := r.pc, lanes := r.lanes,
    members := if (r.arr.cv?.or r.late.cv?).isSome then groupMask r.members else 0#64, pc2 := r.pc2, dst := r.dst, va := r.va,
    time := s.gt, pages := r.pages }

/-- The matrix state of a core. -/
def State.mxOf (s : State) (core : Nat) : Mx := (s.mx.lookup core).getD mxReset

def State.setMx (s : State) (core : Nat) (m : Mx) : State := { s with mx := Sparse.set mxReset s.mx core m }

/-- The reuse latch of a core emptied by a change of its cv (R232). -/
def State.dropLatch (s : State) (core : Nat) (cv : CvN) : State :=
  let m := s.mxOf core
  match m.latch with
  | some l => if l.arr.cv? == some cv then s.setMx core { m with latch := none } else s
  | none => s

/-- A value put in the registers of a row from a position on, whether a thread or only a capture still maps the row (R20, R206). -/
def State.landAt (s : State) (dst : Option (Nat × Nat)) (n : Nat) (v : BitVec 128) (poison : Bool) : State :=
  match dst with
  | none => s
  | some (k, pos) =>
    let r := s.row k
    let js := List.range n
    s.putRow k
      { r with regs := js.foldl (fun x j => vset x (pos + j) ((v >>> (32 * j)).setWidth 32)) r.regs,
               pend := js.foldl (fun b j => setBit b (pos + j) false) r.pend,
               poison := js.foldl (fun b j => setBit b (pos + j) poison) r.poison }

/-- Registers of a row pending no longer, their values as they were. -/
def State.unpend (s : State) (dst : Option (Nat × Nat)) (n : Nat) : State :=
  match dst with
  | none => s
  | some (k, pos) =>
    let r := s.row k
    s.putRow k { r with pend := (List.range n).foldl (fun b j => setBit b (pos + j) false) r.pend }

/-- Accesses withdrawn (R353, R364): their registers stop waiting. -/
def State.dropFlights (s : State) (p : Flight → Bool) : State :=
  let gone := s.flights.filter p
  gone.foldl (fun s f => f.lanes.foldl (fun s a => s.unpend a.dst f.nreg) s) { s with flights := s.flights.filter fun f => !p f }

/-- Flights of a group. -/
def State.flightsOf (s : State) (t g : Nat) : List Flight := s.flights.filter fun f => f.team == t && f.group == g

/-- The access, or the later part of its instruction, has the number. -/
def Flight.awaited (f : Flight) (id : Nat) : Bool := f.id == id || (f.mate && f.id + 1 == id)

/-- The access writes. -/
def AccOp.writes : AccOp → Bool
  | .load _ => false
  | _ => true

/-- The flights whose threads wait at the word until their step is performed (R213, R216, R219). -/
def AccOp.steps : AccOp → Bool
  | .qenq _ | .qdeq .. | .csub .. | .cret => true
  | _ => false

/-- The access was issued under a speculation entry of its group to which the group goes back: in its own run-ahead, or because its team
is being stopped or another group of it runs ahead (R363 to R367). -/
def State.ahead (s : State) (f : Flight) : Bool :=
  match s.team? f.team, (s.group? f.team f.group).bind (·.spec) with
  | some T, some sp => f.id ≥ sp.start && (sp.runAhead || T.st != .run || T.groups.any fun G => (G.spec.map (·.runAhead)).getD false)
  | _, _ => false

/-- The access was issued under the speculation entry that its group still holds: a rollback would withdraw it, and it would be performed
again (R362, R365). -/
def State.underEntry (s : State) (f : Flight) : Bool := ((s.group? f.team f.group).bind (·.spec)).any fun sp => sp.start ≤ f.id

/-- The access is held at the core (R362, R363): it is not confirmed, or one before it is not, or a rollback may still withdraw it (DEDUCED,
log entry 65). -/
def State.held (s : State) (f : Flight) : Bool :=
  !f.confirmed || s.underEntry f || (s.flightsOf f.team f.group).any fun x => x.id < f.id && !x.confirmed

/-- The commands of a team's MSTs that its matrix unit has not read: they go with the queued instructions (R353). -/
def State.dropQueued (s : State) (t : Nat) : State :=
  { s with cmds := s.cmds.filter fun c => !(c.team == t && !c.started && match c.plan with | .tile _ => true | _ => false) }

/-- A team ended where it stands: its queued matrix instructions are discarded, and so are its held accesses and the instructions whose
steps have not been performed (R353). -/
def State.stopTeam (s : State) (T : Team) : State :=
  let m := s.mxOf T.core
  let s := s.setMx T.core { m with queue := m.queue.filter (·.team != T.id), busy := m.busy.filter (·.2.team != T.id) }
  let s := s.dropQueued T.id
  let s := s.dropFlights fun f => f.team == T.id && ((s.held f && (f.op.writes || !f.confirmed)) || f.op.steps)
  s.modTeam T.id fun T => { T with st := .ending true }

/-- A team fault: the team ends, and its record waits to be posted (R353, R360). -/
def State.teamFault (s : State) (r : Raise) : State :=
  let rec_ := s.record r 0#2
  let s := s.setFlt r
  match s.team? r.t with
  | none => s
  | some T => (s.stopTeam T).modPart T.part fun p => { p with faults := p.faults ++ [rec_] }

/-- A system fault: issue stops in every group, and the team is swapped out once it has drained (R353, R367). -/
def State.systemFault (s : State) (r : Raise) : State :=
  let rec_ := s.record r 1#2
  (s.setFlt r).modTeam r.t fun T => { T with st := .stopping rec_ }

/-- The handler set of a trap (R356). Threads that raise it have executed the word at which they arrived. The lanes without a fault of a G-scope
instruction whose faults R176 orders still stand at it: they are waiting, and no part of the set (DESIGN CHOICE, log entry 55). -/
def Group.handlerSet (G : Group) (arr : Arr) (faulting : Word) : List Nat :=
  (lanesOf G.live).filter fun l =>
    let th := G.thread l
    if arr.cv?.isSome || faulting.getLsbD l then true else !th.waiting

/-- A wait as the handler keeps it: those for an answer to the word are given up, since it executes again after TRET; a thread that
waits for its turn in a commit takes none. -/
def Wait.inHandler : Wait → Wait
  | .pin .. | .access _ | .object => .none
  | .turn => .commit
  | w => w

/-- The staged entries of some threads counted anew after a rollback; a thread that closed the round with one of those withdrawn
has not closed it (R343, R364). -/
def State.recount (s : State) (t g : Nat) (lanes : List Nat) : State :=
  lanes.foldl (fun s l =>
    let n := s.flights.countP fun f => f.team == t && f.group == g && f.staged && f.lanes.any (·.lane == l)
    s.modThread t g l fun th =>
      if th.staged = n then th else { th with staged := n, closed := th.closed && th.wait != .none }) s

/-- The accesses withdrawn for whose confirmation, step or value some lanes of a group wait at their word. -/
def State.giveUp (s : State) (t g : Nat) (lanes : List Nat) : State :=
  (s.dropFlights fun f => f.team == t && f.group == g && lanes.any fun l => match (s.thread t g l).wait with
    | .access k => f.awaited k
    | .object => f.object && f.lanes.any (·.lane == l)
    | _ => false).recount t g lanes

/-- Threads of a group leave the loop buffer that they run from (R286). -/
def State.leaveLoops (s : State) (t g : Nat) (lanes : List Nat) : State :=
  let left (b : Loop) : Loop :=
    if b.team == t then { b with inside := b.inside.filter fun (j, l) => !(j == g && lanes.contains l) } else b
  { s with loops := (s.loops.map left).filter (!·.inside.isEmpty) }

/-- A group enters its user handler (R355), or wants for a hardware entry or for rows: then it waits. Its threads leave the loop
buffer, and answers that they still waited for come to nothing: such a word executes again after TRET. With their MR taken
away, the meeting of threads that wait for them is complete in this cycle (R124; DEDUCED, log entry 55). An arrival that the
trap sets aside leaves ARR (R356; DEDUCED, log entry 55). -/
def State.enterHandler (s : State) (r : Raise) : Except Want State :=
  match s.team? r.t with
  | none => .error .entry
  | some T =>
    match T.group? r.g with
    | none => .error .entry
    | some G =>
      if s.hwUsed T.core G.sub ≥ Config.hwEntries then .error .entry
      else
        let set := G.handlerSet r.arr r.lanes
        match s.hwCaptureAll T r.g set with
        | .error w => .error w
        | .ok (s, caps) =>
          let h : Handler :=
            { caps, out := [], width := r.width, members := r.members, arr := r.arr, late := r.late,
              timer := if r.arr == .group then none else G.timer, tskip := if r.arr == .group then 0 else G.tskip }
          let s := (s.setFlt r).modGroup r.t r.g fun G => { G with handler := some h, trap := none, timer := none, tskip := 0 }
          let s := (s.giveUp r.t r.g set).modTeam r.t fun T => { T with struck := s.gt + 1 }
          let s := set.foldl (fun s l => s.modThread r.t r.g l fun th =>
            { th with pc := T.trapvec, mr := allOnes, stack := [], arr := .no, wait := th.wait.inHandler }) s
          .ok (((s.leaveLoops r.t r.g set).settle r.t r.g).modTeam r.t Team.refresh)

/-- The team runs, so that a fault of it is delivered; an ended team takes none, and a team that is being stopped takes a team
fault only (R354, R371). -/
def State.takes (s : State) (t : Nat) (c : Class) : Bool :=
  match s.team? t with
  | none => false
  | some T =>
    match T.st with
    | .run => true
    | .ending _ => false
    | _ => c == .team

/-- A fault delivered by its class (R353). -/
def State.deliverFault (s : State) (r : Raise) : State :=
  match r.code.cls with
  | .team => s.teamFault r
  | .system => s.systemFault r
  | .user =>
    match s.team? r.t, s.group? r.t r.g with
    | some T, some G =>
      if T.trapvec = 0#32 || G.handler.isSome || G.trap.isSome then s.teamFault r
      else
        match s.enterHandler r with
        | .ok s => s
        | .error _ =>
          (s.modGroup r.t r.g fun G =>
            { G with trap := some { code := BitVec.ofNat 32 r.code.num, lanes := r.lanes, pc := r.pc, dst := r.dst,
                                    width := r.width, members := r.members, arr := r.arr, late := r.late, waited := 0, skipped := 0 } }).modTeam r.t
            fun T => { T with struck := s.gt + 1 }
    | _, _ => s

/-- A fault raised: delivered where the team takes it, else dropped (R354). -/
def State.raise (s : State) (r : Raise) : State := if s.takes r.t r.code.cls then s.deliverFault r else s

/-! ## Speculation (R362 to R364) -/

/-- The destination registers of the access that took a speculation entry as they were before it. -/
def State.putOlds (s : State) (sp : Spec) : State :=
  sp.olds.foldl (fun s (k, j, v, p) =>
    let r := s.row k
    s.putRow k { r with regs := vset r.regs j v, poison := setBit r.poison j p }) s

/-- A group back at its speculation entry: its threads take back what was captured, the accesses issued under the entry
are withdrawn, the entry is dropped (R364). -/
def State.rollback (s : State) (t g : Nat) : State :=
  match s.team? t, (s.group? t g).bind (·.spec) with
  | some T, some sp =>
    let s := s.dropFlights fun f => f.team == t && f.group == g && f.id ≥ sp.start
    let s := sp.caps.foldl (fun s (l, c) =>
      let moved := (s.thread t g l).pc != c.pc
      let s := s.takeBack T g l c
      -- a thread that has not moved keeps its arrival or its wait, unless it waits for a withdrawn access; one that has moved had not
      -- closed the round of a deterministic launch where it stands again (R344)
      s.modThread t g l fun th =>
        if moved then { th with arr := .no, wait := .none, closed := false }
        else match th.wait with
          | .access id => if id ≥ sp.start then { th with wait := .none } else th
          | .object => { th with wait := .none }
          | _ => th) s
    ((s.putOlds sp).modGroup t g fun G => { G with spec := none }).recount t g (sp.caps.map (·.1))
  | _, _ => s

/-- Every group of a team back at its speculation entry (R364, R367). -/
def State.rollbackAll (s : State) (t : Nat) : State :=
  match s.team? t with
  | none => s
  | some T => (List.range T.groups.length).foldl (fun s g => s.rollback t g) s

/-- Run-ahead of a group ends: its rollback, and the team is swapped out under the first XLATE; the other groups roll back at
the swap-out (R364, R367). The fault is raised now, so that TIME of its record is this GT and not that at which the XLATE was returned
(DESIGN CHOICE, log entry 69). -/
def State.endRunAhead (s : State) (t g : Nat) : State :=
  match (s.group? t g).bind (·.spec) with
  | none => s
  | some sp =>
    (s.rollback t g).systemFault
      { code := .xlate, t, g, lanes := sp.lanes, pc := sp.pc, dst := sp.dst, va := sp.va, pages := sp.pages.take 8 }

/-- What happens at an instruction of a group that would raise: outside speculation the fault is delivered; in run-ahead
it ends the run-ahead and is not raised (R363, R364); past an unconfirmed access the word waits for the confirmation
(R362; DEDUCED, log entry 13), so nothing has happened. -/
def State.raising (s0 : State) (t g : Nat) (delivered : State) : State :=
  match (s0.group? t g).bind (·.spec) with
  | none => delivered
  | some sp => if sp.runAhead then s0.endRunAhead t g else s0

/-- The group is in run-ahead (R363). -/
def State.inRunAhead (s : State) (t g : Nat) : Bool := (((s.group? t g).bind (·.spec)).map (·.runAhead)).getD false

/-- What happens where the wait of some groups would end in a fault, as at an instruction that raises: `delivered` is the state in
which it is delivered (R362 to R364; DEDUCED, log entry 13). -/
def State.raisingIn (s0 : State) (t : Nat) (gs : List Nat) (delivered : State) : State :=
  match gs.find? (s0.inRunAhead t) with
  | some g => s0.endRunAhead t g
  | none => if gs.any fun g => ((s0.group? t g).bind (·.spec)).isSome then s0 else delivered

/-- The groups of a single execution, or of a group's own word. -/
def Raise.groups (r : Raise) : List Nat := if r.members.isEmpty then [r.g] else r.members

/-- An acquire joins those that a thread has behind it and that no load has passed yet (R186; DEDUCED, log entry 64). -/
def Thread.gate (th : Thread) (q : AcqGate) : Thread :=
  { th with acq := some (match th.acq with
    | none => q
    | some p => { bound := max p.bound q.bound, lanes := p.lanes ||| q.lanes, wide := p.wide || q.wide }) }

/-! ## Finishing an instruction -/

/-- A thread past the word it has executed. -/
def Thread.next (th : Thread) : Thread := { th with pc := th.pc + 8#32, arr := .no, wait := .none, waited := 0, skipped := 0 }

/-- The lanes of a group past the word. -/
def State.nextLanes (s : State) (t g : Nat) (lanes : List Nat) : State :=
  (s.modGroup t g fun G => lanes.foldl (fun G l => G.modThread l Thread.next) G).settle t g

/-- The longest wait of the threads that stand at a rendezvous on cv `n`, if there are any. -/
def Team.waitedOn (T : Team) (n : Nat) : Option Nat :=
  (T.groups.map fun G => ((lanesOf G.live).map G.thread).filter (·.arr.names n)).flatten.foldl
    (fun best th => some (max (best.getD 0) th.rdv)) none

/-- The timer of a group's rendezvous stopped (R134). -/
def Group.stopTimer (G : Group) : Group := { G with timer := none, tskip := 0 }

/-- The rendezvous on a cv over: ARR 0, PHASE flipped, its timer stopped (R131). The timer goes on for threads that stand at another
rendezvous on the cv. -/
def Team.endRendezvous (cv : CvN) (T : Team) : Team :=
  let c := vget T.cvs cv.toNat cvReset
  Team.refresh { T with cvs := vset T.cvs cv.toNat { c with phase := !c.phase, timer := T.waitedOn cv.toNat, tskip := 0 } }

/-- The rendezvous of a single execution is over (R131). -/
def State.release (s : State) (t : Nat) (arr : Arr) (members : List Nat) : State :=
  match arr with
  | .no => s
  | .group => members.foldl (fun s g => s.modGroup t g Group.stopTimer) s
  | .set cv => s.modTeam t (Team.endRendezvous cv)
  | .team cv => s.modTeam t (Team.endRendezvous cv)

/-- The lanes that take part in the instruction at the cursor, but for those of `stay`, past the word; the rendezvous
over. -/
def State.retire (s : State) (stay : List (Nat × Nat)) : State :=
  let cur := s.cur
  let s := cur.members.foldl (fun s (g, m) =>
    s.nextLanes cur.team g ((lanesOf m).filter fun l => !stay.contains (g, l))) s
  s.release cur.team cur.arr (cur.members.map (·.1))

/-! ## Ending threads (R128, R219) -/

/-- A flight other than one holds the bytes for its lanes, so that nothing else writes them now (R178). -/
def State.lockedBy (s : State) (id ia n : Nat) : Bool :=
  s.flights.any fun x => x.id != id && x.hot.any fun h => decide (h < ia + n ∧ ia < h + x.size)

/-- Some flight holds bytes for its lanes, so that no other agent writes them now (R178). -/
def State.locked (s : State) (ia n : Nat) : Bool := s.lockedBy 0 ia n

/-- One added to the word at an IA, where a page holds it. -/
def State.addOne (s : State) (ia : Nat) : State :=
  match s.iaKey ia with
  | none => s
  | some k => s.setBytes k 4 ((s.bytes k 4 + 1) % 2 ^ 32)

/-- One added to the LOST count of a cascade header, where its address translates (R215); once the lanes of an atomic that hold the word have
been performed (R178). -/
def State.bumpCascade (s : State) (T : Team) (casc : Dword) (off : Nat) : State :=
  match s.translate T.part (s.ctxOf T) (casc.toNat + off) needRW with
  | none => s
  | some ia => if s.locked ia 4 then { s with owed := s.owed ++ [ia] } else s.addOne ia

/-- The counts that had to wait for the lanes of an atomic are advanced (R178, R215). -/
def State.payOwed (s : State) : State :=
  match s.owed with
  | [] => s
  | l => (l.filter fun ia => !s.locked ia 4).foldl State.addOne { s with owed := l.filter fun ia => s.locked ia 4 }

/-- The thread that a handler captured in a lane has ended in the handler (R410). -/
def Handler.without (h : Handler) (l : Nat) : Handler :=
  if h.caps.any (·.1 == l) && !h.out.contains l then { h with out := l :: h.out } else h

/-- The lanes whose threads a handler runs: those of its set that have not ended (R356, R410). A sibling that a SPRT starts in the lane of
one that has ended is none of them. -/
def Handler.lanes (h : Handler) : List Nat := (h.caps.map (·.1)).filter (!h.out.contains ·)

/-- A thread ends: handles dropped, rows released, the live bit cleared (R128). `lost` is true for an end that leaves
the item it holds without a result (R219). -/
def State.exitThread (s : State) (t g l : Nat) (lost : Bool) : State :=
  match s.team? t with
  | none => s
  | some T =>
    let ln := T.ln g l
    if !ln.th.live then s
    else
      let s := s.releaseThread ln
      let s := match ln.th.held with
        | some h => if lost then s.bumpCascade T h.casc 0x0C else s
        | none => s
      s.modGroup t g fun G => { G.modThread l (fun _ => threadIdle) with handler := G.handler.map (·.without l) }

/-- The captures of a handler set taken back by the threads that have not ended, which have arrived nowhere; what was captured of the others
is let go (R276, R410). The group is in its handler no more. -/
def State.takeBackAll (s : State) (T : Team) (g : Nat) (h : Handler) : State :=
  let s := h.caps.foldl (fun s (l, c) =>
    if h.out.contains l then s.releaseCapture T.core (T.ln g 0).sub l c
    else (s.takeBack T g l c).modThread T.id g l fun th => { th with arr := .no }) s
  (s.modGroup T.id g fun G => { G with handler := none }).leaveLoops T.id g (h.caps.map (·.1))

/-- The lanes of member group `j` that the end of a single execution on which group `g` ran a handler sends on: those of the handler, and in
the other groups those that are signed for it (R101, R276). -/
def Handler.released (h : Handler) (g : Nat) (j : Nat) (H : Group) : List Nat :=
  (lanesOf H.live).filter fun l => if j == g then h.lanes.contains l else (H.thread l).arr == h.arr

/-- Every member of the single execution that a handler serves goes on at the following word (R101, R276). -/
def State.releaseAll (s : State) (t g : Nat) (h : Handler) : State :=
  (h.members.foldl (fun s j =>
    match s.group? t j with
    | some H => s.nextLanes t j (h.released g j H)
    | none => s) s).release t h.arr h.members

/-- The end of a handler that serves a paired MMA whose members had gone on (R101, R233): with `retry` the instruction takes its record anew
and may start, otherwise it is dropped (DEDUCED, log entry 43). -/
def State.lateReturn (s : State) (T : Team) (h : Handler) (retry : Bool) : State :=
  if h.late.cv?.isNone then s
  else
    let m := s.mxOf T.core
    let again (o : MxOp) : MxOp :=
      if o.held && o.team == T.id then
        { o with held := false, work := match o.work with
            | .pair d rows r mod pos b => .pair d rows r mod pos { b with img := vget m.recs r.toNat (.replicate 8 0#32) }
            | w => w }
      else o
    s.setMx T.core { m with queue := if retry then m.queue.map again else m.queue.filter fun o => !(o.held && o.team == T.id) }

/-- A handler whose threads have all exited is left (R410): its captures are released, and the other members of a wide
single execution go on at the following word. -/
def State.leaveHandler (s : State) (t g : Nat) : State :=
  match s.team? t, (s.group? t g).bind (·.handler) with
  | some T, some h =>
    if !h.lanes.isEmpty then s
    else
      let s := (s.takeBackAll T g h).modGroup t g fun G => { G with timer := h.timer, tskip := h.tskip }
      if h.arr.cv?.isSome then s.releaseAll t g h else s.lateReturn T h false
  | _, _ => s

/-- Threads of a group ended, with what follows for meetings, signatures and the handler (R124, R128, R135, R410). -/
def State.exitLanes (s : State) (t g : Nat) (lanes : List Nat) (lost : Bool) : State :=
  let s := lanes.foldl (fun s l => s.exitThread t g l lost) s
  ((s.settle t g).leaveHandler t g).modTeam t Team.refresh

/-! ## Stalls (R18) -/

/-- The lanes of the cursor stall for Kiln rows: they stand outside the grouping stage, and their wait counts. -/
def State.stall (s : State) : State :=
  s.cur.members.foldl (fun s (g, m) =>
    (lanesOf m).foldl (fun s l => s.modThread s.cur.team g l fun th => { th with wait := .kiln }) s) s

end Sys2Proof.Machine
end

