-- ==== Sys2Proof/Machine/Cache.lean ====
section
/-! DEFINITION. The caches above the memory (R279, R282, R284 to R287): L1 copies with their leases, the lines of L2 and of the
last-level cache with their re-reference values, lease ends and write completion times, Cistern leases as they bind victims (R190),
residency handles (R298); reads and writes at the home, poison; and what the memory side reports: MSI-X messages (R392),
notifications (R292), hotness (R291), error counters (R379, R388). -/

namespace Sys2Proof.Machine

open Sys2Proof

/-! ## Messages to the host -/

/-- Bus Master Enable of the partition's function on a port (R387). -/
def State.busMaster (s : State) (p port : Nat) : Bool := (s.part p).bme.getD port false

/-- Offset of an entry of the MSI-X table. Each twin has its own (R384): vector v of the twin on port 1 is number 2048 + v, and
its entry is kept above the offsets of BAR0. -/
def msixOff (w : Nat) : Nat := 0x20000 + 0x100000 * (w / 2048) + 16 * (w % 2048)

/-- The vector is masked in its MSI-X table (R385, R392). -/
def Part.masked (pt : Part) (w : Nat) : Bool := pt.fld (msixOff w + 8) 32 1 == 1

/-- A message of a vector may not be sent now (R387, R392). -/
def State.msixHeld (s : State) (p w : Nat) : Bool := !s.busMaster p (w / 2048) || (s.part p).masked w

/-- An MSI-X message sent through the function on port MSIPORT, or left pending (R392). -/
def State.msix (s : State) (p v : Nat) : State :=
  if v ≥ 2048 then s
  else
    let w := (s.part p).fld 0x1300 16 1 * 2048 + v
    if s.msixHeld p w then s.modPart p fun pt => { pt with msixPend := insertNat pt.msixPend w }
    else s.modPart p fun pt => { pt with msixSent := pt.msixSent ++ [w] }

/-- Pending messages that may be sent now are sent (R387, R392). -/
def State.flushMsix (s : State) (p : Nat) : State :=
  let go := (s.part p).msixPend.filter fun w => !s.msixHeld p w
  s.modPart p fun pt => { pt with msixPend := pt.msixPend.filter fun w => !go.contains w, msixSent := pt.msixSent ++ go }

/-- A notification posted to the partition's ring, or counted as lost (R290, R292): KIND, REQ, VAL, IA. -/
def State.notify (s : State) (p kind req val ia : Nat) : State :=
  let pt := s.part p
  let tail := pt.fld 0x038 0 32
  let size := 2 ^ pt.fld 0x028 0 5
  if (tail + 2 ^ 32 - pt.fld 0x030 0 32) % 2 ^ 32 ≥ size then s.modPart p (·.bump 0x040)
  else
    let k := physKey 0 (pt.fld 0x020 6 42 * 64 + 16 * (tail % size))
    let s := s.setBytes k 16 (kind + req % 32 * 16 + val % 2 ^ 16 * 2 ^ 16 + ia % 2 ^ 52 * 2 ^ 64)
    let s := s.modPart p fun pt => pt.setFld 0x038 0 32 ((tail + 1) % 2 ^ 32)
    s.msix p (pt.fld 0x1300 0 11)

/-- Notification kinds (R292). -/
def kindHot : Nat := 1
def kindMigdone : Nat := 2
def kindMigabort : Nat := 3
def kindFault : Nat := 4
def kindEfault : Nat := 5

/-! ## Hotness (R291) -/

/-- Place of a physical address in the partition's memory ranges laid end to end: HBM5, LPDDR6, CXL (R291). -/
def Module.rangePlace (m : Module) (p tier addr : Nat) : Nat :=
  let hbm := (m.diesOf p).length * Config.hbmPerDie
  let lp := m.lpUnits p * Config.lpUnit
  match tier with
  | 0 => (m.diesOf p).idxOf (addr / Config.hbmPerDie) * Config.hbmPerDie + addr % Config.hbmPerDie
  | 1 => hbm + (addr - ((List.range p).map m.lpUnits).sum * Config.lpUnit)
  | _ =>
    let before := (List.range (addr / 2 ^ 41)).filter fun x => ownerIn m.cxlpart x == some p
    hbm + lp + (before.map Config.cxlPort).sum + addr % 2 ^ 41

/-- A line that a memory controller reads to fill a miss of the last-level cache is counted for the requester whose access missed (R291).
The IA of the notification is the block's first. -/
def State.hot (s : State) (ia key req : Nat) : State :=
  let p := ia / 2 ^ 48
  let pt := s.part p
  if pt.fld 0x018 16 1 = 0 then s
  else
    let block := s.m.rangePlace p (key / 2 ^ 48) (key % 2 ^ 48) / 2 ^ 16
    let k := physKey (pt.fld 0x010 48 2) (pt.fld 0x010 6 42 * 64 + 64 * block + 2 * req)
    let c := s.bytes k 2
    if c = 0xFFFF then s
    else
      let s := s.setBytes k 2 (c + 1)
      let thr := pt.fld 0x018 0 16
      if c + 1 = thr then s.notify p kindHot req thr (ia - ia % 2 ^ 16) else s

/-! ## Reading and writing memory at the home -/

/-- The key is a byte behind a CXL port that is down (R393). -/
def State.cxlDown (s : State) (k : Nat) : Bool :=
  decide (regionBase 2 ≤ k ∧ k < regionBase 3) && !(vget s.m.cxlUp ((k - regionBase 2) / 2 ^ 41) false)

/-- `n` bytes from a key, and whether the line is poisoned. -/
def State.readKey (s : State) (k n : Nat) : Nat × Bool := (s.bytes k n, s.poisonedIn k n || s.cxlDown k)

/-- Bytes written at a key; behind a CXL port that is down they are dropped and counted (R393). -/
def State.writeKey (s : State) (p k : Nat) (bytes : List (Nat × Byte)) : State :=
  if s.cxlDown k then s.modPart p (·.bump 0xF88)
  else bytes.foldl (fun s (j, b) => s.setByte (k + j) b) s

/-- The bytes of a number, numbered. -/
def numbered (n v : Nat) : List (Nat × Byte) := (List.range n).map fun j => (j, BitVec.ofNat 8 (v / 2 ^ (8 * j)))

/-! ## Re-reference interval prediction (R173, R287) -/

/-- The least number of lines below which no set of a 16-way cache can be full. -/
def ways : Nat := 16

/-- The line of a list that is next to go: of the highest re-reference value, and of several a free one (log entry 7). -/
def State.nextOut (s : State) (ls : List CLine) : Option CLine × State :=
  let top := ls.foldl (fun n x => max n x.rrpv) 0
  match ls.filter (·.rrpv == top) with
  | [] => (none, s)
  | [x] => (some x, s)
  | xs => let (n, s) := s.draw; (xs[n % xs.length]?, s)

/-- The lines of a set after one of them has been chosen as the victim: their values rise until its own is 3 (R173). -/
def aged (v : CLine) (ls : List CLine) : List CLine := ls.map fun x => { x with rrpv := min 3 (x.rrpv + (3 - v.rrpv)) }

/-- A line that an access finds: its re-reference value becomes 0 (PRESUMED, log entry 7). -/
def touched (line : Nat) (ls : List CLine) : List CLine := ls.map fun x => if x.line == line then { x with rrpv := 0 } else x

/-! ## Residency handles and leases (R190, R297, R298) -/

/-- Offset of a residency handle. -/
def handleOff (h : Nat) : Nat := 0x080 + 16 * h

/-- The line lies in the range of a handle. -/
def Part.inHandle (pt : Part) (h line : Nat) : Bool := pt.fld (handleOff h) 7 45 ≤ line && line ≤ pt.fld (handleOff h + 8) 7 45

/-- The place of a line in the order of victims (R298): 0 where no handle in use holds it, else one more than the highest PRI. -/
def State.handleRank (s : State) (line : Nat) : Nat :=
  let pt := s.part (line / 2 ^ 41)
  if pt.fld 0x068 0 1 = 0 then 0
  else ((List.range 64).filter fun h => pt.fld (handleOff h) 0 1 == 1 && pt.inHandle h line).foldl
    (fun n h => max n (1 + pt.fld (handleOff h) 1 2)) 0

/-- Of a list of lines those that go first by the handles (R298). -/
def State.firstOut (s : State) (ls : List CLine) : List CLine :=
  match ls.map fun x => s.handleRank x.line with
  | [] => []
  | r :: rs => let low := rs.foldl min r; ls.filter fun x => s.handleRank x.line == low

/-- A line lies in a live lease of the partition (R190). -/
def State.leased (s : State) (p ia : Nat) : Bool := (s.part p).leases.any fun e => s.gt < e.ends && e.lines.contains (ia / 128)

/-- A line lies in a live lease of any partition, so that it is no victim (R190). -/
def State.kept (s : State) (line : Nat) : Bool := (List.range 8).any fun p => s.leased p (line * 128)

/-! ## The last-level cache (R279, R287) -/

/-- The die and the set of a line in its last-level cache. -/
def State.llcPlace (s : State) (line : Nat) : Nat × Nat := (s.m.homeSlice (line * 128) / 24, Config.llcSet line % Config.llcSets)

/-- A line leaves the last-level cache: one that is dirty is written back through the page unit of its die, which finds its page (R287). Its
bytes lie in the memory already (log entry 7). -/
def State.writeBack (s : State) (v : CLine) : State := if v.dirty then s.cache (v.line * 128) else s

/-- A line brought into the last-level cache of its home die; `dirty` when it is written back by L2. -/
def State.llcFill (s : State) (line : Nat) (dirty : Bool) : State :=
  if s.llc.any (·.line == line) then
    { s with llc := (touched line s.llc).map fun x => if x.line == line then { x with dirty := x.dirty || dirty } else x }
  else
    let put (s : State) : State := { s with llc := { line, rrpv := Config.insertAt % 4, dirty } :: s.llc }
    let die := s.m.homeSlice (line * 128) / 24
    if (s.llc.countP fun x => s.m.homeSlice (x.line * 128) / 24 == die) < ways then put s
    else
      let (mine, rest) := s.llc.partition fun x => s.llcPlace x.line == s.llcPlace line
      if mine.length < Config.llcWays then put s
      else
        match s.nextOut (s.firstOut mine) with
        | (some v, s) => put ({ s with llc := aged v (mine.filter (·.line != v.line)) ++ rest }.writeBack v)
        | (none, s) => put s

/-! ## L2 (R282, R284, R287) -/

/-- The set of a line, among all the slices of the module. -/
def State.l2Place (s : State) (line : Nat) : Nat := s.m.homeSlice (line * 128) * 1024 + Config.l2Set line % 1024

/-- The latest lease end granted on a line (R284). -/
def State.lendOf (s : State) (line : Nat) : Nat := Sparse.get 0 s.lend line

/-- A line evicted from L2: its LEND goes into the ELEND of its set, and the line to the last-level cache (R284, R287). -/
def State.evictL2 (s : State) (line : Nat) : State :=
  let h := s.l2Place line
  { s with l2 := s.l2.filter (·.line != line),
           elend := Sparse.set 0 s.elend h (max (s.lendOf line) (Sparse.get 0 s.elend h)) }.llcFill line
    (s.l2.any fun x => x.line == line && x.dirty)

/-- The victims of a full set (R284, R287, R298): no line in a live lease; lines without a LEND in the future, and only where the whole set
has none of these, the one with the earliest. -/
def State.victims (s : State) (set : List CLine) : List CLine :=
  let free := set.filter fun x => !s.kept x.line
  match free.filter fun x => s.lendOf x.line ≤ s.gt with
  | [] =>
    if set.any fun x => s.lendOf x.line ≤ s.gt then []
    else
    let first := free.foldl (fun (m : Option Nat) x => some (min (m.getD (s.lendOf x.line)) (s.lendOf x.line))) none
    free.filter fun x => some (s.lendOf x.line) == first
  | past => s.firstOut past

/-- A line brought into L2 at a replacement position (R173); where no line of the set may be a victim, it is not kept. -/
def State.l2Fill (s : State) (line pos : Nat) : State :=
  if s.l2.any (·.line == line) then { s with l2 := touched line s.l2 }
  else
    let put (s : State) : State := { s with l2 := { line, rrpv := pos } :: s.l2 }
    let slice := s.m.homeSlice (line * 128)
    if (s.l2.countP fun x => s.m.homeSlice (x.line * 128) == slice) < ways then put s
    else
      let (mine, rest) := s.l2.partition fun x => s.l2Place x.line == s.l2Place line
      if mine.length < ways then put s
      else
        match s.nextOut (s.victims mine) with
        | (some v, s) => put ({ s with l2 := aged v mine ++ rest }.evictL2 v.line)
        | (none, s) => s

/-- An access reaches the home slice of a line (R282, R287): a line that L2 does not hold comes from the last-level cache, or from memory,
which counts for the requester (R291). -/
def State.reach (s : State) (ia key req pos : Nat) : State :=
  let line := ia / 128
  let s := if s.l2.any (·.line == line) then s
    else (if s.llc.any (·.line == line) then s else s.hot ia key req).llcFill line false
  s.l2Fill line pos

/-- The re-reference position at which an access without a hint inserts its line. -/
def anyPos : Nat := Config.insertAt % 4

/-- The WCT of a write performed now (R284): no earlier than the line's LEND, and where L2 does not hold the line, than the ELEND of its
set. A line keeps its LEND when it leaves L2 and comes back (DEDUCED, log entry 7). -/
def State.wctOf (s : State) (ia : Nat) : Nat :=
  let line := ia / 128
  let l := max s.gt (s.lendOf line)
  if s.elend.isEmpty || s.l2.any (·.line == line) then l else max l (Sparse.get 0 s.elend (s.l2Place line))

/-- A line that L2 holds has been written; where L2 could not take it, the last-level cache has been (R287). -/
def State.soil (s : State) (line : Nat) : State :=
  let mark (ls : List CLine) : List CLine := ls.map fun x => if x.line == line then { x with dirty := true } else x
  if s.l2.any (·.line == line) then { s with l2 := mark s.l2 } else { s with llc := mark s.llc }

/-- A write reaches the home slice of its line: its WCT. -/
def State.stamp (s : State) (ia key req pos : Nat) : Nat × State := (s.wctOf ia, (s.reach ia key req pos).soil (ia / 128))

/-- A lease granted on a line. -/
def State.grant (s : State) (line ends : Nat) : State :=
  { s with lend := Sparse.set 0 s.lend line (max ends (Sparse.get 0 s.lend line)) }

/-! ## L1 (R282, R284, R285) -/

/-- The team's cluster has fused L1s (R285). -/
def State.fused (s : State) (T : Team) : Bool := ((s.launchOf T).map (·.r.fuse)).getD false

/-- The number of an L1: that of its core, and of one that a fused cluster uses as its slice of a rank, one that no other launch has
(R285). -/
def State.l1Of (s : State) (T : Team) (rank : Nat) : Nat := if s.fused T then Config.cores + 128 * T.cid + rank else T.core

/-- The L1 that holds a line for a team: its core's, or in a fused launch that of cluster rank L mod C (R282, R285). -/
def State.l1Holder (s : State) (T : Team) (ia : Nat) : Nat := s.l1Of T (ia / 128 % 2 ^ 41 % T.cores.length)

/-- A live copy of a line that a load may hit: its lease runs, and it began no earlier than the thread's acquire time. -/
def State.l1Hit (s : State) (holder line since : Nat) : Option L1Copy :=
  s.l1.find? fun c => c.holder == holder && c.line == line && s.gt < c.ends && since ≤ c.began

/-- A load hits a copy: its re-reference value becomes 0. -/
def State.l1Touch (s : State) (holder line : Nat) : State :=
  { s with l1 := s.l1.map fun c => if c.holder == holder && c.line == line then { c with rrpv := 0 } else c }

/-- Room for one more line of a core's L1, of 128 sets of 16 ways. -/
def State.l1Room (s : State) (holder line : Nat) : State :=
  let mine := s.l1.filter (·.holder == holder)
  if mine.length < ways then s
  else
    let set := mine.filter fun c => Config.l1Set c.line % 128 == Config.l1Set line % 128
    if set.length < ways then s
    else
      match s.nextOut (set.map fun c => { line := c.line, rrpv := c.rrpv }) with
      | (some v, s) =>
        let old (c : L1Copy) : L1Copy :=
          if c.holder == holder && set.any (·.line == c.line) then { c with rrpv := min 3 (c.rrpv + (3 - v.rrpv)) } else c
        { s with l1 := (s.l1.filter fun c => !(c.holder == holder && c.line == v.line)).map old }
      | (none, s) => s

/-- A fresh copy of a line, leased for a number of ticks, inserted at a position (R173, R284). Behind a CXL port that is down it is
poisoned (R393). -/
def State.l1Fill (s : State) (holder line key length pos : Nat) : State :=
  let c : L1Copy := { holder, line, data := BitVec.ofNat 1024 (s.bytes key 128), poison := s.poisonedAt key || s.cxlDown key, began := s.gt,
                      ends := s.gt + length, rrpv := pos }
  let s := { s with l1 := s.l1.filter fun x => !(x.holder == holder && x.line == line) }.l1Room holder line
  { s with l1 := c :: s.l1 }.grant line (s.gt + length)

/-- A byte of a line replaced. -/
def setLineByte (x : BitVec 1024) (j : Nat) (b : Byte) : BitVec 1024 :=
  (x &&& ~~~(0xFF#1024 <<< (8 * j))) ||| (b.setWidth 1024 <<< (8 * j))

/-- The copy of a line updated in place by a store (R284). -/
def State.l1Update (s : State) (holder line : Nat) (off : Nat) (bytes : List (Nat × Byte)) : State :=
  { s with l1 := s.l1.map fun c =>
      if c.holder == holder && c.line == line then
        { c with data := bytes.foldl (fun d (j, b) => setLineByte d (off + j) b) c.data }
      else c }

/-- The bytes of the aligned 16-byte pieces that a list of bytes of a line touches, as memory holds them from the key of the line on. With
them a copy shows no mix of a store and of bytes older than it (R399; DEDUCED, log entry 7). -/
def State.wholePieces (s : State) (key off : Nat) (bytes : List (Nat × Byte)) : List (Nat × Byte) :=
  (((bytes.map fun (j, _) => (off + j) / 16).eraseDups).map fun p => (List.range 16).map fun j =>
    (16 * p + j, s.byte (key + 16 * p + j))).flatten

/-- Lines of a core's L1 dropped. -/
def State.dropL1 (s : State) (holder : Nat) (p : Nat → Bool) : State :=
  { s with l1 := s.l1.filter fun c => !(c.holder == holder && p c.line) }

/-- The line of an IA dropped from the L1 that serves a team. -/
def State.dropLine (s : State) (T : Team) (ia : Nat) : State := s.dropL1 (s.l1Holder T ia) (· == ia / 128)

end Sys2Proof.Machine
end

