-- ==== Sys2Proof/Machine/Fp.lean ====
section
/-! DEFINITION. The floating formats and their arithmetic (R52 to R65): decoding an encoding to its exact value, exact
operations on values, and the one rounding function Round(x, fmt, mode) of R56 to R59. -/

namespace Sys2Proof.Machine

open Sys2Proof

/-! ## Formats and values -/

/-- A floating format (R52): exponent and fraction widths, bias, whether the all-ones exponent holds infinities, the
encoding of the largest finite magnitude, the canonical NaN (R54), and whether conversions into it saturate by default
(R59). -/
structure Fmt where
  eb : Nat
  fb : Nat
  bias : Nat
  hasInf : Bool
  top : Nat
  nan : Nat
  sat : Bool
  deriving DecidableEq, Repr

def fp32 : Fmt := { eb := 8, fb := 23, bias := 127, hasInf := true, top := 0x7F7FFFFF, nan := 0x7FC00000, sat := false }
def fp16 : Fmt := { eb := 5, fb := 10, bias := 15, hasInf := true, top := 0x7BFF, nan := 0x7E00, sat := false }
def bf16 : Fmt := { eb := 8, fb := 7, bias := 127, hasInf := true, top := 0x7F7F, nan := 0x7FC0, sat := false }
def e4m3 : Fmt := { eb := 4, fb := 3, bias := 7, hasInf := false, top := 0x7E, nan := 0x7F, sat := true }
def e5m2 : Fmt := { eb := 5, fb := 2, bias := 15, hasInf := true, top := 0x7B, nan := 0x7E, sat := true }
def e2m1 : Fmt := { eb := 2, fb := 1, bias := 1, hasInf := false, top := 7, nan := 0, sat := true }
def a40 : Fmt :=
  { eb := 8, fb := 31, bias := 127, hasInf := true, top := 0x7F7FFFFFFF, nan := 0x7FC0000000, sat := false }

/-- Bits of the format, the sign included. -/
def Fmt.width (f : Fmt) : Nat := 1 + f.eb + f.fb

/-- The encoding of +∞. -/
def Fmt.infBits (f : Fmt) : Nat := (2 ^ f.eb - 1) * 2 ^ f.fb

/-- Weight of the least significant bit of a subnormal: 2^(1 − bias − fb). -/
def Fmt.emin (f : Fmt) : Int := 1 - f.bias - f.fb

/-- An exact value: NaN, an infinity, or (−1)^neg × m × 2^e. With `more`, the magnitude lies strictly between m × 2^e
and (m + 1) × 2^e: the form in which a quotient, a root, a power or a logarithm reaches the rounding. -/
inductive Val where
  | nan
  | inf (neg : Bool)
  | fin (neg : Bool) (m : Nat) (e : Int) (more : Bool)
  deriving DecidableEq, Repr

/-- The exact value of an encoding (R53). -/
def Fmt.value (f : Fmt) (bits : Nat) : Val :=
  let neg := bits / 2 ^ (f.eb + f.fb) % 2 == 1
  let mag := bits % 2 ^ (f.eb + f.fb)
  let ex := mag / 2 ^ f.fb
  let fr := mag % 2 ^ f.fb
  if f.hasInf && ex == 2 ^ f.eb - 1 then (if fr == 0 then .inf neg else .nan)
  else if f.nan != 0 && !f.hasInf && mag > f.top then .nan
  else if ex == 0 then .fin neg fr f.emin false
  else .fin neg (2 ^ f.fb + fr) (f.emin + ex - 1) false

/-- A subnormal operand is read as zero of the same sign under FTZ (R57). -/
def Fmt.flush (f : Fmt) : Val → Val
  | .fin neg m e more => if m < 2 ^ f.fb && e == f.emin then .fin neg 0 0 false else .fin neg m e more
  | x => x

/-- An operand as an instruction with this FTZ bit reads it (R146 step 1). -/
def Fmt.read (f : Fmt) (ftz : Bool) (bits : Nat) : Val := if ftz then f.flush (f.value bits) else f.value bits

/-- The value of E8M0 (R53). -/
def e8m0Value (bits : Nat) : Val := if bits % 256 == 255 then .nan else .fin false 1 ((bits % 256 : Nat) - 127 : Int) false

def Val.neg : Val → Val
  | .nan => .nan
  | .inf n => .inf !n
  | .fin n m e s => .fin (!n) m e s

def Val.abs : Val → Val
  | .nan => .nan
  | .inf _ => .inf false
  | .fin _ m e s => .fin false m e s

/-- The integer `x` as a value. -/
def Val.ofInt (x : Int) : Val := .fin (x < 0) x.natAbs 0 false

/-! ## Rounding -/

/-- TSW flag bits (R25). -/
def flagNV : BitVec 5 := 1#5
def flagDZ : BitVec 5 := 2#5
def flagOF : BitVec 5 := 4#5
def flagUF : BitVec 5 := 8#5
def flagNX : BitVec 5 := 16#5

/-- The rounding modes (R56): MOD1:0. -/
def rne : BitVec 2 := 0#2
def rz : BitVec 2 := 1#2
def ru : BitVec 2 := 2#2
def rd : BitVec 2 := 3#2

/-- The magnitude m × 2^e (with `more`, a little over it) on the grid of multiples of 2^q: the rounded multiple, and
whether it differs from the magnitude (R56 step 3). -/
def onGrid (mode : BitVec 2) (neg : Bool) (m : Nat) (e : Int) (more : Bool) (q : Int) : Nat × Bool :=
  if q ≤ e then
    let n := m * 2 ^ (e - q).toNat
    let up := more && (if mode == ru then !neg else mode == rd && neg)
    (if up then n + 1 else n, more)
  else
    let k := (q - e).toNat
    let n := m / 2 ^ k
    let low := m % 2 ^ k
    let half := 2 ^ (k - 1)
    let inexact := low != 0 || more
    let up :=
      if mode == rne then low > half || (low == half && (more || n % 2 == 1))
      else if mode == ru then !neg && inexact
      else if mode == rd then neg && inexact
      else false
    (if up then n + 1 else n, inexact)

/-- The sign bit on a magnitude. -/
def Fmt.sign (f : Fmt) (neg : Bool) (mag : Nat) : Nat := if neg then mag + 2 ^ (f.eb + f.fb) else mag

/-- A finite overflow (R56 step 4, R59). -/
def Fmt.overflow (f : Fmt) (mode : BitVec 2) (nsat neg : Bool) : Nat :=
  if f.sat && !nsat then f.sign neg f.top
  else if !f.hasInf then f.nan
  else
    let toInf := if mode == rne then true else if mode == ru then !neg else if mode == rd then neg else false
    f.sign neg (if toInf then f.infBits else f.top)

/-- Round(x, fmt, mode) (R56 to R59): the encoding and the flags OF, UF, NX, NV that the conversion itself raises. -/
def Fmt.round (f : Fmt) (mode : BitVec 2) (ftz nsat : Bool) : Val → Nat × BitVec 5
  | .nan => (f.nan, if f.nan == 0 then flagNV else 0#5)
  | .inf neg =>
    if f.sat && !nsat then (f.sign neg f.top, flagNX)
    else if !f.hasInf then (f.nan, flagNV)
    else (f.sign neg f.infBits, 0#5)
  | .fin neg m e more =>
    let noNegZero := f.nan == 0
    if m == 0 && !more then (if noNegZero then 0 else f.sign neg 0, 0#5)
    else
      let topBit : Int := e + m.log2
      let q := max (topBit - f.fb) f.emin
      let (n, inexact) := onGrid mode neg m e more q
      let full := (onGrid mode neg m e more (topBit - f.fb)).1
      let carry : Int := if full == 2 ^ (f.fb + 1) then 1 else 0
      let tiny := topBit + carry < 1 - f.bias
      let enc := (q - f.emin).toNat * 2 ^ f.fb + n
      if tiny && ftz then (if noNegZero then 0 else f.sign neg 0, flagUF ||| flagNX)
      else if enc > f.top then (f.overflow mode nsat neg, flagOF ||| flagNX)
      else
        let bits := if noNegZero && enc == 0 then 0 else f.sign neg enc
        (bits, if inexact then (if tiny then flagUF ||| flagNX else flagNX) else 0#5)

/-! ## Exact operations -/

/-- The sign of an exact zero sum of operands of these signs (R55). -/
def zeroSign (mode : BitVec 2) (a b : Bool) : Bool := if a == b then a else mode == rd

/-- Signed integer of a magnitude. -/
def signed (neg : Bool) (m : Nat) : Int := if neg then -(m : Int) else m

/-- The exact sum; NV when infinities of opposite sign meet (R149). The operands carry no `more`. -/
def Val.add (mode : BitVec 2) : Val → Val → Val × BitVec 5
  | .nan, _ => (.nan, 0#5)
  | _, .nan => (.nan, 0#5)
  | .inf a, .inf b => if a == b then (.inf a, 0#5) else (.nan, flagNV)
  | .inf a, .fin .. => (.inf a, 0#5)
  | .fin .., .inf b => (.inf b, 0#5)
  | .fin a ma ea _, .fin b mb eb _ =>
    let e := min ea eb
    let s := signed a (ma * 2 ^ (ea - e).toNat) + signed b (mb * 2 ^ (eb - e).toNat)
    if s == 0 then (.fin (zeroSign mode a b) 0 0 false, 0#5) else (.fin (s < 0) s.natAbs e false, 0#5)

/-- The exact product; NV for 0 × ∞ (R149). -/
def Val.mul : Val → Val → Val × BitVec 5
  | .nan, _ => (.nan, 0#5)
  | _, .nan => (.nan, 0#5)
  | .inf a, .inf b => (.inf (a != b), 0#5)
  | .inf a, .fin b m _ _ => if m == 0 then (.nan, flagNV) else (.inf (a != b), 0#5)
  | .fin a m _ _, .inf b => if m == 0 then (.nan, flagNV) else (.inf (a != b), 0#5)
  | .fin a ma ea _, .fin b mb eb _ => (.fin (a != b) (ma * mb) (ea + eb) false, 0#5)

/-- a × b + c with the product exact; NV for 0 × ∞ even when c is NaN (R149). -/
def Val.fma (mode : BitVec 2) (a b c : Val) : Val × BitVec 5 :=
  let (p, nv) := Val.mul a b
  if nv != 0#5 then (.nan, nv) else Val.add mode p c

/-- The exact quotient, to 64 bits and `more` (R149). -/
def Val.div : Val → Val → Val × BitVec 5
  | .nan, _ => (.nan, 0#5)
  | _, .nan => (.nan, 0#5)
  | .inf _, .inf _ => (.nan, flagNV)
  | .inf a, .fin b _ _ _ => (.inf (a != b), 0#5)
  | .fin a _ _ _, .inf b => (.fin (a != b) 0 0 false, 0#5)
  | .fin a ma ea _, .fin b mb eb _ =>
    if mb == 0 then (if ma == 0 then (.nan, flagNV) else (.inf (a != b), flagDZ))
    else if ma == 0 then (.fin (a != b) 0 0 false, 0#5)
    else
      let k := 64 + mb.log2
      let q := ma * 2 ^ k / mb
      (.fin (a != b) q (ea - eb - k) (ma * 2 ^ k % mb != 0), 0#5)

/-- The integer square root, bit by bit from bit `k` down. -/
def isqrtFrom (n : Nat) : Nat → Nat → Nat
  | 0, r => if (r + 1) * (r + 1) ≤ n then r + 1 else r
  | k + 1, r =>
    let t := r + 2 ^ (k + 1)
    isqrtFrom n k (if t * t ≤ n then t else r)

/-- The greatest r with r × r ≤ n. -/
def isqrt (n : Nat) : Nat := isqrtFrom n (n.log2 / 2 + 1) 0

/-- √a to 64 bits and `more` (R151). -/
def Val.sqrt : Val → Val × BitVec 5
  | .nan => (.nan, 0#5)
  | .inf neg => if neg then (.nan, flagNV) else (.inf false, 0#5)
  | .fin neg m e _ =>
    if m == 0 then (.fin neg 0 0 false, 0#5)
    else if neg then (.nan, flagNV)
    else
      let odd := e % 2 != 0
      let m2 := (if odd then 2 * m else m) * 2 ^ 128
      let e2 := (if odd then e - 1 else e) - 128
      let r := isqrt m2
      (.fin false r (e2 / 2) (r * r != m2), 0#5)

/-- 1 / √a to 64 bits and `more` (R151). -/
def Val.rsqrt : Val → Val × BitVec 5
  | .nan => (.nan, 0#5)
  | .inf neg => if neg then (.nan, flagNV) else (.fin false 0 0 false, 0#5)
  | .fin neg m e _ =>
    if m == 0 then (.inf neg, flagDZ)
    else if neg then (.nan, flagNV)
    else
      let odd := e % 2 != 0
      let m2 := if odd then 2 * m else m
      let e2 := if odd then e - 1 else e
      let k := 64 + m2.log2
      let n := 2 ^ (2 * k) / m2
      let r := isqrt n
      (.fin false r (-(e2 / 2) - k) (r * r * m2 != 2 ^ (2 * k)), 0#5)

/-! ## Powers and logarithms

2^x and log2 x of a number that is not a power of two are irrational, so the exact value never lies on a rounding
boundary. They are computed below with 256 fraction bits, truncated; the value that goes to the rounding keeps 200 of
them and `more`. DEDUCED: no FP32 operand brings 2^x or log2 x nearer to a rounding boundary than 2^-160 of its value,
so the rounding is that of the exact real (R151; log entry 11). -/

/-- ln 2 × 2^256, truncated. -/
def ln2Bits : Nat :=
  0xb17217f7d1cf79abc9e3b39803f2f6af40f343267298b62d8a0d175b8baafa2b

/-- Σ x^k / k! for k up to the fuel, every number scaled by 2^256: `term` is the term of index `k`. -/
def expSum (x : Nat) : Nat → Nat → Nat → Nat
  | 0, _, _ => 0
  | fuel + 1, k, term => term + expSum x fuel (k + 1) (term * x / 2 ^ 256 / (k + 1))

/-- 2^a (R151): exact for an integer a. -/
def Val.exp2 : Val → Val
  | .nan => .nan
  | .inf neg => if neg then .fin false 0 0 false else .inf false
  | .fin neg m e _ =>
    if m == 0 then .fin false 1 0 false
    else if e + m.log2 ≥ 9 then .fin false 1 (if neg then -1000 else 1000) true
    else if e ≥ 0 then .fin false 1 (signed neg (m * 2 ^ e.toNat)) false
    else
      let k := (-e).toNat
      let x := signed neg m
      let whole := x / ((2 ^ k : Nat) : Int)
      let frac := (x % ((2 ^ k : Nat) : Int)).toNat
      if frac == 0 then .fin false 1 whole false
      else
        let y := frac * ln2Bits / (2 ^ k : Nat)
        .fin false (expSum y 64 0 (2 ^ 256) / 2 ^ 56) ((whole : Int) - 200) true

/-- Σ z^(2k+1) / (2k+1), every number scaled by 2^256: `p` is z^(2k+1), `zz` is z^2. -/
def atanhSum (zz : Nat) : Nat → Nat → Nat → Nat
  | 0, _, _ => 0
  | fuel + 1, k, p => p / (2 * k + 1) + atanhSum zz fuel (k + 1) (p * zz / 2 ^ 256)

/-- log2 of a positive m × 2^e (R151, R165): exact for a power of two. -/
def log2Pos (m : Nat) (e : Int) : Val :=
  let whole := e + m.log2
  if m == 2 ^ m.log2 then Val.ofInt whole
  else
    let one := 2 ^ m.log2
    let z := (m - one) * 2 ^ 256 / (m + one)
    let ln := 2 * atanhSum (z * z / 2 ^ 256) 96 0 z
    let l : Nat := ln * 2 ^ 256 / ln2Bits
    let x : Int := whole * ((2 ^ 256 : Nat) : Int) + (l : Int)
    .fin (x < 0) (x.natAbs / 2 ^ 40) (-216) true

/-- log2 a (R151). -/
def Val.log2 : Val → Val × BitVec 5
  | .nan => (.nan, 0#5)
  | .inf neg => if neg then (.nan, flagNV) else (.inf false, 0#5)
  | .fin neg m e _ =>
    if m == 0 then (.inf true, flagDZ) else if neg then (.nan, flagNV) else (log2Pos m e, 0#5)

/-! ## Comparison and integral rounding -/

/-- The order of two finite or infinite values, −0 equal to +0; `none` when either is NaN (R154). -/
def Val.cmp : Val → Val → Option Ordering
  | .nan, _ => none
  | _, .nan => none
  | .inf a, .inf b => some (if a == b then .eq else if a then .lt else .gt)
  | .inf a, .fin .. => some (if a then .lt else .gt)
  | .fin .., .inf b => some (if b then .gt else .lt)
  | .fin a ma ea _, .fin b mb eb _ =>
    let e := min ea eb
    some (compare (signed a (ma * 2 ^ (ea - e).toNat)) (signed b (mb * 2 ^ (eb - e).toNat)))

def Val.isNeg : Val → Bool
  | .nan => false
  | .inf n => n
  | .fin n .. => n

/-- The lesser (or greater) of two values that are not NaN, −0 ordered below +0 (R150). -/
def Val.pick (greater : Bool) (a c : Val) : Val :=
  match Val.cmp a c with
  | some .lt => if greater then c else a
  | some .gt => if greater then a else c
  | _ => if a.isNeg != greater then a else c

/-- FMIN or FMAX (R150): one NaN gives the other operand. -/
def Val.minmax (greater : Bool) (a c : Val) : Val :=
  match a, c with
  | .nan, .nan => .nan
  | .nan, c => c
  | a, .nan => a
  | a, c => Val.pick greater a c

/-- The magnitude rounded to an integer in a mode, and whether that changed it (R152, R156). -/
def integral (mode : BitVec 2) (neg : Bool) (m : Nat) (e : Int) : Nat × Bool := onGrid mode neg m e false 0

end Sys2Proof.Machine
end

