-- ==== Sys2Proof/Machine/Operands.lean ====
section
/-! DEFINITION. Every operand form: special registers (R31), CSRs (R32), operand C with its kinds (R73), guards (R71),
pairs (R77), vectors over a membership (R136), and scalars read from the lowest live lane (R108). -/

namespace Sys2Proof

/-- The v registers that C reads. -/
def COp.regs : COp → List Nat
  | .v n => [n.toNat]
  | _ => []

/-- The v registers that C reads as a pair (R110). -/
def COp.pairRegs : COp → List Nat
  | .v n => [n.toNat, n.toNat + 1]
  | _ => []

/-- The v register of a scalar in C. -/
def COp.scalarRegs : COp → List Nat
  | .v n => [n.toNat]
  | _ => []

/-- The arrival kind of a word's scope. -/
def Scope.arr : Scope → Machine.Arr
  | .lane .. => .no
  | .group => .group
  | .set cv => .set cv
  | .team cv => .team cv

end Sys2Proof

namespace Sys2Proof.Machine

open Sys2Proof

/-! ## Immediates -/

/-- SignExt(x, 8) (R50). -/
def sext8 (x : BitVec 8) : Word := x.signExtend 32

/-- ZeroExt(x, 8) (R50). -/
def zext8 (x : BitVec 8) : Word := x.setWidth 32

/-- How an instruction extends an imm8 in C (R73). -/
inductive Ext where
  | sign | zero
  deriving DecidableEq, Repr

def Ext.of : Ext → BitVec 8 → Word
  | .sign, x => sext8 x
  | .zero, x => zext8 x

/-- The address of the branch word plus 8 × SignExt(C, 8) (R126). -/
def branchTo (pc : Word) (x : BitVec 8) : Word := pc + sext8 x * 8#32

/-- Bits 2:0 cleared (R126, R127). -/
def wordAligned (x : Word) : Word := x &&& ~~~7#32

/-! ## Special registers (R31) -/

/-- The core cycle counter: cycles since the core's partition left reset. -/
def State.clock (s : State) (T : Team) : Nat := s.gt - Sparse.get 0 s.clock0 T.part

/-- Low word of a counter. -/
def lowWord (n : Nat) : Word := BitVec.ofNat 32 n

/-- High word of a counter. -/
def highWord (n : Nat) : Word := BitVec.ofNat 32 (n / 2 ^ 32)

/-- Extents of the launch's grid. -/
def State.extents (s : State) (T : Team) : Nat × Nat × Nat :=
  match (s.launchOf T).map (·.ext) with
  | some [x, y, z] => (x, y, z)
  | _ => (1, 1, 1)

/-- The value of a special register in a lane; `none` for numbers 64 to 255, which raise ILLOP. -/
def State.special (s : State) (T : Team) (ln : Ln) (n : BitVec 8) : Option Word :=
  let G := (T.group? ln.g)
  let w (k : Nat) : Option Word := some (BitVec.ofNat 32 k)
  let (nx, ny, _) := s.extents T
  let grid (k : Nat) : Option Word := if T.grid then w k else some allOnes
  match n.toNat with
  | 0 => w ln.l
  | 1 => w (ln.g * 32 + ln.l)
  | 2 => w ln.g
  | 3 => grid (T.index % nx)
  | 4 => grid (T.index / nx % ny)
  | 5 => grid (T.index / (nx * ny))
  | 6 => w nx
  | 7 => w T.core
  | 8 => grid T.cluster
  | 9 => w (T.core / Config.coresPerDie)
  | 10 => some (lowWord (s.clock T))
  | 11 => some (ln.th.clkLatch.getD (highWord (s.clock T)))
  | 12 => some (lowWord s.gt)
  | 13 => some (ln.th.gtLatch.getD (highWord s.gt))
  | 14 => some ((G.map (·.fltmask)).getD 0#32)
  | 15 => some ((G.map (·.fltpc)).getD 0#32)
  | 16 => some ((G.map (·.fltcode)).getD 0#32)
  | 17 => some ((G.map (·.fltdst)).getD 0#32)
  | 18 => some ln.th.tsw
  | 19 => w ln.th.rdv
  | k => if k < 64 then some 0#32 else none

/-- What reading a special register does to the thread: a low half latches the high word of that cycle (R31). -/
def State.latch (s : State) (T : Team) (n : BitVec 8) (th : Thread) : Thread :=
  if n = 10#8 then { th with clkLatch := some (highWord (s.clock T)) }
  else if n = 12#8 then { th with gtLatch := some (highWord s.gt) }
  else th

/-! ## CSRs (R32) -/

/-- The value of a CSR for a lane of a team; `none` for numbers 10 to 255, which raise ILLOP. -/
def State.csr (s : State) (T : Team) (sub : Nat) (n : BitVec 8) : Option Word :=
  let mode (f : LaunchRec → Bool) : Word := if ((s.launchOf T).map (f ·.r)).getD false then 1#32 else 0#32
  match n.toNat with
  | 0 => some T.trapvec
  | 1 => some T.fpen
  | 2 => some T.rdvwd
  | 3 => some T.wdrem
  | 4 => some (mode (·.det))
  | 5 => some (mode (·.rdi))
  | 6 => some T.gscale
  | 7 => some T.burstcap
  | 8 => some (Sparse.get 0#32 s.pwrtok T.cid)
  | 9 => some ((Sparse.get 0#16 s.lbinv (T.core * 4 + sub)).setWidth 32)
  | _ => none

/-- A team after a write of a CSR: RO CSRs and the bits that R32 fixes keep their values. BURSTCAP keeps bits 7:0 of what is written
(DESIGN CHOICE, log entry 57). -/
def Team.setCsr (T : Team) (n : BitVec 8) (v : Word) : Team :=
  match n.toNat with
  | 0 => { T with trapvec := wordAligned v }
  | 1 => { T with fpen := v &&& 31#32 }
  | 2 => { T with rdvwd := v }
  | 3 => { T with wdrem := v }
  | 6 => { T with gscale := v }
  | 7 => { T with burstcap := v &&& 255#32 }
  | _ => T

/-- A team after a CSRW in the cycle `gt`. The waits of the matrix unit and of collectives that are in progress compare with a new RDVWD or
WDREM from the next cycle on (R32). -/
def Team.writeCsr (T : Team) (n : BitVec 8) (v : Word) (gt : Nat) : Team :=
  { T.setCsr n v with wdSet := if n = 2#8 ∨ n = 3#8 then gt + 1 else T.wdSet }

/-! ## Operand C -/

/-- A k register (R27). -/
def Team.kreg (T : Team) (n : Nat) : Word := vget T.k n 0#32

/-- C as a lane reads it; `none` for a special register that raises ILLOP (R73, R101). -/
def State.cval (s : State) (T : Team) (ln : Ln) (e : Ext) : COp → Option Word
  | .v n => some (s.rd ln n.toNat).val
  | .imm x => some (e.of x)
  | .k n => some (T.kreg n.toNat)
  | .s n => s.special T ln n

/-- What reading C does to the thread. -/
def State.clatch (s : State) (T : Team) : COp → Thread → Thread
  | .s n, th => s.latch T n th
  | _, th => th

/-- The pair vN, vN+1 as a number (R60). -/
def State.rdPair (s : State) (ln : Ln) (n : Nat) : Nat :=
  (s.rd ln n).val.toNat + 2 ^ 32 * (s.rd ln (n + 1)).val.toNat

/-- C as the 64-bit addend of IADDW (R110): a pair, a sign-extended imm8, or a k or special value extended by MOD0. -/
def State.cval64 (s : State) (T : Team) (ln : Ln) (sgn : Bool) (c : COp) : Option Int :=
  match c with
  | .v n =>
    let x := s.rdPair ln n.toNat
    some (if sgn then (BitVec.ofNat 64 x).toInt else x)
  | .imm x => let y := x.signExtend 64; some (if sgn then y.toInt else y.toNat)
  | c => (s.cval T ln .sign c).map fun w => if sgn then w.toInt else (w.toNat : Int)

/-! ## Lanes that execute -/

/-- The guard of a word passes in a lane (R71); in run-ahead an unknown guard fails (R363). -/
def guardPasses (i : Iss) (th : Thread) : Bool :=
  match i.scope with
  | .lane pg pn => th.q pg != pn && (pg == 7#3 || !th.unkQ.getLsbD pg.toNat)
  | _ => true

/-- The lanes of the cursor, in element order (R136), with their live threads. -/
def State.members (s : State) (T : Team) : List Ln :=
  (s.cur.members.map fun (g, m) => (lanesOf m).map fun l => T.ln g l).flatten

/-- The lanes of the cursor whose guard passes. -/
def State.actors (s : State) (T : Team) (i : Iss) : List Ln := (s.members T).filter fun ln => guardPasses i ln.th

/-- The element index of a lane in the membership (R136). -/
def elementOf (members : List Nat) (ln : Ln) : Nat := members.idxOf ln.g * 32 + ln.l

/-- The lowest lane of the lowest group that takes part (R108). -/
def State.leader (s : State) (T : Team) : Option Ln := (s.members T).head?

/-- A scalar in C: a v register from the leader, an immediate, or a k register (R108, R222). -/
def State.scalar (s : State) (T : Team) (e : Ext) (c : COp) : Word :=
  match c with
  | .v n => match s.leader T with | some ln => (s.rd ln n.toNat).val | none => 0#32
  | .imm x => e.of x
  | .k n => T.kreg n.toNat
  | .s _ => 0#32

end Sys2Proof.Machine
end

