-- ==== Sys2Proof/Machine/Flags.lean ====
section
/-! DEFINITION. Flag computations: the sticky flags of TSW (R25, R147) and the trap decision against FPEN. -/

namespace Sys2Proof.Machine

open Sys2Proof

/-- TSW.IDZ (R25). -/
def tswIDZ : Word := 0x20#32
/-- TSW.GDEG (R25). -/
def tswGDEG : Word := 0x40#32

/-- Flags OR-ed into TSW[4:0] (R147). -/
def Thread.orFlags (th : Thread) (fl : BitVec 5) : Thread := { th with tsw := th.tsw ||| fl.setWidth 32 }

/-- TSW.IDZ set (R111). -/
def Thread.setIdz (th : Thread) : Thread := { th with tsw := th.tsw ||| tswIDZ }

/-- TSW bits 6:0 cleared (R107). -/
def Thread.clearTsw (th : Thread) : Thread := { th with tsw := th.tsw &&& ~~~0x7F#32 }

/-- The flags of a result enable FPX under FPEN (R147). -/
def trapsFpx (fpen : Word) (fl : BitVec 5) : Bool := (fl &&& fpen.setWidth 5) != 0#5

/-- The %fltdst of a v destination (R31). -/
def dstV (n : Nat) : Word := BitVec.ofNat 32 n

/-- The %fltdst of a predicate destination (R31). -/
def dstQ (p : PReg) : Word := if p = 7#3 then allOnes else 0x100#32 + p.setWidth 32

/-- Overflow is settled by Fit (R109), not by a flag: the exact result wrapped or clamped to 32 bits. -/
def fit (sgn sat : Bool) (x : Int) : Word :=
  if !sat then BitVec.ofInt 32 x
  else if sgn then BitVec.ofInt 32 (max (-(2 ^ 31)) (min x (2 ^ 31 - 1)))
  else BitVec.ofInt 32 (max 0 (min x (2 ^ 32 - 1)))

/-- Fit64 (R110). -/
def fit64 (sgn sat : Bool) (x : Int) : Dword :=
  if !sat then BitVec.ofInt 64 x
  else if sgn then BitVec.ofInt 64 (max (-(2 ^ 63)) (min x (2 ^ 63 - 1)))
  else BitVec.ofInt 64 (max 0 (min x (2 ^ 64 - 1)))

/-- A word read signed or unsigned (R103). -/
def readInt (sgn : Bool) (x : Word) : Int := if sgn then x.toInt else x.toNat

end Sys2Proof.Machine
end

