-- ==== Sys2Proof/Machine/Lanes.lean ====
section
/-! DEFINITION. How an instruction that acts lane by lane is carried out (R51, R18, R105, R147, R355), and how one that
reads a whole membership is (R121, R136). -/

namespace Sys2Proof.Machine

open Sys2Proof

/-- What one lane makes of an instruction. -/
structure Res where
  /-- v registers written, with their values. -/
  v : List (Nat × Word) := []
  /-- The taint of the v results, where it is not that of the sources (R104). -/
  taint : Option Bool := none
  q : List (PReg × Bool) := []
  /-- FP flags raised (R147). -/
  flags : BitVec 5 := 0#5
  idz : Bool := false
  clear : Bool := false
  latch : Thread → Thread := id
  /-- A result computed from an unknown value of another lane (R363). -/
  unk : Bool := false
  /-- The lane stays at the word and waits. -/
  hold : Option Wait := none
  /-- Where the lane goes on, when it is not the following word. -/
  goto : Option Word := none
  bad : Option Code := none

/-- Registers and predicates that an instruction names: v sources, predicate sources, v destinations. -/
structure Names where
  src : List Nat := []
  qsrc : List PReg := []
  dst : List Nat := []
  /-- Further registers that are tested for a null row pointer. -/
  also : List Nat := []
  /-- %fltdst and the width of the destination in registers (R31, R276). -/
  flt : Word := allOnes
  width : Nat := 1
  /-- Its address operand, for the VA of a record (R359). -/
  at_ : Option (Space × VReg × COp) := none
  /-- Bytes from its address that it reaches, for the pages of an XLATE. -/
  reach : Nat := 1

/-- An instruction with one v destination. -/
def Names.toV (src : List Nat) (d : VReg) : Names := { src, dst := [d.toNat], flt := dstV d.toNat }

/-- An instruction with a pair as destination. -/
def Names.toPair (src : List Nat) (d : VReg) : Names :=
  { src, dst := [d.toNat, d.toNat + 1], flt := dstV d.toNat, width := 2 }

/-- An instruction with one predicate destination. -/
def Names.toQ (src : List Nat) (d : PReg) : Names := { src, flt := dstQ d }

/-- A result in one v register. -/
def Res.reg (d : VReg) (x : Word) : Res := { v := [(d.toNat, x)] }

/-- A result in a pair (R60). -/
def Res.pair (d : VReg) (x : Dword) : Res := { v := [(d.toNat, x.setWidth 32), (d.toNat + 1, (x >>> 32).setWidth 32)] }

/-- A result in one predicate. -/
def Res.pred (d : PReg) (b : Bool) : Res := { q := [(d, b)] }

/-- ILLOP raised at execution (R101). -/
def Res.illop : Res := { bad := some .illop }

/-- The lanes that name a null row pointer (R14). -/
def nullLanes (lns : List Ln) (ns : List Nat) : List Ln := lns.filter fun ln => ns.any fun n => (ln.key? n).isNone

/-- The mask of the lanes of a list that lie in a group. -/
def lanesIn (g : Nat) (lns : List Ln) : Word := maskOf ((lns.filter (·.g == g)).map (·.l))

/-- The fault of some lanes of the instruction at the cursor. At L and G scope it is the group's; at S and T scope that of
the lowest member with a live thread, whose own faulting lanes are named (R101). -/
def State.faultOf (s : State) (code : Code) (lns : List Ln) (n : Names) : Raise :=
  let gs := s.cur.members.map (·.1)
  let g := ((s.cur.members.find? fun (_, m) => m != 0#32).map (·.1)).getD 0
  { code, t := s.cur.team, g, lanes := lanesIn g lns, pc := s.cur.pc, dst := n.flt, width := n.width, arr := s.cur.arr,
    members := gs }

/-- Rows that lanes write: (group, lane, row pointer), each once. -/
def rowsOf (lns : List Ln) (dst : List Nat) : List (Nat × Nat × Nat) :=
  (lns.map fun ln => ((dst.map (· / 8)).eraseDups).map fun i => (ln.g, ln.l, i)).flatten

/-- One lane's results written (R51, R104, R147). -/
def State.put (s : State) (ln : Ln) (r : Res) (taint unk : Bool) : State :=
  let t := r.taint.getD taint
  let s := r.v.foldl (fun s (n, x) => s.wr ln.t ln.g ln.l n x t) s
  s.modThread ln.t ln.g ln.l fun th =>
    let th := r.q.foldl (fun th (p, b) => th.setQ p b) th
    let th := (r.latch th).orFlags r.flags
    let th := if r.idz then th.setIdz else th
    let th := if r.clear then th.clearTsw else th
    -- the lane moves on by one word when the instruction retires
    let th := match r.goto with | some p => { th with pc := p - 8#32 } | none => th
    let th := match r.hold with | some w => { th with wait := w } | none => th
    if unk || r.unk then
      { th with unkV := r.v.foldl (fun b (n, _) => setBit b n true) th.unkV,
                unkQ := r.q.foldl (fun b (p, _) => if p = 7#3 then b else setBit b p.toNat true) th.unkQ }
    else th

/-- A source of the lane is tainted (R104). -/
def State.tainted (s : State) (ln : Ln) (n : Names) : Bool := n.src.any fun r => (s.rd ln r).taint

/-- A source of the lane is unknown (R363). -/
def State.unknown (s : State) (ln : Ln) (n : Names) : Bool :=
  n.src.any (fun r => (s.rd ln r).unk) || n.qsrc.any fun p => p != 7#3 && ln.th.unkQ.getLsbD p.toNat

/-- The result of a lane with the faults every instruction of this kind has: DATAERR for a poisoned source (R105), FPX for
an enabled flag (R147). -/
def State.resultOf (s : State) (T : Team) (n : Names) (f : Team → Ln → Res) (ln : Ln) : Res :=
  if n.src.any fun r => (s.rd ln r).poison then { bad := some .dataerr }
  else
    let r := f T ln
    if r.bad.isNone && trapsFpx T.fpen r.flags then { r with bad := some .fpx } else r

/-- The fault delivered among those of the lanes: system faults before user traps, then by code (R354). -/
def worstOf (codes : List Code) : Option Code :=
  (codes.find? (·.cls == .team)).or ((codes.find? (·.cls == .system)).or codes.head?)

/-- An instruction that acts lane by lane. Every lane reads before any lane writes; the rows to be written are obtained
for all lanes first; lanes that do not fault write and go on; a fault is delivered after that (R18, R51, R147, R355). A lane that faults with FPX
keeps the flags of its result and nothing else: where it has read the low half of %clock or %gt, R31's latch is left as it was (DESIGN CHOICE, log
entry 70). A lane that faults with anything else, DATAERR of a poisoned source above all, obtains no row, since it would write none (DESIGN CHOICE,
log entry 71). -/
def State.perLane (s : State) (i : Iss) (n : Names) (f : Team → Ln → Res) : Out :=
  match s.team? s.cur.team with
  | none => .fault .noIssuer
  | some T =>
    let lns := s.actors T i
    let g := (s.cur.members.head?.map (·.1)).getD 0
    let nulls := nullLanes lns (n.src ++ n.dst ++ n.also)
    if !nulls.isEmpty then .next (s.raising T.id g (s.raise (s.faultOf .unallot nulls n)))
    else
      let rs := lns.map fun ln => (ln, s.resultOf T n f ln)
      let worst := worstOf (rs.filterMap (·.2.bad))
      let holders := (rs.filter fun (_, r) => r.bad.isNone || r.bad == some .fpx).map (·.1)
      match s.cowAll T.id (rowsOf holders n.dst) with
      | .noRow => .next (s.raising T.id g s.stall)
      | .pending => .next s
      | .ok s1 =>
        let s1 := rs.foldl (fun s1 (ln, r) =>
          if r.bad.isNone then s1.put ln r (s.tainted ln n) (s.unknown ln n)
          else if r.bad == some .fpx && worst == some .fpx then
            s1.modThread ln.t ln.g ln.l fun th => th.orFlags r.flags
          else s1) s1
        let stay := (rs.filter fun (_, r) => r.bad.isSome || r.hold.isSome).map fun (ln, _) => (ln.g, ln.l)
        let s1 := s1.retire stay
        match worst with
        | none => .next s1
        | some code =>
          let bad := (rs.filter fun (_, r) => r.bad == some code).map (·.1)
          .next (s.raising T.id g (s1.raise (s.faultOf code bad n)))

/-- What a membership makes of an instruction: a result in each lane, or a fault of the whole execution. -/
abbrev WideRes := Except (Code × List Ln) (List (Ln × Res))

/-- An instruction that executes once over its members (R93, R121, R131). `f` gets the lanes in element order. Nothing is
written when it faults. -/
def State.wide (s : State) (n : Names) (f : Team → List Ln → WideRes) : Out :=
  match s.team? s.cur.team with
  | none => .fault .noIssuer
  | some T =>
    let lns := s.members T
    let g := (s.cur.members.head?.map (·.1)).getD 0
    let nulls := nullLanes lns (n.src ++ n.dst ++ n.also)
    if !nulls.isEmpty then .next (s.raising T.id g (s.raise (s.faultOf .unallot nulls n)))
    else
      let bad := lns.filter fun ln => n.src.any fun r => (s.rd ln r).poison
      if !bad.isEmpty then .next (s.raising T.id g (s.raise (s.faultOf .dataerr bad n)))
      else
        match f T lns with
        | .error (code, lns) => .next (s.raising T.id g (s.raise (s.faultOf code lns n)))
        | .ok rs =>
          match s.cowAll T.id (rowsOf (rs.map (·.1)) n.dst) with
          | .noRow => .next (s.raising T.id g s.stall)
          | .pending => .next s
          | .ok s1 =>
            .next ((rs.foldl (fun s1 (ln, r) => s1.put ln r (s.tainted ln n) (s.unknown ln n)) s1).retire [])

/-- A single execution that changes the state of the team or the core, its scalar operands read by the leader: `f` gets
the team and the lanes, and answers the new state, or a fault. -/
def State.once (s : State) (n : Names) (f : Team → List Ln → Except (Code × List Ln) State) : Out :=
  match s.team? s.cur.team with
  | none => .fault .noIssuer
  | some T =>
    let lns := s.members T
    let g := (s.cur.members.head?.map (·.1)).getD 0
    let lead := lns.take 1
    let nulls := nullLanes lead (n.src ++ n.also)
    if !nulls.isEmpty then .next (s.raising T.id g (s.raise (s.faultOf .unallot nulls n)))
    else if lead.any fun ln => n.src.any fun r => (s.rd ln r).poison then
      .next (s.raising T.id g (s.raise (s.faultOf .dataerr lead n)))
    else
      match f T lns with
      | .error (code, lns) => .next (s.raising T.id g (s.raise (s.faultOf code lns n)))
      | .ok s1 => .next s1

/-- As `once`, the members going on at the following word. -/
def State.single (s : State) (n : Names) (f : Team → List Ln → Except (Code × List Ln) State) : Out :=
  s.once n fun T lns => (f T lns).map fun s1 => s1.retire []

/-- The lanes of the cursor stay at the word and wait. -/
def State.park (s : State) (w : Wait) : State :=
  s.cur.members.foldl (fun s (g, m) =>
    (lanesOf m).foldl (fun s l => s.modThread s.cur.team g l fun th => { th with wait := w }) s) s

end Sys2Proof.Machine
end

