-- ==== Sys2Proof/Machine/Integer.lean ====
section
/-! DEFINITION. Integer, move and predicate instructions (R103 to R119). -/

namespace Sys2Proof.Machine

open Sys2Proof

/-! ## Shared shapes -/

/-- An instruction over C alone: V[D] := f(C). -/
def State.opC (s : State) (i : Iss) (d : VReg) (c : COp) (e : Ext) (f : Word → Word) : Out :=
  s.perLane i (.toV c.regs d) fun T ln =>
    match s.cval T ln e c with
    | none => .illop
    | some x => { Res.reg d (f x) with latch := s.clatch T c }

/-- An instruction over A and C: V[D] := f(A, C). -/
def State.opAC (s : State) (i : Iss) (d a : VReg) (c : COp) (e : Ext) (f : Word → Word → Word) : Out :=
  s.perLane i (.toV (a.toNat :: c.regs) d) fun T ln =>
    match s.cval T ln e c with
    | none => .illop
    | some x => { Res.reg d (f (s.rd ln a.toNat).val x) with latch := s.clatch T c }

/-- An instruction over A, B and C: V[D] := f(A, B, C). -/
def State.opABC (s : State) (i : Iss) (d a b : VReg) (c : COp) (e : Ext) (f : Word → Word → Word → Word) : Out :=
  s.perLane i (.toV (a.toNat :: b.toNat :: c.regs) d) fun T ln =>
    match s.cval T ln e c with
    | none => .illop
    | some x => { Res.reg d (f (s.rd ln a.toNat).val (s.rd ln b.toNat).val x) with latch := s.clatch T c }

/-! ## The operations -/

/-- Min(C[7:0], 32) and the shifts of R112. -/
def shlOp (a c : Word) : Word := let n := c.toNat % 256; if n ≥ 32 then 0#32 else a <<< n
def shrOp (a c : Word) : Word := let n := c.toNat % 256; if n ≥ 32 then 0#32 else a >>> n
def sarOp (a c : Word) : Word := a.sshiftRight (min (c.toNat % 256) 31)
def rotOp (a c : Word) : Word := a.rotateLeft (c.toNat % 32)
def shfOp (a b c : Word) : Word := ((b ++ a : Dword) >>> (c.toNat % 64)).setWidth 32

/-- Number of 1 bits (R112). -/
def popcount (x : Word) : Word := BitVec.ofNat 32 ((List.range 32).countP fun i => x.getLsbD i)

/-- Number of leading 0 bits; 32 for zero (R112). -/
def leadingZeros (x : Word) : Word := if x = 0#32 then 32#32 else BitVec.ofNat 32 (31 - x.toNat.log2)

/-- Bit i is bit n − 1 − i of the source (R112, R114). -/
def bitReverse {n : Nat} (x : BitVec n) : BitVec n :=
  (List.range n).foldl (fun r i => if x.getLsbD (n - 1 - i) then r ||| (1#n <<< i) else r) 0#n

/-- Lowest bit and width of the field a descriptor names (R113). -/
def fieldOf (c : Word) : Nat × Nat :=
  let p := c.toNat % 32
  (p, min (min (c.toNat / 256 % 64) 32) (32 - p))

/-- BFX (R113). -/
def bfxOp (sgn : Bool) (a c : Word) : Word :=
  let (p, w) := fieldOf c
  let f := a.toNat / 2 ^ p % 2 ^ w
  if sgn && w > 0 && f ≥ 2 ^ (w - 1) then BitVec.ofInt 32 ((f : Int) - 2 ^ w) else BitVec.ofNat 32 f

/-- BFI (R113). -/
def bfiOp (a b c : Word) : Word :=
  let (p, w) := fieldOf c
  let mask : Word := BitVec.ofNat 32 ((2 ^ w - 1) * 2 ^ p)
  (a &&& ~~~mask) ||| ((b <<< p) &&& mask)

/-- Byte `k` of {B, A} (R114). -/
def pairByte (a b : Word) (k : Nat) : Byte := ((b ++ a : Dword) >>> (8 * k)).setWidth 8

/-- A result byte of PRMT from its code and the byte before it (R114). -/
def prmtByte (a b : Word) (first : Bool) (prev : Byte) (s : Nat) : Byte :=
  if s ≤ 7 then pairByte a b s
  else if s = 8 then 0#8
  else if s = 9 then 0xFF#8
  else if s ≤ 13 then bitReverse (pairByte a b (s - 10))
  else if s = 14 then (if !first && prev.getLsbD 7 then 0xFF#8 else 0#8)
  else (if first then 0#8 else prev)

/-- PRMT (R114). -/
def prmtOp (a b c : Word) : Word :=
  let code (i : Nat) := c.toNat / 16 ^ i % 16
  let r0 := prmtByte a b true 0#8 (code 0)
  let r1 := prmtByte a b false r0 (code 1)
  let r2 := prmtByte a b false r1 (code 2)
  let r3 := prmtByte a b false r2 (code 3)
  r3 ++ r2 ++ r1 ++ r0

/-- The comparison of ICMP (R117). -/
def icmpOp (cond : ICond) (sgn : Bool) (a c : Word) : Bool :=
  let x := readInt sgn a
  let y := readInt sgn c
  match cond with
  | .eq => x == y
  | .ne => x != y
  | .lt => x < y
  | .le => x ≤ y
  | .gt => x > y
  | .ge => x ≥ y

/-- Quotient and remainder (R111): the third component says that the divisor was zero. -/
def divRem (sgn : Bool) (a c : Word) : Int × Int × Bool :=
  let x := readInt sgn a
  let y := readInt sgn c
  if y == 0 then (0, x, true) else (x.tdiv y, x.tmod y, false)

/-- The upper word of the product (R109). -/
def mulhOp (sgn : Bool) (a c : Word) : Word := BitVec.ofInt 32 (readInt sgn a * readInt sgn c / 2 ^ 32)

/-! ## Meanings -/

/-- NOP (R106): guard and wait mask are honoured, nothing else happens. -/
def execNop (i : Iss) (s : State) : Out := s.perLane i {} fun _ _ => {}

/-- MOV (R107). -/
def execMov (i : Iss) (d : VReg) (c : COp) (s : State) : Out := s.opC i d c .sign id

/-- MOVS (R107): %tsw with .clr returns TSW and then clears its bits 6:0. -/
def execMovs (i : Iss) (d : VReg) (n : BitVec 8) (clr : Bool) (s : State) : Out :=
  s.perLane i (.toV [] d) fun T ln =>
    match s.special T ln n with
    | none => .illop
    | some x => { Res.reg d x with latch := s.latch T n, clear := clr }

/-- KSET (R108). -/
def execKset (_i : Iss) (d : KReg) (c : COp) (s : State) : Out :=
  s.single { src := c.scalarRegs } fun T _ =>
    .ok (s.modTeam T.id fun T => { T with k := vset T.k d.toNat (s.scalar T .sign c) })

/-- IADD (R109). -/
def execIadd (i : Iss) (d a : VReg) (c : COp) (sgn sat : Bool) (s : State) : Out :=
  s.opAC i d a c .sign fun x y => fit sgn sat (readInt sgn x + readInt sgn y)

/-- ISUB (R109). -/
def execIsub (i : Iss) (d a : VReg) (c : COp) (sgn sat : Bool) (s : State) : Out :=
  s.opAC i d a c .sign fun x y => fit sgn sat (readInt sgn x - readInt sgn y)

/-- IMUL (R109). -/
def execImul (i : Iss) (d a : VReg) (c : COp) (sgn sat : Bool) (s : State) : Out :=
  s.opAC i d a c .sign fun x y => fit sgn sat (readInt sgn x * readInt sgn y)

/-- IMULH (R109). -/
def execImulh (i : Iss) (d a : VReg) (c : COp) (sgn : Bool) (s : State) : Out := s.opAC i d a c .sign (mulhOp sgn)

/-- IMAD (R109). -/
def execImad (i : Iss) (d a b : VReg) (c : COp) (sgn sat : Bool) (s : State) : Out :=
  s.opABC i d a b c .sign fun x y z => fit sgn sat (readInt sgn x * readInt sgn y + readInt sgn z)

/-- IMADW (R110). -/
def execImadw (i : Iss) (d a b c : VReg) (sgn : Bool) (s : State) : Out :=
  s.perLane i (.toPair [a.toNat, b.toNat, c.toNat, c.toNat + 1] d) fun _ ln =>
    .pair d (BitVec.ofInt 64 (readInt sgn (s.rd ln a.toNat).val * readInt sgn (s.rd ln b.toNat).val
      + s.rdPair ln c.toNat))

/-- IADDW (R110). -/
def execIaddw (i : Iss) (d a : VReg) (c : COp) (sgn sat : Bool) (s : State) : Out :=
  s.perLane i (.toPair (a.toNat :: (a.toNat + 1) :: c.pairRegs) d) fun T ln =>
    match s.cval64 T ln sgn c with
    | none => .illop
    | some y =>
      let x := s.rdPair ln a.toNat
      let x : Int := if sgn then (BitVec.ofNat 64 x).toInt else x
      { Res.pair d (fit64 sgn sat (x + y)) with latch := s.clatch T c }

/-- IDIV (R111). -/
def execIdiv (i : Iss) (d a : VReg) (c : COp) (sgn : Bool) (s : State) : Out :=
  s.perLane i (.toV (a.toNat :: c.regs) d) fun T ln =>
    match s.cval T ln .sign c with
    | none => .illop
    | some y =>
      let (q, _, z) := divRem sgn (s.rd ln a.toNat).val y
      { Res.reg d (BitVec.ofInt 32 q) with idz := z, latch := s.clatch T c }

/-- IREM (R111). -/
def execIrem (i : Iss) (d a : VReg) (c : COp) (sgn : Bool) (s : State) : Out :=
  s.perLane i (.toV (a.toNat :: c.regs) d) fun T ln =>
    match s.cval T ln .sign c with
    | none => .illop
    | some y =>
      let (_, r, z) := divRem sgn (s.rd ln a.toNat).val y
      { Res.reg d (BitVec.ofInt 32 r) with idz := z, latch := s.clatch T c }

/-- IMIN (R109). -/
def execImin (i : Iss) (d a : VReg) (c : COp) (sgn : Bool) (s : State) : Out :=
  s.opAC i d a c .sign fun x y => if readInt sgn x ≤ readInt sgn y then x else y

/-- IMAX (R109). -/
def execImax (i : Iss) (d a : VReg) (c : COp) (sgn : Bool) (s : State) : Out :=
  s.opAC i d a c .sign fun x y => if readInt sgn x ≤ readInt sgn y then y else x

/-- IABS (R109): always signed. -/
def execIabs (i : Iss) (d : VReg) (c : COp) (sat : Bool) (s : State) : Out :=
  s.opC i d c .sign fun x => fit true sat x.toInt.natAbs

/-- AND (R112). -/
def execAnd (i : Iss) (d a : VReg) (c : COp) (s : State) : Out := s.opAC i d a c .sign fun x y => x &&& y

/-- OR (R112). -/
def execOr (i : Iss) (d a : VReg) (c : COp) (s : State) : Out := s.opAC i d a c .sign fun x y => x ||| y

/-- XOR (R112). -/
def execXor (i : Iss) (d a : VReg) (c : COp) (s : State) : Out := s.opAC i d a c .sign fun x y => x ^^^ y

/-- ANDN (R112). -/
def execAndn (i : Iss) (d a : VReg) (c : COp) (s : State) : Out := s.opAC i d a c .sign fun x y => x &&& ~~~y

/-- SHL (R112). -/
def execShl (i : Iss) (d a : VReg) (c : COp) (s : State) : Out := s.opAC i d a c .zero shlOp

/-- SHR (R112). -/
def execShr (i : Iss) (d a : VReg) (c : COp) (s : State) : Out := s.opAC i d a c .zero shrOp

/-- SAR (R112). -/
def execSar (i : Iss) (d a : VReg) (c : COp) (s : State) : Out := s.opAC i d a c .zero sarOp

/-- ROT (R112). -/
def execRot (i : Iss) (d a : VReg) (c : COp) (s : State) : Out := s.opAC i d a c .zero rotOp

/-- SHF (R112). -/
def execShf (i : Iss) (d a b : VReg) (c : COp) (s : State) : Out := s.opABC i d a b c .zero shfOp

/-- POPC (R112). -/
def execPopc (i : Iss) (d : VReg) (c : COp) (s : State) : Out := s.opC i d c .sign popcount

/-- CLZ (R112). -/
def execClz (i : Iss) (d : VReg) (c : COp) (s : State) : Out := s.opC i d c .sign leadingZeros

/-- BREV (R112). -/
def execBrev (i : Iss) (d : VReg) (c : COp) (s : State) : Out := s.opC i d c .sign bitReverse

/-- BFX (R113). -/
def execBfx (i : Iss) (d a : VReg) (c : COp) (sgn : Bool) (s : State) : Out := s.opAC i d a c .zero (bfxOp sgn)

/-- BFI (R113). -/
def execBfi (i : Iss) (d a b : VReg) (c : COp) (s : State) : Out := s.opABC i d a b c .zero bfiOp

/-- PRMT (R114). -/
def execPrmt (i : Iss) (d a b : VReg) (c : COp) (s : State) : Out := s.opABC i d a b c .zero prmtOp

/-- LEA (R115). -/
def execLea (i : Iss) (d a : VReg) (c : COp) (sh : BitVec 3) (s : State) : Out :=
  s.opAC i d a c .sign fun x y => (x <<< sh.toNat) + y

/-- ISEL (R116). -/
def execIsel (i : Iss) (d a : VReg) (c : COp) (p : PReg) (neg : Bool) (s : State) : Out :=
  s.perLane i { Names.toV (a.toNat :: c.regs) d with qsrc := [p] } fun T ln =>
    match s.cval T ln .sign c with
    | none => .illop
    | some y => { Res.reg d (if ln.th.q p != neg then (s.rd ln a.toNat).val else y) with latch := s.clatch T c }

/-- ICMP (R117). -/
def execIcmp (i : Iss) (d : PReg) (a : VReg) (c : COp) (cond : ICond) (sgn : Bool) (s : State) : Out :=
  s.perLane i (.toQ (a.toNat :: c.regs) d) fun T ln =>
    match s.cval T ln .sign c with
    | none => .illop
    | some y => { Res.pred d (icmpOp cond sgn (s.rd ln a.toNat).val y) with latch := s.clatch T c }

/-- PLOP (R118). -/
def execPlop (i : Iss) (d a b e : PReg) (lut : BitVec 8) (s : State) : Out :=
  s.perLane i { Names.toQ [] d with qsrc := [a, b, e] } fun _ ln =>
    let bit (p : PReg) : Nat := if ln.th.q p then 1 else 0
    .pred d (lut.getLsbD (bit a * 4 + bit b * 2 + bit e))

/-- The predicates that PMOV.put writes (R119). -/
def pmovBits (mask : BitVec 7) (x : Word) : List (PReg × Bool) :=
  ((List.range 7).filter fun k => mask.getLsbD k).map fun k => (BitVec.ofNat 3 k, x.getLsbD k)

/-- PMOV (R119). PMOV.put writes several predicates, of which %fltdst could name one: it names none (DESIGN CHOICE, log entry 60). -/
def execPmov (i : Iss) (op : PmovOp) (s : State) : Out :=
  match op with
  | .get d =>
    s.perLane i { Names.toV [] d with qsrc := (List.range 7).map fun k => BitVec.ofNat 3 k } fun _ ln =>
      .reg d (ln.th.preds.setWidth 32)
  | .put mask c =>
    s.perLane i { src := c.regs } fun T ln =>
      match s.cval T ln .zero c with
      | none => .illop
      | some x => { q := pmovBits mask x, latch := s.clatch T c }

end Sys2Proof.Machine
end

