-- ==== Sys2Proof/Machine/Float.lean ====
section
/-! DEFINITION. Floating-point, conversion and random-number instructions (R145 to R165). -/

namespace Sys2Proof.Machine

open Sys2Proof

/-! ## Operands (R145, R146) -/

/-- A as the modifiers prepare it: flush, absolute, negate (R146). -/
def prepA (f : Fmt) (m : FpMod) (useAbs : Bool) (x : Nat) : Val :=
  let v := f.read m.ftz x
  let v := if useAbs && m.abs then v.abs else v
  if m.na then v.neg else v

/-- C as the modifiers prepare it (R146). -/
def prepC (f : Fmt) (m : FpMod) (x : Nat) : Val :=
  let v := f.read m.ftz x
  if m.nc then v.neg else v

/-- SignExt(C, 8) converted exactly to a format (R145). -/
def immFloat (f : Fmt) (x : BitVec 8) : Nat := (f.round rne false false (Val.ofInt x.toInt)).1

/-- C as an FP32 word (R145); `none` for a special register that raises ILLOP. -/
def State.cfloat (s : State) (T : Team) (ln : Ln) : COp → Option Word
  | .imm x => some (BitVec.ofNat 32 (immFloat fp32 x))
  | c => s.cval T ln .zero c

/-- C as a packed pair: an imm8 goes to both elements (R145). -/
def State.cpacked (s : State) (T : Team) (ln : Ln) (f : Fmt) : COp → Option Word
  | .imm x => let e := immFloat f x; some (BitVec.ofNat 32 (e + 2 ^ 16 * e))
  | c => s.cval T ln .zero c

/-! ## Shapes -/

/-- A result with the flags of the operation and of its rounding (R147). -/
def fpRes (d : VReg) (x : Nat × BitVec 5) (fl : BitVec 5) : Res :=
  { Res.reg d (BitVec.ofNat 32 x.1) with flags := x.2 ||| fl }

/-- FP32 arithmetic over A: V[D] := Round(f(a)) (R151). -/
def State.fpA (s : State) (i : Iss) (d a : VReg) (m : FpMod) (f : Val → Val × BitVec 5) : Out :=
  s.perLane i (.toV [a.toNat] d) fun _ ln =>
    let (x, fl) := f (prepA fp32 m true (s.rd ln a.toNat).val.toNat)
    fpRes d (fp32.round m.rm m.ftz false x) fl

/-- FP32 arithmetic over A and C: V[D] := Round(f(a, c)) (R149). -/
def State.fpAC (s : State) (i : Iss) (d a : VReg) (c : COp) (m : FpMod) (f : Val → Val → Val × BitVec 5) : Out :=
  s.perLane i (.toV (a.toNat :: c.regs) d) fun T ln =>
    match s.cfloat T ln c with
    | none => .illop
    | some y =>
      let (x, fl) := f (prepA fp32 m true (s.rd ln a.toNat).val.toNat) (prepC fp32 m y.toNat)
      { fpRes d (fp32.round m.rm m.ftz false x) fl with latch := s.clatch T c }

/-- The element format of a packed instruction: MOD5 (R159). -/
def packedFmt (m : FpMod) : Fmt := if m.abs then fp16 else bf16

/-- A packed pair from its elements, with the flags of both (R159). -/
def packRes (d : VReg) (e : Nat → Nat × BitVec 5) : Res :=
  let (x0, f0) := e 0
  let (x1, f1) := e 1
  { Res.reg d (BitVec.ofNat 32 (x0 + 2 ^ 16 * x1)) with flags := f0 ||| f1 }

/-- Element `k` of a packed pair (R60). -/
def half (x : Word) (k : Nat) : Nat := x.toNat / 2 ^ (16 * k) % 2 ^ 16

/-- A packed instruction over A and C (R159). -/
def State.packAC (s : State) (i : Iss) (d a : VReg) (c : COp) (m : FpMod)
    (f : Val → Val → Val × BitVec 5) : Out :=
  s.perLane i (.toV (a.toNat :: c.regs) d) fun T ln =>
    let fm := packedFmt m
    match s.cpacked T ln fm c with
    | none => .illop
    | some y =>
      let r := packRes d fun k =>
        let (x, fl) := f (prepA fm m false (half (s.rd ln a.toNat).val k)) (prepC fm m (half y k))
        let (b, g) := fm.round m.rm m.ftz false x
        (b, g ||| fl)
      { r with latch := s.clatch T c }

/-! ## Arithmetic (R149 to R151) -/

/-- FADD (R149). -/
def execFadd (i : Iss) (d a : VReg) (c : COp) (m : FpMod) (s : State) : Out := s.fpAC i d a c m (Val.add m.rm)

/-- FMUL (R149). -/
def execFmul (i : Iss) (d a : VReg) (c : COp) (m : FpMod) (s : State) : Out := s.fpAC i d a c m Val.mul

/-- FFMA (R149): the product is not rounded. -/
def execFfma (i : Iss) (d a b : VReg) (c : COp) (m : FpMod) (s : State) : Out :=
  s.perLane i (.toV (a.toNat :: b.toNat :: c.regs) d) fun T ln =>
    match s.cfloat T ln c with
    | none => .illop
    | some y =>
      let (x, fl) := Val.fma m.rm (prepA fp32 m true (s.rd ln a.toNat).val.toNat)
        (fp32.read m.ftz (s.rd ln b.toNat).val.toNat) (prepC fp32 m y.toNat)
      { fpRes d (fp32.round m.rm m.ftz false x) fl with latch := s.clatch T c }

/-- FMIN and FMAX (R150): the result is one of the operands, never rounded, and no flag is set. -/
def State.fpPick (s : State) (i : Iss) (d a : VReg) (c : COp) (m : FpMod) (greater : Bool) : Out :=
  s.perLane i (.toV (a.toNat :: c.regs) d) fun T ln =>
    match s.cfloat T ln c with
    | none => .illop
    | some y =>
      let x := Val.minmax greater (prepA fp32 m true (s.rd ln a.toNat).val.toNat) (prepC fp32 m y.toNat)
      { Res.reg d (BitVec.ofNat 32 (fp32.round rne false false x).1) with latch := s.clatch T c }

/-- FMIN (R150). -/
def execFmin (i : Iss) (d a : VReg) (c : COp) (m : FpMod) (s : State) : Out := s.fpPick i d a c m false

/-- FMAX (R150). -/
def execFmax (i : Iss) (d a : VReg) (c : COp) (m : FpMod) (s : State) : Out := s.fpPick i d a c m true

/-- The comparison of FCMP (R154). -/
def fcmpOp (cond : FCond) (a c : Val) : Bool :=
  match Val.cmp a c with
  | none => cond == .ne || cond == .un
  | some o =>
    match cond with
    | .eq => o == .eq
    | .ne => o != .eq
    | .lt => o == .lt
    | .le => o != .gt
    | .gt => o == .gt
    | .ge => o != .lt
    | .un => false
    | .ord => true

/-- FCMP (R154). -/
def execFcmp (i : Iss) (d : PReg) (a : VReg) (c : COp) (cond : FCond) (ftz : Bool) (s : State) : Out :=
  s.perLane i (.toQ (a.toNat :: c.regs) d) fun T ln =>
    match s.cfloat T ln c with
    | none => .illop
    | some y =>
      { Res.pred d (fcmpOp cond (fp32.read ftz (s.rd ln a.toNat).val.toNat) (fp32.read ftz y.toNat)) with
        latch := s.clatch T c }

/-- The class bit of FCLS (R155). -/
def fclsOp (x : Word) : Word :=
  match fp32.value x.toNat with
  | .nan => 0x100#32
  | .inf true => 0x1#32
  | .inf false => 0x80#32
  | .fin neg m e _ =>
    if m == 0 then (if neg then 0x8#32 else 0x10#32)
    else if m < 2 ^ 23 && e == fp32.emin then (if neg then 0x4#32 else 0x20#32)
    else if neg then 0x2#32 else 0x40#32

/-- FCLS (R155). -/
def execFcls (i : Iss) (d a : VReg) (s : State) : Out :=
  s.perLane i (.toV [a.toNat] d) fun _ ln => .reg d (fclsOp (s.rd ln a.toNat).val)

/-- The integral value of FRND (R152): the sign is kept, no flag is set. -/
def frndOp (mode : BitVec 2) : Val → Val
  | .fin neg m e more => if m == 0 || e ≥ 0 then .fin neg m e more else .fin neg (integral mode neg m e).1 0 false
  | x => x

/-- FRND (R152). -/
def execFrnd (i : Iss) (d a : VReg) (m : FpMod) (s : State) : Out :=
  s.perLane i (.toV [a.toNat] d) fun _ ln =>
    .reg d (BitVec.ofNat 32
      (fp32.round rne false false (frndOp m.rm (prepA fp32 m true (s.rd ln a.toNat).val.toNat))).1)

/-- FRCP (R151). -/
def execFrcp (i : Iss) (d a : VReg) (m : FpMod) (s : State) : Out := s.fpA i d a m (Val.div (Val.ofInt 1))

/-- FRSQ (R151). -/
def execFrsq (i : Iss) (d a : VReg) (m : FpMod) (s : State) : Out := s.fpA i d a m Val.rsqrt

/-- FSQRT (R151). -/
def execFsqrt (i : Iss) (d a : VReg) (m : FpMod) (s : State) : Out := s.fpA i d a m Val.sqrt

/-- FDIV (R149). -/
def execFdiv (i : Iss) (d a : VReg) (c : COp) (m : FpMod) (s : State) : Out := s.fpAC i d a c m Val.div

/-- FEX2 (R151). -/
def execFex2 (i : Iss) (d a : VReg) (m : FpMod) (s : State) : Out := s.fpA i d a m fun x => (x.exp2, 0#5)

/-- FLG2 (R151). -/
def execFlg2 (i : Iss) (d a : VReg) (m : FpMod) (s : State) : Out := s.fpA i d a m Val.log2

/-- The amount of FSCL: an integer, or an E8M0 byte (R153); `none` for the E8M0 NaN. -/
def fsclAmount (e8m0 : Bool) (c : Word) : Option Int :=
  if e8m0 then (if c.toNat % 256 = 255 then none else some ((c.toNat % 256 : Nat) - 127 : Int)) else some c.toInt

/-- a × 2^n with n brought within the range beyond which R56 and R57 give the same result (R153). -/
def fsclOp (v : Val) (n : Int) : Val :=
  match v with
  | .fin neg m e more => .fin neg m (e + max (-1000) (min n 1000)) more
  | x => x

/-- FSCL (R153): MOD4 selects the kind of scale. -/
def execFscl (i : Iss) (d a : VReg) (c : COp) (m : FpMod) (s : State) : Out :=
  s.perLane i (.toV (a.toNat :: c.regs) d) fun T ln =>
    match s.cval T ln .sign c with
    | none => .illop
    | some y =>
      let r :=
        match fsclAmount m.nc y with
        | none => Res.reg d (BitVec.ofNat 32 fp32.nan)
        | some n => fpRes d (fp32.round m.rm m.ftz false (fsclOp (prepA fp32 m true (s.rd ln a.toNat).val.toNat) n)) 0#5
      { r with latch := s.clatch T c }

/-! ## Conversions (R156 to R158) -/

/-- F2I (R156): the integer and the flags. -/
def f2iOp (mode : BitVec 2) (sgn : Bool) (v : Val) : Int × BitVec 5 :=
  let lo : Int := if sgn then -(2 ^ 31) else 0
  let hi : Int := if sgn then 2 ^ 31 - 1 else 2 ^ 32 - 1
  match v with
  | .nan => (0, flagNV)
  | .inf neg => (if neg then lo else hi, flagNV)
  | .fin neg m e _ =>
    let (n, changed) := integral mode neg m e
    let t := signed neg n
    if t < lo then (lo, flagNV) else if t > hi then (hi, flagNV) else (t, if changed then flagNX else 0#5)

/-- F2I (R156): MOD4 selects the signed result. -/
def execF2i (i : Iss) (d a : VReg) (m : FpMod) (s : State) : Out :=
  s.perLane i (.toV [a.toNat] d) fun _ ln =>
    let (x, fl) := f2iOp m.rm m.nc (prepA fp32 m true (s.rd ln a.toNat).val.toNat)
    { Res.reg d (BitVec.ofInt 32 x) with flags := fl }

/-- I2F (R157). -/
def execI2f (i : Iss) (d a : VReg) (rm : BitVec 2) (sgn : Bool) (s : State) : Out :=
  s.perLane i (.toV [a.toNat] d) fun _ ln =>
    fpRes d (fp32.round rm false false (Val.ofInt (readInt sgn (s.rd ln a.toNat).val))) 0#5

/-- The format of a descriptor code (R158). -/
def cvtFmt : CvtFmt → Fmt
  | .f32 => fp32
  | .f16 => fp16
  | .bf16 => bf16
  | .e4m3 => e4m3
  | .e5m2 => e5m2

/-- FCVT (R158): the source element, prepared and rounded into the destination format. -/
def fcvtOp (dst src : CvtFmt) (rm : BitVec 2) (ftz na nsat : Bool) (x : Word) : Nat × BitVec 5 :=
  let f := cvtFmt src
  let v := f.read ftz (x.toNat % 2 ^ f.width)
  (cvtFmt dst).round rm ftz nsat (if na then v.neg else v)

/-- FCVT (R158). -/
def execFcvt (i : Iss) (d a : VReg) (dst src : CvtFmt) (rm : BitVec 2) (ftz na nsat : Bool) (s : State) : Out :=
  s.perLane i (.toV [a.toNat] d) fun _ ln => fpRes d (fcvtOp dst src rm ftz na nsat (s.rd ln a.toNat).val) 0#5

/-! ## Packed pairs (R159) -/

/-- HADD2 (R159). -/
def execHadd2 (i : Iss) (d a : VReg) (c : COp) (m : FpMod) (s : State) : Out := s.packAC i d a c m (Val.add m.rm)

/-- HMUL2 (R159). -/
def execHmul2 (i : Iss) (d a : VReg) (c : COp) (m : FpMod) (s : State) : Out := s.packAC i d a c m Val.mul

/-- HFMA2 (R159). -/
def execHfma2 (i : Iss) (d a b : VReg) (c : COp) (m : FpMod) (s : State) : Out :=
  s.perLane i (.toV (a.toNat :: b.toNat :: c.regs) d) fun T ln =>
    let fm := packedFmt m
    match s.cpacked T ln fm c with
    | none => .illop
    | some y =>
      let r := packRes d fun k =>
        let (x, fl) := Val.fma m.rm (prepA fm m false (half (s.rd ln a.toNat).val k))
          (fm.read m.ftz (half (s.rd ln b.toNat).val k)) (prepC fm m (half y k))
        let (b, g) := fm.round m.rm m.ftz false x
        (b, g ||| fl)
      { r with latch := s.clatch T c }

/-- HMNX2 (R159): MOD0 selects the greater; no rounding and no flag. -/
def execHmnx2 (i : Iss) (d a : VReg) (c : COp) (m : FpMod) (s : State) : Out :=
  s.perLane i (.toV (a.toNat :: c.regs) d) fun T ln =>
    let fm := packedFmt m
    match s.cpacked T ln fm c with
    | none => .illop
    | some y =>
      let r := packRes d fun k =>
        let x := Val.minmax (m.rm.getLsbD 0) (prepA fm m false (half (s.rd ln a.toNat).val k)) (prepC fm m (half y k))
        ((fm.round rne false false x).1, 0#5)
      { r with latch := s.clatch T c }

/-! ## FP8 and E2M1 packing (R160 to R163) -/

/-- Bits lo to lo + w − 1 of a word replaced. -/
def insertBits (x : Word) (lo w v : Nat) : Word :=
  BitVec.ofNat 32 (x.toNat - x.toNat / 2 ^ lo % 2 ^ w * 2 ^ lo + v % 2 ^ w * 2 ^ lo)

/-- PK8 (R160). -/
def execPk8 (i : Iss) (d a : VReg) (c : COp) (hi e5m2f ftz : Bool) (rm : BitVec 2) (nsat : Bool) (s : State) : Out :=
  s.perLane i (.toV (d.toNat :: a.toNat :: c.regs) d) fun T ln =>
    match s.cfloat T ln c with
    | none => .illop
    | some y =>
      let fm := if e5m2f then e5m2 else e4m3
      let (e0, f0) := fm.round rm ftz nsat (fp32.read ftz (s.rd ln a.toNat).val.toNat)
      let (e1, f1) := fm.round rm ftz nsat (fp32.read ftz y.toNat)
      let x := insertBits (s.rd ln d.toNat).val (if hi then 16 else 0) 16 (e0 + 256 * e1)
      { Res.reg d x with flags := f0 ||| f1, latch := s.clatch T c }

/-- UPK8 (R161). -/
def execUpk8 (i : Iss) (d a : VReg) (n : BitVec 2) (e5m2f : Bool) (s : State) : Out :=
  s.perLane i (.toV [a.toNat] d) fun _ ln =>
    let fm := if e5m2f then e5m2 else e4m3
    let e := (s.rd ln a.toNat).val.toNat / 2 ^ (8 * n.toNat) % 256
    .reg d (BitVec.ofNat 32 (fp32.round rne false false (fm.value e)).1)

/-- PK4 (R162). -/
def execPk4 (i : Iss) (d a : VReg) (c : COp) (n : BitVec 2) (ftz : Bool) (rm : BitVec 2) (s : State) : Out :=
  s.perLane i (.toV (d.toNat :: a.toNat :: c.regs) d) fun T ln =>
    match s.cfloat T ln c with
    | none => .illop
    | some y =>
      let (e0, f0) := e2m1.round rm ftz false (fp32.read ftz (s.rd ln a.toNat).val.toNat)
      let (e1, f1) := e2m1.round rm ftz false (fp32.read ftz y.toNat)
      let x := insertBits (s.rd ln d.toNat).val (8 * n.toNat) 8 (e0 + 16 * e1)
      { Res.reg d x with flags := f0 ||| f1, latch := s.clatch T c }

/-- UPK4 (R163): code 0b1000 gives the BF16 value of C. -/
def execUpk4 (i : Iss) (d a : VReg) (c : COp) (n : BitVec 3) (s : State) : Out :=
  s.perLane i (.toV (a.toNat :: c.regs) d) fun T ln =>
    match s.cval T ln .zero c with
    | none => .illop
    | some y =>
      let e := (s.rd ln a.toNat).val.toNat / 2 ^ (4 * n.toNat) % 16
      let v := if e = 8 then bf16.value (y.toNat % 2 ^ 16) else e2m1.value e
      { Res.reg d (BitVec.ofNat 32 (fp32.round rne false false v).1) with latch := s.clatch T c }

/-! ## Random numbers (R164, R165) -/

/-- One round of RNGC. -/
def rngRound (x k : Word) : Word :=
  let y := (x ^^^ k) * 0xB5AD4ECB#32
  y ^^^ (y >>> 15)

/-- RNGC (R164): four rounds, the key rotated left by 11 after each. -/
def rngcOp (x k : Word) : Word :=
  let k1 := k.rotateLeft 11
  let k2 := k1.rotateLeft 11
  rngRound (rngRound (rngRound (rngRound x k) k1) k2) (k2.rotateLeft 11)

/-- RNGC (R164). -/
def execRngc (i : Iss) (d a : VReg) (c : COp) (s : State) : Out := s.opAC i d a c .zero rngcOp

/-- FP32 rounding with RNE and without FTZ. -/
def rnd32 (v : Val) : Nat := (fp32.round rne false false v).1

/-- LN2 of R165. -/
def ln2Word : Nat := 0x3F317218

/-- FGUMB (R165). -/
def fgumbOp (x k : Word) : Word :=
  let m := (rngcOp x k).toNat / 256
  let a := rnd32 (log2Pos (2 * m + 1) (-25))
  let b := rnd32 (Val.mul (fp32.value a).neg (fp32.value ln2Word)).1
  let c := rnd32 (Val.log2 (fp32.value b)).1
  BitVec.ofNat 32 (rnd32 (Val.mul (fp32.value c).neg (fp32.value ln2Word)).1)

/-- FGUMB (R165). -/
def execFgumb (i : Iss) (d a : VReg) (c : COp) (s : State) : Out := s.opAC i d a c .zero fgumbOp

/-! ## Paired words (R80 to R83, R120, R166) -/

/-- The value of A of a half (R80, R82): `f` is the element format of an FP half. -/
def State.halfA (s : State) (ln : Ln) (h : Half) (imm : BitVec 8 → Word) : Word :=
  if h.ak then imm h.a else (s.rd ln h.a.toNat).val

/-- The v registers a half reads (R80, R120). -/
def halfSrc (h : Half) : List Nat :=
  let a := if h.ak then [] else [h.a.toNat]
  match h.hop with
  | .nop => []
  | .mov | .popc | .clz | .f2i | .i2f => a
  | .icmp => (h.d.toNat % 8) :: a
  | _ => h.d.toNat :: a

/-- The v register a half writes. -/
def halfDst (h : Half) : List Nat := if h.hop.writesV then [h.d.toNat] else []

/-- The destination of a half as %fltdst names it (R83). -/
def halfFlt (h : Half) : Word :=
  if h.hop.writesV then dstV h.d.toNat else if h.hop == .icmp then dstQ (h.d.setWidth 3) else allOnes

/-- The packed result of a BF16 half (R166). -/
def halfPack (mode : BitVec 2) (ftz : Bool) (x y : Word) (f : Val → Val → Val × BitVec 5) : Word × BitVec 5 :=
  let e (k : Nat) : Nat × BitVec 5 :=
    let (v, fl) := f (bf16.read ftz (half x k)) (bf16.read ftz (half y k))
    let (b, g) := bf16.round mode ftz false v
    (b, g ||| fl)
  (BitVec.ofNat 32 ((e 0).1 + 2 ^ 16 * (e 1).1), (e 0).2 ||| (e 1).2)

/-- The value and the flags of a half that writes a v register, from its first and second source (R95). -/
def halfOp (h : Half) (x y : Word) : Word × BitVec 5 :=
  let sgn := h.hmod.getLsbD 0
  let mode := h.hmod.extractLsb' 0 2
  let ftz := h.hmod.getLsbD 2
  let fp (f : Val → Val → Val × BitVec 5) : Word × BitVec 5 :=
    let (v, fl) := f (fp32.read ftz x.toNat) (fp32.read ftz y.toNat)
    let (b, g) := fp32.round mode ftz false v
    (BitVec.ofNat 32 b, g ||| fl)
  let pick (greater : Bool) : Word × BitVec 5 :=
    (BitVec.ofNat 32 (rnd32 (Val.minmax greater (fp32.read ftz x.toNat) (fp32.read ftz y.toNat))), 0#5)
  match h.hop with
  | .nop | .icmp => (0#32, 0#5)
  | .mov => (y, 0#5)
  | .iadd => (x + y, 0#5)
  | .isub => (x - y, 0#5)
  | .imul => (x * y, 0#5)
  | .and => (x &&& y, 0#5)
  | .or => (x ||| y, 0#5)
  | .xor => (x ^^^ y, 0#5)
  | .shl => (shlOp x y, 0#5)
  | .shr => (shrOp x y, 0#5)
  | .sar => (sarOp x y, 0#5)
  | .imin => (if readInt sgn x ≤ readInt sgn y then x else y, 0#5)
  | .imax => (if readInt sgn x ≤ readInt sgn y then y else x, 0#5)
  | .fadd => fp (Val.add mode)
  | .fmul => fp Val.mul
  | .fmin => pick false
  | .fmax => pick true
  | .hadd2 => halfPack mode ftz x y (Val.add mode)
  | .hmul2 => halfPack mode ftz x y Val.mul
  | .f2i => let (n, fl) := f2iOp mode true (fp32.read ftz y.toNat); (BitVec.ofInt 32 n, fl)
  | .i2f => let (b, fl) := fp32.round rne false false (Val.ofInt (readInt sgn y)); (BitVec.ofNat 32 b, fl)
  | .popc => (popcount y, 0#5)
  | .clz => (leadingZeros y, 0#5)

/-- How a half reads an imm8 (R82). -/
def halfImm (h : Half) (x : BitVec 8) : Word :=
  match h.hop with
  | .shl | .shr | .sar => zext8 x
  | .fadd | .fmul | .fmin | .fmax | .f2i => BitVec.ofNat 32 (immFloat fp32 x)
  | .hadd2 | .hmul2 => let e := immFloat bf16 x; BitVec.ofNat 32 (e + 2 ^ 16 * e)
  | _ => sext8 x

/-- The condition of an ICMP half: V[N] against A, always signed (R120). -/
def State.halfCmp (s : State) (ln : Ln) (h : Half) : Bool :=
  icmpOp ((ICond.ofHmod h.hmod)) true (s.rd ln (h.d.toNat % 8)).val (s.halfA ln h (halfImm h))
where
  /-- The condition codes of R75. -/
  ICond.ofHmod (x : BitVec 3) : ICond :=
    match x.toNat with
    | 0 => .eq | 1 => .ne | 2 => .lt | 3 => .le | 4 => .gt | _ => .ge

/-- What one half does in a lane: its results, flags, taint, and whether it faults (R80, R83). A half whose guard fails does
nothing, but for the sources that both halves read (R80). -/
structure HalfRes where
  v : List (Nat × Word × Bool) := []
  q : List (PReg × Bool) := []
  flags : BitVec 5 := 0#5
  fpx : Bool := false
  unk : Bool := false

def State.halfRes (s : State) (T : Team) (ln : Ln) (h : Half) : HalfRes :=
  let on := ln.th.q h.pg != h.pn && (h.pg == 7#3 || !ln.th.unkQ.getLsbD h.pg.toNat)
  if !on || h.hop == .nop then {}
  else
    let unk := (halfSrc h).any fun r => (s.rd ln r).unk
    if h.hop == .icmp then { q := [(h.d.setWidth 3, s.halfCmp ln h)], unk }
    else
      let (x, fl) := halfOp h (s.rd ln h.d.toNat).val (s.halfA ln h (halfImm h))
      let taint := (halfSrc h).any fun r => (s.rd ln r).taint
      { v := [(h.d.toNat, x, taint)], flags := fl, fpx := trapsFpx T.fpen fl, unk }

/-- One lane's two halves written (R80). -/
def State.putHalves (s : State) (ln : Ln) (rs : List HalfRes) : State :=
  rs.foldl (fun s r =>
    let s := r.v.foldl (fun s (n, x, t) => s.wr ln.t ln.g ln.l n x t) s
    s.modThread ln.t ln.g ln.l fun th =>
      let th := (r.q.foldl (fun th (p, b) => th.setQ p b) th).orFlags r.flags
      if r.unk then
        { th with unkV := r.v.foldl (fun b (n, _) => setBit b n true) th.unkV,
                  unkQ := r.q.foldl (fun b (p, _) => if p = 7#3 then b else setBit b p.toNat true) th.unkQ }
      else th) s

/-- PAIRED_WORD (R80, R83): both halves read before either writes; a lane in which either half traps writes neither, and
%fltdst is X's destination if X raised in any lane of %fltmask. -/
def execPairedWord (x y : Half) (s : State) : Out :=
  match s.team? s.cur.team with
  | none => .fault .noIssuer
  | some T =>
    let lns := s.members T
    let g := (s.cur.members.head?.map (·.1)).getD 0
    let src := halfSrc x ++ halfSrc y
    let dst := halfDst x ++ halfDst y
    let nulls := nullLanes lns (src ++ dst)
    if !nulls.isEmpty then
      let flt := if (nullLanes lns (halfSrc x ++ halfDst x)).isEmpty then halfFlt y else halfFlt x
      .next (s.raising T.id g (s.raise (s.faultOf .unallot nulls { flt })))
    else
      let poisoned := lns.filter fun ln => src.any fun r => (s.rd ln r).poison
      let sound := lns.filter fun ln => !(src.any fun r => (s.rd ln r).poison)
      let rs := sound.map fun ln => (ln, s.halfRes T ln x, s.halfRes T ln y)
      let writes := (rs.map fun (ln, a, b) => (a.v ++ b.v).map fun (n, _) => (ln.g, ln.l, n / 8)).flatten.eraseDups
      match s.cowAll T.id writes with
      | .noRow => .next (s.raising T.id g s.stall)
      | .pending => .next s
      | .ok s1 =>
        let trapped := rs.filter fun (_, a, b) => a.fpx || b.fpx
        let s1 := rs.foldl (fun s1 (ln, a, b) =>
          if a.fpx || b.fpx then
            if poisoned.isEmpty then
              s1.modThread ln.t ln.g ln.l fun th => (th.orFlags a.flags).orFlags b.flags
            else s1
          else s1.putHalves ln [a, b]) s1
        let stay := (poisoned ++ trapped.map (·.1)).map fun ln => (ln.g, ln.l)
        let s1 := s1.retire stay
        if !poisoned.isEmpty then
          let flt := if poisoned.any fun ln => (halfSrc x).any fun r => (s.rd ln r).poison then halfFlt x else halfFlt y
          .next (s.raising T.id g (s1.raise (s.faultOf .dataerr poisoned { flt })))
        else if !trapped.isEmpty then
          let flt := if trapped.any fun (_, a, _) => a.fpx then halfFlt x else halfFlt y
          .next (s.raising T.id g (s1.raise (s.faultOf .fpx (trapped.map (·.1)) { flt })))
        else .next s1

end Sys2Proof.Machine
end

