-- ==== Sys2Proof/Machine/Uses.lean ====
section
/-! DEFINITION. What an instruction names and how it is held back: its v registers (R20, R122), its scope, and the classes
of word that R137 and R362 hold. -/

namespace Sys2Proof

/-- `n` registers from one on. -/
def span (v : VReg) (n : Nat) : List Nat := (List.range n).map (v.toNat + ·)

/-- Every v register, source or destination, that an instruction names. -/
def Instr.regs : Instr → List Nat
  | .mov _ d c => [d.toNat] ++ c.regs
  | .movs _ d _ _ => [d.toNat]
  | .kset _ _ c => c.regs
  | .iadd _ d a c _ _ => [d.toNat] ++ [a.toNat] ++ c.regs
  | .isub _ d a c _ _ => [d.toNat] ++ [a.toNat] ++ c.regs
  | .imul _ d a c _ _ => [d.toNat] ++ [a.toNat] ++ c.regs
  | .imulh _ d a c _ => [d.toNat] ++ [a.toNat] ++ c.regs
  | .imad _ d a b c _ _ => [d.toNat] ++ [a.toNat] ++ [b.toNat] ++ c.regs
  | .imadw _ d a b c _ => span d 2 ++ [a.toNat] ++ [b.toNat] ++ span c 2
  | .iaddw _ d a c _ _ => span d 2 ++ span a 2 ++ c.pairRegs
  | .idiv _ d a c _ => [d.toNat] ++ [a.toNat] ++ c.regs
  | .irem _ d a c _ => [d.toNat] ++ [a.toNat] ++ c.regs
  | .imin _ d a c _ => [d.toNat] ++ [a.toNat] ++ c.regs
  | .imax _ d a c _ => [d.toNat] ++ [a.toNat] ++ c.regs
  | .iabs _ d c _ => [d.toNat] ++ c.regs
  | .and _ d a c => [d.toNat] ++ [a.toNat] ++ c.regs
  | .or _ d a c => [d.toNat] ++ [a.toNat] ++ c.regs
  | .xor _ d a c => [d.toNat] ++ [a.toNat] ++ c.regs
  | .andn _ d a c => [d.toNat] ++ [a.toNat] ++ c.regs
  | .shl _ d a c => [d.toNat] ++ [a.toNat] ++ c.regs
  | .shr _ d a c => [d.toNat] ++ [a.toNat] ++ c.regs
  | .sar _ d a c => [d.toNat] ++ [a.toNat] ++ c.regs
  | .rot _ d a c => [d.toNat] ++ [a.toNat] ++ c.regs
  | .shf _ d a b c => [d.toNat] ++ [a.toNat] ++ [b.toNat] ++ c.regs
  | .popc _ d c => [d.toNat] ++ c.regs
  | .clz _ d c => [d.toNat] ++ c.regs
  | .brev _ d c => [d.toNat] ++ c.regs
  | .bfx _ d a c _ => [d.toNat] ++ [a.toNat] ++ c.regs
  | .bfi _ d a b c => [d.toNat] ++ [a.toNat] ++ [b.toNat] ++ c.regs
  | .prmt _ d a b c => [d.toNat] ++ [a.toNat] ++ [b.toNat] ++ c.regs
  | .lea _ d a c _ => [d.toNat] ++ [a.toNat] ++ c.regs
  | .isel _ d a c _ _ => [d.toNat] ++ [a.toNat] ++ c.regs
  | .icmp _ _ a c _ _ => [a.toNat] ++ c.regs
  | .bra _ c => c.regs
  | .call _ d c => [d.toNat] ++ c.regs
  | .ret _ a => [a.toNat]
  | .nap _ c => c.regs
  | .cvset _ _ c => c.pairRegs
  | .shfl _ d a _ c _ _ => [d.toNat] ++ [a.toNat] ++ c.regs
  | .redux _ d a _ _ => [d.toNat] ++ [a.toNat]
  | .match_ _ d a _ b64 => [d.toNat] ++ span a (if b64 then 2 else 1)
  | .tret _ mode b => span b (if mode == .subst then 1 else 0)
  | .csrr _ d _ => [d.toNat]
  | .csrw _ _ a => [a.toNat]
  | .lnch _ _ d a off b => [d.toNat] ++ span a 2 ++ off.regs ++ [b.toNat]
  | .fadd _ d a c _ => [d.toNat] ++ [a.toNat] ++ c.regs
  | .fmul _ d a c _ => [d.toNat] ++ [a.toNat] ++ c.regs
  | .ffma _ d a b c _ => [d.toNat] ++ [a.toNat] ++ [b.toNat] ++ c.regs
  | .fmin _ d a c _ => [d.toNat] ++ [a.toNat] ++ c.regs
  | .fmax _ d a c _ => [d.toNat] ++ [a.toNat] ++ c.regs
  | .fcmp _ _ a c _ _ => [a.toNat] ++ c.regs
  | .fcls _ d a => [d.toNat] ++ [a.toNat]
  | .frnd _ d a _ => [d.toNat] ++ [a.toNat]
  | .frcp _ d a _ => [d.toNat] ++ [a.toNat]
  | .frsq _ d a _ => [d.toNat] ++ [a.toNat]
  | .fsqrt _ d a _ => [d.toNat] ++ [a.toNat]
  | .fdiv _ d a c _ => [d.toNat] ++ [a.toNat] ++ c.regs
  | .fex2 _ d a _ => [d.toNat] ++ [a.toNat]
  | .flg2 _ d a _ => [d.toNat] ++ [a.toNat]
  | .fgumb _ d a c => [d.toNat] ++ [a.toNat] ++ c.regs
  | .rngc _ d a c => [d.toNat] ++ [a.toNat] ++ c.regs
  | .f2i _ d a _ => [d.toNat] ++ [a.toNat]
  | .i2f _ d a _ _ => [d.toNat] ++ [a.toNat]
  | .fcvt _ d a _ _ _ _ _ _ => [d.toNat] ++ [a.toNat]
  | .hadd2 _ d a c _ => [d.toNat] ++ [a.toNat] ++ c.regs
  | .hmul2 _ d a c _ => [d.toNat] ++ [a.toNat] ++ c.regs
  | .hfma2 _ d a b c _ => [d.toNat] ++ [a.toNat] ++ [b.toNat] ++ c.regs
  | .hmnx2 _ d a c _ => [d.toNat] ++ [a.toNat] ++ c.regs
  | .pk8 _ d a c _ _ _ _ _ => [d.toNat] ++ [a.toNat] ++ c.regs
  | .upk8 _ d a _ _ => [d.toNat] ++ [a.toNat]
  | .pk4 _ d a c _ _ _ => [d.toNat] ++ [a.toNat] ++ c.regs
  | .upk4 _ d a c _ => [d.toNat] ++ [a.toNat] ++ c.regs
  | .fscl _ d a c _ => [d.toNat] ++ [a.toNat] ++ c.regs
  | .ld _ d a off m => span d m.size.regs ++ span a (if m.space.wide then 2 else 1) ++ off.regs
  | .st _ d a off m => span d m.size.regs ++ span a (if m.space.wide then 2 else 1) ++ off.regs
  | .ldc _ d a off m => span d m.size.regs ++ span a (if m.space.wide then 2 else 1) ++ off.regs
  | .ldfe _ d a off m _ => span d m.size.regs ++ span a (if m.space.wide then 2 else 1) ++ off.regs
  | .stfe _ d a off m => span d m.size.regs ++ span a (if m.space.wide then 2 else 1) ++ off.regs
  | .atom _ d a off b op _ => span d (if op.wide then 2 else 1) ++ span a 2 ++ off.regs ++ span b (if op.wide then 2 else 1)
  | .acas _ d a off b b64 _ => span d (if b64 then 2 else 1) ++ span a 2 ++ off.regs ++ span b (if b64 then 4 else 2)
  | .afadd _ d a off b _ => [d.toNat] ++ span a 2 ++ off.regs ++ [b.toNat]
  | .ab2add _ a off b _ => span a 2 ++ off.regs ++ [b.toNat]
  | .avimx _ d a off b noRet _ => span d (if noRet then 0 else 2) ++ span a 2 ++ off.regs ++ span b 2
  | .red _ a off b op _ => span a 2 ++ off.regs ++ span b (if op.wide then 2 else 1)
  | .pref _ a off m => span a (if m.space.wide then 2 else 1) ++ off.regs
  | .cctl _ op a off => span a (if op == .inv then 2 else if op == .iinv then 1 else 0) ++ (if op.byLine then off.regs else [])
  | .lsacq _ _ d a b c => [d.toNat] ++ span a 2 ++ [b.toNat] ++ c.regs
  | .lsrel _ a => [a.toNat]
  | .snap _ _ _ e => [e.toNat]
  | .rstr _ _ c => c.regs
  | .sprt _ _ d _ c => [d.toNat] ++ c.regs
  | .hspl _ d _ a off _ => [d.toNat] ++ span a 2 ++ off.regs
  | .hldm _ _ _ a off => span a 2 ++ off.regs
  | .hinf _ d _ _ => [d.toNat]
  | .spawn _ _ a off => span a 2 ++ off.regs
  | .qenq _ _ a off b => span a 2 ++ off.regs ++ span b 4
  | .qdeq _ _ d a off => span d 4 ++ span a 2 ++ off.regs
  | .csub _ _ d a off b => [d.toNat] ++ span a 2 ++ off.regs ++ [b.toNat]
  | .esc _ _ a => [a.toNat]
  | .cret _ a => [a.toNat]
  | .slrsv _ _ _ a => span a 8
  | .mma _ _ a _ c _ _ => span a 17 ++ c.regs
  | .mmag _ _ a _ c _ => span a 17 ++ c.regs
  | .mrd _ d _ _ c _ _ _ _ => span d 8 ++ c.regs
  | .mwr _ _ a c _ => span a 8 ++ c.regs
  | .mscl _ _ a => [a.toNat]
  | .mchk _ d _ _ => [d.toNat]
  | .slcb _ _ a off => span a 2 ++ off.regs
  | .mxcfg _ _ c _ => c.regs
  | .cpy _ d a b c _ => span d 2 ++ span a 2 ++ span b 2 ++ c.regs
  | .cpyg _ d a b c _ => span d 2 ++ span a 2 ++ span b 4 ++ c.regs
  | .cpys _ d a b c _ => span d 2 ++ span a 2 ++ span b 4 ++ c.regs
  | .carm _ a off b => [a.toNat] ++ off.regs ++ [b.toNat]
  | .cwait _ d a off b => [d.toNat] ++ [a.toNat] ++ off.regs ++ [b.toNat]
  | .ctest _ _ d a off b => [d.toNat] ++ [a.toNat] ++ off.regs ++ [b.toNat]
  | .mst _ d _ b c _ _ => span d 2 ++ span b 2 ++ c.regs
  | .coll _ d a b c _ _ => span d 2 ++ span a 2 ++ span b 4 ++ c.regs
  | .phash _ d a b => [d.toNat] ++ [a.toNat] ++ span b 16
  | .pgpin _ _ a off => span a 2 ++ off.regs
  | .pgunpin _ _ a off => span a 2 ++ off.regs
  | .slcommit _ _ d a c => [d.toNat] ++ [a.toNat] ++ c.regs
  | .slqry _ d a b set _ => [d.toNat] ++ [a.toNat] ++ span b (if set then 1 else 0)
  | .pairedWord x y => Machine.halfSrc x ++ Machine.halfSrc y ++ Machine.halfDst x ++ Machine.halfDst y
  | .pmov _ op => match op with | .get d => [d.toNat] | .put _ c => c.regs
  | .smeet _ c => match c with | some c => c.regs | none => []
  | .vote _ d _ _ mode => if mode.toPred then [] else [d.toNat]
  | .nop .. | .plop .. | .exit .. | .yield .. | .bar .. | .cvleave .. | .islast .. | .trap .. | .bkpt ..
  | .succ .. | .pwait .. | .fence .. | .drop .. | .hdup .. | .xacq .. | .xrel .. | .slrel .. | .mzero ..
  | .illop .. | .threadArrives .. | .rdvtmo .. | .passedOverBound .. | .groupSwap .. | .starvedPromotion ..
  | .loadLands .. | .napEnd .. | .ldfeWake .. | .cwaitWake .. | .pwaitRelease .. | .xacqMap .. | .kilnfull ..
  | .wdog .. | .remtmo .. | .trapEntry .. | .teamEnd .. | .swapOut .. | .accessConfirmed .. | .runAhead ..
  | .matrixUnitPerform .. | .pairedStart .. | .pairedMmaTimeout .. | .arrive .. | .fail .. | .efault ..
  | .flit .. | .collComplete .. | .collTimeout .. | .failureNotice .. | .partialGroup .. | .leaseExpiry ..
  | .roundCommit .. | .dequeue .. | .semaphorePoll .. | .admit_ .. | .place .. | .urgent .. | .launchEnd ..
  | .qtail .. | .preempt .. | .resume .. | .resumePlacement .. | .end_ .. | .fqhead .. | .eactRetry ..
  | .eactUnresolvable .. | .mqtail .. | .migrate .. | .migdone .. | .migabort .. | .all .. | .page ..
  | .translationDropDone .. | .evict .. | .demote .. | .slotWrite .. | .registerWrite .. | .inboundPostedWrite ..
  | .inboundRead .. | .inboundAtomicop .. | .outboundCompletion .. | .completionTimeout .. | .linkState ..
  | .recoveryLimit .. | .cxlPortDown .. | .hold .. | .inrstClear .. | .getlimits .. | .gettelem .. | .setcap ..
  | .setwarn .. | .getageing .. | .replan .. | .replanEnd .. | .thermalTrip .. | .freeze .. | .frz ..
  | .readOut .. | .moduleReset .. | .bringupStage .. | .reachesHome .. | .wctPassed ..
  | .matrixInstructionFinish .. | .fetchFault .. | .pgpinAnswer .. | .powerToken .. | .firmwareThrottle ..
  | .fusedCeiling .. | .slackMeasurement .. | .mainRailLoss .. | .moduleResetAssert .. | .pcieLinkState ..
  | .busMasterEnable .. | .vectorUnmask .. | .diepart .. | .unknownCommand .. => []

/-- The scope of a word; a paired word and a word that is not an instruction act at L scope (R80, R99). -/
def Instr.arr (i : Instr) : Machine.Arr :=
  match i.iss with
  | some x => x.scope.arr
  | none => .no

/-- The instructions that go to the matrix unit of the core (R223). -/
def Instr.matrix : Instr → Bool
  | .mma .. | .mmag .. | .mzero .. | .mrd .. | .mwr .. | .mscl .. | .mchk .. | .slcb .. | .slrsv .. | .slrel .. | .mxcfg .. | .mst .. => true
  | _ => false

/-- The wait mask of a word (R70, R84). -/
def Instr.wt (i : Instr) : BitVec 8 :=
  match i.iss with
  | some x => x.wt
  | none => 0#8

/-- Words that read or write memory, Basin or Slip: those that a BAR orders (R137) and those that wait while held stores
must come first. -/
def Instr.accesses : Instr → Bool
  | .ld .. | .st .. | .ldc .. | .ldfe .. | .stfe .. | .atom .. | .acas .. | .afadd .. | .ab2add .. | .avimx ..
  | .red .. | .hspl .. | .hldm .. | .spawn .. | .qenq .. | .qdeq .. | .csub .. | .esc .. | .cret .. | .slcb ..
  | .slrsv .. | .mma .. | .mmag .. | .cpy .. | .cpyg .. | .cpys .. | .carm .. | .cwait .. | .ctest .. | .mst ..
  | .coll .. | .lnch .. => true
  | _ => false

/-- Words that R362 holds back while an access of their group is unconfirmed: those whose effect reaches beyond the
group's registers and predicates. -/
def Instr.heldBack (i : Instr) : Bool :=
  (match i.arr with | .set _ => true | .team _ => true | _ => false) ||
  match i with
  | .snap .. | .rstr .. | .sprt .. | .drop .. | .hdup .. | .hspl .. | .hldm .. | .hinf .. | .xacq .. | .xrel ..
  | .spawn .. | .qenq .. | .qdeq .. | .csub .. | .esc .. | .cret .. | .cpy .. | .cpyg .. | .cpys .. | .carm ..
  | .mst .. | .coll .. | .kset .. | .csrw .. | .cvset .. | .cvleave .. | .ldfe .. | .slcommit .. | .slqry ..
  | .pgpin .. | .pgunpin .. | .lnch .. | .trap .. | .bkpt .. | .tret .. | .exit .. | .cctl .. | .succ .. => true
  | _ => false

end Sys2Proof

namespace Sys2Proof.Machine

open Sys2Proof

/-- %fltdst of an instruction, and the width of its destination in registers (R31, R101, R276). That of PMOV.put, which may write
several predicates, is none (DESIGN CHOICE, log entry 60). -/
def fltOf : Instr → Word × Nat
  | .pmov _ op => match op with | .get d => (dstV d.toNat, 1) | .put .. => (allOnes, 1)
  | .vote _ d _ _ mode => if mode.toPred then (dstQ (d.setWidth 3), 1) else (dstV d.toNat, 1)
  | .avimx _ d _ _ _ noRet _ => if noRet then (allOnes, 1) else (dstV d.toNat, 2)
  | .pairedWord x _ => (halfFlt x, 1)
  | .mov _ d _ => (dstV d.toNat, 1)
  | .movs _ d _ _ => (dstV d.toNat, 1)
  | .iadd _ d _ _ _ _ => (dstV d.toNat, 1)
  | .isub _ d _ _ _ _ => (dstV d.toNat, 1)
  | .imul _ d _ _ _ _ => (dstV d.toNat, 1)
  | .imulh _ d _ _ _ => (dstV d.toNat, 1)
  | .imad _ d _ _ _ _ _ => (dstV d.toNat, 1)
  | .imadw _ d _ _ _ _ => (dstV d.toNat, 2)
  | .iaddw _ d _ _ _ _ => (dstV d.toNat, 2)
  | .idiv _ d _ _ _ => (dstV d.toNat, 1)
  | .irem _ d _ _ _ => (dstV d.toNat, 1)
  | .imin _ d _ _ _ => (dstV d.toNat, 1)
  | .imax _ d _ _ _ => (dstV d.toNat, 1)
  | .iabs _ d _ _ => (dstV d.toNat, 1)
  | .and _ d _ _ => (dstV d.toNat, 1)
  | .or _ d _ _ => (dstV d.toNat, 1)
  | .xor _ d _ _ => (dstV d.toNat, 1)
  | .andn _ d _ _ => (dstV d.toNat, 1)
  | .shl _ d _ _ => (dstV d.toNat, 1)
  | .shr _ d _ _ => (dstV d.toNat, 1)
  | .sar _ d _ _ => (dstV d.toNat, 1)
  | .rot _ d _ _ => (dstV d.toNat, 1)
  | .shf _ d _ _ _ => (dstV d.toNat, 1)
  | .popc _ d _ => (dstV d.toNat, 1)
  | .clz _ d _ => (dstV d.toNat, 1)
  | .brev _ d _ => (dstV d.toNat, 1)
  | .bfx _ d _ _ _ => (dstV d.toNat, 1)
  | .bfi _ d _ _ _ => (dstV d.toNat, 1)
  | .prmt _ d _ _ _ => (dstV d.toNat, 1)
  | .lea _ d _ _ _ => (dstV d.toNat, 1)
  | .isel _ d _ _ _ _ => (dstV d.toNat, 1)
  | .icmp _ d _ _ _ _ => (dstQ d, 1)
  | .plop _ d _ _ _ _ => (dstQ d, 1)
  | .call _ d _ => (dstV d.toNat, 1)
  | .shfl _ d _ _ _ _ _ => (dstV d.toNat, 1)
  | .redux _ d _ _ _ => (dstV d.toNat, 1)
  | .match_ _ d _ _ _ => (dstV d.toNat, 1)
  | .islast _ d => (dstQ d, 1)
  | .csrr _ d _ => (dstV d.toNat, 1)
  | .lnch _ _ d _ _ _ => (dstV d.toNat, 1)
  | .pwait _ p => (dstQ p, 1)
  | .fadd _ d _ _ _ => (dstV d.toNat, 1)
  | .fmul _ d _ _ _ => (dstV d.toNat, 1)
  | .ffma _ d _ _ _ _ => (dstV d.toNat, 1)
  | .fmin _ d _ _ _ => (dstV d.toNat, 1)
  | .fmax _ d _ _ _ => (dstV d.toNat, 1)
  | .fcmp _ d _ _ _ _ => (dstQ d, 1)
  | .fcls _ d _ => (dstV d.toNat, 1)
  | .frnd _ d _ _ => (dstV d.toNat, 1)
  | .frcp _ d _ _ => (dstV d.toNat, 1)
  | .frsq _ d _ _ => (dstV d.toNat, 1)
  | .fsqrt _ d _ _ => (dstV d.toNat, 1)
  | .fdiv _ d _ _ _ => (dstV d.toNat, 1)
  | .fex2 _ d _ _ => (dstV d.toNat, 1)
  | .flg2 _ d _ _ => (dstV d.toNat, 1)
  | .fgumb _ d _ _ => (dstV d.toNat, 1)
  | .rngc _ d _ _ => (dstV d.toNat, 1)
  | .f2i _ d _ _ => (dstV d.toNat, 1)
  | .i2f _ d _ _ _ => (dstV d.toNat, 1)
  | .fcvt _ d _ _ _ _ _ _ _ => (dstV d.toNat, 1)
  | .hadd2 _ d _ _ _ => (dstV d.toNat, 1)
  | .hmul2 _ d _ _ _ => (dstV d.toNat, 1)
  | .hfma2 _ d _ _ _ _ => (dstV d.toNat, 1)
  | .hmnx2 _ d _ _ _ => (dstV d.toNat, 1)
  | .pk8 _ d _ _ _ _ _ _ _ => (dstV d.toNat, 1)
  | .upk8 _ d _ _ _ => (dstV d.toNat, 1)
  | .pk4 _ d _ _ _ _ _ => (dstV d.toNat, 1)
  | .upk4 _ d _ _ _ => (dstV d.toNat, 1)
  | .fscl _ d _ _ _ => (dstV d.toNat, 1)
  | .ld _ d _ _ m => (dstV d.toNat, m.size.regs)
  | .ldc _ d _ _ m => (dstV d.toNat, m.size.regs)
  | .ldfe _ d _ _ m _ => (dstV d.toNat, m.size.regs)
  | .atom _ d _ _ _ op _ => (dstV d.toNat, if op.wide then 2 else 1)
  | .acas _ d _ _ _ b64 _ => (dstV d.toNat, if b64 then 2 else 1)
  | .afadd _ d _ _ _ _ => (dstV d.toNat, 1)
  | .lsacq _ _ d _ _ _ => (dstV d.toNat, 1)
  | .snap _ p _ _ => (dstQ p, 1)
  | .sprt _ _ d _ _ => (dstV d.toNat, 1)
  | .hspl _ d _ _ _ _ => (dstV d.toNat, 1)
  | .hldm _ p _ _ _ => (dstQ p, 1)
  | .hinf _ d _ _ => (dstV d.toNat, 1)
  | .xacq _ p _ => (dstQ p, 1)
  | .spawn _ p _ _ => (dstQ p, 1)
  | .qenq _ p _ _ _ => (dstQ p, 1)
  | .qdeq _ _ d _ _ => (dstV d.toNat, 4)
  | .csub _ _ d _ _ _ => (dstV d.toNat, 1)
  | .esc _ p _ => (dstQ p, 1)
  | .slrsv _ p _ _ => (dstQ p, 1)
  | .mrd _ d _ _ _ _ _ _ _ => (dstV d.toNat, 8)
  | .mchk _ d _ _ => (dstV d.toNat, 1)
  | .cwait _ d _ _ _ => (dstV d.toNat, 1)
  | .ctest _ _ d _ _ _ => (dstV d.toNat, 1)
  | .phash _ d _ _ => (dstV d.toNat, 1)
  | .pgpin _ p _ _ => (dstQ p, 1)
  | .pgunpin _ p _ _ => (dstQ p, 1)
  | .slcommit _ _ d _ _ => (dstV d.toNat, 1)
  | .slqry _ d _ _ _ _ => (dstV d.toNat, 1)
  | _ => (allOnes, 1)

/-- The v registers that are the destination an instruction names. -/
def destsOf (i : Instr) : List Nat :=
  let (d, w) := fltOf i
  if d.toNat < 256 then (List.range w).map (d.toNat + ·) else []

/-- The v registers that it reads: those it names, but for its destination. -/
def sourcesOf (i : Instr) : List Nat := (destsOf i).foldl List.erase i.regs

end Sys2Proof.Machine
end

