-- ==== Sys2Proof/Machine/Issue.lean ====
section
/-! DEFINITION. Fetching a word (R11, R98, R286), the grouping stage (R122, R123), what holds a word back (R70, R137,
R186, R362), and rendezvous that are complete (R131). -/

namespace Sys2Proof.Machine

open Sys2Proof

/-! ## Fetch -/

/-- The IA of the word at an offset of a team's code window; `none` is PERM (R11, R281). -/
def State.codeIa (s : State) (T : Team) (pc : Word) : Option Nat :=
  match s.launchOf T with
  | none => none
  | some L =>
    if pc.toNat ≥ L.r.codeLen.toNat then none
    else s.translate T.part L.r.ctx (L.r.code.toNat + pc.toNat) needX

/-- The word of a line at a byte of it. -/
def wordOfLine (line : BitVec 1024) (byte : Nat) : Dword := (line >>> (8 * byte)).setWidth 64

/-- The key in memory of the word at an IA, or the fault of the fetch (R98). No instruction is fetched from the external
aperture: the walk finds no page there (DEDUCED, log entry 14); a line of a window in
reset is lost as R398 has it for loads (DEDUCED, log entry 14). A line behind a CXL port that is down reads as poisoned (R393). -/
def State.codeKey (s : State) (p ia : Nat) : Except Code Nat :=
  if (apertureOf ia).isSome then .error .xlate
  else if s.windowReset p ia then .error .dataerr
  else
    match s.iaKey ia with
    | none => .error .xlate
    | some k => if s.poisonedAt k || s.cxlDown k then .error .dataerr else .ok k

/-- The word at an offset, from the core's instruction cache where it holds the line (R286). -/
def State.fetch (s : State) (T : Team) (pc : Word) : Except Code Dword :=
  match s.codeIa T pc with
  | none => .error .perm
  | some ia =>
    match s.icache.find? fun c => c.core == T.core && c.line == ia / 128 with
    | some c => .ok (wordOfLine c.data (ia % 128))
    | none =>
      match s.codeKey T.part ia with
      | .error e => .error e
      | .ok k => .ok (BitVec.ofNat 64 (s.bytes k 8))

/-- Room for one more line of a core's instruction cache: a line that goes is chosen freely, since the spec gives no sets (log entry 7). -/
def State.iRoom (s : State) (core : Nat) : State :=
  let mine := s.icache.filter (·.core == core)
  let (a, s) := s.oneOf mine.length
  let out := if mine.length < Config.icacheLines then a.bind (mine[·]?) else mine[a.getD 0]?
  match out with
  | some x => { s with icache := s.icache.filter (· != x) }
  | none => s

/-- The line of the word at an offset brought into the instruction cache, from L2 and without a lease (R286). -/
def State.fill (s : State) (T : Team) (pc : Word) : State :=
  match s.codeIa T pc with
  | none => s
  | some ia =>
    if s.icache.any fun c => c.core == T.core && c.line == ia / 128 then s
    else
      match s.codeKey T.part ia with
      | .error _ => s
      | .ok k =>
        let s := s.iRoom T.core
        { s with icache := { core := T.core, line := ia / 128, data := BitVec.ofNat 1024 (s.bytes (k - ia % 128) 128) }
                             :: s.icache }.cache ia |>.reach ia k (T.core / Config.coresPerDie) anyPos

/-- The word that threads inside the loop buffer of their sub-core take from it (R189, R286). -/
def State.loopWord (s : State) (T : Team) (g sub : Nat) (lanes : List Nat) (pc : Word) : Option Dword :=
  (s.loops.find? fun b => b.core == T.core && b.sub == sub && b.team == T.id && b.lo.toNat ≤ pc.toNat &&
      pc.toNat ≤ b.hi.toNat && lanes.all fun l => b.inside.contains (g, l)).bind fun b =>
    b.words[(pc.toNat - b.lo.toNat) / 8]?

/-- The word that a set of threads at one PC would issue. -/
def State.wordAt (s : State) (T : Team) (g : Nat) (G : Group) (lanes : List Nat) (pc : Word) : Except Code Dword :=
  match s.loopWord T g G.sub lanes pc with
  | some w => .ok w
  | none => s.fetch T pc

/-- The instruction of a word; a word that is none is ILLOP's (R98, R99). -/
def instrOf (w : Dword) : Instr :=
  match decode w with
  | .ok i => i
  | .error _ => .illop w

/-! ## What holds a word back -/

/-- Reads memory, Basin or Slip for a register. -/
def Flight.loads (f : Flight) : Bool := f.lanes.any (·.dst.isSome)

/-- The lane has a load of the flight that has not returned. -/
def Flight.loading (f : Flight) (l : Nat) : Bool := f.lanes.any fun a => a.lane == l && a.dst.isSome

/-- The lane has a write of the flight that has not been performed. -/
def Flight.storing (f : Flight) (l : Nat) : Bool := f.op.writes && f.lanes.any fun a => a.lane == l && a.todo

/-- An access of the group is not confirmed (R362). -/
def State.unconfirmed (s : State) (t g : Nat) : Bool := (s.flightsOf t g).any fun f => !f.confirmed

/-- The loads that an acquire waits for have returned (R186). -/
def State.acqMet (s : State) (t g : Nat) (q : AcqGate) : Bool :=
  (s.flightsOf t g).all fun f => f.id ≥ q.bound || (lanesOf q.lanes).all fun l => !f.loading l

/-- The request for a lane's access through the aperture is under way. -/
def State.requested (s : State) (id l : Nat) : Bool := s.outbox.any (·.flight == some (id, l))

/-- The accesses that a release waits for have returned or reached their homes; a posted write over PCIe or a Dexgal Link need be
acknowledged at system scope only (R186). What a deterministic round has staged waits for its commit, not for a release (R344). -/
def State.relMet (s : State) (t g : Nat) (q : RelGate) : Bool :=
  (s.flightsOf t g).all fun f => f.id ≥ q.bound || f.staged ||
    (lanesOf q.lanes).all fun l => !f.loading l && !(f.storing l && (q.sc == .system || !s.requested f.id l))

/-- Reads memory in the sense of R186: a later load. -/
def loadsWord (i : Instr) : Bool :=
  match i with
  | .st .. | .stfe .. | .red .. | .ab2add .. => false
  | _ => i.accesses

/-- Writes memory, or has an effect beyond its group. -/
def writesWord (i : Instr) : Bool :=
  match i with
  | .st .. | .stfe .. | .red .. | .ab2add .. | .atom .. | .acas .. | .afadd .. | .avimx .. => true
  | _ => i.heldBack

/-- A device-scope release of a lane's accesses numbered below a bound is complete: they are performed, and GT has reached
the WCTs of its stores and of its atomics of scope group device and system (R186). -/
def State.releasedBy (s : State) (t g l bound : Nat) : Bool :=
  s.relMet t g { bound, lanes := maskOf [l], sc := .device, full := false } &&
    [0, 3, 4].all fun j => vget (s.thread t g l).wct j 0 ≤ s.gt

/-- A release of a thread holds the word: the thread waits at its fence, but for later loads, which only a `.full` fence holds (R186,
R306). -/
def Thread.released (th : Thread) (i : Instr) : Bool :=
  match th.rel with
  | some q => !q.full && loadsWord i && !writesWord i
  | none => true

/-- A fence of a lane holds the word (R186); STFE waits as a team-scope release (R309), and a word that is a device-scope
release for its thread's stores waits for it (R210, R270, R272). -/
def State.fenced (s : State) (t g : Nat) (G : Group) (lanes : List Nat) (i : Instr) : Bool :=
  lanes.any fun l =>
    let th := G.thread l
    (match th.acq with
     | some q => loadsWord i && !s.acqMet t g q
     | none => false) ||
    !th.released i ||
    (match i with
     | .stfe .. => !s.relMet t g { bound := s.nextId, lanes := maskOf [l], sc := .team, full := false }
     | .spawn .. | .lnch .. | .slcommit .. => !s.releasedBy t g l s.nextId && !((s.team? t).map s.isDet).getD false
     | _ => false)

/-- A BAR that the group has passed holds its accesses (R137). -/
def State.barred (s : State) (t : Nat) (G : Group) (i : Instr) : Bool :=
  i.accesses && G.gates.any fun (n, ms) =>
    s.flights.any fun f => f.team == t && f.id < n && ms.contains f.group && (f.loads || f.lanes.any (·.todo))

/-- Engine commands of teams on a core. -/
def State.cmdCount (s : State) (core : Nat) : Nat :=
  s.cmds.countP fun c => ((s.team? c.team).map (·.core)).getD Config.cores == core

/-- A core's matrix unit has room for one more instruction (R223). -/
def State.mxRoom (s : State) (core : Nat) : Bool :=
  (s.mxOf core).queue.length + (s.mxOf core).busy.length < Config.mxQueue

/-- The matrix unit has room for an instruction that needs it (R223). How many engine commands one starts shows when it executes (R247). -/
def State.room (s : State) (T : Team) (i : Instr) : Bool :=
  !i.matrix || s.mxRoom T.core

/-- The threads that issue and meet: in a handler, its handler set (R356, R357). -/
def Group.party (G : Group) : List Nat :=
  match G.handler with
  | none => lanesOf G.live
  | some h => h.lanes.filter fun l => (G.thread l).live

/-- The thread's SPAWN or QENQ holds its group out of the active set (R211, R214). -/
def Thread.holding (th : Thread) : Bool :=
  match th.wait with
  | .spawnHold | .queueHold _ => true
  | _ => false

/-- Another group serves, or is to serve, a fault of a single execution whose members, of which this group is one, have gone on (R101, R233). -/
def Team.suspended (T : Team) (g : Nat) : Bool :=
  T.numbered.any fun (j, H) => j != g &&
    ((H.handler.any fun h => h.late.cv?.isSome && h.members.contains g) || (H.trap.any fun r => r.late.cv?.isSome && r.members.contains g))

/-- The group issues nothing: a SPAWN or QENQ holds it out (R211, R214), it waits for a hardware entry (R355), for a confirmation (R362), or for the swap-out that
another group's run-ahead leads to (R364); or another member of its single execution runs the handler of a fault of it (R101). -/
def State.quiet (s : State) (T : Team) (g : Nat) (G : Group) : Bool :=
  T.st != .run || G.trap.isSome || (G.party.any fun l => (G.thread l).holding) || (G.spec.isNone && s.unconfirmed T.id g) ||
    (T.numbered.any fun (j, H) => j != g && ((H.spec.map (·.runAhead)).getD false)) || T.suspended g

/-- The word reads or writes a barrier word (R257 to R259). -/
def barrierWord (i : Instr) : Bool :=
  match i with
  | .carm .. | .cwait .. | .ctest .. => true
  | _ => false

/-- The product reads the Slip in its execution cycle (R311). -/
def readsSlip (i : Instr) : Bool :=
  match i with
  | .mma .. | .mmag .. => true
  | _ => false

/-- Stores to the Basin or the Slip that were issued earlier and are still held at the core (R362) come first: those of the thread before a
barrier word (R174, R250), those of the team's threads to the Slip before a product (R223). -/
def State.behindStores (s : State) (T : Team) (g : Nat) (G : Group) (lanes : List Nat) (i : Instr) : Bool :=
  let held (p : Flight → Bool) : Bool := s.flights.any fun f => f.team == T.id && !f.remote && p f
  (barrierWord i && !((G.spec.map (·.runAhead)).getD false) && held fun f => f.group == g && lanes.any f.storing) ||
    (readsSlip i && held fun f => f.op.writes && f.lanes.any fun a => a.todo && a.keys.any fun k => slipKey T.core 0 ≤ k && k < slipKey T.core Config.slipBytes)

/-- Something other than pending registers and tokens holds the word in these lanes. -/
def State.heldWord (s : State) (T : Team) (g : Nat) (G : Group) (lanes : List Nat) (i : Instr) : Bool :=
  s.barred T.id G i || s.fenced T.id g G lanes i || !s.room T i || s.behindStores T g G lanes i ||
    (i.heldBack && s.unconfirmed T.id g && !((G.spec.map (·.runAhead)).getD false))

/-- The v registers that a word names in a group: TRET with a substitute reads as many as the faulting destination has (R276). -/
def Group.regsOf (G : Group) (i : Instr) : List Nat :=
  match i with
  | .tret _ .subst b => (List.range ((G.handler.map (·.width)).getD 1)).map (b.toNat + ·)
  | i => i.regs

/-- A register that the word names is pending in one of the lanes (R20, R122). -/
def State.pendingIn (s : State) (T : Team) (g : Nat) (lanes : List Nat) (i : Instr) : Bool :=
  match T.group? g with
  | none => false
  | some G => lanes.any fun l => (G.regsOf i).any fun n => (s.rd (T.ln g l) n).pend

/-- Every token that the word waits for is clear in the group (R70). -/
def Group.tokensClear (G : Group) (i : Instr) : Bool := G.tokens &&& i.wt == 0#8

/-! ## The grouping stage -/

/-- The threads that take part in the choice (R122). -/
def Group.considered (G : Group) : List Nat :=
  G.party.filter fun l => let th := G.thread l; th.arr == .no && th.wait == .none && !th.held? && !th.closed

/-- The PCs of a list of lanes, ascending. -/
def Group.pcs (G : Group) (lanes : List Nat) : List Nat := lanes.foldl (fun ps l => insertNat ps (G.thread l).pc.toNat) []

/-- A ready thread set: its PC, its lanes, and the instruction or event that issuing it comes to. -/
structure Ready where
  pc : Word
  lanes : List Nat
  i : Instr
  deriving DecidableEq, Repr

/-- The set at one PC, if it is ready (R122). A wide word is reached, not issued (R131); a word that cannot be fetched
raises (R98). -/
def State.setAt (s : State) (T : Team) (g : Nat) (G : Group) (pc : Word) (lanes : List Nat) : Option Ready :=
  match s.wordAt T g G lanes pc with
  | .error _ => some { pc, lanes, i := .fetchFault T.id g (maskOf lanes) }
  | .ok w =>
    let i := instrOf w
    if s.pendingIn T g lanes i then none
    else
      match i.iss with
      | some x =>
        if x.scope.arr != .no then
          if (i.heldBack && s.unconfirmed T.id g && !((G.spec.map (·.runAhead)).getD false)) ||
            lanes.any (fun l => !(G.thread l).released i) then none
          else some { pc, lanes, i := .threadArrives T.id g (maskOf lanes) x.scope }
        else if s.heldWord T g G lanes i || !G.tokensClear i then none
        else some { pc, lanes, i }
      | none => if s.heldWord T g G lanes i then none else some { pc, lanes, i }

/-- The ready sets of a group by ascending PC. -/
def State.readySets (s : State) (T : Team) (g : Nat) (G : Group) : List Ready :=
  if s.quiet T g G then []
  else
    let ls := G.considered
    (G.pcs ls).filterMap fun p =>
      let pc := BitVec.ofNat 32 p
      s.setAt T g G pc (ls.filter fun l => (G.thread l).pc == pc)

/-- The set that the grouping stage issues: one passed over to the bound (R123), else the lowest that an L-scope YIELD does
not put back (R129), else the lowest (R122). -/
def pick (G : Group) (rs : List Ready) : Option Ready :=
  let low := match G.yielded with
    | some p => (rs.find? (·.pc != p)).or rs.head?
    | none => rs.head?
  match G.prefer with
  | some p => (rs.find? (·.pc == p)).or low
  | none => low

/-! ## Complete rendezvous (R131) -/

/-- The address at which every thread of the group that meets has arrived at a G-scope word. -/
def Group.met? (G : Group) : Option Word :=
  match G.party with
  | [] => none
  | l :: rest =>
    let th := G.thread l
    if th.arr == .group && rest.all fun j => (G.thread j).arr == .group && (G.thread j).pc == th.pc then some th.pc
    else none

/-- The address, kind of arrival and membership of cv `n`, when every member group with a live thread has signed. Words of S and of T
scope that wait on one cv meet each over their own membership (R28, R131). -/
def Team.signedAll? (T : Team) (n : Nat) : Option (Word × Arr × List Nat) :=
  T.groups.findSome? fun G =>
    match G.signed? n, lanesOf G.live with
    | some pc, l :: _ =>
      let a := (G.thread l).arr
      let ms := T.membership a 0
      if ms.all fun g => match T.group? g with
          | some H => H.live == 0#32 || H.signed? n == some pc
          | none => true
      then some (pc, a, ms) else none
    | _, _ => none

/-- No thread that takes part has closed the round (R344), nor waits for Kiln rows, for a confirmation or for an answer. -/
def Group.idle (G : Group) : Bool := G.party.all fun l => (G.thread l).wait == .none && !(G.thread l).closed

/-- A complete rendezvous whose instruction may execute now: the cursor of the single execution and the instruction. -/
structure Due where
  cur : Cursor
  i : Instr
  deriving DecidableEq, Repr

/-- The instruction at a complete rendezvous may execute: tokens clear (R70), nothing holds it back. The word is the one that
stands there at the execution (R100; DESIGN CHOICE, log entry 56). -/
def State.dueAt (s : State) (T : Team) (pc : Word) (a : Arr) (ms : List Nat) : Option Due :=
  match ms.find? fun g => ((T.group? g).map (·.live)).getD 0#32 != 0#32 with
  | none => none
  | some g0 =>
    match T.group? g0 with
    | none => none
    | some G0 =>
      match s.wordAt T g0 G0 G0.party pc with
      | .error _ => none
      | .ok w =>
        let i := instrOf w
        let ok := ms.all fun g =>
          match T.group? g with
          | none => true
          | some G =>
            G.live == 0#32 || (G.tokensClear i && G.idle && !s.quiet T g G && !s.heldWord T g G G.party i &&
              !s.pendingIn T g G.party i)
        if ok then
          let members := ms.map fun g =>
            (g, match T.group? g with | some G => maskOf G.party | none => 0#32)
          some { cur := { team := T.id, pc, members, arr := a }, i }
        else none

/-- The single execution of a group's complete rendezvous, if it may be now. -/
def State.groupDue (s : State) (T : Team) (g : Nat) (G : Group) : Option Due :=
  if T.st != .run then none else (G.met?).bind fun pc => s.dueAt T pc .group [g]

/-- The single executions of S and T scope that a team may carry out now. -/
def State.cvDues (s : State) (T : Team) : List Due :=
  if T.st != .run then []
  else (List.range 16).filterMap fun n => (T.signedAll? n).bind fun (pc, a, ms) => s.dueAt T pc a ms

/-- The complete rendezvous of a team whose instruction may execute now. -/
def State.duesOf (s : State) (T : Team) : List Due :=
  (T.numbered.filterMap fun (g, G) => s.groupDue T g G) ++ s.cvDues T

/-- The group whose sub-core gives a single execution its issue cycle: the lowest member (R333). -/
def Due.lead (d : Due) : Nat := (d.cur.members.head?.map (·.1)).getD 0

/-- A single execution by name. -/
def Due.key (d : Due) : Nat × Word × Arr := (d.cur.team, d.cur.pc, d.cur.arr)

/-- The single executions of a team that `s1` allows and `s` did not: they execute in this cycle, whether or not their sub-core has
issued in it (R135, R139; DEDUCED, log entry 2). -/
def State.prompted (s s1 : State) (t : Nat) : State :=
  match s.team? t, s1.team? t with
  | some T, some T1 =>
    let old := (s.duesOf T).map Due.key
    { s1 with prompt := s1.prompt ++ ((s1.duesOf T1).map Due.key).filter fun k => !old.contains k }
  | _, _ => s1

/-- A group has a word that it may issue: that of a ready thread set, or of its complete rendezvous (R331). -/
def State.groupReady (s : State) (T : Team) (g : Nat) (G : Group) : Bool :=
  !(s.readySets T g G).isEmpty || (s.groupDue T g G).isSome

/-- The PCs of the words that a group may issue. -/
def State.readyPcs (s : State) (T : Team) (g : Nat) (G : Group) : List Word :=
  (s.readySets T g G).map (·.pc) ++ ((s.groupDue T g G).map (·.cur.pc)).toList

end Sys2Proof.Machine
end

