-- ==== Sys2Proof/Machine/Rendezvous.lean ====
section
/-! DEFINITION. Arrival and signing (R131, R132), the tests that end a rendezvous that cannot complete (R133, R134, R409),
the bound on passed-over PCs (R123), and fetch faults (R98). -/

namespace Sys2Proof.Machine

open Sys2Proof

/-! ## Arrival -/

/-- A thread arrives (R131): its own wait count restarts (R134). In a deterministic launch it has closed the round (R344). -/
def Thread.arrive (th : Thread) (a : Arr) (det : Bool) : Thread := { th with arr := a, rdv := 0, closed := th.closed || det }

/-- The timer of a rendezvous runs from its first arrival (R134). -/
def startTimer (t : Option Nat) : Option Nat := some (t.getD 0)

/-- Threads of a group arrive at a wide word. -/
def State.arrive (s : State) (t g : Nat) (lanes : List Nat) (a : Arr) : State :=
  let det := ((s.team? t).map s.isDet).getD false
  let s := s.modGroup t g fun G => lanes.foldl (fun G l => G.modThread l (·.arrive a det)) G
  s.modTeam t fun T =>
    let T := match a with
      | .group => T.modGroup g fun G => { G with timer := startTimer G.timer }
      | _ =>
        match a.cv? with
        | some cv =>
          let c := vget T.cvs cv.toNat cvReset
          { T with cvs := vset T.cvs cv.toNat { c with timer := startTimer c.timer } }
        | none => T
    T.refresh

/-- THREAD_ARRIVES (R131): the threads arrive and their group may sign; those of a group that is no member of the cv raise
ILLOP instead, at once and without a rendezvous, and so do the threads of a handler at a word of S or T scope (R357). -/
def execThreadArrives (t g : Nat) (lanes : BitVec 32) (sc : Scope) (s : State) : Out :=
  match s.team? t, s.group? t g with
  | some T, some G =>
    let ls := (lanesOf lanes).filter fun l => G.considered.contains l
    match ls with
    | [] => .next s
    | l :: _ =>
      let pc := (G.thread l).pc
      let member := match sc with
        | .set cv => (vget T.cvs cv.toNat cvReset).mask.getLsbD g && G.handler.isNone
        | .team _ => G.handler.isNone
        | _ => true
      if member then .next (s.arrive t g ls sc.arr)
      else
        let (dst, width) := match s.wordAt T g G ls pc with
          | .ok w => fltOf (instrOf w)
          | .error _ => (allOnes, 1)
        .next (s.raising t g (s.raise { code := .illop, t, g, lanes := maskOf ls, pc, dst, width }))
  | _, _ => .next s

/-! ## RDVMIS (R133) -/

/-- The thread is blocked, for the test of a group rendezvous; one that waits in the instruction it has arrived at can still
move. -/
def Thread.blocked (th : Thread) : Bool := (th.arr != .no && th.wait == .none) || th.held?

/-- The thread is blocked, for the test of cv `n`: an arrival on another cv does not count, nor does one at a group rendezvous that
is complete, since its thread goes on. -/
def Group.blockedFor (n : Nat) (G : Group) (l : Nat) : Bool :=
  let th := G.thread l
  (th.wait == .none && (th.arr.names n || (th.arr == .group && G.met?.isNone))) || th.held?

/-- A handler serves a single execution on cv `n`, whose arrival was complete (R134, R356). -/
def Team.handled (T : Team) (n : Nat) : Bool :=
  T.groups.any fun G => (G.handler.any (·.arr.names n)) || G.trap.any (·.arr.names n)

/-- The rendezvous at which a thread has arrived is complete, so that its arrival is counted no further (R134). -/
def Team.complete (T : Team) (G : Group) (l : Nat) (a : Arr) : Bool :=
  match a with
  | .no => true
  | .group => G.met?.isSome && G.party.contains l
  | a => match a.cv? with | some cv => (T.signedAll? cv.toNat).isSome || T.handled cv.toNat | none => true

/-- The thread is blocked for the round of a deterministic launch: one at a complete rendezvous, which may wait for a token, goes on (R133,
R344). -/
def Team.blockedAt (T : Team) (G : Group) (l : Nat) : Bool :=
  let th := G.thread l
  th.held? || (th.arr != .no && th.wait == .none && !T.complete G l th.arr)

/-- The thread is blocked or at a meeting point, for the test of R331: one that waits in a matrix instruction has arrived at it (R133). -/
def Thread.stands (th : Thread) : Bool := (th.arr != .no && (th.wait == .none || th.wait == .matrix)) || th.held?

/-- The least of a list of addresses. -/
def leastOf : List Nat → Option Nat
  | [] => none
  | x :: xs => some (xs.foldl min x)

def wordOr (x : Option Nat) : Word := match x with | some n => BitVec.ofNat 32 n | none => allOnes

/-- The threads of a group that stand outside its handler. -/
def Group.outside (G : Group) : List Nat :=
  match G.handler with
  | none => []
  | some h => (lanesOf G.live).filter fun l => !h.lanes.contains l

/-- The record of the rendezvous of some threads of a group that ends in a fault (R409). -/
def groupFault (code : Code) (t g : Nat) (G : Group) (lanes : List Nat) : Raise :=
  let ths := lanes.map G.thread
  let at_ := (ths.filter (·.arr == .group)).map (·.pc.toNat)
  let pc := leastOf at_
  let others := ((ths.filter (·.blocked)).map (·.pc.toNat)).filter fun p => some p != pc
  { code, t, g, lanes := G.live, pc := wordOr pc,
    pc2 := if code = .rdvmis then wordOr (leastOf others) else allOnes }

/-- The record of a wide rendezvous on cv `n` that ends in a fault (R409). -/
def Team.cvFault (T : Team) (code : Code) (n : Nat) (a : Arr) (ms : List Nat) : Raise :=
  let at_ (p : Group → Nat → Bool) : List Nat := (ms.map fun g => match T.group? g with
    | some G => ((lanesOf G.live).filter (p G)).map fun l => (G.thread l).pc.toNat
    | none => []).flatten
  let pc := leastOf (at_ fun G l => (G.thread l).arr.names n)
  let others := (at_ (·.blockedFor n)).filter fun p => some p != pc
  let g := (ms.find? fun g => ((T.group? g).map (·.live)).getD 0#32 != 0#32).getD 0
  { code, t := T.id, g, lanes := ((T.group? g).map (·.live)).getD 0#32, pc := wordOr pc,
    pc2 := if code = .rdvmis then wordOr (leastOf others) else allOnes, arr := a, members := ms }

/-- The kinds of arrival that name cv `n`. -/
def Team.arrivalsOn (T : Team) (n : Nat) : List Arr :=
  (T.groups.map fun G => ((lanesOf G.live).map fun l => (G.thread l).arr).filter (·.names n)).flatten.eraseDups

/-- A group rendezvous of the group can no longer complete. -/
def Group.mismatched (G : Group) : Bool :=
  let ths := G.party.map G.thread
  ths.all (·.blocked) && ths.any (·.arr == .group) && G.met?.isNone

/-- A rendezvous on cv `n` can no longer complete. -/
def Team.mismatched (T : Team) (n : Nat) (a : Arr) : Bool :=
  let ms := T.membership a 0
  (ms.all fun g => match T.group? g with
    | some G => (lanesOf G.live).all (G.blockedFor n)
    | none => true) && (T.signedAll? n).isNone

/-- The RDVMIS that a team has earned, if any: that of the lowest group (R354), and of two of one group that of its own
rendezvous (DESIGN CHOICE, log entry 2). -/
def Team.rdvmis? (T : Team) : Option Raise :=
  if T.st != .run then none
  else
    let own := T.numbered.filterMap fun (g, G) => if G.mismatched then some (groupFault .rdvmis T.id g G G.party) else none
    let wide := ((List.range 16).map fun n => (T.arrivalsOn n).filterMap fun a =>
      if T.mismatched n a then some (T.cvFault .rdvmis n a (T.membership a 0)) else none).flatten
    (own ++ wide).foldl (fun best r => match best with
      | some b => if r.g < b.g then some r else some b
      | none => some r) none

/-- A fault in which the wait of a rendezvous ends. -/
def State.raiseWait (s : State) (r : Raise) : State := s.raisingIn r.t r.groups (s.raise r)

/-- A complete rendezvous whose word can no longer be fetched when it would execute: its threads, whose PC is at that word, raise the fault of the fetch
then (R98, R378; DEDUCED, log entry 56). -/
def State.lostWord (s : State) (T : Team) (pc : Word) (a : Arr) (ms : List Nat) : Option Raise :=
  (ms.find? fun g => ((T.group? g).map (·.live)).getD 0#32 != 0#32).bind fun g => (T.group? g).bind fun G =>
    match s.wordAt T g G G.party pc with
    | .ok _ => none
    | .error code =>
      let waits := ms.all fun j => match T.group? j with
        | some H => H.live == 0#32 || (H.idle && !s.quiet T j H)
        | none => true
      if waits then
        some { code, t := T.id, g, lanes := maskOf G.party, pc, arr := a, members := if a.cv?.isSome then ms else [],
               va := ((s.launchOf T).map (·.r.code)).getD 0#64 + pc.setWidth 64,
               pages := if code = .xlate then ((s.codeIa T pc).map pageOf).toList else [] }
      else none

/-- The complete rendezvous of a team whose words cannot be fetched. -/
def State.lostWords (s : State) (T : Team) : List Raise :=
  if T.st != .run then []
  else
    (T.numbered.filterMap fun (g, G) => G.met?.bind fun pc => s.lostWord T pc .group [g]) ++
      (List.range 16).filterMap fun n => (T.signedAll? n).bind fun (pc, a, ms) => s.lostWord T pc a ms

/-! ## RDVTMO (R134) -/

/-- RDVTMO (R134): the timer of a group rendezvous, or of the rendezvous on a cv, has reached RDVWD. REMTMO takes its place
when WDREM cycles were skipped (R366). -/
def execRdvtmo (t g : Nat) (cv : Option CvN) (s : State) : Out :=
  match s.team? t, s.group? t g with
  | some T, some G =>
    let spent (timer : Option Nat) : Bool := T.rdvwd != 0#32 && decide (T.rdvwd.toNat ≤ timer.getD 0) && T.rdvmis?.isNone
    let code (skipped : Nat) : Code := if T.wdrem != 0#32 && T.wdrem.toNat ≤ skipped then .remtmo else .rdvtmo
    match cv with
    | none =>
      let outer (h : Handler) : Option (Nat × List Nat) := if spent h.timer then some (h.tskip, G.outside) else none
      match if spent G.timer && G.met?.isNone then some (G.tskip, G.party) else G.handler.bind outer with
      | some (skipped, lanes) => .next (s.raiseWait { groupFault (code skipped) t g G lanes with pc2 := allOnes })
      | none => .next s
    | some n =>
      let c := vget T.cvs n.toNat cvReset
      match T.arrivalsOn n.toNat with
      | a :: _ =>
        if spent c.timer && (T.signedAll? n.toNat).isNone then
          .next (s.raiseWait (T.cvFault (code c.tskip) n.toNat a (T.membership a 0)))
        else .next s
      | [] => .next s
  | _, _ => .next s

/-! ## Passed-over PCs (R123) -/

/-- The count of a PC. -/
def Group.passedOf (G : Group) (pc : Word) : Nat := (G.passed.lookup pc).getD 0

/-- The lowest of the ready PCs that has reached the bound. -/
def Group.overBound (G : Group) (ready : List Word) : Option Word :=
  (leastOf ((ready.filter fun p => Config.passBound ≤ G.passedOf p).map (·.toNat))).map (BitVec.ofNat 32)

/-- PASSED_OVER_BOUND (R123): the lowest PC that was passed over 256 times is chosen at the group's next issue. -/
def execPassedOverBound (t g : Nat) (s : State) : Out :=
  match s.team? t, s.group? t g with
  | some T, some G =>
    match G.overBound ((s.readySets T g G).map (·.pc)) with
    | some pc => .next (s.modGroup t g fun G => { G with prefer := some pc })
    | none => .next s
  | _, _ => .next s

/-- The set at a PC has been chosen: its count restarts, and it is no longer one to prefer (R123). -/
def Group.chosen (G : Group) (pc : Word) : Group :=
  { G with passed := G.passed.filter (·.1 != pc), prefer := G.prefer.filter (· != pc) }

/-- The group has issued the word at `pc` (R332, R333). -/
def Group.issuedAt (G : Group) (pc : Word) (gt : Nat) : Group :=
  { G with lastIssue := gt, readySince := 0, readyAt := G.readyAt.filter (·.1 != pc), passedBy := 0 }

/-- The counts after the group has issued the set at `pc` out of the ready sets at `ready` (R123). -/
def Group.countPassed (G : Group) (pc : Word) (ready : List Word) : Group :=
  let others := ready.filter (· != pc)
  { G with
    passed := others.map (fun p => (p, G.passedOf p + 1)) ++
      G.passed.filter fun (p, _) => p != pc && !others.contains p,
    prefer := none, yielded := none }

/-! ## Fetch faults (R98) -/

/-- FETCH_FAULT (R98): threads whose PC reaches a word that cannot be fetched raise PERM, XLATE or DATAERR. -/
def execFetchFault (t g : Nat) (lanes : BitVec 32) (s : State) : Out :=
  match s.team? t, s.group? t g with
  | some T, some G =>
    let ls := (lanesOf lanes).filter fun l => G.considered.contains l
    match ls with
    | [] => .next s
    | l :: _ =>
      let pc := (G.thread l).pc
      match s.wordAt T g G ls pc with
      | .ok _ => .next s
      | .error code =>
        let va := ((s.launchOf T).map (·.r.code)).getD 0#64 + pc.setWidth 64
        let pages := if code = .xlate then ((s.codeIa T pc).map pageOf).toList else []
        .next (s.raising t g (s.raise { code, t, g, lanes := maskOf ls, pc, va, pages }))
  | _, _ => .next s

end Sys2Proof.Machine
end

