-- ==== Sys2Proof/Machine/Control.lean ====
section
/-! DEFINITION. Control flow, meeting points, ending and waiting, rendezvous instructions, group and set operations, traps,
TRET and CSRs (R121 to R144, R275 to R277, R99). -/

namespace Sys2Proof.Machine

open Sys2Proof

/-! ## Branches and calls (R126, R127) -/

/-- The target that C names (R126). -/
def State.target (s : State) (T : Team) (ln : Ln) (pc : Word) : COp → Word
  | .v n => wordAligned (s.rd ln n.toNat).val
  | .imm x => branchTo pc x
  | .k n => wordAligned (T.kreg n.toNat)
  | .s _ => pc + 8#32

/-- The PC lies in the range of the buffer. -/
def Loop.covers (b : Loop) (pc : Word) : Bool := b.lo.toNat ≤ pc.toNat && pc.toNat ≤ b.hi.toNat

/-- The words from `lo` on, if all of them can be fetched. -/
def State.codeWords (s : State) (T : Team) (lo : Word) : Nat → Option (List Dword)
  | 0 => some []
  | n + 1 =>
    match s.fetch T lo with
    | .error _ => none
    | .ok w => (State.codeWords s T (lo + 8#32) n).map (w :: ·)

/-- The loop buffers after taken branches of the lanes of a group to their targets (R189, R286): a lane that branches out of
its buffered range leaves it; a backward BRA within 63 words captures the loop for the lanes that are not in one. A sub-core has one
buffer: a loop that it captures takes the place of the one that it holds, whose threads go on from the instruction cache; lanes that
take the same words join it (DEDUCED, log entry 37). -/
def State.branched (s : State) (T : Team) (g sub : Nat) (pc : Word) (bra : Bool) (taken : List (Nat × Word)) : State :=
  let mine (b : Loop) : Bool := b.core == T.core && b.sub == sub && b.team == T.id
  let loops := (s.loops.map fun b =>
    if mine b then
      { b with inside := b.inside.filter fun (j, l) =>
          match (if j == g then taken.lookup l else none) with
          | some p => b.covers pc && b.covers p
          | none => true }
    else b).filter (!·.inside.isEmpty)
  let back := if bra then taken.filter fun (l, p) =>
      p.toNat ≤ pc.toNat && pc.toNat - p.toNat ≤ 8 * 63 &&
        !(loops.any fun b => mine b && b.inside.contains (g, l)) else []
  (((back.map fun (_, p) => p).eraseDups)).foldl (fun s lo =>
    match s.codeWords T lo ((pc.toNat - lo.toNat) / 8 + 1) with
    | none => s
    | some words =>
      let lanes := (back.filter fun (_, p) => p == lo).map fun (l, _) => (g, l)
      let same (b : Loop) : Bool := mine b && b.lo == lo && b.hi == pc && b.words == words
      let held := ((s.loops.find? same).map (·.inside)).getD []
      { s with loops := { core := T.core, sub, team := T.id, lo, hi := pc, words, inside := lanes ++ held } ::
          s.loops.filter fun b => !(b.core == T.core && b.sub == sub) }) { s with loops }

/-- The targets of the lanes that take a branch: a lane whose target is unknown falls through (R363). -/
def State.taken (s : State) (T : Team) (i : Iss) (src : List Nat) (f : Ln → Word) : List (Nat × Word) :=
  ((s.actors T i).filter fun ln => !s.unknown ln { src } && !(src.any fun n => (s.rd ln n).poison)).map fun ln =>
    (ln.l, f ln)

/-- A taken branch noted in the loop buffers, once the instruction has been carried out. -/
def State.noteBranch (s : State) (i : Iss) (src : List Nat) (bra : Bool) (f : State → Team → Ln → Word) (o : Out) : Out :=
  match o, s.team? s.cur.team, s.cur.members.head? with
  | .next s1, some T, some (g, _) =>
    .next (s1.branched T g (T.ln g 0).sub s.cur.pc bra (s.taken T i src (f s T)))
  | o, _, _ => o

/-- BRA (R127). -/
def execBra (i : Iss) (c : COp) (s : State) : Out :=
  let pc := s.cur.pc
  s.noteBranch i c.regs true (fun s T ln => s.target T ln pc c) <|
    s.perLane i { src := c.regs } fun T ln =>
      if s.unknown ln { src := c.regs } then {} else { goto := some (s.target T ln pc c) }

/-- CALL (R127): the target is read before the link register is written; the value written is untainted. -/
def execCall (i : Iss) (d : VReg) (c : COp) (s : State) : Out :=
  let pc := s.cur.pc
  s.noteBranch i c.regs false (fun s T ln => s.target T ln pc c) <|
    s.perLane i (.toV c.regs d) fun T ln =>
      if s.unknown ln { src := c.regs } then { Res.reg d (pc + 8#32) with taint := some false }
      else { Res.reg d (pc + 8#32) with taint := some false, goto := some (s.target T ln pc c) }

/-- RET (R127). -/
def execRet (i : Iss) (a : VReg) (s : State) : Out :=
  s.noteBranch i [a.toNat] false (fun s _ ln => wordAligned (s.rd ln a.toNat).val) <|
    s.perLane i { src := [a.toNat] } fun _ ln =>
      if s.unknown ln { src := [a.toNat] } then {} else { goto := some (wordAligned (s.rd ln a.toNat).val) }

/-! ## Meeting points (R124, R125) -/

/-- MR pushed and loaded (R12, R125). -/
def Thread.push (th : Thread) (m : Word) : Thread := { th with mr := m, stack := th.mr :: th.stack }

/-- SMEET (R125). -/
def execSmeet (i : Iss) (target : Option COp) (s : State) : Out :=
  let pc := s.cur.pc
  match target with
  | some c =>
    s.perLane i { src := c.regs } fun T ln =>
      if ln.th.stack.length = 8 then { bad := some .stackovf }
      else { latch := (·.push (s.target T ln pc c)) }
  | none => s.perLane i {} fun _ _ => { latch := Thread.pop }

/-! ## Ending, yielding and waiting (R128 to R130) -/

/-- EXIT (R128): at L scope the lanes whose guard passes end, at G scope every thread that has met. A single execution that waited for
them alone follows in the same cycle (R135). -/
def execExit (i : Iss) (s : State) : Out :=
  match s.team? s.cur.team with
  | none => .fault .noIssuer
  | some T =>
    let lns := s.actors T i
    let s1 := s.retire (lns.map fun ln => (ln.g, ln.l))
    let s1 := s.cur.members.foldl (fun s1 (g, _) =>
      s1.exitLanes T.id g ((lns.filter (·.g == g)).map (·.l)) true) s1
    .next (s.prompted s1 T.id)

/-- The pending set of the group's sub-core holds a ready group (R129). -/
def State.pendingReady (s : State) (core sub : Nat) : Bool :=
  s.teams.any fun T => T.core == core && T.numbered.any fun (g, G) => G.sub == sub && !G.active && s.groupReady T g G

/-- YIELD (R129). -/
def execYield (i : Iss) (s : State) : Out :=
  match s.team? s.cur.team with
  | none => .fault .noIssuer
  | some T =>
    let acts := s.actors T i
    let s1 := s.retire []
    match i.scope with
    | .lane .. =>
      .next (acts.foldl (fun s1 ln => s1.modGroup T.id ln.g fun G => { G with yielded := some (s.cur.pc + 8#32) }) s1)
    | _ =>
      .next (s.cur.members.foldl (fun s1 (g, _) =>
        if s.pendingReady T.core (T.ln g 0).sub then s1.modGroup T.id g fun G => { G with active := false } else s1) s1)

/-- The group of the cursor waits as one, at no rendezvous (R130). -/
def State.nap (s : State) (w : Wait) : State :=
  let cur := s.cur
  (cur.members.foldl (fun s (g, m) =>
    s.modGroup cur.team g fun G => (lanesOf m).foldl (fun G l => G.modThread l fun th => { th with wait := w, arr := .no }) G) s).release
      cur.team cur.arr (cur.members.map (·.1))

/-- NAP (R130): each lane waits until GT reaches T0 + n; at G scope n is read once. -/
def execNap (i : Iss) (c : COp) (s : State) : Out :=
  match i.scope with
  | .lane .. =>
    s.perLane i { src := c.regs } fun T ln =>
      match s.cval T ln .zero c with
      | none => .illop
      | some n => if n = 0#32 then {} else { hold := some (.nap (s.gt + n.toNat)) }
  | _ =>
    s.once { src := c.regs } fun T _ =>
      let n := s.scalar T .zero c
      .ok (if n = 0#32 then s.retire [] else s.nap (.nap (s.gt + n.toNat)))

/-! ## BAR, CVSET, CVLEAVE, ISLAST (R137 to R140) -/

/-- A 16-bit count advanced; the shadows that a wrap clears (R350). -/
def Team.countBar (T : Team) (a : Arr) (ms : List Nat) : Team :=
  let wide := match a with | .team _ => true | _ => false
  let T := if wide then
      { T with tbc := T.tbc + 1#16, shadows := if T.tbc = 0xFFFF#16 then [] else T.shadows }
    else T
  ms.foldl (fun T g =>
    match T.group? g with
    | none => T
    | some G =>
      let T := T.modGroup g fun G => { G with gbc := G.gbc + 1#16 }
      if G.gbc = 0xFFFF#16 then { T with shadows := T.shadows.filter fun (_, x) => x.wg != g } else T) T

/-- The members of a barrier (R137): the accesses that they have issued come before what they issue now, and the counts of R350
advance. -/
def State.atBar (s : State) (T : Team) : State :=
  let ms := s.cur.members.map (·.1)
  let live := ms.filter fun g => ((T.group? g).map (·.live)).getD 0#32 != 0#32
  s.modTeam T.id fun T =>
    (live.foldl (fun T g => T.modGroup g fun G =>
      { G with gates := (s.nextId, ms) :: G.gates.filter fun (n, ms) =>
          s.flights.any fun f => f.team == T.id && f.id < n && ms.contains f.group }) T).countBar s.cur.arr live

/-- BAR (R137). -/
def execBar (_i : Iss) (s : State) : Out := s.single {} fun T _ => .ok (s.atBar T)

/-- The mask of the groups of a team. -/
def Team.allMask (T : Team) : Dword := groupMask (List.range T.groups.length)

/-- CVSET (R138). -/
def execCvset (_i : Iss) (n : CvN) (c : COp) (s : State) : Out :=
  s.single { src := c.pairRegs } fun T lns =>
    let m : Dword := match c with
      | .v r => match lns.head? with | some ln => BitVec.ofNat 64 (s.rdPair ln r.toNat) | none => 0#64
      | .imm x => x.setWidth 64
      | .k r => (T.kreg (r.toNat + 1) ++ T.kreg r.toNat : Dword)
      | .s _ => 0#64
    .ok ((s.modTeam T.id fun T =>
      let c := { vget T.cvs n.toNat cvReset with mask := m &&& T.allMask, arr := 0, mism := false, gdeg := false }
      { T with cvs := vset T.cvs n.toNat c }).dropLatch T.core n)

/-- CVLEAVE (R139). A wait on the cv that it completes executes in the same cycle. -/
def execCvleave (_i : Iss) (n : CvN) (s : State) : Out :=
  (s.single {} fun T _ =>
    .ok ((s.modTeam T.id fun T =>
      let c := vget T.cvs n.toNat cvReset
      let out := groupMask (s.cur.members.map (·.1))
      Team.refresh { T with cvs := vset T.cvs n.toNat { c with mask := c.mask &&& ~~~out } }).dropLatch T.core n)).then
    fun s1 => s.prompted s1 s.cur.team

/-- The greatest group number among lanes. -/
def lastGroup (lns : List Ln) : Nat := lns.foldl (fun m ln => max m ln.g) 0

/-- ISLAST (R140). -/
def execIslast (_i : Iss) (d : PReg) (s : State) : Out :=
  s.wide (.toQ [] d) fun _ lns => .ok (lns.map fun ln => (ln, Res.pred d (ln.g == lastGroup lns)))

/-! ## VOTE, SHFL, REDUX, MATCH (R141 to R144) -/

/-- The voters of R141: lane, element index, source, and whether it is unknown. -/
def State.voters (s : State) (lns : List Ln) (a : PReg) (neg : Bool) : List (Ln × Nat × Bool) :=
  lns.map fun ln => (ln, elementOf (s.cur.members.map (·.1)) ln, ln.th.q a != neg)

/-- VOTE (R141). -/
def execVote (_i : Iss) (d : BitVec 8) (a : PReg) (neg : Bool) (mode : VoteMode) (s : State) : Out :=
  let names : Names := if mode.toPred then .toQ [] (d.setWidth 3) else .toV [] d
  s.wide { names with qsrc := [a] } fun _ lns =>
    let vs := s.voters lns a neg
    let unk := lns.any fun ln => s.unknown ln { qsrc := [a] }
    let yes := vs.filter (·.2.2)
    let word (x : Nat) : Res := { Res.reg d (BitVec.ofNat 32 x) with taint := some false, unk }
    let pred (b : Bool) : Res := { Res.pred (d.setWidth 3) b with unk }
    .ok (vs.map fun (ln, e, _) => (ln,
      match mode with
      | .every => pred (yes.length == vs.length)
      | .some => pred (!yes.isEmpty)
      | .same => pred (yes.isEmpty || yes.length == vs.length)
      | .lanes => { Res.reg d (maskOf ((yes.filter fun (m, _, _) => m.g == ln.g).map fun (m, _, _) => m.l))
                      with taint := some false, unk }
      | .count => word yes.length
      | .first => match yes.head? with
          | some (_, e, _) => word e
          | none => { Res.reg d allOnes with taint := some false, unk }
      | .rank => word (yes.countP fun (_, e', _) => e' < e)))

/-- The lane that SHFL takes a value from (R142). -/
def shflSource (mode : ShflMode) (w : Nat) (lane : Nat) (c : Word) : Option Nat :=
  let r := lane % w
  let base := lane - r
  match mode with
  | .from => some (base + c.toNat % w)
  | .rot => some (base + (r + c.toNat) % w)
  | .swap => some (base + (r ^^^ c.toNat) % w)
  | .step =>
    let t : Int := r + c.toInt
    if 0 ≤ t ∧ t < w then some (base + t.toNat) else none

/-- SHFL (R142): taint and poison travel with the value. -/
def execShfl (_i : Iss) (d a : VReg) (q : PReg) (c : COp) (mode : ShflMode) (w : BitVec 2) (s : State) : Out :=
  s.wide { src := c.regs, dst := [d.toNat], also := [a.toNat], flt := dstV d.toNat } fun T lns =>
    let width := 32 >>> w.toNat
    let rs := lns.map fun ln =>
      let cv := (s.cval T ln .sign c).getD 0#32
      let from_ := (shflSource mode width ln.l cv).bind fun l => lns.find? fun m => m.g == ln.g && m.l == l
      let v := s.rd (from_.getD ln) a.toNat
      let t := v.taint || s.tainted ln { src := c.regs }
      (ln, v.poison,
        ({ v := [(d.toNat, v.val)], q := [(q, from_.isSome)], taint := some t, unk := v.unk } : Res))
    let bad := (rs.filter fun (_, p, _) => p).map fun (ln, _, _) => ln
    if bad.isEmpty then .ok (rs.map fun (ln, _, r) => (ln, r)) else .error (.dataerr, bad)

/-- The operation of REDUX (R143). -/
def reduxOp : ReduxOp → Word → Word → Word
  | .add, x, y => x + y
  | .minu, x, y => if x.toNat ≤ y.toNat then x else y
  | .mins, x, y => if x.toInt ≤ y.toInt then x else y
  | .maxu, x, y => if x.toNat ≤ y.toNat then y else x
  | .maxs, x, y => if x.toInt ≤ y.toInt then y else x
  | .and, x, y => x &&& y
  | .or, x, y => x ||| y
  | .xor, x, y => x ^^^ y

/-- The combination of a list of values, in order. -/
def combine (op : ReduxOp) : List Word → Word
  | [] => 0#32
  | x :: xs => xs.foldl (fun a b => reduxOp op a b) x

/-- REDUX (R143). -/
def execRedux (_i : Iss) (d a : VReg) (op : ReduxOp) (pref : Bool) (s : State) : Out :=
  s.wide (.toV [a.toNat] d) fun _ lns =>
    let ms := s.cur.members.map (·.1)
    let reach (ln : Ln) : List Ln := if pref then lns.filter fun m => elementOf ms m ≤ elementOf ms ln else lns
    .ok (lns.map fun ln =>
      let cs := (reach ln).map fun m => s.rd m a.toNat
      (ln, { Res.reg d (combine op (cs.map (·.val))) with taint := some (cs.any (·.taint)), unk := cs.any (·.unk) }))

/-- The distinct values of a list. -/
def classes (xs : List Nat) : List Nat := xs.eraseDups

/-- MATCH (R144). -/
def execMatch (_i : Iss) (d a : VReg) (mode : MatchMode) (b64 : Bool) (s : State) : Out :=
  let src := if b64 then [a.toNat, a.toNat + 1] else [a.toNat]
  s.wide (.toV src d) fun _ lns =>
    let key (ln : Ln) : Nat := if b64 then s.rdPair ln a.toNat else (s.rd ln a.toNat).val.toNat
    let taint := lns.any fun ln => s.tainted ln { src }
    let unk := lns.any fun ln => s.unknown ln { src }
    .ok (lns.map fun ln =>
      let peers := (lns.filter fun m => key m == key ln).map (·.l)
      let x : Word := match mode with
        | .peers => maskOf peers
        | .head => BitVec.ofNat 32 (peers.head?.getD 0)
        | .nclass => BitVec.ofNat 32 (classes (lns.map key)).length
        | .order => BitVec.ofNat 32 (peers.countP (· < ln.l))
      (ln, { Res.reg d x with taint := some taint, unk }))

/-! ## Traps (R275, R276, R99) -/

/-- TRAP (R275): SWTRAP in the lanes whose guard passes. -/
def execTrap (i : Iss) (s : State) : Out := s.perLane i {} fun _ _ => { bad := some .swtrap }

/-- BKPT (R275). -/
def execBkpt (i : Iss) (s : State) : Out := s.perLane i {} fun _ _ => { bad := some .bkpt }

/-- A word that is not an instruction (R99): every thread that reaches it raises ILLOP; guard and wait mask are not
consulted. -/
def execIllop (_w : Dword) (s : State) : Out :=
  match s.team? s.cur.team with
  | none => .fault .noIssuer
  | some T =>
    let g := (s.cur.members.head?.map (·.1)).getD 0
    .next (s.raising T.id g (s.raise (s.faultOf .illop (s.members T) {})))

/-- The registers that .subst reads and writes: from vB upward into %fltdst upward (R276). -/
def substRegs (h : Handler) (dst : Word) (b : VReg) : List (Nat × Nat) :=
  if dst.toNat < 256 then (List.range h.width).map fun j => (b.toNat + j, dst.toNat + j) else []

/-- The substitute written in one faulting lane, as read in the handler (R276). -/
def State.substitute (s : State) (t g l : Nat) (dst : Word) (vals : List (Nat × Reg)) (bit0 : Bool) : State :=
  if dst.toNat < 256 then vals.foldl (fun s (n, r) => s.wr t g l n r.val r.taint) s
  else if dst = allOnes then s
  else s.modThread t g l fun th => th.setQ (BitVec.ofNat 3 (dst.toNat - 256)) bit0

/-- The registers that .subst reads in every thread of the handler set (R276, R373): the substitute of a v register, V[B] otherwise. -/
def substReads (h : Handler) (dst : Word) (b : VReg) : List Nat :=
  if dst.toNat < 256 then (substRegs h dst b).map (·.1) else [b.toNat]

/-- TRET (R276, R356, R373, R410). -/
def execTret (_i : Iss) (mode : TretMode) (b : VReg) (s : State) : Out :=
  match s.team? s.cur.team, s.cur.members.head? with
  | some T, some (g, _) =>
    match T.group? g with
    | none => .fault .noIssuer
    | some G =>
      let lns := s.members T
      match G.handler with
      | none => .next (s.raising T.id g (s.raise (s.faultOf .illop lns {})))
      | some h =>
        let dst := G.fltdst
        let subst := mode == .subst && dst != allOnes
        if mode == .subst && b.toNat % h.width != 0 then .next (s.raise (s.faultOf .illop lns {}))
        else
          let hit := lns.filter fun ln => G.fltmask.getLsbD ln.l
          let reads := if mode == .subst then substReads h dst b else []
          let nulls := nullLanes lns reads
          let bad := lns.filter fun ln => reads.any fun r => (s.rd ln r).poison
          if !nulls.isEmpty then .next (s.raise (s.faultOf .unallot nulls {}))
          else if !bad.isEmpty then .next (s.raise (s.faultOf .dataerr bad {}))
          else
            let back := s.takeBackAll T g h
            let into := if subst then (substRegs h dst b).map (·.2) else []
            -- a destination that a load will still land in holds the word, as any write of it does (R20)
            if hit.any fun ln => into.any fun n => (back.rd { ln with th := back.thread T.id g ln.l } n).pend then .next s
            else
            match back.cowAll T.id (rowsOf hit into) with
            | .noRow => .next s.stall
            | .pending => .next s
            | .ok s1 =>
              let s1 := if subst then hit.foldl (fun s1 ln =>
                  s1.substitute T.id g ln.l dst ((substRegs h dst b).map fun (x, y) => (y, s.rd ln x))
                    ((s.rd ln b.toNat).val.getLsbD 0)) s1
                else s1
              let live := (lns.map (·.l)).filter fun l => (s1.thread T.id g l).live
              let s1 := s1.modGroup T.id g fun G => { G with timer := h.timer, tskip := h.tskip }
              if h.arr.cv?.isSome then
                if mode == .retry then
                  let s1 := s1.modGroup T.id g fun G => live.foldl (fun G l => G.modThread l fun th => { th with arr := h.arr }) G
                  .next (s1.modTeam T.id Team.refresh)
                else .next (s1.releaseAll T.id g h)
              else if h.late.cv?.isSome then .next ((s1.settle T.id g).lateReturn T h (mode == .retry))
              else if mode == .retry then .next (s1.settle T.id g)
              else .next (s1.nextLanes T.id g (hit.map (·.l)))
  | _, _ => .fault .noIssuer

/-! ## CSRs (R277) -/

/-- CSRR (R277): the value is untainted. -/
def execCsrr (i : Iss) (d : VReg) (csr : BitVec 8) (s : State) : Out :=
  s.perLane i (.toV [] d) fun T ln =>
    match s.csr T ln.sub csr with
    | none => .illop
    | some x => { Res.reg d x with taint := some false }

/-- CSRW (R277). -/
def execCsrw (_i : Iss) (csr : BitVec 8) (a : VReg) (s : State) : Out :=
  s.single { src := [a.toNat] } fun T lns =>
    if csr.toNat ≥ 10 then .error (.illop, lns)
    else .ok (s.modTeam T.id fun T => T.writeCsr csr (s.scalar T .zero (.v a)) s.gt)

/-! ## Dependent launches (R273, R274) -/

/-- SUCC (R273): it counts once for each team of the grid. -/
def execSucc (_i : Iss) (s : State) : Out :=
  s.single {} fun T _ =>
    if T.succ || !T.grid then .ok s
    else
      .ok ((s.modTeam T.id fun T => { T with succ := true }).modLaunch T.part T.lnum fun L =>
        { L with succs := L.succs + 1, succRan := true })

/-- Stores and atomics of a launch are still on their way: those of teams that have ended (R274, R325). -/
def State.writesUnderWay (s : State) (L : Launch) : Bool :=
  s.gone.any fun T => T.part == L.part && T.lnum == L.lnum &&
    s.flights.any fun f => f.team == T.id && f.op.writes && f.lanes.any (·.todo)

/-- What PWAIT will write, once its predecessor has ended with its stores past their WCTs at device scope (R274); `none`
while it has not. -/
def State.predEnded (s : State) (T : Team) : Option Bool :=
  match (s.launchOf T).bind (·.pred) with
  | none => some true
  | some n =>
    match (s.part T.part).done.lookup n with
    | some ok => some ok
    | none =>
      match s.launch? T.part n with
      | none => some true
      | some L =>
        match L.st with
        | .finishing _ => if L.wct ≤ s.gt && !s.writesUnderWay L then some (!L.faulted) else none
        | _ => none

/-- A device-scope acquire completed by a lane's thread: later loads issue only after the earlier ones, numbered below the bound, have
returned, and none hits a copy leased before now (R186, R314). -/
def Thread.acquired (gt bound l : Nat) (th : Thread) : Thread :=
  { th with acqTime := max th.acqTime gt }.gate { bound, lanes := maskOf [l], wide := true }

/-- PWAIT released for the members of a cursor: the acquire, Q[P], and the next word. -/
def State.passPwait (s : State) (T : Team) (p : PReg) (ok : Bool) : State :=
  ((s.members T).foldl (fun s ln => s.modThread T.id ln.g ln.l fun th => (th.acquired s.gt s.nextId ln.l).setQ p ok) s).retire []

/-- PWAIT (R274). -/
def execPwait (_i : Iss) (p : PReg) (s : State) : Out :=
  s.once {} fun T _ =>
    match s.predEnded T with
    | some ok => .ok (s.passPwait T p ok)
    | none => .ok (s.park (.pwait p))

end Sys2Proof.Machine
end

