-- ==== Sys2Proof/Machine/Memory.lean ====
section
/-! DEFINITION. Memory, atomic and fence instructions up to the point where their accesses leave the core (R167 to R191). The
accesses in flight are carried on in `Machine/Access.lean`. -/

namespace Sys2Proof.Machine

open Sys2Proof

/-! ## Addresses (R167, R168, R170) -/

/-- The offset that C gives (R167). -/
def State.offset (s : State) (T : Team) (ln : Ln) : COp → Int
  | .v n => (s.rd ln n.toNat).val.toInt
  | .imm x => x.toInt
  | .k n => (T.kreg n.toNat).toInt
  | .s _ => 0

/-- The registers of the base (R167). -/
def baseRegs (sp : Space) (a : VReg) : List Nat := if sp.wide then [a.toNat, a.toNat + 1] else [a.toNat]

/-- The residue of an integer modulo 2^w. -/
def wrapTo (w : Nat) (x : Int) : Nat := (x % (2 ^ w : Int)).toNat

/-- The effective address (R167). -/
def State.ea (s : State) (T : Team) (ln : Ln) (sp : Space) (a : VReg) (c : COp) : Nat :=
  if sp.wide then wrapTo 64 (s.rdPair ln a.toNat + s.offset T ln c)
  else wrapTo 32 ((s.rd ln a.toNat).val.toNat + s.offset T ln c)

/-- The address operand of an instruction word: its space, base and offset (R167). -/
def addressOf : Instr → Option (Space × VReg × COp)
  | .ld _ _ a off m | .st _ _ a off m | .ldc _ _ a off m | .stfe _ _ a off m | .pref _ a off m => some (m.space, a, off)
  | .ldfe _ _ a off m _ => some (m.space, a, off)
  | .atom _ _ a off .. | .acas _ _ a off .. | .afadd _ _ a off .. | .ab2add _ a off .. | .avimx _ _ a off .. | .red _ a off .. =>
    some (.global, a, off)
  | .lsacq _ _ _ a .. => some (.cistern, a, .imm 0#8)
  | .hspl _ _ _ a off _ | .hldm _ _ _ a off | .spawn _ _ a off | .qenq _ _ a off _ | .qdeq _ _ _ a off | .csub _ _ _ a off _
  | .lnch _ _ _ a off _ | .slcb _ _ a off | .pgpin _ _ a off | .pgunpin _ _ a off => some (.global, a, off)
  | .carm _ a off _ | .cwait _ _ a off _ | .ctest _ _ _ a off _ => some (.basin, a, off)
  | .cctl _ .inv a off => some (.global, a, off)
  | _ => none

/-- The effective address of the lowest of some lanes, by their address operand; 0 where there is none, or where its registers cannot be read
(R359). -/
def State.eaOf (s : State) (T : Team) (lns : List Ln) (x : Option (Space × VReg × COp)) : Dword :=
  match lns.head?, x with
  | some ln, some (sp, a, off) =>
    if (baseRegs sp a ++ off.regs).all fun r => (ln.key? r).isSome && !(s.rd ln r).poison then BitVec.ofNat 64 (s.ea T ln sp a off) else 0#64
  | _, _ => 0#64

/-- The physical word of a logical word under a swizzle mode (R170). -/
def swizzle (mode w : Nat) : Nat :=
  if mode = 0 then w else w / 32 * 32 + ((w % 32) ^^^ (w / 2 ^ (4 + mode) % 32))

/-- The byte of the allocation at which a logical byte lies (R170). -/
def swizzleByte (mode off : Nat) : Nat := swizzle mode (off / 4) * 4 + off % 4

/-- The keys of `size` bytes of the team's Basin allocation from a logical offset. -/
def Team.basinKeys (T : Team) (mode off size : Nat) : List Nat :=
  (List.range size).map fun j => basinKey T.core (T.basinBase + swizzleByte mode (off + j))

/-- The launch of the team declares matrix use (R221). -/
def State.isMtx (s : State) (T : Team) : Bool := ((s.launchOf T).map (·.r.mtx)).getD false

/-- Fields of a reservation record (R224). -/
def recLive (r : RecW) : Bool := (vget r 7 0#32).getLsbD 0
def recBase (r : RecW) : Nat := (vget r 0 0#32).toNat % 2 ^ 20
def recLen (r : RecW) : Nat := (vget r 1 0#32).toNat % 2 ^ 21

/-- A range of the Slip lies in one live record of the team (R167). -/
def State.inSlip (s : State) (T : Team) (off size : Nat) : Bool :=
  s.isMtx T && (s.mxOf T.core).recs.toList.any fun r =>
    recLive r && recBase r ≤ off && off + size ≤ recBase r + recLen r

/-- How an access of a deterministic launch is classified (R342). -/
inductive DetClass where
  | ordinary | race | shared
  deriving DecidableEq, Repr

/-- The state of a team's deterministic launch. -/
def State.detOf (s : State) (T : Team) : Option Det := (s.launchOf T).bind (·.det)

def State.detClass (s : State) (T : Team) (ia : Nat) : DetClass :=
  match s.detOf T with
  | none => .ordinary
  | some d =>
    match d.own.find? fun (first, last, _) => first ≤ ia / 128 && ia / 128 ≤ last with
    | some (_, _, t) => if t == T.index then .ordinary else .race
    | none => .shared

/-- Where an access lies: its IA, or the keys of its bytes. -/
structure Place where
  ea : Nat
  ia : Nat
  keys : List Nat
  deriving DecidableEq, Repr

/-- The place of an access of `size` bytes, or its fault: MISALIGN, PERM, RACE, in the order of R176 and R342. -/
def State.locate (s : State) (T : Team) (sp : Space) (swz ea size : Nat) (need : Need) : Except Code Place :=
  if ea % size != 0 then .error .misalign
  else
    match sp with
    | .global | .cistern =>
      match s.translate T.part (s.ctxOf T) ea need with
      | none => .error .perm
      | some ia => if s.detClass T ia == .race then .error .raceSys else .ok { ea, ia, keys := [] }
    | .basin =>
      if ea + size ≤ T.basinLen then .ok { ea, ia := 0, keys := T.basinKeys swz ea size } else .error .perm
    | .slip =>
      if s.inSlip T ea size then .ok { ea, ia := 0, keys := (List.range size).map fun j => slipKey T.core (ea + j) }
      else .error .perm

/-! ## The order of faults (R176) -/

/-- The first class of R176 in which a lane fails. -/
def firstOf (codes : List Code) : Option Code :=
  [Code.illop, .unallot, .dataerr, .misalign, .perm, .raceSys, .xlate, .atompath].find? codes.contains

/-- A lane of an instruction whose faults R176 orders: its address and what it finds there. -/
abbrev Lane176 (α : Type) := Ln × Nat × Except Code α

/-- Lanes whose address is unknown are skipped, and what they would have written becomes unknown (R363). -/
def State.skipUnknown (s : State) (lns : List Ln) (dst : List Nat) : State :=
  lns.foldl (fun s ln => s.modThread ln.t ln.g ln.l fun th =>
    { th with unkV := dst.foldl (fun b n => setBit b n true) th.unkV }) s

/-- The pages that hold no leaf among those of `n` bytes from a virtual address. -/
def State.missing (s : State) (T : Team) (va n : Nat) : List Nat :=
  (((List.range (n / 128 + 2)).map fun j => min (va + 128 * j) (va + n - 1)).filterMap fun x =>
    match s.translate T.part (s.ctxOf T) x { r := false, w := false, x := false } with
    | some ia => if (apertureOf ia).isSome || (s.walk ia).isSome then none else some (pageOf ia)
    | none => none).eraseDups

/-- The pages that a record of XLATE names: those that hold no leaf among `n` bytes from each of some virtual addresses, or, where what is
missing is a home slice behind the external aperture, the pages of the addresses (R193, R359). -/
def State.lostPages (s : State) (T : Team) (vas : List Nat) (n : Nat) : List Nat :=
  match (vas.map fun va => s.missing T va n).flatten.eraseDups with
  | [] => ((vas.filterMap fun va => s.translate T.part (s.ctxOf T) va { r := false, w := false, x := false }).map pageOf).eraseDups.take 8
  | l => l.take 8

/-- An instruction whose faults R176 orders: ILLOP cases first, then UNALLOT, DATAERR for a poisoned source, then what each
lane's address finds. No lane changes anything when one faults. `k` gets the state and the lanes with their places. The record's VA is
the address of the lowest faulting lane, where its address registers can be read (R359). -/
def State.ordered {α : Type} (s : State) (i : Iss) (n : Names) (addr : List Nat) (illop : Team → Ln → Bool)
    (place : Team → Ln → Nat × Except Code α) (k : State → Team → List (Ln × α) → Out) : Out :=
  match s.team? s.cur.team with
  | none => .fault .noIssuer
  | some T =>
    let lns := s.actors T i
    let g := (s.cur.members.head?.map (·.1)).getD 0
    let fail (code : Code) (bad : List Ln) : Out :=
      let readable (ln : Ln) : Bool := addr.all fun r => (ln.key? r).isSome && !(s.rd ln r).poison
      let va := ((bad.head?.filter readable).map fun ln => (place T ln).1).getD 0
      let pages := if code = .xlate then s.lostPages T (bad.map fun ln => (place T ln).1) n.reach else []
      .next (s.raising T.id g (s.raise { s.faultOf code bad n with va := BitVec.ofNat 64 va, pages }))
    let ills := lns.filter (illop T)
    let nulls := nullLanes lns (n.src ++ n.dst ++ n.also)
    let bad := lns.filter fun ln => n.src.any fun r => (s.rd ln r).poison
    if !ills.isEmpty then fail .illop ills
    else if !nulls.isEmpty then fail .unallot nulls
    else if !bad.isEmpty then fail .dataerr bad
    else
      let lost := lns.filter fun ln => s.unknown ln { src := addr }
      let found := (lns.filter fun ln => !s.unknown ln { src := addr }).map fun ln => (ln, place T ln)
      match firstOf (found.filterMap fun (_, _, r) => match r with | .error c => some c | .ok _ => none) with
      | some code =>
        let hit := found.filter fun (_, _, r) => match r with | .error c => c == code | .ok _ => false
        fail code (hit.map (·.1))
      | none =>
        k (s.skipUnknown lost n.dst) T (found.filterMap fun (ln, _, r) =>
          match r with | .ok x => some (ln, x) | .error _ => none)

/-- The lane's place for an access through the operand `[vA+off]`. -/
def State.at_ (s : State) (sp : Space) (swz size : Nat) (need : Need) (a : VReg) (off : COp) (T : Team) (ln : Ln) :
    Nat × Except Code Place :=
  let ea := s.ea T ln sp a off
  (ea, s.locate T sp swz ea size need)

/-! ## Leaving the core (R362) -/

/-- A flight not yet sent. -/
def flightOf (s : State) (T : Team) (g : Nat) (op : AccOp) (size nreg : Nat) (lanes : List LaneAcc) : Flight :=
  { id := s.nextId, team := T.id, group := g, pc := s.cur.pc, op, size, nreg, remote := true, cistern := false,
    confirmed := false, staged := false, later := 0, hot := [], mate := false, pos := anyPos, object := false, sg := .system, taint := false, age := 0,
    lanes }

/-- A flight joins those under way. -/
def State.addFlight (s : State) (f : Flight) : State :=
  { s with flights := s.flights ++ [f], nextId := s.nextId + 1 }

/-- The threads of a flight that has no speculation entry wait at the word until it is confirmed (R362). -/
def State.awaitAccess (s : State) (t g id : Nat) (lanes : List Nat) : State :=
  lanes.foldl (fun s l => s.modThread t g l fun th => { th with wait := .access id }) s

/-- The group has a speculation entry, or takes one now if it can (R362). -/
def State.speculate (s : State) (t g start : Nat) : Option State :=
  match s.team? t, s.group? t g with
  | some T, some G =>
    if G.spec.isSome then some s
    else if s.hwUsed T.core G.sub ≥ Config.hwEntries then none
    else
      (s.hwCaptureAll T g (lanesOf G.live)).toOption.map fun (s, caps) =>
        s.modGroup t g fun G =>
          { G with spec := some { caps, olds := [], start, runAhead := false, pages := [], words := 0, pc := 0#32, lanes := 0#32,
                                  dst := allOnes, va := 0#64 } }
  | _, _ => none

/-- An access has left the core: its threads go on past the word, or, where it is not confirmed and the group holds no speculation entry,
wait for the confirmation (R362). -/
def State.sent (s : State) (T : Team) (g : Nat) (confirmed : Bool) (lanes : List Nat) : State :=
  if confirmed || ((s.group? T.id g).bind (·.spec)).isSome then s.retire []
  else (s.retire (lanes.map fun l => (g, l))).awaitAccess T.id g (s.nextId - 1) lanes

/-- A memory instruction's access leaves the core. -/
def State.send (s : State) (T : Team) (g : Nat) (f : Flight) : State :=
  if f.lanes.isEmpty then s.retire [] else (s.addFlight f).sent T g f.confirmed (f.lanes.map (·.lane))

/-- Destination registers pending, untainted or (LDC) tainted, in a lane whose rows are its own (R20, R171). -/
def State.expect (s : State) (t g l d nreg : Nat) (taint : Bool) : State :=
  let s := (List.range nreg).foldl (fun s j => s.pendReg t g l (d + j)) s
  s.modThread t g l fun th =>
    { th with taint := (List.range nreg).foldl (fun b j => setBit b (d + j) taint) th.taint,
              unkV := (List.range nreg).foldl (fun b j => setBit b (d + j) false) th.unkV }

/-- Where a value for register `d` of a lane lands: its row and the position there. -/
def State.landing (s : State) (t g l d : Nat) : Option (Nat × Nat) :=
  match s.team? t with
  | none => none
  | some T => ((T.ln g l).key? d).map fun k => (k, d % 8)

/-- The group at the cursor. -/
def State.curGroup (s : State) : Nat := (s.cur.members.head?.map (·.1)).getD 0

/-- The rows of the destinations made ready, or the stall of R18. -/
def State.withRows (s : State) (T : Team) (lns : List Ln) (dst : List Nat) (k : State → Out) : Out :=
  match s.cowAll T.id (rowsOf lns dst) with
  | .noRow => .next (s.raising T.id s.curGroup s.stall)
  | .pending => .next s
  | .ok s1 => k s1

/-- The destination registers of some lanes, with what they hold. -/
def State.oldRegs (s : State) (t : Nat) (lns : List Ln) (dst : List Nat) : List (Nat × Nat × Word × Bool) :=
  (lns.map fun ln => (dst.filterMap (s.landing t ln.g ln.l)).map fun (k, j) =>
    (k, j, vget (s.row k).regs j 0#32, (s.row k).poison.getLsbD j)).flatten

/-- The group takes a speculation entry for an access of some lanes, if it holds none and can (R362). The entry captures the rows of the
destinations as they stand, pending and shared, as SNAP would (R20, R355), and keeps apart what the destinations held (DEDUCED, log
entry 65). -/
def State.speculateFor (s : State) (t g : Nat) (lns : List Ln) (dst : List Nat) : State :=
  if ((s.group? t g).bind (·.spec)).isSome then s
  else match s.speculate t g s.nextId with
    | none => s
    | some u => u.modGroup t g fun G => { G with spec := G.spec.map fun sp => { sp with olds := s.oldRegs t lns dst } }

/-- A global access issues: the rows of the destinations are made ready, and the group takes a speculation entry for it (R18, R362). -/
def State.toIssue (s : State) (T : Team) (lns : List Ln) (dst : List Nat) (k : State → Out) : Out :=
  s.withRows T lns dst fun s1 => k (s1.speculateFor T.id s1.curGroup lns dst)

/-! ## Values -/

/-- `n` bytes at a list of keys, little-endian (R5). -/
def State.gather (s : State) : List Nat → Nat
  | [] => 0
  | k :: ks => (s.byte k).toNat + 256 * State.gather s ks

/-- Bytes written at a list of keys, little-endian (R5). -/
def State.scatter (s : State) : List Nat → Nat → State
  | [], _ => s
  | k :: ks, v => State.scatter (s.setByte k (BitVec.ofNat 8 v)) ks (v / 256)

/-- A loaded value extended to its register operand (R169). -/
def extendLoad (size : Nat) (sgn : Bool) (v : Nat) : BitVec 128 :=
  if sgn ∧ v ≥ 2 ^ (8 * size - 1) then (BitVec.ofInt 32 ((v : Int) - 2 ^ (8 * size))).setWidth 128
  else BitVec.ofNat 128 v

/-- The data of a register operand of `n` registers. -/
def State.data (s : State) (ln : Ln) (d : VReg) (n : Nat) : BitVec 512 :=
  BitVec.ofNat 512 ((List.range n).foldr (fun j x => (s.rd ln (d.toNat + j)).val.toNat + 2 ^ 32 * x) 0)

/-- An earlier local store of a lane of the group to bytes of some accesses is still held, and no run-ahead will withdraw it: a load of them
waits, so that it returns that store's value or a later one (R174, R362). -/
def State.behindHeld (s : State) (t g : Nat) (accs : List (Nat × List Nat)) : Bool :=
  (s.flightsOf t g).any fun f => !f.remote && f.op.writes && !s.ahead f &&
    f.lanes.any fun b => b.todo && accs.any fun (l, keys) => l == b.lane && keys.any b.keys.contains

/-- The byte at a key that a held local store of the thread has written, where it is not performed yet: the highest lane of the instruction
wins (R172). -/
def Flight.heldByte (f : Flight) (l k : Nat) : Option Byte :=
  let covers (a : LaneAcc) : Bool := a.todo && a.keys.contains k
  if f.lanes.any fun a => a.lane == l && covers a then
    (f.lanes.filter covers).getLast?.map fun a => BitVec.ofNat 8 (a.data.toNat / 2 ^ (8 * a.keys.idxOf k))
  else none

/-- The bytes at a list of keys, overlaid with the thread's own held local stores, which its load sees in run-ahead (R362, R363). -/
def State.overlayLocal (s : State) (t g l : Nat) (keys : List Nat) : Nat :=
  let held := (s.flightsOf t g).filter fun f => !f.remote && f.op.writes
  (keys.map fun k => held.foldl (fun b f => (f.heldByte l k).getD b) (s.byte k)).foldr (fun b x => b.toNat + 256 * x) 0

/-! ## The Basin race trap (R350, R351) -/

/-- The words of the allocation that a list of Basin keys touches. -/
def Team.wordsOf (T : Team) (keys : List Nat) : List Nat :=
  (keys.map fun k => (k - basinKey T.core T.basinBase) / 4).eraseDups

/-- A plain access of thread (g, l) to a word races (R351). -/
def Team.races (T : Team) (g l w : Nat) : Bool :=
  match T.shadows.lookup w with
  | none => false
  | some x =>
    !(x.wg == g && x.wl == l) &&
      (if x.wg == g then ((T.group? g).map (·.gbc)).getD 0#16 == x.gb else T.tbc == x.tb)

/-- Shadows of the words a store has written (R351). -/
def Team.shade (T : Team) (g l : Nat) (words : List Nat) : Team :=
  let gb := ((T.group? g).map (·.gbc)).getD 0#16
  { T with shadows := words.foldl (fun m w => Sparse.insert m w { wg := g, wl := l, tb := T.tbc, gb }) T.shadows }

/-- Shadows cleared (R351). -/
def Team.unshade (T : Team) (words : List Nat) : Team :=
  { T with shadows := T.shadows.filter fun (w, _) => !words.contains w }

/-- The lanes that race, with their places. -/
def State.racers (s : State) (T : Team) (sp : Space) (accs : List (Ln × Place)) : List (Ln × Place) :=
  if sp == .basin && s.isDet T then accs.filter fun (ln, p) => (T.wordsOf p.keys).any (T.races ln.g ln.l) else []

/-- RACE in the lanes that race (R351). -/
def State.raceFault (s : State) (T : Team) (n : Names) (racing : List (Ln × Place)) : Out :=
  .next (s.raising T.id ((s.cur.members.head?.map (·.1)).getD 0) (s.raise
    { s.faultOf .race (racing.map (·.1)) n with va := BitVec.ofNat 64 ((racing.head?.map (·.2.ea)).getD 0) }))

/-! ## Loads -/

/-- The acquire time of the loads that a lane now issues: no L1 copy leased before the last earlier load observed its value is hit, where
the scope of an acquire behind it says so (R186). -/
def Group.since (G : Group) (l : Nat) : Nat :=
  let th := G.thread l
  match th.acq with
  | none => th.acqTime
  | some q => if q.wide then ((lanesOf q.lanes).map fun j => (G.thread j).lastLoad).foldl max th.acqTime else th.acqTime

/-- The acquires that threads have behind them take effect for the loads that now issue (R186). -/
def State.passAcq (s : State) (t g : Nat) (lanes : List Nat) : State :=
  match s.group? t g with
  | none => s
  | some G => lanes.foldl (fun s l => s.modThread t g l fun th => { th with acq := none, acqTime := G.since l }) s

/-- The replacement position that an access names (R41, R173). -/
def posOf (i : Iss) (m : MemMod) : Nat := (if m.far then 2 else 0) + (if i.ru then 1 else 0)

/-- One lane's part of a load, its destination expected. -/
def State.loadLane (s : State) (T : Team) (local_ : Bool) (d : VReg) (m : MemMod) (ln : Ln) (p : Place) : LaneAcc :=
  { lane := ln.l, va := BitVec.ofNat 64 p.ea, ia := p.ia, keys := p.keys, data := 0#512,
    dst := s.landing T.id ln.g ln.l d.toNat,
    val := if local_ then
        some (extendLoad m.size.bytes m.size.signed (s.overlayLocal T.id ln.g ln.l p.keys),
          p.keys.any s.poisonedAt)
      else none,
    todo := !local_ }

/-- LD and LDC (R171). Basin and Slip are read at issue; a global access is performed later. -/
def State.load (s : State) (i : Iss) (d a : VReg) (off : COp) (m : MemMod) (taint : Bool) : Out :=
  let dst := span d m.size.regs
  let addr := baseRegs m.space a ++ off.regs
  let n : Names := { src := addr, dst, flt := dstV d.toNat, width := m.size.regs }
  s.ordered i n addr (fun _ _ => false) (s.at_ m.space m.swz.toNat m.size.bytes needR a off) fun s T accs =>
    let g := s.curGroup
    let racing := s.racers T m.space accs
    if !racing.isEmpty then s.raceFault T n racing
    else
      let local_ := !m.space.wide
      if local_ && s.behindHeld T.id g (accs.map fun (ln, p) => (ln.l, p.keys)) then .next s
      else
      (if local_ || accs.isEmpty then s.withRows else s.toIssue) T (accs.map (·.1)) dst fun s1 =>
        let s1 := s1.passAcq T.id g (accs.map fun (ln, _) => ln.l)
        let s1 := accs.foldl (fun s1 (ln, _) => s1.expect T.id ln.g ln.l d.toNat m.size.regs taint) s1
        let lanes := accs.map fun (ln, p) => s1.loadLane T local_ d m ln p
        let f := { flightOf s T g (.load m.size.signed) m.size.bytes m.size.regs lanes with
          remote := !local_, cistern := m.space == .cistern, confirmed := local_, pos := posOf i m, taint }
        .next (s1.send T g f)

/-- LD (R171). -/
def execLd (i : Iss) (d a : VReg) (off : COp) (m : MemMod) (s : State) : Out := s.load i d a off m false

/-- LDC (R171): the registers written are tainted. -/
def execLdc (i : Iss) (d a : VReg) (off : COp) (m : MemMod) (s : State) : Out := s.load i d a off m true

/-! ## Deterministic staging (R343, R344) -/

/-- The most entries a thread stages in a round (R344). -/
def stageMax : Nat := 16

/-- Threads of the current round that an access would take past the bound close it before the access (R344). -/
def State.closeFull (s : State) (T : Team) (lns : List Ln) : Option State :=
  let full := lns.filter fun ln => ln.th.staged ≥ stageMax
  if full.isEmpty then none
  else some (full.foldl (fun s ln => s.modThread T.id ln.g ln.l fun th => { th with closed := true, wait := .commit }) s)

/-- A thread closes the round after the word it has executed, and waits for the commit (R344). -/
def State.closeAfter (s : State) (t g : Nat) (lanes : List Nat) : State :=
  lanes.foldl (fun s l => s.modThread t g l fun th =>
    if th.live then { th with closed := true, wait := .commit } else th) s

/-- One more staged entry of each lane. -/
def State.countStaged (s : State) (t g : Nat) (lanes : List Nat) : State :=
  lanes.foldl (fun s l => s.modThread t g l fun th => { th with staged := th.staged + 1 }) s

/-- Threads of which a staged access with a result waits have closed the round with it (R344). -/
def State.closeStaged (s : State) (t g : Nat) (lanes : List Nat) : State :=
  s.closeAfter t g (lanes.filter fun l => (s.flightsOf t g).any fun f => f.staged && f.loading l)

/-- A write leaves the core: the lanes on shared lines of a deterministic launch are staged, the others are sent (R343). -/
def State.sendWrite (s : State) (T : Team) (g : Nat) (f : Flight) : State :=
  let shared := f.lanes.filter fun a => f.remote && s.detClass T a.ia == .shared
  if shared.isEmpty then s.send T g f
  else
    let own := f.lanes.filter fun a => s.detClass T a.ia != .shared
    let s := (s.addFlight { f with lanes := shared, staged := true, mate := !own.isEmpty }).countStaged T.id g (shared.map (·.lane))
    let s := if own.isEmpty then s else s.addFlight { f with id := s.nextId, lanes := own }
    let s1 := s.sent T g f.confirmed (f.lanes.map (·.lane))
    if ((s.group? T.id g).bind (·.spec)).isSome then s1.closeStaged T.id g (shared.map (·.lane)) else s1

/-! ## Stores -/

/-- A Basin or Slip store performed at the core, lanes in ascending order (R172); STFE sets its granule full (R175). -/
def State.storeLocal (s : State) (T : Team) (fe : Bool) (keys : List Nat) (data : Nat) : State :=
  let s := s.scatter keys data
  let s := if keys.length = 16 then s.clearPoison (keys.headD 0) else s
  if fe then
    let gr := ((keys.headD 0) - basinKey T.core T.basinBase) / 16
    s.modTeam T.id fun T => { T with full := insertNat T.full gr, engFull := T.engFull.filter (· != gr) }
  else s

/-- The shadows that a store leaves on the words of its lanes as it issues (R351). -/
def State.shadow (s : State) (T : Team) (fe : Bool) (accs : List (Ln × Place)) : State :=
  s.modTeam T.id fun T => accs.foldl (fun T (ln, p) =>
    if fe then T.unshade (T.wordsOf p.keys) else T.shade ln.g ln.l (T.wordsOf p.keys)) T

/-- A store to Basin or Slip is held: the group holds a speculation entry, or an earlier one of its own is held (R174, R362). -/
def State.holdsLocal (s : State) (t g : Nat) : Bool :=
  ((s.group? t g).bind (·.spec)).isSome || (s.flightsOf t g).any fun f => !f.remote && f.op.writes

/-- ST and STFE (R171, R175). While the group holds a speculation entry a store to any space is held (R362). -/
def State.store (s : State) (i : Iss) (d a : VReg) (off : COp) (m : MemMod) (fe : Bool) : Out :=
  let addr := baseRegs m.space a ++ off.regs
  let n : Names := { src := addr ++ span d m.size.regs }
  s.ordered i n addr (fun _ _ => false) (s.at_ m.space m.swz.toNat m.size.bytes needW a off) fun s T accs =>
    let g := s.curGroup
    let racing := if fe then [] else s.racers T m.space accs
    if !racing.isEmpty then s.raceFault T n racing
    else
      let local_ := !m.space.wide
      let lanes := accs.map fun (ln, p) =>
        ({ lane := ln.l, va := BitVec.ofNat 64 p.ea, ia := p.ia, keys := p.keys,
           data := s.data ln d m.size.regs, dst := none, val := none, todo := true } : LaneAcc)
      let s1 := if m.space == .basin && s.isDet T then s.shadow T fe accs else s
      let f := { flightOf s T g (.store fe) m.size.bytes 0 lanes with
        remote := !local_, cistern := m.space == .cistern, confirmed := local_, pos := posOf i m }
      if local_ then
        if s.holdsLocal T.id g then .next (s1.sendWrite T g f)
        else .next ((lanes.foldl (fun s a => s.storeLocal T fe a.keys a.data.toNat) s1).retire [])
      else
        match s.closeFull T ((accs.filter fun (_, p) => s.detClass T p.ia == .shared).map (·.1)) with
        | some s => .next s
        | none =>
          if accs.isEmpty then .next (s.retire []) else s.toIssue T (accs.map (·.1)) [] fun s1 => .next (s1.sendWrite T g f)

/-- ST (R171). -/
def execSt (i : Iss) (d a : VReg) (off : COp) (m : MemMod) (s : State) : Out := s.store i d a off m false

/-- STFE (R175). -/
def execStfe (i : Iss) (d a : VReg) (off : COp) (m : MemMod) (s : State) : Out := s.store i d a off m true

/-! ## LDFE (R175) -/

/-- The granule of the allocation that holds a Basin key. -/
def Team.granule (T : Team) (k : Nat) : Nat := (k - basinKey T.core T.basinBase) / 16

/-- LDFE's lanes that find their granule full read it together, and .clear empties it once. Where a STFE has set the bit, the load is a
team-scope acquire for its thread; where an engine write has, it orders nothing else (R309). -/
def State.takeFull (s : State) (T : Team) (g : Nat) (d : VReg) (size : MSize) (clear : Bool)
    (accs : List (Ln × Place)) : State :=
  let m : MemMod := { size, space := .basin, far := false, swz := 0#3 }
  let s1 := accs.foldl (fun s1 (ln, _) => s1.expect T.id ln.g ln.l d.toNat size.regs false) s
  let lanes := accs.map fun (ln, p) => s1.loadLane T true d m ln p
  let f := { flightOf s T g (.load size.signed) size.bytes size.regs lanes with remote := false, confirmed := true }
  let s1 := if lanes.isEmpty then s1 else s1.addFlight f
  let s1 := if clear then
      let keep (T : Team) (x : Nat) : Bool := !(accs.any fun (_, p) => T.granule (p.keys.headD 0) == x)
      s1.modTeam T.id fun T => { T with full := T.full.filter (keep T), engFull := T.engFull.filter (keep T) }
    else s1
  (accs.filter fun (_, p) => !T.engFull.contains (T.granule (p.keys.headD 0))).foldl (fun s1 (ln, _) => s1.modThread T.id ln.g ln.l fun th =>
    th.gate { bound := f.id + 1, lanes := maskOf [ln.l], wide := false }) s1

/-- LDFE (R175): lanes whose granule is empty wait, outside the grouping stage. -/
def execLdfe (i : Iss) (d a : VReg) (off : COp) (m : MemMod) (clear : Bool) (s : State) : Out :=
  let dst := span d m.size.regs
  let addr := baseRegs m.space a ++ off.regs
  let n : Names := { src := addr, dst, flt := dstV d.toNat, width := m.size.regs }
  s.ordered i n addr (fun _ _ => false) (s.at_ m.space m.swz.toNat m.size.bytes needR a off) fun s T accs =>
    if s.behindHeld T.id s.curGroup (accs.map fun (ln, p) => (ln.l, p.keys)) then .next s
    else
    s.withRows T (accs.map (·.1)) dst fun s1 =>
      let g := s.curGroup
      let full := accs.filter fun (_, p) => T.full.contains (T.granule (p.keys.headD 0))
      let empty := accs.filter fun (_, p) => !T.full.contains (T.granule (p.keys.headD 0))
      let s1 := (s1.takeFull T g d m.size clear full).retire (empty.map fun (ln, _) => (ln.g, ln.l))
      .next (empty.foldl (fun s1 (ln, p) => s1.modThread T.id ln.g ln.l fun th =>
        { th with wait := .ldfe d m.size p.ea m.swz clear }) s1)

/-- LDFE_WAKE (R175): a waiting LDFE finds its granule full; the lanes of its group that wait on that granule with the same
LDFE read it in this step. -/
def execLdfeWake (t g l : Nat) (s : State) : Out :=
  match s.team? t, s.group? t g with
  | some T, some G =>
    let th := G.thread l
    match th.wait with
    | .ldfe d size off swz clear =>
      let key (off : Nat) := (T.basinKeys swz.toNat off 1).headD 0
      let gr := T.granule (key off)
      if !T.full.contains gr then .next s
      else
        let with_ := (lanesOf G.live).filterMap fun j =>
          match (G.thread j).wait with
          | .ldfe d' size' off' swz' clear' =>
            if (G.thread j).pc == th.pc && d' == d && size' == size && swz' == swz && clear' == clear &&
                T.granule (key off') == gr then
              some (T.ln g j, ({ ea := off', ia := 0, keys := T.basinKeys swz.toNat off' size.bytes } : Place))
            else none
          | _ => none
        let ls := with_.map fun (ln, _) => ln.l
        if !ls.contains l || s.behindHeld t g (with_.map fun (ln, p) => (ln.l, p.keys)) then .next s
        else
          match s.cowAll t (rowsOf (with_.map (·.1)) (span d size.regs)) with
          | .ok s1 => .next ((s1.takeFull T g d size clear with_).nextLanes t g ls)
          | _ => .next s
    | _ => .next s
  | _, _ => .next s

/-! ## Atomics (R178 to R184) -/

/-- The path behind an aperture address carries the operation (R184). -/
def State.carried (s : State) (ia : Nat) (op : AccOp) (ret : Bool) : Bool :=
  match apertureOf ia with
  | none => true
  | some (k, a, _) =>
    if (s.part k).fld (0x1200 + 16 * a) 1 2 = 2 then
      match op with
      | .atom _ | .cas => true
      | _ => false
    else
      match op with
      | .cas => true
      | .atom .add | .atom .add64 => true
      | .atom .exch | .atom .exch64 => ret
      | _ => false

/-- The place of a lane's atomic (R176): where some lane's path cannot carry it, a missing page of another lane is found
first, then ATOMPATH. -/
def State.atomAt (s : State) (op : AccOp) (ret : Bool) (size : Nat) (a : VReg) (off : COp) (lns : List Ln) (T : Team) (ln : Ln) :
    Nat × Except Code Place :=
  let at_ (ln : Ln) := s.at_ .global 0 size needRW a off T ln
  let bad (ln : Ln) : Bool := match (at_ ln).2 with | .ok p => !s.carried p.ia op ret | .error _ => false
  match at_ ln with
  | (ea, .ok p) =>
    if !lns.any bad then (ea, .ok p)
    else if bad ln then (ea, .error .atompath)
    else if (apertureOf p.ia).isNone && (s.walk p.ia).isNone then (ea, .error .xlate)
    else (ea, .ok p)
  | r => r

/-- An atomic leaves the core: `dst` and its width when it returns a value, `breg` and its width for the operand. -/
def State.atomic (s : State) (i : Iss) (op : AccOp) (dst : Option (VReg × Nat)) (size : Nat) (a : VReg) (off : COp)
    (b : VReg) (nb : Nat) (sg : SGroup) : Out :=
  let ds := match dst with | some (d, n) => span d n | none => []
  let addr := baseRegs .global a ++ off.regs
  let n : Names :=
    { src := addr ++ span b nb, dst := ds, flt := match dst with | some (d, _) => dstV d.toNat | none => allOnes,
      width := (dst.map (·.2)).getD 1 }
  let acts := match s.team? s.cur.team with | some T => s.actors T i | none => []
  s.ordered i n addr (fun _ _ => false) (s.atomAt op dst.isSome size a off acts) fun s T accs =>
    let g := s.curGroup
    match s.closeFull T ((accs.filter fun (_, p) => s.detClass T p.ia == .shared).map (·.1)) with
    | some s => .next s
    | none =>
      (if accs.isEmpty then s.withRows else s.toIssue) T (accs.map (·.1)) ds fun s1 =>
        let s1 : State := match dst with
          | some (d, n) => accs.foldl (fun s1 (ln, _) => s1.expect T.id ln.g ln.l d.toNat n false) s1
          | none => s1
        let lanes := accs.map fun (ln, p) =>
          ({ lane := ln.l, va := BitVec.ofNat 64 p.ea, ia := p.ia, keys := [], data := s.data ln b nb,
             dst := dst.bind fun (d, _) => s1.landing T.id ln.g ln.l d.toNat, val := none, todo := true } : LaneAcc)
        let f := { flightOf s T g op size ((dst.map (·.2)).getD 0) lanes with sg }
        .next (s1.sendWrite T g f)

/-- Registers of a width in bytes. -/
def regsOf (bytes : Nat) : Nat := bytes / 4

/-- Bytes of an ATOM or RED variant (R179). -/
def AtomOpBytes (op : AtomOp) : Nat := if op.wide then 8 else 4

/-- ATOM (R179). -/
def execAtom (i : Iss) (d a : VReg) (off : COp) (b : VReg) (op : AtomOp) (sg : SGroup) (s : State) : Out :=
  let w := AtomOpBytes op
  s.atomic i (.atom op) (some (d, regsOf w)) w a off b (regsOf w) sg

/-- ACAS (R180). -/
def execAcas (i : Iss) (d a : VReg) (off : COp) (b : VReg) (b64 : Bool) (sg : SGroup) (s : State) : Out :=
  let w := if b64 then 8 else 4
  s.atomic i .cas (some (d, regsOf w)) w a off b (2 * regsOf w) sg

/-- AFADD (R181). -/
def execAfadd (i : Iss) (d a : VReg) (off : COp) (b : VReg) (sg : SGroup) (s : State) : Out :=
  s.atomic i .fadd (some (d, 1)) 4 a off b 1 sg

/-- AB2ADD (R182). -/
def execAb2add (i : Iss) (a : VReg) (off : COp) (b : VReg) (sg : SGroup) (s : State) : Out :=
  s.atomic i (.b2add) none 4 a off b 1 sg

/-- AVIMX (R183). -/
def execAvimx (i : Iss) (d a : VReg) (off : COp) (b : VReg) (red : Bool) (sg : SGroup) (s : State) : Out :=
  s.atomic i .vimx (if red then none else some (d, 2)) 8 a off b 2 sg

/-- RED (R179). -/
def execRed (i : Iss) (a : VReg) (off : COp) (b : VReg) (op : AtomOp) (sg : SGroup) (s : State) : Out :=
  let w := AtomOpBytes op
  s.atomic i (if op == .fadd then .fadd else .atom op) none w a off b (regsOf w) sg

/-! ## FENCE (R186) -/

/-- Whether a scope is cluster or wider. -/
def FScopeWide : FScope → Bool
  | .group | .team => false
  | .cluster | .die | .device | .system => true

/-- The kinds that release, and those that acquire. -/
def releases : FKind → Bool
  | .acq => false
  | _ => true
def acquires : FKind → Bool
  | .rel => false
  | _ => true

/-- The waits that a fence sets in a thread, for the accesses of some lanes. -/
def Thread.fence (th : Thread) (bound : Nat) (lanes : BitVec 32) (sc : FScope) (kind : FKind) : Thread :=
  let th := if releases kind then
      { th with rel := some { bound, lanes, sc, full := kind == .full } }
    else th
  if acquires kind then th.gate { bound, lanes, wide := FScopeWide sc } else th

/-- The WCTs that a release at a scope waits for have been reached: stores at every scope, atomics whose scope group is that
scope or wider. Group and team scope wait for none, nor does cluster scope with fused L1s (R186). -/
def State.wctMet (s : State) (T : Team) (g : Nat) (q : RelGate) : Bool :=
  let fused := ((s.launchOf T).map (·.r.fuse)).getD false
  let idx : List Nat := match q.sc with
    | .group | .team => []
    | .cluster => if fused then [] else [0, 2, 3, 4]
    | .die => [0, 2, 3, 4]
    | .device => [0, 3, 4]
    | .system => [0, 4]
  (lanesOf q.lanes).all fun l => idx.all fun j => vget (s.thread T.id g l).wct j 0 ≤ s.gt

/-- What a fence waits for has come. -/
def State.fencePassed (s : State) (T : Team) (g : Nat) (lanes : BitVec 32) (sc : FScope) (kind : FKind) : Bool :=
  let q : RelGate := { bound := s.nextId, lanes, sc, full := false }
  (!releases kind || (s.relMet T.id g q && s.wctMet T g q)) && (!acquires kind || s.acqMet T.id g { bound := s.nextId, lanes, wide := false })

/-- FENCE (R186): the waits stand in the thread; later words are held by them. In a deterministic launch the threads of a fence of cluster
scope or wider wait at it, and then close the round (R344). -/
def execFence (i : Iss) (sc : FScope) (kind : FKind) (s : State) : Out :=
  match s.team? s.cur.team with
  | none => .fault .noIssuer
  | some T =>
    let acts := s.actors T i
    let union (ln : Ln) : BitVec 32 :=
      match i.scope with
      | .lane .. => maskOf [ln.l]
      | _ => maskOf ((acts.filter (·.g == ln.g)).map (·.l))
    if s.isDet T && FScopeWide sc then
      if acts.all fun ln => s.fencePassed T ln.g (union ln) sc kind then
        .next (acts.foldl (fun s1 ln => s1.closeAfter T.id ln.g [ln.l]) (s.retire []))
      else .next s
    else .next ((acts.foldl (fun s1 ln => s1.modThread T.id ln.g ln.l (·.fence s.nextId (union ln) sc kind)) s).retire [])

/-! ## Prefetch and cache control (R187, R188) -/

/-- The line of a lane's address fetched into L1, or into L2 where it is leased; a prefetch that would fail is dropped (R187). -/
def State.prefetch (s : State) (T : Team) (i : Iss) (m : MemMod) (ea : Nat) : State :=
  match s.translate T.part (s.ctxOf T) ea needR with
  | none => s
  | some ia =>
    if (apertureOf ia).isSome || s.windowReset T.part ia then s
    else
      match s.iaKey ia with
      | none => s
      | some k =>
        let die := T.core / Config.coresPerDie
        let s := s.cache ia
        if m.space == .cistern && s.leased T.part ia then s.reach ia k die anyPos
        else if (s.l1Hit (s.l1Holder T ia) (ia / 128) 0).isSome then s
        else (s.l1Fill (s.l1Holder T ia) (ia / 128) (k - ia % 128) (((s.launchOf T).map (·.r.lease)).getD 0) (posOf i m)).reach ia k die (posOf i m)

/-- PREF (R187): no register or memory value changes, and no fault but those of its registers is raised. -/
def execPref (i : Iss) (a : VReg) (off : COp) (m : MemMod) (s : State) : Out :=
  s.ordered i { src := baseRegs m.space a ++ off.regs } (baseRegs m.space a ++ off.regs) (fun _ _ => false)
    (fun T ln => (s.ea T ln m.space a off, .ok (s.ea T ln m.space a off))) fun s T accs =>
      .next ((accs.foldl (fun s (_, ea) => s.prefetch T i m ea) s).retire [])

/-- Loop-buffer epochs of a core advanced (R32, R188). -/
def State.bumpLbinv (s : State) (core : Nat) : State :=
  (List.range Config.subs).foldl (fun s j =>
    let k := core * 4 + j
    { s with lbinv := Sparse.set 0#16 s.lbinv k (Sparse.get 0#16 s.lbinv k + 1#16) }) s

/-- Lines of a core's instruction cache dropped, so that the next fetch of one goes to L2. The words that a loop buffer holds stay for the threads that
run from it, until their next taken branch out of the loop (R189: `State.loopWord`, `State.branched`). -/
def State.dropI (s : State) (core : Nat) (p : Nat → Bool) : State :=
  { s with icache := s.icache.filter fun c => !(c.core == core && p c.line) }

/-- CCTL (R188). -/
def execCctl (i : Iss) (op : CctlOp) (a : VReg) (off : COp) (s : State) : Out :=
  match s.team? s.cur.team with
  | none => .fault .noIssuer
  | some T =>
    let src := match op with
      | .inv => baseRegs .global a ++ off.regs
      | .iinv => a.toNat :: off.regs
      | _ => []
    let line (lns : List Ln) (s : State) : State :=
      match op with
      | .inv => lns.foldl (fun s ln =>
          match s.translate T.part (s.ctxOf T) (s.ea T ln .global a off) { r := false, w := false, x := false } with
          | some ia => s.dropLine T ia
          | none => s) s
      | .invall => s.dropL1 (s.l1Of T T.rank) fun _ => true
      | .iinv => (lns.foldl (fun s ln =>
          let pc := BitVec.ofNat 32 (wrapTo 32 ((s.rd ln a.toNat).val.toNat + s.offset T ln off))
          match s.codeIa T pc with
          | some ia => s.dropI T.core (· == ia / 128)
          | none => s) s).bumpLbinv T.core
      | .iinvall => (s.dropI T.core fun _ => true).bumpLbinv T.core
    match i.scope with
    | .lane .. | .group =>
      let lns := s.actors T i
      let g := s.curGroup
      let nulls := nullLanes lns src
      let bad := lns.filter fun ln => src.any fun r => (s.rd ln r).poison
      if !nulls.isEmpty then .next (s.raising T.id g (s.raise (s.faultOf .unallot nulls {})))
      else if !bad.isEmpty then .next (s.raising T.id g (s.raise (s.faultOf .dataerr bad {})))
      else .next ((if lns.isEmpty then s else line lns s).retire [])
    | _ => s.single { src } fun _ lns => .ok (line (lns.take 1) s)

/-! ## Cistern leases (R190, R191) -/

/-- Lines of the leases of a partition that a slice of the module reserves. -/
def State.leasedAt (s : State) (slice : Nat) : Nat :=
  (s.parts.toList.map fun p => (p.leases.map fun e => (e.lines.filter fun x => s.m.homeSlice (x * 128) == slice).length).sum).sum

/-- The lines of a range are covered by one range register with read and write (R190); their IA lines. -/
def State.leaseLines (s : State) (T : Team) (base len : Nat) : Option (List Nat) :=
  let pt := s.part T.part
  let ctx := s.ctxOf T
  if base + len > 2 ^ 57 then none
  else
    match (List.range 16).find? fun j =>
      let off := rangeOff ctx j
      pt.fld (off + 0x18) 0 1 == 1 && pt.fld (off + 0x18) 1 2 == 3 && pt.fld off 16 41 ≤ base / 2 ^ 16 &&
        (base + len - 1) / 2 ^ 16 ≤ pt.fld (off + 8) 16 41 with
    | none => none
    | some _ =>
      let lines := (List.range (len / 128)).map fun j => s.translate T.part ctx (base + 128 * j) needRW
      if lines.all (·.isSome) then some (lines.filterMap fun o => o.map (· / 128)) else none

/-- Every slice has room for the lines homed there (R190). -/
def State.leaseFits (s : State) (lines : List Nat) : Bool :=
  let homes := (lines.map fun x => s.m.homeSlice (x * 128)).eraseDups
  homes.all fun h => s.leasedAt h + (lines.filter fun x => s.m.homeSlice (x * 128) == h).length ≤ 4096

/-- Generation field of a lease identifier: the bits between the entry number and bit 31. -/
def leaseId (gen entry : Nat) : Word := BitVec.ofNat 32 (2 ^ 31 + gen % 2 ^ 25 * 64 + entry)

/-- LSACQ (R190). Of several free entries it takes the lowest (DESIGN CHOICE, log entry 38). -/
def execLsacq (_i : Iss) (p : PReg) (d a b : VReg) (c : COp) (s : State) : Out :=
  match s.team? s.cur.team with
  | none => .fault .noIssuer
  | some T =>
    let lns := s.members T
    let n : Names := { src := [a.toNat, a.toNat + 1, b.toNat] ++ c.regs, dst := [d.toNat], flt := dstV d.toNat }
    let g := s.curGroup
    let lead := lns.take 1
    let nulls := nullLanes lead n.src ++ nullLanes lns n.dst
    if !nulls.isEmpty then .next (s.raising T.id g (s.raise (s.faultOf .unallot nulls n)))
    else if lead.any fun ln => n.src.any fun r => (s.rd ln r).poison then
      .next (s.raising T.id g (s.raise (s.faultOf .dataerr lead n)))
    else
      let base := match lead.head? with | some ln => s.rdPair ln a.toNat | none => 0
      let len := (s.scalar T .zero (.v b)).toNat
      let dur := (s.scalar T .zero c).toNat
      let done (s : State) (id : Word) (ok : Bool) : Out :=
        s.withRows T lns [d.toNat] fun s1 =>
          .next ((lns.foldl (fun s1 ln =>
            (s1.wr T.id ln.g ln.l d.toNat id false).modThread T.id ln.g ln.l (·.setQ p ok)) s1).retire [])
      if base % 128 != 0 || len == 0 || len % 128 != 0 || dur == 0 then done s 0#32 false
      else
        match s.leaseLines T base len with
        | none => .next (s.raising T.id g (s.raise { s.faultOf .perm lead n with va := BitVec.ofNat 64 base }))
        | some lines =>
          let pt := s.part T.part
          match (List.range 64).find? fun e => !(pt.leases.any (·.entry == e)) with
          | none => done s 0#32 false
          | some e =>
            if s.leaseFits lines then
              let gen := Sparse.get 0 pt.leaseGen e
              match s.cowAll T.id (rowsOf lns [d.toNat]) with
              | .ok _ =>
                done (s.modPart T.part fun pt =>
                  { pt with leases := pt.leases ++ [{ entry := e, gen, lines, ends := s.gt + dur }],
                            leaseGen := Sparse.set 0 pt.leaseGen e (gen + 1) }) (leaseId gen e) true
              | _ => done s 0#32 false
            else done s 0#32 false

/-- LSREL (R191): the named lease ends; an id that names no live lease has no effect. -/
def execLsrel (_i : Iss) (a : VReg) (s : State) : Out :=
  s.single { src := [a.toNat] } fun T _ =>
    let id := s.scalar T .zero (.v a)
    .ok (s.modPart T.part fun pt => { pt with leases := pt.leases.filter fun e => leaseId e.gen e.entry != id })

/-- LEASE_EXPIRY (R191): a lease reaches its end tick and its lines become ordinary. -/
def execLeaseExpiry (p e : Nat) (s : State) : Out :=
  .next (s.modPart p fun pt => { pt with leases := pt.leases.filter fun x => !(x.entry == e && x.ends ≤ s.gt) })

end Sys2Proof.Machine
end

