-- ==== Sys2Proof/Machine/Home.lean ====
section
/-! DEFINITION. Loads, stores and atomics of the lanes at their home (R171 to R185, R284, R300, R316, R345): what a thread's own
accesses not yet performed show, L1 hits, and the locks of R178. -/

namespace Sys2Proof.Machine

open Sys2Proof

/-! ## Atomics (R179 to R183): their values -/

/-- The new value of ATOM and RED (R179). -/
def atomNew (op : AtomOp) (old b : Nat) : Nat :=
  let w (n : Nat) : Word := BitVec.ofNat 32 n
  match op with
  | .add => (old + b) % 2 ^ 32
  | .and | .and64 => old &&& b
  | .or | .or64 => old ||| b
  | .xor => old ^^^ b
  | .minu => min old b
  | .mins => if (w old).toInt ≤ (w b).toInt then old else b
  | .maxu => max old b
  | .maxs => if (w old).toInt ≤ (w b).toInt then b else old
  | .exch | .exch64 => b
  | .inc => if b ≤ old then 0 else old + 1
  | .dec => if old = 0 ∨ b < old then b else old - 1
  | .add64 => (old + b) % 2 ^ 64
  | .fadd => old

/-- Round(x + y) in a format, RNE, subnormals kept, no flags (R181, R182). -/
def sumIn (f : Fmt) (x y : Nat) : Nat := (f.round rne false false (Val.add rne (f.value x) (f.value y)).1).1

/-- The packed word of AVIMX (R183). -/
def vimxPack (v : Word) (i : Word) : Nat :=
  let nan := v.toNat % 2 ^ 31 > 0x7F800000
  let bits : Word := if nan then 0xFF800000#32 else v
  let key : Word := if bits.getLsbD 31 then ~~~bits else bits ||| 0x80000000#32
  key.toNat * 2 ^ 32 + (2 ^ 32 - 1 - i.toNat)

/-- What an atomic stores, from the old value and its operand; AB2ADD as its two halves leave the word. -/
def AccOp.newValue (op : AccOp) (size old : Nat) (data : BitVec 512) : Nat :=
  let d := data.toNat
  match op with
  | .atom o => atomNew o old (d % 2 ^ (8 * size))
  | .cas => if old = d % 2 ^ (8 * size) then d / 2 ^ (8 * size) % 2 ^ (8 * size) else old
  | .fadd => sumIn fp32 old (d % 2 ^ 32)
  | .b2add => sumIn bf16 (old % 2 ^ 16) (d % 2 ^ 16) + 2 ^ 16 * sumIn bf16 (old / 2 ^ 16) (d / 2 ^ 16 % 2 ^ 16)
  | .vimx => max old (vimxPack (BitVec.ofNat 32 d) (BitVec.ofNat 32 (d / 2 ^ 32)))
  | _ => old

/-! ## The order of a thread's own accesses (R174) -/

/-- Two byte ranges overlap. -/
def overlaps (a n b m : Nat) : Bool := a < b + m && b < a + n

/-- An earlier access of the same thread to overlapping bytes that is not performed yet. -/
def State.earlier (s : State) (f : Flight) (a : LaneAcc) (p : Flight → Bool) : Bool :=
  s.flights.any fun x => x.team == f.team && x.group == f.group && x.id < f.id && x.remote == f.remote && p x &&
    x.lanes.any fun b => b.lane == a.lane && b.todo &&
      (if f.remote then overlaps a.ia f.size b.ia x.size else a.keys.any b.keys.contains)

/-- The byte at an IA that an instruction of the thread has stored, where it has not been performed yet: the highest lane wins (R172). Of a
staged store it is the thread's own (R345). -/
def Flight.storedByte (x : Flight) (lane ia : Nat) : Option Byte :=
  let covers (c : LaneAcc) : Bool := c.todo && c.ia ≤ ia && ia < c.ia + x.size && (!x.staged || c.lane == lane)
  if x.lanes.any fun c => c.lane == lane && covers c then
    (x.lanes.filter covers).getLast?.map fun c => BitVec.ofNat 8 (c.data.toNat / 2 ^ (8 * (ia - c.ia)))
  else none

/-- A list of bytes as a number, and the bytes of a number. -/
def valueOf (bytes : List Byte) : Nat := bytes.foldr (fun b x => b.toNat + 256 * x) 0
def listOf (n v : Nat) : List Byte := (List.range n).map fun j => BitVec.ofNat 8 (v / 2 ^ (8 * j))

/-- The bytes from an IA on after what an instruction of the thread does to them that is not performed yet: a store or an atomic. -/
def Flight.shows (x : Flight) (lane lo : Nat) (w : List Byte) : List Byte :=
  match x.op with
  | .load _ => w
  | .store _ => w.zipIdx.map fun (b, j) => (x.storedByte lane (lo + j)).getD b
  | op =>
    (x.lanes.filter fun c => c.lane == lane && c.todo && decide (lo ≤ c.ia ∧ c.ia + x.size ≤ lo + w.length)).foldl
      (fun w c =>
        let old := valueOf ((w.drop (c.ia - lo)).take x.size)
        w.take (c.ia - lo) ++ listOf x.size (op.newValue x.size old c.data) ++ w.drop (c.ia - lo + x.size)) w

/-- The bytes of a load within those from `lo` on that its home or a copy holds, overlaid with the thread's own accesses that the load does
not wait for: those staged in a deterministic round, and those that its run-ahead will withdraw (R345, R362, R363). -/
def State.overlay (s : State) (f : Flight) (a : LaneAcc) (lo : Nat) (w : List Byte) : Nat :=
  let own := s.flights.filter fun x => x.team == f.team && x.group == f.group && x.id < f.id && x.remote && (x.staged || s.ahead x)
  valueOf (((own.foldl (fun w x => x.shows a.lane lo w) w).drop (a.ia - lo)).take f.size)

/-- The physical key of a lane's access: by the page table now, else as it was confirmed. -/
def State.accKey (s : State) (a : LaneAcc) : Nat := (s.iaKey a.ia).getD (a.keys.headD 0)

/-- A global load performed for a lane (R171, R284, R345): its value, its poison. A line in a live Cistern lease is read at its home, and
an older copy in L1 goes, since the thread may not see it afterwards (R300; DEDUCED, log entry 9). -/
def State.loadAt (s : State) (T : Team) (f : Flight) (a : LaneAcc) (since : Nat) : Nat × Bool × State :=
  let k := s.accKey a
  if s.windowReset T.part a.ia then (0, true, s)
  else
    let die := T.core / Config.coresPerDie
    let line := a.ia / 128
    let holder := s.l1Holder T a.ia
    -- the aligned bytes around those of the load, in which each of the thread's own accesses lies whole
    let lo := a.ia - a.ia % 16
    let m := (a.ia % 16 + f.size + 15) / 16 * 16
    let from_ (byte : Nat → Byte) : Nat := s.overlay f a lo ((List.range m).map byte)
    let home (j : Nat) : Byte := s.byte (k - a.ia % 16 + j)
    let poison := s.poisonedIn k f.size || s.cxlDown k
    let len := ((s.launchOf T).map (·.r.lease)).getD 0
    let miss : State := (s.l1Fill holder line (k - a.ia % 128) len f.pos).reach a.ia k die f.pos
    let leased := f.cistern && s.leased T.part a.ia
    -- a leased line is read at its home and gets no place in L1; the hint says nothing of it (R171, R173)
    let bypass : State := (s.dropLine T a.ia).reach a.ia k die anyPos
    match s.detOf T, s.detClass T a.ia with
    | some d, .shared =>
      (from_ fun j => Sparse.get unwritten d.opening (k - a.ia % 16 + j), poison,
        if leased then bypass else if (s.l1Hit holder line since).isSome then s.l1Touch holder line else miss)
    | _, _ =>
      if leased then (from_ home, poison, bypass)
      else
        match s.l1Hit holder line since with
        | some c => (from_ fun j => (c.data >>> (8 * (lo % 128 + j))).setWidth 8, c.poison, s.l1Touch holder line)
        | none => (from_ home, poison, miss)

/-- The WCT of a thread's write noted for its fences, and for the end of its launch (R186, R325). -/
def State.noteWct (s : State) (T : Team) (g l cls wct : Nat) : State :=
  let s := s.modThread T.id g l fun th =>
    if th.live then { th with wct := vset th.wct cls (max wct (vget th.wct cls 0)) } else th
  s.modLaunch T.part T.lnum fun L => { L with wct := max wct L.wct }

/-- Index of an atomic's scope group among the WCTs of a thread. -/
def sgIndex : SGroup → Nat
  | .team => 1 | .die => 2 | .device => 3 | .system => 4

/-- A global store of a lane performed at its home (R172, R177, R284): bytes that a higher lane of the instruction will still
write are left to it. -/
def State.storeAt (s : State) (T : Team) (f : Flight) (a : LaneAcc) : State :=
  if s.windowReset T.part a.ia then s.modPart T.part (·.bump 0x1310)
  else
    let k := s.accKey a
    let later := f.lanes.filter fun b => b.todo && b.lane > a.lane
    let bytes := (numbered f.size a.data.toNat).filter fun (j, _) =>
      !(later.any fun b => b.ia ≤ a.ia + j && a.ia + j < b.ia + f.size)
    let s := s.writeKey T.part k bytes
    let line := k - a.ia % 128
    let s := if s.cxlDown k then s.l1Update (s.l1Holder T a.ia) (a.ia / 128) (a.ia % 128) bytes
      else s.l1Update (s.l1Holder T a.ia) (a.ia / 128) 0 (s.wholePieces line (a.ia % 128) bytes)
    let (w, s) := s.stamp a.ia k (T.core / Config.coresPerDie) (if f.cistern && s.leased T.part a.ia then anyPos else f.pos)
    s.noteWct T f.group a.lane 0 w

/-! ## Atomics at their home -/

/-- An atomic of a lane performed at its home (R178, R185, R305). Answers the old value and whether the line is poisoned or
lost; then nothing is performed. One of which a part has been performed settles whole, whatever is in reset since (R398). -/
def State.atomicAt (s : State) (T : Team) (f : Flight) (a : LaneAcc) (ia size : Nat) (new : Nat → Nat) :
    Nat × Bool × State :=
  if s.windowReset T.part ia && !a.half then (0, true, if a.dst.isSome then s else s.modPart T.part (·.bump 0x1310))
  else
    let k := s.accKey a + (ia - a.ia)
    let (old, poison) := s.readKey k size
    let (w, s) := (s.dropLine T ia).stamp ia k (T.core / Config.coresPerDie) anyPos
    if poison then (old, true, s)
    else
      let s := s.writeKey T.part k (numbered size (new old))
      (old, false, s.noteWct T f.group a.lane (sgIndex f.sg) w)

end Sys2Proof.Machine
end

