-- ==== Sys2Proof/Machine/Snapshot.lean ====
section
/-! DEFINITION. Snapshots and allotment (R192 to R208), and what ends a wait for Kiln rows (R18, R207). -/

namespace Sys2Proof.Machine

open Sys2Proof

/-! ## Reading and writing images and objects in memory

These instructions translate and walk every address before anything else. What they read they read as loads of their thread, all of it in
the step that issues them once nothing of it is awaited any more (DESIGN CHOICE, log entry 16). -/

/-- The key of the byte at a virtual address for a team's access, or PERM, RACE or XLATE. An address of the external
aperture has no key: it answers `none`; a window in reset settles its accesses in error whatever its page table holds (R398). -/
def State.vaKey (s : State) (T : Team) (va : Nat) (need : Need) : Except Code (Option (Nat × Nat)) :=
  match s.translate T.part (s.ctxOf T) va need with
  | none => .error .perm
  | some ia =>
    if s.detClass T ia == .race then .error .raceSys
    else if (apertureOf ia).isSome then .ok none
    else
      match s.iaKey ia with
      | none => if s.windowReset T.part ia then .ok (some (ia, 0)) else .error .xlate
      | some k => .ok (some (ia, k))

/-- The first fault of R176 among the answers of several accesses, or what they found. -/
def firstFault {α : Type} (rs : List (Except Code α)) : Except Code (List α) :=
  match firstOf (rs.filterMap fun r => match r with | .error c => some c | .ok _ => none) with
  | some c => .error c
  | none => .ok (rs.filterMap fun r => match r with | .ok x => some x | .error _ => none)

/-- A load of `n` bytes of a lane as an access (R205). -/
def loadOf (s : State) (T : Team) (g l ia k n : Nat) : Flight × LaneAcc :=
  let a : LaneAcc := { lane := l, va := 0#64, ia, keys := [k], data := 0#512, dst := none, val := none, todo := true }
  (flightOf s T g (.load false) n 0 [a], a)

/-- What a thread's read of 16 bytes through the external aperture has brought, where it has come (R391). -/
def State.brought (s : State) (t g l : Nat) (pc : Word) (ia : Nat) : Option (BitVec 128 × Bool) :=
  (s.flights.find? fun f => f.object && f.team == t && f.group == g && f.pc == pc && f.lanes.any fun a => a.lane == l && a.ia == ia).bind
    fun f => f.lanes.head?.bind (·.val)

/-- The IAs of the 16-byte pieces of a chunk. -/
def piecesOf (ia n : Nat) : List Nat := (List.range ((n + 15) / 16)).map fun j => ia + 16 * j

/-- A chunk of at most 32 bytes inside one 128-byte line as a thread's load reads it, its own stores not yet performed seen; at the home
where `home`. Answers the value and whether it is poisoned. What has not come through the aperture counts as poisoned. -/
def State.readChunk (s : State) (home : Bool) (T : Team) (g l va n : Nat) : Except Code (Nat × Bool) :=
  (s.vaKey T va needR).map fun r =>
    match r with
    | none =>
      match s.translate T.part (s.ctxOf T) va needR with
      | none => (0, true)
      | some ia =>
        let ps := (piecesOf ia n).map fun x => (s.brought T.id g l s.cur.pc x).getD (0#128, true)
        (ps.foldr (fun (v, _) x => v.toNat + 2 ^ 128 * x) 0 % 2 ^ (8 * n), ps.any (·.2))
    | some (ia, k) =>
      if s.windowReset T.part ia then (0, true)
      else
        let (f, a) := loadOf s T g l ia k n
        if home then let (v, p) := s.readKey k n; (s.overlay f a ia (listOf n v), p)
        else let (v, p, _) := s.loadAt T f a (max T.since (((T.group? g).map (·.since l)).getD 0)); (v, p)

/-- Chunks of 32 bytes from a virtual address. -/
def State.readChunks (s : State) (home : Bool) (T : Team) (g l va n : Nat) : Except Code (List (Nat × Bool)) :=
  firstFault ((List.range n).map fun j => s.readChunk home T g l (va + 32 * j) 32)

/-- What a thread's load of a chunk still waits for: pieces that have not come through the aperture, and earlier accesses of the thread to the
same bytes (R174, see `State.loadReady`). -/
structure Wants where
  pieces : List Nat
  own : Bool
  deriving DecidableEq, Repr

def State.wants (s : State) (T : Team) (g l va n : Nat) : Wants :=
  match s.vaKey T va needR with
  | .ok none =>
    match s.translate T.part (s.ctxOf T) va needR with
    | some ia => { pieces := (piecesOf ia n).filter fun x => (s.brought T.id g l s.cur.pc x).isNone, own := false }
    | none => { pieces := [], own := false }
  | .ok (some (ia, k)) =>
    let (f, a) := loadOf s T g l ia k n
    { pieces := [], own := s.earlier f a fun x => !x.staged && !(x.op.writes && s.ahead x) }
  | .error _ => { pieces := [], own := false }

/-- A thread's load of a chunk has been performed (R171, R205): the copy in L1, and the time at which the value was observed. -/
def State.touch (s : State) (T : Team) (g l va n : Nat) : State :=
  match s.vaKey T va needR with
  | .ok (some (ia, k)) =>
    if s.windowReset T.part ia then s
    else
      let (f, a) := loadOf s T g l ia k n
      let (_, _, s) := s.loadAt T f a (max T.since (s.thread T.id g l).acqTime)
      (s.cache ia).modThread T.id g l fun th => if th.live then { th with lastLoad := max th.lastLoad s.gt } else th
  | _ => s

/-- The 32-byte chunks of a list of addresses and lengths. -/
def chunksOf (reads : List (Nat × Nat)) : List (Nat × Nat) :=
  (reads.map fun (va, n) => (List.range ((n + 31) / 32)).map fun j => (va + 32 * j, min 32 (n - 32 * j))).flatten

/-- Pieces asked for through the aperture, for lanes that wait at the word until they have come (R391). -/
def State.ask (s : State) (T : Team) (lns : List Ln) (ps : List (Ln × List Nat)) : State :=
  let s := ps.foldl (fun s (ln, ias) => ias.foldl (fun s ia =>
    if s.flights.any fun f => f.object && f.team == T.id && f.group == ln.g && f.pc == s.cur.pc && f.lanes.any fun a => a.lane == ln.l && a.ia == ia
    then s
    else
      let (f, _) := loadOf s T ln.g ln.l ia 0 16
      s.addFlight { f with confirmed := true, object := true }) s) s
  lns.foldl (fun s ln => s.modThread ln.t ln.g ln.l fun th => { th with wait := .object }) s

/-- The state that the reads of some lanes leave. -/
def State.afterReads (s : State) (T : Team) (lns : List Ln) (reads : Ln → List (Nat × Nat)) : State :=
  lns.foldl (fun s ln => match chunksOf (reads ln) with
    | [] => s
    | cs => cs.foldl (fun s (va, n) => s.touch T ln.g ln.l va n) (s.passAcq T.id ln.g [ln.l])) s

/-- An instruction whose lanes read objects as their loads (R205, R210, R229, R272): it goes on once every read has returned, `k` on the
state that the reads have left. -/
def State.withReads (s : State) (T : Team) (lns : List Ln) (reads : Ln → List (Nat × Nat)) (k : State → Out) : Out :=
  let all := lns.map fun ln => (ln, chunksOf (reads ln))
  let ps := all.map fun (ln, cs) => (ln, (cs.map fun (va, n) => (s.wants T ln.g ln.l va n).pieces).flatten)
  if ps.any fun (_, l) => !l.isEmpty then .next (s.ask T lns ps)
  else if all.any fun (ln, cs) => cs.any fun (va, n) => (s.wants T ln.g ln.l va n).own then .next s
  else k (s.afterReads T lns reads)

/-- Chunks joined into one number, and whether any is poisoned. -/
def joinChunks (cs : List (Nat × Bool)) : Nat × Bool :=
  (cs.foldr (fun (v, _) x => v + 2 ^ 256 * x) 0, cs.any (·.2))

/-- `n` × 32 bytes from a virtual address. -/
def State.readVa (s : State) (home : Bool) (T : Team) (g l va n : Nat) : Except Code (Nat × Bool) :=
  (s.readChunks home T g l va n).map joinChunks

/-- The faults that writing `n` × 32 bytes from a virtual address meets. -/
def State.writable (s : State) (T : Team) (va n : Nat) : Except Code Unit :=
  (firstFault ((List.range n).map fun j => s.vaKey T (va + 32 * j) needW)).map fun _ => ()

/-- Stores of 16-byte pieces of one lane leave the core, their addresses translated: no access covers more (R391). -/
def State.storeChunks (s : State) (T : Team) (g l va : Nat) : List Nat → State
  | [] => s
  | v :: vs =>
    match s.translate T.part (s.ctxOf T) va needW with
    | none => s
    | some ia =>
      let a : LaneAcc := { lane := l, va := BitVec.ofNat 64 va, ia, keys := (s.iaKey ia).toList,
                           data := BitVec.ofNat 512 v, dst := none, val := none, todo := true }
      let staged := s.detClass T ia == .shared
      -- in a deterministic launch sixteen in a round, and the others in the rounds after it (R344)
      let f := { flightOf s T g (.store false) 16 0 [a] with
        confirmed := true, staged, later := if staged then (s.thread T.id g l).staged / stageMax else 0 }
      let s := s.addFlight f
      State.storeChunks (if staged then s.countStaged T.id g [l] else s) T g l (va + 16) vs

/-! ## Lane by lane, in ascending order (R194) -/

/-- What one lane of a handle instruction comes to. -/
inductive Did where
  | ok (s : State)
  /-- Rows of the budget are wanting: the whole instruction stalls (R18). -/
  | rows
  /-- A row to be copied has a pending register, or an image cannot be written yet: the instruction waits. -/
  | later
  deriving DecidableEq, Repr

/-- The lanes taken one after the other on the state that the lanes before have left. -/
def State.inTurn (s : State) (f : State → Ln → Did) : List Ln → Did
  | [] => .ok s
  | ln :: rest =>
    match f s ln with
    | .ok s' => State.inTurn s' f rest
    | other => other

/-- A handle instruction: the faults of R193 first, with no state changed, HANDLE after those of R176 (DESIGN CHOICE, log entry 59); then
the lanes in turn. The lanes of `stays` do not go on to the following word. -/
def State.handleOp (s : State) (i : Iss) (n : Names) (bad : Team → Ln → Option Code) (f : State → Ln → Did)
    (stays : Bool) : Out :=
  match s.team? s.cur.team with
  | none => .fault .noIssuer
  | some T =>
    let lns := s.actors T i
    let g := s.curGroup
    let fail (code : Code) (ls : List Ln) : Out :=
      .next (s.raising T.id g (s.raise { s.faultOf code ls n with va := s.eaOf T ls n.at_ }))
    let nulls := lns.filter fun ln => ((n.src ++ n.dst ++ n.also).any fun r => (ln.key? r).isNone) || bad T ln == some .unallot
    let poisoned := lns.filter fun ln => n.src.any fun r => (s.rd ln r).poison
    let codes := lns.filterMap (bad T)
    match firstOf codes, codes.contains .handle with
    | some .illop, _ => fail .illop (lns.filter fun ln => bad T ln == some .illop)
    | _, hd =>
      if !nulls.isEmpty then fail .unallot nulls
      else if !poisoned.isEmpty then fail .dataerr poisoned
      else if hd then fail .handle (lns.filter fun ln => bad T ln == some .handle)
      else
        match s.inTurn f lns with
        | .rows => .next (s.raising T.id g s.stall)
        | .later => .next s
        | .ok s1 => .next (s1.retire (if stays then lns.map fun ln => (ln.g, ln.l) else []))

/-- The lane as the state now has it. -/
def State.fresh_ (s : State) (ln : Ln) : Ln := { ln with th := s.thread ln.t ln.g ln.l }

/-- A v register written after copy-on-write, in turn. -/
def State.writeReg (s : State) (ln : Ln) (n : Nat) (v : Word) (taint : Bool) : Did :=
  match s.cow ln.t ln.g ln.l (n / 8) with
  | .ok s => .ok (s.wr ln.t ln.g ln.l n v taint)
  | .noRow => .rows
  | .pending => .later

def Did.bind (x : Did) (f : State → Did) : Did :=
  match x with
  | .ok s => f s
  | other => other

/-- A handle register written, the reference of its old value removed (R24, R197). -/
def State.setHandle (s : State) (ln : Ln) (d : HReg) (h : Word) : State :=
  let old := vget (s.fresh_ ln).th.h d.toNat 0#32
  let s := s.modThread ln.t ln.g ln.l fun th => { th with h := vset th.h d.toNat h }
  s.dropHandles ln.core [old]

/-- A predicate of a lane written. -/
def State.setPred (s : State) (ln : Ln) (p : PReg) (b : Bool) : State := s.modThread ln.t ln.g ln.l (·.setQ p b)

/-- The handle register of a lane as it is now. -/
def Ln.handle (ln : Ln) (a : HReg) : Word := vget ln.th.h a.toNat 0#32

/-- HANDLE of R23, with the lane test of R196 where it applies. -/
def State.badHandle (s : State) (a : HReg) (ownLane : Bool) (_T : Team) (ln : Ln) : Option Code :=
  match s.entryOf ln (ln.handle a) with
  | none => some .handle
  | some (_, e) => if ownLane && e.lane != ln.l then some .handle else none

/-- Some mapped row of a list of row pointers is at 255 holders (R19). -/
def State.rowFull (s : State) (core sub lane : Nat) (rows : List (Option Nat)) : Bool :=
  rows.any fun o => match o with
    | some i => (s.row (rowKey core sub lane i)).count ≥ 255
    | none => false

/-! ## SNAP (R197) -/

/-- One lane of SNAP. -/
def snapLane (p : PReg) (d : HReg) (e : VReg) (s : State) (ln0 : Ln) : Did :=
  let ln := s.fresh_ ln0
  let th := ln.th
  let failed : Did := .ok ((s.setHandle ln d 0#32).setPred ln p false)
  if th.depth = 7 ∨ s.rowFull ln.core ln.sub ln.l th.rows.toList then failed
  else
    match s.freeSlot? ln.core ln.sub with
    | none => failed
    | some slot =>
      let k := entryKey ln.core ln.sub slot
      let cap := { th.capture with pc := th.pc + 8#32, depth := th.depth + 1 }
      let s := (cap.keys ln.core ln.sub ln.l).foldl State.incRow s
      let s := cap.handles.foldl (fun s h => s.addRef ln.core h) s
      let s := s.setEntry k { cap, resume := e, owner := ln.t, refs := 1, lane := ln.l, spill := 0#64 }
      let h := s.handle k
      let s := s.setHandle ln d h
      let s := s.modThread ln.t ln.g ln.l fun th => { th with parent := h, depth := th.depth + 1 }
      (s.writeReg ln e.toNat 0#32 false).bind fun s => .ok (s.setPred ln p true)

/-- SNAP (R197). Its %fltdst is its status predicate (DEDUCED, log entry 17). -/
def execSnap (i : Iss) (p : PReg) (d : HReg) (e : VReg) (s : State) : Out :=
  s.handleOp i { also := [e.toNat], flt := dstQ p } (fun _ _ => none) (snapLane p d e) false

/-! ## RSTR and SPRT (R198, R199) -/

/-- The captured items of an entry taken by a thread: rows held, references added, H[A] naming the entry (R198). -/
def State.adopt (s : State) (T : Team) (sub lane : Nat) (e : Entry) (a : HReg) (h : Word) (th : Thread) :
    Except Want (State × Thread) :=
  match s.holdRows T sub lane e.cap.rows.toList with
  | .error w => .error w
  | .ok (s, ps) =>
    let others := (e.cap.h.toList.zipIdx.filter fun (x, j) => x != 0#32 && j != a.toNat).map (·.1)
    let s := others.foldl (fun s x => s.addRef T.core x) s
    let c := { e.cap with rows := Vector.ofFn fun j => ps.getD j.val none, h := vset e.cap.h a.toNat h, parent := h }
    .ok (s, { th.restore c with clkLatch := none, gtLatch := none, arr := .no, wait := .none, waited := 0, skipped := 0, acqTime := 0,
                                acq := none, rel := none })

/-- What a lane does that wants for a row, or for the landing of a pending register (R18). -/
def Want.did : Want → Did
  | .landing => .later
  | _ => .rows

/-- One lane of RSTR. -/
def rstrLane (a : HReg) (x : Ln → Word × Bool) (s : State) (ln0 : Ln) : Did :=
  let ln := s.fresh_ ln0
  match s.entryOf ln (ln.handle a), s.team? ln.t with
  | some (_, e), some T =>
    let h := ln.handle a
    match s.adopt T ln.sub ln.l e a h ln.th with
    | .error w => w.did
    | .ok (s, th) =>
      -- the references of the thread's old holdings go after those of the new ones have been added
      let olds := (ln.th.h.toList.zipIdx.filter fun (_, j) => j != a.toNat).map (·.1)
      let s := (ln.th.capture.keys ln.core ln.sub ln.l).foldl State.decRow s
      let s := s.modThread ln.t ln.g ln.l fun _ => th
      let s := s.dropHandles ln.core olds
      let (v, t) := x ln0
      s.writeReg ln e.resume.toNat v t
  | _, _ => .ok s

/-- The resume register of the entry lies in a null row (R14). -/
def State.badResume (s : State) (a : HReg) (ln : Ln) : Bool :=
  match s.entryOf ln (ln.handle a) with
  | some (_, e) => (vget e.cap.rows (e.resume.toNat / 8) none).isNone
  | none => false

/-- What a lane of RSTR or SPRT meets (R193): a special register that is none, a handle that is none, a resume register that has no row. -/
def State.badRestore (s : State) (a : HReg) (c : COp) (T : Team) (ln : Ln) : Option Code :=
  if (s.cval T ln .sign c).isNone then some .illop
  else (s.badHandle a true T ln).or (if s.badResume a ln then some .unallot else none)

/-- RSTR (R198). The threads go on at the captured PC; the new MR takes part in R124 at once. -/
def execRstr (i : Iss) (a : HReg) (c : COp) (s : State) : Out :=
  match s.team? s.cur.team with
  | none => .fault .noIssuer
  | some T =>
    let x (ln : Ln) : Word × Bool := ((s.cval T ln .sign c).getD 0#32, s.tainted ln { src := c.regs })
    match s.handleOp i { src := c.regs } (s.badRestore a c) (rstrLane a x) true with
    | .next s1 => .next ((s1.settle T.id s.curGroup).modTeam T.id Team.refresh)
    | o => o

/-- The slot of a sibling: the lowest group of the team on the sub-core whose lane is free (R199). -/
def Team.siblingSlot (T : Team) (sub lane : Nat) : Option Nat :=
  (T.numbered.find? fun (_, G) => G.sub == sub && !(G.thread lane).live).map (·.1)

/-- One lane of SPRT. The sibling counts from the next cycle (R372). -/
def sprtLane (p : PReg) (d : VReg) (a : HReg) (x : Ln → Word × Bool) (s : State) (ln0 : Ln) : Did :=
  let ln := s.fresh_ ln0
  match s.entryOf ln (ln.handle a), s.team? ln.t with
  | some (_, e), some T =>
    let failed : Did := (s.writeReg ln d.toNat allOnes false).bind fun s => .ok (s.setPred ln p false)
    match T.siblingSlot ln.sub ln.l with
    | none => failed
    | some g =>
      if s.rowFull ln.core ln.sub ln.l e.cap.rows.toList then failed
      else
        let h := ln.handle a
        match s.adopt T ln.sub ln.l e a h threadIdle with
        | .error w => w.did
        | .ok (s, th) =>
          let s := (s.addRef ln.core h).modThread ln.t g ln.l fun _ => { th with live := true, born := true }
          let (v, t) := x ln0
          let sib : Ln := { ln with g }
          (s.writeReg sib e.resume.toNat v t).bind fun s =>
            (s.writeReg ln d.toNat (BitVec.ofNat 32 (g * 32 + ln.l)) false).bind fun s =>
              .ok (s.setPred ln p true)
  | _, _ => .ok s

/-- SPRT (R199). -/
def execSprt (i : Iss) (p : PReg) (d : VReg) (a : HReg) (c : COp) (s : State) : Out :=
  match s.team? s.cur.team with
  | none => .fault .noIssuer
  | some T =>
    let x (ln : Ln) : Word × Bool := ((s.cval T ln .sign c).getD 0#32, s.tainted ln { src := c.regs })
    match s.handleOp i (.toV c.regs d) (s.badRestore a c) (sprtLane p d a x) false with
    | .next s1 => .next (s1.modTeam T.id Team.refresh)
    | o => o

/-! ## DROP, HDUP, HINF (R200 to R202) -/

/-- DROP (R200). -/
def execDrop (i : Iss) (d : HReg) (s : State) : Out :=
  s.handleOp i {} (fun T ln => if ln.handle d = 0#32 then none else s.badHandle d false T ln)
    (fun s ln => .ok (s.setHandle (s.fresh_ ln) d 0#32)) false

/-- HDUP (R201). -/
def execHdup (i : Iss) (d a : HReg) (s : State) : Out :=
  s.handleOp i {} (s.badHandle a false) (fun s ln =>
    let h := (s.fresh_ ln).handle a
    .ok ((s.addRef ln.core h).setHandle ln d h)) false

/-- The item that HINF reads (R202). -/
def State.entryItem (s : State) (ln : Ln) (e : Entry) : HinfSel → Word
  | .depth => BitVec.ofNat 32 e.cap.depth
  | .rows => BitVec.ofNat 32 (e.cap.rows.toList.countP (·.isSome))
  | .shared => BitVec.ofNat 32 ((e.cap.keys ln.core ln.sub e.lane).countP fun k => (s.row k).count ≥ 2)
  | .refs => BitVec.ofNat 32 e.refs
  | .pc => e.cap.pc
  | .lane => BitVec.ofNat 32 (e.lane + 256 * e.resume.toNat)

/-- HINF (R202). -/
def execHinf (i : Iss) (d : VReg) (a : HReg) (sel : HinfSel) (s : State) : Out :=
  s.handleOp i (.toV [] d) (s.badHandle a false) (fun s1 ln =>
    match s.entryOf ln (ln.handle a) with
    | some (_, e) => s1.writeReg ln d.toNat (s.entryItem ln e sel) false
    | none => .ok s1) false

/-! ## HSPL and HLDM (R203 to R205) -/

/-- The row numbers of a list of row pointers that are mapped. -/
def mappedRows (rows : Vector (Option Nat) 32) : List Nat := (List.range 32).filter fun j => (vget rows j none).isSome

/-- Bits set at a list of positions. -/
def bitsAt (js : List Nat) : Nat := (js.map fun j => 2 ^ j).sum

/-- A number from 32-bit words, the first lowest. -/
def fromWords (ws : List Nat) : Nat := ws.foldr (fun w x => w % 2 ^ 32 + 2 ^ 32 * x) 0

/-- The Spillway header of an entry (R203), its row images in `inimg`, its parent image at `parimg`. -/
def spillHeader (e : Entry) (poison inimg parimg : Nat) : Nat :=
  let c := e.cap
  let rows := mappedRows c.rows
  let n := ((List.range 32).countP fun j => inimg / 2 ^ j % 2 == 1)
  let low := fromWords [0x5A53 + 2 ^ 16 + c.depth % 8 * 2 ^ 24 + (if parimg = 0 then 2 ^ 27 else 0), bitsAt rows, inimg,
    256 + 32 * n, parimg % 2 ^ 32, parimg / 2 ^ 32, c.pc.toNat, c.mr.toNat]
  let stack := fromWords ((List.range 8).map fun j => (c.stack.reverse.getD j 0#32).toNat)
  let w40 := c.stack.length % 16 + c.preds.toNat * 2 ^ 4 + e.resume.toNat * 2 ^ 11
  let hnz := bitsAt ((List.range 16).filter fun j => vget c.h j 0#32 != 0#32)
  low + 2 ^ 256 * stack + 2 ^ 512 * fromWords [w40, c.tsw.toNat, hnz, 0] + 2 ^ 640 * c.taint.toNat + 2 ^ 896 * poison

/-- Poison bits of the registers an entry maps. -/
def State.capPoison (s : State) (core sub : Nat) (e : Entry) : Nat :=
  ((List.range 32).map fun j =>
    match vget e.cap.rows j none with
    | some x => (s.row (rowKey core sub e.lane x)).poison.toNat * 2 ^ (8 * j)
    | none => 0).sum

/-- The image of one row: poisoned registers are written as 0 (R204). -/
def rowImage (r : Row) : Nat :=
  fromWords ((List.range 8).map fun j => if r.poison.getLsbD j then 0 else (vget r.regs j 0#32).toNat)

/-- The rows that HSPL puts into the image, and the parent image (R204). -/
def State.spillPlan (s : State) (core : Nat) (e : Entry) (full : Bool) : Nat × Nat :=
  let rows := mappedRows e.cap.rows
  let whole := (bitsAt rows, 0)
  if full ∨ e.cap.depth ≥ 7 then whole
  else
    let k := handleKey core e.cap.parent
    match s.entry? k with
    | some p =>
      if e.cap.parent = s.handle k ∧ p.spill ≠ 0#64 then
        (bitsAt (rows.filter fun j => vget p.cap.rows j none != vget e.cap.rows j none), p.spill.toNat)
      else whole
    | none => whole

/-- The chunks of an image: the header's eight, then the rows in ascending number. -/
def State.imageOf (s : State) (core sub : Nat) (e : Entry) (full : Bool) : List Nat :=
  let (inimg, parimg) := s.spillPlan core e full
  let h := spillHeader e (s.capPoison core sub e) inimg parimg
  (List.range 8).map (fun j => h / 2 ^ (256 * j) % 2 ^ 256) ++
    ((List.range 32).filter fun j => inimg / 2 ^ j % 2 == 1).map fun j =>
      match vget e.cap.rows j none with
      | some x => rowImage (s.row (rowKey core sub e.lane x))
      | none => 0

/-- One lane of HSPL: the stores leave the core, SPILL and V[D] are written. -/
def hsplLane (d : VReg) (b : HReg) (full : Bool) (ea : Ln → Nat) (s : State) (ln : Ln) : Did :=
  match s.entryOf ln (ln.handle b), s.team? ln.t with
  | some (k, e), some T =>
    if (e.cap.keys ln.core ln.sub e.lane).any fun r => (s.row r).pend != 0#8 then .later
    else
      let chunks := s.imageOf ln.core ln.sub e full
      let s := s.storeChunks T ln.g ln.l (ea ln) (chunks.map fun x => [x % 2 ^ 128, x / 2 ^ 128]).flatten
      let s := s.setEntry k { e with spill := BitVec.ofNat 64 (ea ln) }
      s.writeReg ln d.toNat (BitVec.ofNat 32 (32 * chunks.length)) false
  | _, _ => .ok s

/-- The faults of a lane of HSPL after HANDLE: MISALIGN, PERM, XLATE for any byte of its image (R176, R204). -/
def State.spillFault (s : State) (T : Team) (ln : Ln) (b : HReg) (full : Bool) (ea : Nat) : Option Code :=
  if ea % 128 != 0 then some .misalign
  else
    match s.entryOf ln (ln.handle b) with
    | none => some .handle
    | some (_, e) =>
      match s.writable T ea (s.imageOf ln.core ln.sub e full).length with
      | .error c => some c
      | .ok _ => none

/-- A handle instruction that touches memory: HANDLE, then the faults of R176 in their order, then what it reads. The record's pages are
those missing among `pages`. -/
def State.handleMem (s : State) (i : Iss) (n : Names) (bad : Team → Ln → Option Code) (ea : Team → Ln → Nat)
    (mem : Team → Ln → Option Code) (reads : Team → Ln → List (Nat × Nat)) (f : State → Ln → Did) : Out :=
  match s.team? s.cur.team with
  | none => .fault .noIssuer
  | some T =>
    let lns := s.actors T i
    let clean := (nullLanes lns (n.src ++ n.dst ++ n.also)).isEmpty && !(lns.any fun ln => n.src.any fun r => (s.rd ln r).poison) &&
      (lns.filterMap (bad T)).isEmpty
    let mems := if clean then lns.map fun ln => (ln, mem T ln) else []
    match firstOf (mems.filterMap (·.2)) with
    | some code =>
      let hit := (mems.filter fun (_, c) => c == some code).map (·.1)
      let va := (hit.head?.map (ea T)).getD 0
      let pages := if code = .xlate then
          ((hit.map fun ln => ((ea T ln, n.reach) :: reads T ln).map fun (va, k) => s.missing T va k).flatten.flatten.eraseDups).take 8
        else []
      .next (s.raising T.id s.curGroup (s.raise { s.faultOf code hit n with va := BitVec.ofNat 64 va, pages }))
    | none => if clean then s.withReads T lns (reads T) fun s => s.handleOp i n bad f false else s.handleOp i n bad f false

/-- Threads that have staged more than a round takes have closed it, and those after it, until the last is staged in the current one (R344). -/
def State.closeOver (s : State) (T : Team) (lns : List Ln) : State :=
  lns.foldl (fun s ln => if stageMax < (s.thread T.id ln.g ln.l).staged then s.closeAfter T.id ln.g [ln.l] else s) s

/-- HSPL (R204). -/
def execHspl (i : Iss) (d : VReg) (b : HReg) (a : VReg) (off : COp) (full : Bool) (s : State) : Out :=
  let ea (T : Team) (ln : Ln) : Nat := s.ea T ln .global a off
  let n := { Names.toV (baseRegs .global a ++ off.regs) d with reach := 1280, at_ := some (.global, a, off) }
  (s.handleMem i n (s.badHandle b false) ea (fun T ln => s.spillFault T ln b full (ea T ln)) (fun _ _ => [])
    (fun s1 ln => match s1.team? ln.t with
      | some T => hsplLane d b full (ea T) s1 ln
      | none => .ok s1)).then fun s1 => match s.team? s.cur.team with
        | some T => if s.isDet T then s1.closeOver T (s.actors T i) else s1
        | none => s1

/-- A field of a number. -/
def bits (x lo w : Nat) : Nat := x / 2 ^ lo % 2 ^ w

/-- A header read by HLDM is well-formed (R205). -/
def headerOk (h : Nat) : Bool :=
  let rows := bits h 32 32
  let inimg := bits h 64 32
  let n := ((List.range 32).countP fun j => inimg / 2 ^ j % 2 == 1)
  bits h 0 16 == 0x5A53 && bits h 16 8 == 1 && bits h 28 4 == 0 && inimg &&& rows == inimg &&
    (bits h 27 1 == 1) == (bits h 128 64 == 0) && bits h 96 32 == 256 + 32 * n && bits h (512 + 19) 13 == 0 &&
    bits h (576 + 16) 48 == 0 && bits h (8 * 0x90) (8 * 0x70) == 0 && bits h 24 3 ≥ 1 && bits h 512 4 ≤ 8

/-- An image of the chain: its address, its header, and its row images by row number with their poison. -/
structure Image where
  va : Nat
  header : Nat
  rows : List (Nat × Nat × Bool)
  deriving DecidableEq, Repr

/-- What following the chain of images comes to: a fault, a chain that is not acceptable, or the images, nearest first. -/
inductive Chain where
  | fault (c : Code)
  | bad
  | images (l : List Image)
  deriving DecidableEq, Repr

/-- The images from one on, at most six (R205). -/
def State.chain (s : State) (T : Team) (g l va : Nat) : Nat → Chain
  | 0 => .bad
  | fuel + 1 =>
    match s.readVa false T g l va 8 with
    | .error c => .fault c
    | .ok (h, poisoned) =>
      if poisoned || !headerOk h then .bad
      else
        let js := (List.range 32).filter fun j => bits h (64 + j) 1 == 1
        match s.readChunks false T g l (va + 256) js.length with
        | .error c => .fault c
        | .ok cs =>
          let here : Image := { va, header := h, rows := js.zip cs }
          let par := bits h 128 64
          if par = 0 then .images [here]
          else if par % 128 != 0 then .bad
          else
            match State.chain s T g l par fuel with
            | .images rest => .images (here :: rest)
            | other => other

/-- What following the chain reads, as far as the headers that have come say: addresses and lengths. -/
def State.chainReads (s : State) (T : Team) (g l va : Nat) : Nat → List (Nat × Nat)
  | 0 => []
  | fuel + 1 =>
    match s.readVa false T g l va 8 with
    | .error _ => [(va, 256)]
    | .ok (h, poisoned) =>
      if poisoned || !headerOk h then [(va, 256)]
      else
        let n := (List.range 32).countP fun j => bits h (64 + j) 1 == 1
        let par := bits h 128 64
        (va, 256 + 32 * n) :: if par = 0 || par % 128 != 0 then [] else State.chainReads s T g l par fuel

/-- The nearest image of a row (R205). -/
def rowIn (l : List Image) (j : Nat) : Option (Nat × Bool) := l.findSome? fun im => im.rows.lookup j

/-- The registers of a row image. -/
def rowOf (v : Nat) (poison : BitVec 8) (owner : Nat) : Row :=
  { regs := Vector.ofFn fun j => BitVec.ofNat 32 (bits v (32 * j.val) 32), pend := 0#8, poison, count := 1, owner,
    pool := .snap }

/-- Fresh budget rows for the rows of a loaded entry; `none` when the bank has too few. -/
def State.loadRows (s : State) (T : Team) (sub lane : Nat) (im : List Image) (poison : Nat) :
    List Nat → Option (State × List (Nat × Nat))
  | [] => some (s, [])
  | j :: rest =>
    match rowIn im j, s.budgetRow? T sub lane with
    | some (v, bad), some x =>
      let marks : BitVec 8 := if bad then 0xFF#8 else BitVec.ofNat 8 (poison / 2 ^ (8 * j))
      (State.loadRows (s.putRow (rowKey T.core sub lane x) (rowOf v marks T.id)) T sub lane im poison rest).map
        fun (s, l) => (s, (j, x) :: l)
    | _, _ => none

/-- One lane of HLDM. -/
def hldmLane (p : PReg) (d : HReg) (ea : Ln → Nat) (s : State) (ln : Ln) : Did :=
  match s.team? ln.t with
  | none => .ok s
  | some T =>
    let failed : Did := .ok (s.setPred ln p false)
    match s.chain T ln.g ln.l (ea ln) 6 with
    | .images (im :: rest) =>
      let h := im.header
      match s.freeSlot? ln.core ln.sub,
          s.loadRows T ln.sub ln.l (im :: rest) (bits h 896 256) ((List.range 32).filter fun j => bits h (32 + j) 1 == 1) with
      | some slot, some (s, rows) =>
        let k := entryKey ln.core ln.sub slot
        let depth := bits h 512 4
        let cap : Capture :=
          { pc := BitVec.ofNat 32 (bits h 195 29 * 8), mr := BitVec.ofNat 32 (bits h 224 32),
            stack := ((List.range depth).map fun j => BitVec.ofNat 32 (bits h (256 + 32 * j) 32)).reverse,
            rows := Vector.ofFn fun j => rows.lookup j.val, preds := BitVec.ofNat 7 (bits h 516 7),
            h := .replicate 16 0#32, taint := BitVec.ofNat 256 (bits h 640 256), tsw := BitVec.ofNat 32 (bits h 544 7),
            parent := 0#32, depth := bits h 24 3 }
        let s := s.setEntry k
          { cap, resume := BitVec.ofNat 8 (bits h 523 8), owner := ln.t, refs := 1, lane := ln.l,
            spill := BitVec.ofNat 64 (ea ln) }
        .ok ((s.setHandle ln d (s.handle k)).setPred ln p true)
      | _, _ => failed
    | _ => failed

/-- HLDM (R205). -/
def execHldm (i : Iss) (p : PReg) (d : HReg) (a : VReg) (off : COp) (s : State) : Out :=
  let ea (T : Team) (ln : Ln) : Nat := s.ea T ln .global a off
  s.handleMem i { src := baseRegs .global a ++ off.regs, flt := dstQ p } (fun _ _ => none) ea
    (fun T ln =>
      if ea T ln % 128 != 0 then some .misalign
      else match s.chain T ln.g ln.l (ea T ln) 6 with
        | .fault c => some c
        | _ => none)
    (fun T ln => s.chainReads T ln.g ln.l (ea T ln) 6)
    (fun s1 ln => match s1.team? ln.t with
      | some T => hldmLane p d (ea T) s1 ln
      | none => .ok s1)

/-! ## XACQ and XREL (R207, R208) -/

/-- The row pointers of extended block `n`. -/
def blockRows (n : Nat) : List Nat := (List.range 8).map (8 * n + ·)

/-- The block's pointers are null in the lane. -/
def Thread.blockNull (th : Thread) (n : Nat) : Bool := (blockRows n).all fun i => (vget th.rows i none).isNone

/-- Eight rows of a group's extended reservation are free in a bank (R207). -/
def State.extFree (s : State) (T : Team) (g sub lane : Nat) : Bool :=
  s.poolUsed T.core sub lane T.id (.ext g) + 8 ≤ 8 * T.xblk

/-- A fresh row of a pool mapped at a row pointer of a lane, reading zero, marks and taint clear (R15). -/
def State.mapRow (s : State) (T : Team) (g sub lane i : Nat) (pool : Pool) : State :=
  match s.freeRow? T.core sub lane with
  | none => s
  | some x =>
    let s := s.putRow (rowKey T.core sub lane x) { rowDefault with count := 1, owner := T.id, pool }
    s.modThread T.id g lane fun th =>
      { th with rows := vset th.rows i (some x),
                taint := (List.range 8).foldl (fun b j => setBit b (8 * i + j) false) th.taint }

/-- XACQ maps its block in the lanes whose pointers are null, and the group holds it (R207). -/
def State.mapBlock (s : State) (T : Team) (g : Nat) (lns : List Ln) (n : Nat) : State :=
  let s := (lns.filter (·.th.blockNull n)).foldl (fun s ln =>
    (blockRows n).foldl (fun s i => s.mapRow T g ln.sub ln.l i (.ext g)) s) s
  s.modGroup T.id g fun G => { G with xhold := setBit G.xhold (n - 1) true }

/-- Blocks that a group holds. -/
def Group.blocks (G : Group) : Nat := (List.range 3).countP fun j => G.xhold.getLsbD j

/-- The rows that XACQ needs are free. -/
def State.blockReady (s : State) (T : Team) (g : Nat) (lns : List Ln) (n : Nat) : Bool :=
  (lns.filter (·.th.blockNull n)).all fun ln => s.extFree T g ln.sub ln.l

/-- XACQ (R207): it waits while rows of its reservation are on loan (R208). -/
def execXacq (_i : Iss) (p : PReg) (n : BitVec 2) (s : State) : Out :=
  s.once { flt := dstQ p } fun T lns =>
    let g := s.curGroup
    match T.group? g with
    | none => .ok s
    | some G =>
      let all (s : State) (b : Bool) : State := (lns.foldl (fun s ln => s.setPred ln p b) s).retire []
      if G.xhold.getLsbD (n.toNat - 1) then .ok (all s true)
      else if G.blocks ≥ T.xblk then .ok (all s false)
      else if s.blockReady T g lns n.toNat then .ok (all (s.mapBlock T g lns n.toNat) true)
      else .ok (s.park (.xacq n p))

/-- XREL (R207). -/
def execXrel (_i : Iss) (n : BitVec 2) (s : State) : Out :=
  s.single {} fun T lns =>
    let g := s.curGroup
    match T.group? g with
    | none => .ok s
    | some G =>
      if G.xhold.getLsbD (n.toNat - 1) then
        let s := lns.foldl (fun s ln =>
          let s := ((blockRows n.toNat).filterMap fun i => ln.key? (8 * i)).foldl State.decRow s
          s.modThread ln.t ln.g ln.l fun th =>
            { th with rows := (blockRows n.toNat).foldl (fun r i => vset r i none) th.rows }) s
        .ok (s.modGroup T.id g fun G => { G with xhold := setBit G.xhold (n.toNat - 1) false })
      else .ok s

/-- XACQ_MAP (R207): the rows that a waiting XACQ needs have come back. -/
def execXacqMap (t g : Nat) (s : State) : Out :=
  match s.team? t, s.group? t g with
  | some T, some G =>
    let ls := G.party.filter fun l => match (G.thread l).wait with | .xacq .. => true | _ => false
    match ls.head?.map fun l => (G.thread l).wait with
    | some (.xacq n p) =>
      let lns := ls.map (T.ln g)
      if s.blockReady T g lns n.toNat then
        let s1 := s.mapBlock T g lns n.toNat
        let s1 := lns.foldl (fun s1 ln => s1.setPred ln p true) s1
        .next ((s1.nextLanes t g ls).release t .group [g])
      else .next s
    | _ => .next s
  | _, _ => .next s

/-! ## KILNFULL (R18, R208) -/

/-- The thread has waited for rows as long as RDVWD allows. -/
def Team.rowsOverdue (T : Team) (th : Thread) : Bool :=
  T.rdvwd != 0#32 && decide (T.rdvwd.toNat ≤ th.waited) &&
    match th.wait with
    | .kiln => true
    | .xacq .. => true
    | _ => false

/-- The address operand of the word at which threads of a group stand (R359). -/
def State.addressAt (s : State) (T : Team) (g : Nat) (G : Group) (lanes : List Nat) (pc : Word) : Option (Space × VReg × COp) :=
  match s.wordAt T g G lanes pc with
  | .ok w => addressOf (instrOf w)
  | .error _ => none

/-- KILNFULL (R18, R208): a stall for rows has lasted RDVWD cycles; the instruction raises and has written nothing. -/
def execKilnfull (t g : Nat) (s : State) : Out :=
  match s.team? t, s.group? t g with
  | some T, some G =>
    match (lanesOf G.live).find? fun l => T.rowsOverdue (G.thread l) with
    | none =>
      match G.trap with
      | some r =>
        -- the entry of a handler has found no budget row (R355)
        if T.rdvwd != 0#32 && decide (T.rdvwd.toNat ≤ r.waited) then
          .next ((s.modGroup t g fun G => { G with trap := none }).raise
            { code := .kilnfull, t, g, lanes := r.lanes, pc := r.pc, dst := r.dst, width := r.width, arr := r.arr, members := r.members,
              va := s.eaOf T ((lanesOf r.lanes).map (T.ln g)) (s.addressAt T g G (lanesOf r.lanes) r.pc) })
        else .next s
      | none => .next s
    | some l =>
      let th := G.thread l
      let ls := (lanesOf G.live).filter fun j => T.rowsOverdue (G.thread j) && (G.thread j).pc == th.pc
      let (dst, width) := match s.wordAt T g G ls th.pc with
        | .ok w => fltOf (instrOf w)
        | .error _ => (allOnes, 1)
      let ms := if th.arr.cv?.isSome then T.membership th.arr g else []
      let s1 := (if ms.isEmpty then [g] else ms).foldl (fun s1 j => s1.modGroup t j fun H =>
        (lanesOf H.live).foldl (fun H k => if T.rowsOverdue (H.thread k) then
          H.modThread k fun x => { x with wait := .none, waited := 0 } else H) H) s
      .next (s.raisingIn t (if ms.isEmpty then [g] else ms)
        (s1.raise { code := .kilnfull, t, g, lanes := maskOf ls, pc := th.pc, dst, width, arr := th.arr, members := ms,
                    va := s.eaOf T (ls.map (T.ln g)) (s.addressAt T g G ls th.pc) }))
  | _, _ => .next s

end Sys2Proof.Machine
end

