-- ==== Sys2Proof/Machine/Tasks.lean ====
section
/-! DEFINITION. Spawned tasks, task queues and cascades (R209 to R219). -/

namespace Sys2Proof.Machine

open Sys2Proof

/-! ## Performed at the team's turn (R344, R349) -/

/-- The instruction closes the round of a deterministic launch and is performed at the team's turn in the commit: its lanes
wait at the word. Elsewhere, and at that turn, it is performed now. -/
def State.atTurn (s : State) (T : Team) (turn : Bool) (lns : List Ln) (k : Out) : Out :=
  if s.isDet T && !turn && !lns.isEmpty then
    .next (lns.foldl (fun s ln => s.modThread ln.t ln.g ln.l fun th => { th with closed := true, wait := .turn })
      (s.retire (lns.map fun ln => (ln.g, ln.l))))
  else k

/-- The next team index above the grid's (R320, R349). -/
def State.takeIndex (s : State) (p : Nat) (lnum : Word) : Nat × State :=
  match s.launch? p lnum with
  | none => (0, s)
  | some L => (L.counter, s.modLaunch p lnum fun L => { L with counter := (L.counter + 1) % 2 ^ 24 })

/-! ## SPAWN (R209 to R211) -/

/-- Tasks on a partition's spawn list. -/
def State.spawnCount (s : State) (p : Nat) : Nat := s.pending.countP fun x => x.part == p && x.task

/-- A descriptor of R209 with every field in range and its reserved bits zero. -/
def taskOk (d : Nat) : Bool :=
  bits d 0 3 == 0 && bits d 34 9 ≤ 504 && bits d 43 21 == 0 && bits d 64 32 % 16 == 0 &&
    bits d 64 32 ≤ Config.basinBytes && bits d 96 32 == 0

/-- A task appended to the spawn list. -/
def State.addTask (s : State) (T : Team) (ln : Ln) (d : Nat) : State :=
  let (index, s) := s.takeIndex T.part T.lnum
  let words := (List.range 4).map fun j => (BitVec.ofNat 32 (bits d (128 + 32 * j) 32) : Word)
  { s with nextId := s.nextId + 1, pending := s.pending ++
      [{ id := s.nextId, part := T.part, lnum := T.lnum, task := true, rung := 0, index, entry := BitVec.ofNat 32 (bits d 0 32),
         xblk := bits d 32 2, snrows := bits d 34 9, basin := bits d 64 32, depth := T.depth + 1,
         near := T.core :: T.cores, after := (ln.th.wct.toList.foldl max 0), lanes := .replicate 32 (words, none) }] }

/-- One lane of SPAWN. -/
def State.spawnLane (s : State) (T : Team) (p : PReg) (ln : Ln) (d : Nat × Bool) : State :=
  let fails := d.2 || !taskOk d.1 || T.depth ≥ 8 || s.spawnCount T.part ≥ Config.spawnMax
  if fails then s.setPred ln p false else (s.addTask T ln d.1).setPred ln p true

/-- A group held out of the active set by lanes that have passed the word (R211, R214). -/
def State.holdOut (s : State) (t g : Nat) (lanes : List Nat) (w : Wait) : State :=
  s.modGroup t g fun G =>
    { lanes.foldl (fun G l => G.modThread l fun th => if th.live then { th with wait := w } else th) G with active := false }

/-- The address of a lane and what its memory says there, or its fault. At the turn of a commit memory is read as it then stands (R344). -/
def State.objectAt (s : State) (turn : Bool) (T : Team) (ln : Ln) (a : VReg) (off : COp) (align chunks : Nat) :
    Nat × Except Code (Nat × Bool) :=
  let ea := s.ea T ln .global a off
  (ea, if ea % align != 0 then .error .misalign else s.readVa turn T ln.g ln.l ea chunks)

/-- What an instruction's lanes read as loads of their threads; nothing more is read at the turn of a commit. -/
def State.objectReads (s : State) (turn : Bool) (T : Team) (a : VReg) (off : COp) (n : Nat) (ln : Ln) : List (Nat × Nat) :=
  if turn then [] else [(s.ea T ln .global a off, n)]

/-- SPAWN, now or at the team's turn. -/
def State.spawnNow (s : State) (turn : Bool) (i : Iss) (p : PReg) (a : VReg) (off : COp) : Out :=
  let addr := baseRegs .global a ++ off.regs
  s.ordered i { src := addr, flt := dstQ p, reach := 32 } addr (fun _ _ => false) (fun T ln => s.objectAt turn T ln a off 32 1)
    fun s T lns => s.withReads T (lns.map (·.1)) (s.objectReads turn T a off 32) fun s =>
      s.atTurn T turn (lns.map (·.1)) <|
        let g := s.curGroup
        let n := s.spawnCount T.part
        let s1 := lns.foldl (fun s1 (ln, d) => s1.spawnLane T p ln d) s
        let m := s1.spawnCount T.part
        let s1 := s1.retire []
        .next (if n < m && Config.spawnHigh < m then s1.holdOut T.id g (lns.map fun (ln, _) => ln.l) .spawnHold else s1)

/-- SPAWN (R210). -/
def execSpawn (i : Iss) (p : PReg) (a : VReg) (off : COp) (s : State) : Out := s.spawnNow false i p a off

/-- Threads of a team go on whose hold is over. -/
def Team.unhold (done : Wait → Bool) (T : Team) : Team :=
  { T with groups := T.groups.map fun G =>
      allLanes.foldl (fun G l => if done (G.thread l).wait then G.modThread l fun th => { th with wait := .none, waited := 0, skipped := 0 }
        else G) G }

/-- Groups held by SPAWN go on once the list has fallen to its low watermark, wherever their team is (R211). -/
def State.spawnRelease (s : State) (p : Nat) : State :=
  if Config.spawnLow < s.spawnCount p then s
  else
    let free (T : Team) : Team := if T.part == p then T.unhold (· == .spawnHold) else T
    { s with teams := s.teams.map free, saved := s.saved.map fun v => { v with team := free v.team } }

/-! ## Accesses that are steps of an object (R213, R216, R219) -/

/-- A step's access leaves the core; its threads wait at the word, since their predicates are not there before it is
performed (log entry 18). -/
def State.sendStep (s : State) (T : Team) (g : Nat) (f : Flight) : State :=
  if f.lanes.isEmpty then s.retire []
  else
    let ls := f.lanes.map (·.lane)
    ((s.addFlight f).retire (ls.map fun l => (g, l))).awaitAccess T.id g f.id ls

/-- A lane's part of a step. -/
def stepLane (ln : Ln) (p : Place) (data : BitVec 512) : LaneAcc :=
  { lane := ln.l, va := BitVec.ofNat 64 p.ea, ia := p.ia, keys := [], data, dst := none, val := none, todo := true }

/-- What a lane's step comes to: done, and whether it has set OVER; a fault at an address; or nothing yet, since the lanes of an atomic
hold what it writes (R178). -/
inductive StepOut where
  | done (s : State) (full : Bool)
  | fault (c : Code) (va : Nat)
  | busy

/-- The predicate of a lane's step. -/
def State.stepPred (s : State) (T : Team) (f : Flight) (a : LaneAcc) (p : PReg) (ok : Bool) : State :=
  s.modThread T.id f.group a.lane (·.setQ p ok)

/-! ## Task queues (R212 to R214) -/

/-- A task queue object whose fields are in range. -/
structure QObj where
  head : Nat
  tail : Nat
  cap : Nat
  hiwm : Nat
  lowm : Nat
  isOver : Bool
  cons : Word
  ring : Nat
  deriving DecidableEq, Repr

def QObj.depth (q : QObj) : Nat := (q.tail + 2 ^ 32 - q.head) % 2 ^ 32

/-- The object of a number of 64 bytes; `none` where a field is out of range or a reserved bit is set (R213). -/
def queueOf (x : Nat) : Option QObj :=
  let q : QObj := { head := bits x 0 32, tail := bits x 32 32, cap := bits x 64 32, hiwm := bits x 96 32,
                    lowm := bits x 128 32, isOver := bits x 160 1 == 1, cons := BitVec.ofNat 32 (bits x 192 32), ring := bits x 256 64 }
  let powers := (List.range 24).map fun j => 2 ^ (j + 1)
  if powers.contains q.cap && 1 ≤ q.hiwm && q.hiwm ≤ q.cap && q.lowm < q.hiwm && bits x 161 31 == 0 &&
      bits x 224 32 == 0 && q.ring % 16 == 0 && bits x 320 192 == 0 then some q
  else none

/-- The object at a key, read at its home. -/
def State.queueOn (s : State) (k : Nat) : Option QObj :=
  let (x, poison) := s.readKey k 64
  if poison then none else queueOf x

/-- The object at a lane's address. -/
def State.queueAt (s : State) (T : Team) (a : LaneAcc) : Option QObj :=
  if s.windowReset T.part a.ia then none else s.queueOn (s.accKey a)

/-- The machine keeps the addresses of the queue objects that QENQ and QDEQ have found: of those it knows their OVER and CONS (R214, R326;
DEDUCED, log entry 63). -/
def State.knowQueue (s : State) (T : Team) (ia : Nat) : State :=
  s.modPart T.part fun p => if p.queues.contains ia then p else { p with queues := ia :: p.queues }

/-- An address at which no queue object lies any more is known no longer. -/
def State.dropQueues (s : State) : State :=
  let lies (ia : Nat) : Bool := match s.iaKey ia with | some k => (s.queueOn k).isSome | none => false
  { s with parts := s.parts.map fun p => if p.queues.isEmpty then p else { p with queues := p.queues.filter lies } }

/-- The virtual address of ring entry `n`. -/
def QObj.entry (q : QObj) (n : Nat) : Nat := (q.ring + 16 * (n % q.cap)) % 2 ^ 64

/-- The IA and key of a ring entry, or the fault of reaching it (R176, R193). The step is performed at a home slice, which an entry behind the
external aperture does not have: XLATE, since no page holds it (R193, R390; DEDUCED, log entry 18). -/
def State.ringKey (s : State) (T : Team) (va : Nat) (need : Need) : Except Code (Nat × Nat) :=
  match s.vaKey T va need with
  | .ok (some x) => .ok x
  | .ok none => .error .xlate
  | .error c => .error c

/-- The requester for which the memory side counts what a team's accesses read (R291): the die of its core; for a reader that stands on no
core, a packer, the lowest die of the partition (DESIGN CHOICE, log entry 66). -/
def State.standsOn (s : State) (T : Team) : Nat :=
  if T.core < Config.cores then T.core / Config.coresPerDie else (s.m.diesOf T.part).headD 0

/-- The line at a virtual address has been read at its home for a team (R287, R291). -/
def State.reachVa (s : State) (T : Team) (va : Nat) : State :=
  match s.vaKey T va needR with
  | .ok (some (ia, k)) => if s.windowReset T.part ia then s else s.reach ia k (s.standsOn T) anyPos
  | _ => s

/-- The header of a cascade and the record of a rung have been read for a team. -/
def State.reachRung (s : State) (T : Team) (casc r : Nat) : State := (s.reachVa T casc).reachVa T (casc + 0x40 + 32 * r)

/-- A write of a step at its home, with its WCT noted (R284). -/
def State.stepWrite (s : State) (T : Team) (f : Flight) (l ia key n v : Nat) : State :=
  let s := (s.dropLine T ia).writeKey T.part key (numbered n v)
  let (w, s) := s.stamp ia key (T.core / Config.coresPerDie) anyPos
  s.noteWct T f.group l 0 w

/-- The queue object at an IA has OVER set: its CONS. -/
def State.overOf (s : State) (ia : Nat) : Option Word :=
  match s.iaKey ia with
  | none => none
  | some k => if s.bytes (k + 0x14) 4 % 2 = 1 then some (BitVec.ofNat 32 (s.bytes (k + 0x18) 4)) else none

/-- The queue's OVER bit written (R213). -/
def State.setOver (s : State) (T : Team) (f : Flight) (a : LaneAcc) (b : Bool) : State :=
  s.stepWrite T f a.lane a.ia (s.accKey a + 0x14) 4 (if b then 1 else 0)

/-- QENQ of a lane performed (R213): the entry, TAIL, the predicate, and OVER where the depth passes HIWM. -/
def State.qenqStep (s : State) (T : Team) (f : Flight) (a : LaneAcc) (p : PReg) : StepOut :=
  match s.queueAt T a with
  | none => .done (s.stepPred T f a p false) false
  | some q =>
    let s := s.knowQueue T a.ia
    if q.depth = q.cap then .done (s.stepPred T f a p false) false
    else
      match s.ringKey T (q.entry q.tail) needW with
      | .error c => .fault c (q.entry q.tail)
      | .ok (ia, k) =>
        if s.locked ia 16 then .busy
        else
          let q1 := { q with tail := (q.tail + 1) % 2 ^ 32 }
          let u := s.stepWrite T f a.lane ia k 16 (a.data.toNat % 2 ^ 128)
          let u := (u.stepWrite T f a.lane a.ia (u.accKey a + 4) 4 q1.tail).stepPred T f a p true
          if q1.hiwm < q1.depth then .done (u.setOver T f a true) true else .done u false

/-- QDEQ of a lane performed (R213): HEAD, the predicate, OVER where the depth has fallen to LOWM; the entry lands untainted, and the thread
acquires at device scope (R314). Where the queue is empty the registers stay as they were. -/
def State.qdeqStep (s : State) (T : Team) (f : Flight) (a : LaneAcc) (p : PReg) (d : VReg) : StepOut :=
  let none_ (s : State) : StepOut := .done ((s.unpend a.dst 4).stepPred T f a p false) false
  match s.queueAt T a with
  | none => none_ s
  | some q =>
    let s := s.knowQueue T a.ia
    if q.depth = 0 then none_ s
    else
      match s.ringKey T (q.entry q.head) needR with
      | .error c => .fault c (q.entry q.head)
      | .ok (ia, k) =>
        let (x, poison) := s.readKey k 16
        let s := s.reach ia k (s.standsOn T) anyPos
        let q1 := { q with head := (q.head + 1) % 2 ^ 32 }
        let u := s.stepWrite T f a.lane a.ia (s.accKey a) 4 q1.head
        let u := if q.isOver ∧ q1.depth ≤ q1.lowm then u.setOver T f a false else u
        let u := (u.landAt a.dst 4 (BitVec.ofNat 128 x) poison).modThread T.id f.group a.lane fun th =>
          { (th.acquired s.gt f.id a.lane).setQ p true with
            taint := (List.range 4).foldl (fun b j => setBit b (d.toNat + j) false) th.taint,
            unkV := (List.range 4).foldl (fun b j => setBit b (d.toNat + j) false) th.unkV }
        .done u false

/-- Groups held by QENQ go on once OVER of their queue is clear, wherever their team is (R214). -/
def State.queueRelease (s : State) : State :=
  let over_ (w : Wait) : Bool := match w with
    | .queueHold q => (s.overOf q.toNat).isNone
    | _ => false
  { s with teams := s.teams.map (Team.unhold over_), saved := s.saved.map fun v => { v with team := v.team.unhold over_ } }

/-! ## Cascade objects (R215) -/

/-- A rung record whose fields are in range. -/
structure Rung where
  entry : Word
  frame : Nat
  xblk : Nat
  snrows : Nat
  maxwait : Nat
  basin : Nat
  results : Nat
  deriving DecidableEq, Repr

/-- Bytes of a result (R215). -/
def resultBytes (hdr : Nat) : Nat := 4 * 2 ^ bits hdr 4 2

/-- A header read whole is valid. -/
def cascadeOk (hdr : Nat) : Bool :=
  1 ≤ bits hdr 0 4 && bits hdr 0 4 ≤ 8 && bits hdr 4 2 != 3 && bits hdr 6 26 == 0 && bits hdr 128 384 == 0

/-- The record of rung `r`, if it is valid. R215 asks nothing of ENTRY bits 2:0: the threads start with them cleared, since a PC has
them 0 (R11; DESIGN CHOICE, log entry 58). -/
def rungOf (hdr x r : Nat) : Option Rung :=
  let g : Rung := { entry := wordAligned (BitVec.ofNat 32 (bits x 0 32)), frame := bits x 32 5, xblk := bits x 37 2, snrows := bits x 39 9,
                    maxwait := bits x 64 32, basin := bits x 96 32, results := bits x 128 64 }
  if r < bits hdr 0 4 && g.frame ≤ 16 && g.snrows ≤ 504 && g.basin % 16 == 0 && g.basin ≤ Config.basinBytes &&
      g.results % resultBytes hdr == 0 && bits x 48 16 == 0 && bits x 192 64 == 0 then some g
  else none

/-- What a cascade object says of a rung: a fault of reading it, or the number of rungs when its header is valid, the size of
a result, and the rung's record when that is valid. -/
structure Casc where
  header : Option (Nat × Nat)
  rung : Option Rung
  deriving DecidableEq, Repr

/-- The object at a virtual address, read for a thread from memory as it stands; a poisoned line is not valid (R215). -/
def State.cascadeAt (s : State) (T : Team) (g l va r : Nat) : Except Code Casc :=
  match s.readVa true T g l va 2 with
  | .error c => .error c
  | .ok (hdr, hp) =>
    let ok := !hp && cascadeOk hdr
    let header := if ok then some (bits hdr 0 4, resultBytes hdr) else none
    if !ok || bits hdr 0 4 ≤ r then .ok { header, rung := none }
    else
      match s.readVa true T g l (va + 0x40 + 32 * r) 1 with
      | .error c => .error c
      | .ok (x, xp) => .ok { header, rung := if xp then none else rungOf hdr x r }

/-! ## Packers (R217) -/

/-- Arrival order: cycle, core, group, lane. -/
def Item.before (a b : Item) : Bool :=
  let key (x : Item) : List Nat := [x.time, x.core, x.group, x.lane]
  decide (key a < key b)

/-- An item put in its place. -/
def insertItem : List Item → Item → List Item
  | [], x => [x]
  | y :: ys, x => if x.before y then x :: y :: ys else y :: insertItem ys x

/-- The packer holds items of one rung of one cascade for one launch. -/
def Packer.isFor (k : Packer) (p : Nat) (lnum : Word) (casc : Dword) (rung : Nat) : Bool :=
  k.part == p && k.lnum == lnum && k.casc == casc && k.rung == rung

/-- A team that stands for a launch where no thread reads: context and ownership of the launch. -/
def Launch.reader (L : Launch) : Team :=
  { id := 0, part := L.part, lnum := L.lnum, index := 2 ^ 24, grid := false, task := false, depth := 0, core := Config.cores, s0 := 0,
    cluster := 0, rank := 0, cid := 0, cores := [], st := .run, k := .replicate 64 0#32, cvs := .replicate 16 cvReset, groups := [],
    basinBase := 0, basinLen := 0, xblk := 0, snaprows := 0, trapvec := 0#32, fpen := 0#32, rdvwd := 0#32,
    wdrem := 0#32, gscale := 0#32, burstcap := 0#32, succ := false, tbc := 0#16, shadows := [], full := [],
    broken := false, late := [], struck := 0, wdSet := 0, engFull := [], since := 0 }

/-- Items launched as a rung group, oldest first; where the rung record is not valid they count in LOST (R215). The spec does not say what a
packer does whose header or record does not translate: it is taken as not valid (DESIGN CHOICE, log entry 18). -/
def State.launchItems (s : State) (k : Packer) (items : List Item) : State :=
  match s.launch? k.part k.lnum, items with
  | some L, first :: _ =>
    let lost (s : State) : State := items.foldl (fun s _ => s.bumpCascade L.reader k.casc 0x0C) s
    let found := s.cascadeAt L.reader 0 0 k.casc.toNat k.rung
    let s := s.reachRung L.reader k.casc.toNat k.rung
    match found with
    | .ok { rung := some r, .. } =>
      let (index, s) := if L.r.det then (first.num, s) else s.takeIndex k.part k.lnum
      let depth := items.foldl (fun d x => max d x.depth) 0
      -- it is the next rung group of its launch unless one of its rung or of a higher one waits (R328)
      let later := s.pending.any fun x => x.part == k.part && x.lnum == k.lnum && !x.task && decide (k.rung ≤ x.rung)
      let s := if later then s else s.modLaunch k.part k.lnum fun L => { L with sinceRung := s.gt }
      { s with nextId := s.nextId + 1, pending := s.pending ++
          [{ id := s.nextId, part := k.part, lnum := k.lnum, task := false, rung := k.rung, index, entry := r.entry, xblk := r.xblk,
             snrows := r.snrows, basin := r.basin, depth, near := first.near, after := 0,
             lanes := items.map fun x =>
               (x.frame, some { casc := k.casc, rung := k.rung, index := x.index, depth := x.depth }) }] }
    | _ => lost s
  | _, _ => s

/-- An item delivered to a packer. Items of one cycle are ordered by core, group and lane, so that the packer launches 32 that wait at the end of
the cycle (R217, see `State.launchFull`). -/
def State.deliver (s : State) (p : Nat) (lnum : Word) (x : Item) : State :=
  let det := ((s.launch? p lnum).map (·.r.det)).getD false
  let (num, s) := if det then s.takeIndex p lnum else (0, s)
  let x := { x with num }
  let old := s.packers.find? (·.isFor p lnum x.casc x.rung)
  let k : Packer := old.getD { part := p, lnum, casc := x.casc, rung := x.rung, items := [] }
  let rest := s.packers.filter fun k => !k.isFor p lnum x.casc x.rung
  { s with packers := rest ++ [{ k with items := insertItem k.items x }] }

/-- The packers launch their 32 oldest items, as often as so many wait (R217). -/
def State.launchFull (s : State) : State :=
  s.packers.zipIdx.foldl (fun s (k, j) =>
    let n := k.items.length / 32
    if n = 0 then s
    else
      (List.range n).foldl (fun s x => s.launchItems k ((k.items.drop (32 * x)).take 32))
        { s with packers := s.packers.modify j fun k => { k with items := k.items.drop (32 * n) } }) s

/-- A thread or a unit not yet placed holds an item of the rung. -/
def Held.of (h : Option Held) (casc : Dword) (rung : Nat) : Bool :=
  match h with
  | some h => h.casc == casc && h.rung == rung
  | none => false

/-- The rung is empty for a launch (R217). -/
def State.rungEmpty (s : State) (p : Nat) (lnum : Word) (casc : Dword) (rung : Nat) : Bool :=
  let mine (T : Team) : Bool := T.part == p && T.lnum == lnum
  let holds (T : Team) : Bool := T.groups.any fun G => (lanesOf G.live).any fun l => Held.of (G.thread l).held casc rung
  !(s.packers.any fun k => k.isFor p lnum casc rung && !k.items.isEmpty) &&
    !(s.pending.any fun x => x.part == p && x.lnum == lnum && x.lanes.any fun (_, h) => Held.of h casc rung) &&
    !(s.teams.any fun T => mine T && holds T) && !(s.saved.any fun v => mine v.team && holds v.team)

/-- The team's threads have issued a CSUB to a cascade that waits for its turn in a commit. -/
def State.csubTurn (s : State) (T : Team) (casc : Dword) : Bool :=
  T.numbered.any fun (g, G) => (lanesOf G.live).any fun l =>
    let th := G.thread l
    th.wait == .turn && match s.wordAt T g G [l] th.pc with
      | .ok w => match instrOf w with
        | .csub _ _ _ a off _ => s.ea T (T.ln g l) .global a off == casc.toNat
        | _ => false
      | .error _ => false

/-- A CSUB of a launch to a cascade has not been performed. -/
def State.csubInFlight (s : State) (p : Nat) (lnum : Word) (casc : Dword) : Bool :=
  let mine (T : Team) : Bool := T.part == p && T.lnum == lnum
  (s.flights.any fun f => (match f.op with | .csub .. => true | _ => false) && f.lanes.any (fun a => a.todo && a.va == casc) &&
    (s.team? f.team).any mine) ||
  s.teams.any fun T => mine T && s.csubTurn T casc

/-- The waiting items of a packer form a partial group now (R217). A record that is not valid says no MAXWAIT. -/
def State.partialDue (s : State) (k : Packer) : Bool :=
  decide (k.items.length < 32) && match k.items.head?, s.launch? k.part k.lnum with
  | some x, some L =>
    (match s.cascadeAt L.reader 0 0 k.casc.toNat k.rung with
     | .ok { rung := some r, .. } => x.time + r.maxwait ≤ s.gt
     | _ => false) ||
    ((List.range k.rung).all (fun r => s.rungEmpty k.part k.lnum k.casc r) && !s.csubInFlight k.part k.lnum k.casc)
  | _, _ => false

/-- PARTIAL_GROUP (R217): the packer launches every waiting item. -/
def execPartialGroup (pk : Nat) (s : State) : Out :=
  match s.packers[pk]? with
  | none => .next s
  | some k =>
    if s.partialDue k then
      .next ({ s with packers := s.packers.modify pk fun k => { k with items := [] } }.launchItems k k.items)
    else .next s

/-! ## CSUB (R216) -/

/-- Registers of a frame of `n` registers that exist from one on. -/
def frameRegs (b : VReg) (n : Nat) : List Nat := (List.range n).map (b.toNat + ·)

/-- The words of registers that exist; the others read as zero and are never part of an item. -/
def State.words (s : State) (ln : Ln) (regs : List Nat) : List Word := regs.map fun n => if n < 256 then (s.rd ln n).val else 0#32

/-- CSUB of a lane performed at the home of the header (R216): the item's index and its delivery, or the failure where header or rung 0
record is not valid. -/
def State.csubStep (s : State) (T : Team) (f : Flight) (a : LaneAcc) (p : PReg) (d : VReg) : StepOut :=
  let answer (s : State) (v : Word) (ok : Bool) : StepOut :=
    .done ((s.wr T.id f.group a.lane d.toNat v false).stepPred T f a p ok) false
  match s.cascadeAt T f.group a.lane a.va.toNat 0 with
  | .error c => .fault c a.va.toNat
  | .ok { rung := some r, .. } =>
    let k := s.accKey a + 4
    let i := s.bytes k 4
    let s := (s.reachRung T a.va.toNat 0).stepWrite T f a.lane a.ia k 4 ((i + 1) % 2 ^ 32)
    let frame := (List.range r.frame).map fun j => (BitVec.ofNat 32 (a.data.toNat / 2 ^ (32 * j)) : Word)
    answer (s.deliver T.part T.lnum
      { casc := a.va, rung := 0, index := BitVec.ofNat 32 i, frame, time := s.gt, core := T.core, group := f.group,
        lane := a.lane, depth := T.depth, near := T.core :: T.cores, num := 0 }) (BitVec.ofNat 32 i) true
  | .ok _ => answer (s.reachRung T a.va.toNat 0) allOnes false

/-! ## The steps of an instruction -/

/-- What the steps of an instruction have come to so far: the state, the faults (lane, code, address), the lanes that have set OVER of a
queue, and whether one cannot be performed yet. -/
structure StepRun where
  s : State
  bad : List (Nat × Code × Nat)
  full : List (Nat × Nat)
  busy : Bool

def State.stepOf (s : State) (T : Team) (f : Flight) (a : LaneAcc) : StepOut :=
  match f.op with
  | .qenq p => s.qenqStep T f a p
  | .qdeq p d => s.qdeqStep T f a p d
  | .csub p d => s.csubStep T f a p d
  | _ => .done s false

/-- The lanes take their steps in ascending order (R213, R216). -/
def State.runSteps (s : State) (T : Team) (f : Flight) : StepRun :=
  f.lanes.foldl (fun r a => match r.s.stepOf T f a with
    | .done s full => { r with s, full := if full then r.full ++ [(a.lane, a.ia)] else r.full }
    | .fault c va => { r with bad := r.bad ++ [(a.lane, c, va)] }
    | .busy => { r with busy := true }) { s, bad := [], full := [], busy := false }

/-- The destination that the record of a fault names, and its width. -/
def AccOp.flt : AccOp → Word × Nat
  | .qenq p => (dstQ p, 1)
  | .qdeq _ d => (dstV d.toNat, 4)
  | .csub _ d => (dstV d.toNat, 1)
  | _ => (allOnes, 1)

/-- A list of pages joined to a batch of at most eight (R364). -/
def joinPages (batch pages : List Nat) : List Nat := (pages.foldl (fun b p => if b.contains p then b else b ++ [p]) batch).take 8

/-- A further XLATE of a team that is being stopped for one adds its page (R364). -/
def State.addPages (s : State) (t : Nat) (pages : List Nat) : State :=
  s.modTeam t fun T =>
    match T.st with
    | .stopping r => if r.code = 5#8 then { T with st := .stopping { r with pages := joinPages r.pages pages } } else T
    | _ => T

/-- The steps of an instruction meet a fault: nothing is performed in any lane, and the instruction raises (R176, R193). -/
def State.stepFault (s : State) (T : Team) (f : Flight) (c : Code) (bad : List (Nat × Nat)) : State :=
  let pages := if c = .xlate then s.lostPages T (bad.map (·.2)) 32 else []
  let s1 := f.lanes.foldl (fun s a => s.modThread T.id f.group a.lane fun th =>
    if th.wait == .access f.id then { th with wait := .none } else th) (s.dropFlights (·.id == f.id))
  if T.st != .run then s1.addPages T.id pages
  else
    s.raisingIn T.id [f.group] (s1.raise
      { code := c, t := T.id, g := f.group, lanes := maskOf (bad.map (·.1)), pc := f.pc, dst := f.op.flt.1, width := f.op.flt.2,
        va := BitVec.ofNat 64 ((bad.head?.map (·.2)).getD 0), pages })

/-- The steps of an instruction performed as one (R213, R216; DEDUCED, log entry 18): its lanes go on, and where one has set OVER the group is
held out of the active set until that queue's OVER clears (R214). -/
def State.performSteps (s : State) (T : Team) (f : Flight) : State :=
  let r := s.runSteps T f
  match firstOf (r.bad.map (·.2.1)) with
  | some c => s.stepFault T f c ((r.bad.filter (·.2.1 == c)).map fun (l, _, va) => (l, va))
  | none =>
    if r.busy then s
    else
      let ls := f.lanes.map (·.lane)
      let u := { r.s with flights := r.s.flights.filter (·.id != f.id) }.nextLanes T.id f.group ls
      match r.full with
      | [] => u
      | (_, ia) :: _ => ls.foldl (fun u l => u.holdOut T.id f.group [l] (.queueHold (BitVec.ofNat 64 ((r.full.lookup l).getD ia)))) u

/-- The address of the object of a step. One behind the external aperture has no home slice at which the step could be performed: XLATE,
since R193 admits no ATOMPATH (DEDUCED, log entry 18). -/
def State.stepAt (s : State) (op : AccOp) (i : Iss) (a : VReg) (off : COp) (T : Team) (ln : Ln) : Nat × Except Code Place :=
  match s.atomAt op true 64 a off (match s.team? s.cur.team with | some T => s.actors T i | none => []) T ln with
  | (ea, .error .atompath) => (ea, .error .xlate)
  | r => r

/-- QENQ, now or at the team's turn. -/
def State.qenqNow (s : State) (turn : Bool) (i : Iss) (p : PReg) (a : VReg) (off : COp) (b : VReg) : Out :=
  let addr := baseRegs .global a ++ off.regs
  s.ordered i { src := addr ++ span b 4, flt := dstQ p } addr (fun _ _ => false) (s.stepAt (.qenq p) i a off)
    fun s T accs =>
      s.atTurn T turn (accs.map (·.1)) <|
        let g := s.curGroup
        let f := flightOf s T g (.qenq p) 64 0 (accs.map fun (ln, x) => stepLane ln x (s.data ln b 4))
        if turn then .next (s.performSteps T f) else .next (s.sendStep T g f)

/-- QENQ (R213). -/
def execQenq (i : Iss) (p : PReg) (a : VReg) (off : COp) (b : VReg) (s : State) : Out := s.qenqNow false i p a off b

/-- QDEQ, now or at the team's turn: its registers are pending until the step is performed (R20, R213). -/
def State.qdeqNow (s : State) (turn : Bool) (i : Iss) (p : PReg) (d a : VReg) (off : COp) : Out :=
  let addr := baseRegs .global a ++ off.regs
  s.ordered i { src := addr, dst := span d 4, flt := dstV d.toNat, width := 4 } addr (fun _ _ => false)
    (s.stepAt (.qdeq p d) i a off) fun s T accs =>
      s.withRows T (accs.map (·.1)) (span d 4) fun s1 =>
        s1.atTurn T turn (accs.map (·.1)) <|
          let g := s.curGroup
          let lane (ln : Ln) (x : Place) : LaneAcc := { stepLane ln x 0#512 with dst := s1.landing T.id ln.g ln.l d.toNat }
          let f := { flightOf s T g (.qdeq p d) 64 4 (accs.map fun (ln, x) => lane ln x) with taint := false }
          if turn then .next (s1.performSteps T f)
          else
            let s2 := accs.foldl (fun s (ln, _) => (List.range 4).foldl (fun s j => s.pendReg T.id ln.g ln.l (d.toNat + j)) s) s1
            .next (s2.sendStep T g f)

/-- QDEQ (R213). -/
def execQdeq (i : Iss) (p : PReg) (d a : VReg) (off : COp) (s : State) : Out := s.qdeqNow false i p d a off

/-- The frame length that rung 0 of the cascade at a lane's address has when CSUB issues; 0 where it cannot be read. -/
def State.frameLen (s : State) (T : Team) (ln : Ln) (ea r : Nat) : Nat :=
  match s.cascadeAt T ln.g ln.l ea r with
  | .ok { rung := some g, .. } => g.frame
  | _ => 0

/-- A frame register is pending in one of the lanes: the word waits (R20, R193). -/
def State.framePending (s : State) (frames : List (Ln × List Nat)) : Bool := frames.any fun (ln, rs) => rs.any fun n => (s.rd ln n).pend

/-- The address of CSUB's header, and the faults of reading the object (R176, R193). -/
def State.csubAt (s : State) (p : PReg) (d : VReg) (i : Iss) (a : VReg) (off : COp) (T : Team) (ln : Ln) : Nat × Except Code Place :=
  match s.stepAt (.csub p d) i a off T ln with
  | (ea, .ok x) => (ea, match s.cascadeAt T ln.g ln.l ea 0 with | .error c => .error c | .ok _ => .ok x)
  | r => r

/-- CSUB, now or at the team's turn. -/
def State.csubNow (s : State) (turn : Bool) (i : Iss) (p : PReg) (d a : VReg) (off : COp) (b : VReg) : Out :=
  match s.team? s.cur.team with
  | none => .fault .noIssuer
  | some T0 =>
    let addr := baseRegs .global a ++ off.regs
    let ea (ln : Ln) : Nat := s.ea T0 ln .global a off
    let known (ln : Ln) : Bool := addr.all fun r => (ln.key? r).isSome && !(s.rd ln r).poison
    let len (ln : Ln) : Nat := if known ln then s.frameLen T0 ln (ea ln) 0 else 0
    let frames := (s.actors T0 i).map fun ln => (ln, frameRegs b (len ln))
    let nulls := (frames.filter fun (ln, rs) => rs.any fun n => n < 256 && (ln.key? n).isNone).map (·.1)
    let bad := (frames.filter fun (ln, rs) => (addr ++ rs).any fun n => (s.rd ln n).poison).map (·.1)
    let n : Names := { src := addr, dst := [d.toNat], flt := dstV d.toNat, reach := 96 }
    let tooLong (_ : Team) (ln : Ln) : Bool := decide (256 < b.toNat + len ln)
    let clean := !((s.actors T0 i).any fun ln => tooLong T0 ln) && (nullLanes (s.actors T0 i) (addr ++ [d.toNat])).isEmpty
    let fail (code : Code) (hit : List Ln) : Out :=
      .next (s.raising T0.id s.curGroup (s.raise
        { s.faultOf code hit n with va := BitVec.ofNat 64 (((hit.head?.filter known).map ea).getD 0) }))
    if clean && s.framePending frames then .next s
    else if clean && !nulls.isEmpty then fail .unallot nulls
    else if clean && !bad.isEmpty then fail .dataerr bad
    else
      s.ordered i n addr tooLong (s.csubAt p d i a off) fun s T accs =>
        s.withRows T (accs.map (·.1)) [d.toNat] fun s1 =>
          s1.atTurn T turn (accs.map (·.1)) <|
            let g := s.curGroup
            let frame (ln : Ln) : BitVec 512 :=
              BitVec.ofNat 512 (fromWords ((s.words ln (frameRegs b 16)).map (·.toNat)))
            let f := flightOf s T g (.csub p d) 64 0 (accs.map fun (ln, x) => stepLane ln x (frame ln))
            if turn then .next (s1.performSteps T f) else .next (s1.sendStep T g f)

/-- CSUB (R216). -/
def execCsub (i : Iss) (p : PReg) (d a : VReg) (off : COp) (b : VReg) (s : State) : Out := s.csubNow false i p d a off b

/-- The places that a thread's ESC or CRET reaches for a rung: the header, the rung's record, and further ones. -/
def rungPlaces (casc r : Nat) (more : List (Nat × Nat × Need)) : List (Nat × Nat × Need) :=
  (casc, 0x40, needR) :: (casc + 0x40 + 32 * r, 32, needR) :: more

/-- The fault of an instruction whose lanes reach several places: VA is the first place of the lowest faulting lane that fails, and the
pages are those missing (R359). -/
def State.placeFault (s : State) (T : Team) (code : Code) (hit : List Ln) (n : Names) (places : Ln → List (Nat × Nat × Need)) : Raise :=
  let fails (x : Nat × Nat × Need) : Bool :=
    let (va, len, need) := x
    (List.range ((len + 31) / 32)).any fun j => match s.vaKey T (va + 32 * j) need with
      | .error c => c == code
      | .ok _ => false
  let va := (hit.head?.bind fun ln => ((places ln).find? fails).map (·.1)).getD 0
  let pages := if code = .xlate then
      ((hit.map fun ln => ((places ln).filter fails).map fun (va, len, _) => s.missing T va len).flatten.flatten.eraseDups).take 8
    else []
  { s.faultOf code hit n with va := BitVec.ofNat 64 va, pages }

/-! ## ESC (R218) -/

/-- What ESC comes to in a lane: a fault, the last rung, or the frame's registers. -/
inductive EscDo where
  | bad (c : Code)
  | last
  /-- A register of the frame is pending (R20, R193). -/
  | wait
  | go (h : Held) (regs : List Nat)
  deriving DecidableEq, Repr

def State.escDo (s : State) (T : Team) (ln : Ln) (a : VReg) : EscDo :=
  match ln.th.held with
  | none => .bad .illop
  | some h =>
    match s.cascadeAt T ln.g ln.l h.casc.toNat (h.rung + 1) with
    | .error c => .bad c
    | .ok { header := none, .. } => .bad .illop
    | .ok { header := some (nrung, _), rung } =>
      if h.rung + 1 = nrung then .last
      else
        match rung with
        | none => .bad .illop
        | some r =>
          let regs := frameRegs a r.frame
          if regs.any (256 ≤ ·) then .bad .illop
          else if regs.any fun n => (ln.key? n).isNone then .bad .unallot
          else if regs.any fun n => (s.rd ln n).pend then .wait
          else if regs.any fun n => (s.rd ln n).poison then .bad .dataerr
          else .go h regs

/-- A lane's ESC carried out: the item goes to the next packer, and the thread ends. -/
def State.escLane (s : State) (T : Team) (ln : Ln) (p : PReg) (d : EscDo) : State :=
  match d with
  | .go h regs =>
    let s := s.reachRung T h.casc.toNat (h.rung + 1)
    let x : Item := { casc := h.casc, rung := h.rung + 1, index := h.index, frame := s.words ln regs, time := s.gt,
                      core := T.core, group := ln.g, lane := ln.l, depth := h.depth, near := T.core :: T.cores, num := 0 }
    (s.modThread ln.t ln.g ln.l fun th => { th with held := none }).deliver T.part T.lnum x
  | _ =>
    let s := match ln.th.held with | some h => s.reachVa T h.casc.toNat | none => s
    s.setPred ln p false

/-- ESC, now or at the team's turn. -/
def State.escNow (s : State) (turn : Bool) (i : Iss) (p : PReg) (a : VReg) : Out :=
  match s.team? s.cur.team with
  | none => .fault .noIssuer
  | some T =>
    let lns := s.actors T i
    let g := s.curGroup
    let ds := lns.map fun ln => (ln, s.escDo T ln a)
    match firstOf (ds.filterMap fun (_, d) => match d with | .bad c => some c | _ => none) with
    | some code =>
      let hit := (ds.filter fun (_, d) => d == .bad code).map (·.1)
      let places (ln : Ln) : List (Nat × Nat × Need) := match ln.th.held with
        | some h => rungPlaces h.casc.toNat (h.rung + 1) []
        | none => []
      .next (s.raising T.id g (s.raise (s.placeFault T code hit { flt := dstQ p } places)))
    | none =>
      if ds.any fun (_, d) => d == .wait then .next s
      else s.atTurn T turn lns <|
        let gone := (ds.filter fun (_, d) => match d with | .go .. => true | _ => false).map (·.1)
        let s1 := ds.foldl (fun s1 (ln, d) => s1.escLane T ln p d) s
        let s1 := s1.retire (gone.map fun ln => (ln.g, ln.l))
        .next (s.prompted (s1.exitLanes T.id g (gone.map (·.l)) false) T.id)

/-- ESC (R218). -/
def execEsc (i : Iss) (p : PReg) (a : VReg) (s : State) : Out := s.escNow false i p a

/-! ## CRET (R219) -/

/-- What CRET comes to in a lane: a fault, or the item and the IA of its result with its size; `none` while a register of the result is
pending (R20, R193). -/
def State.cretDo (s : State) (T : Team) (ln : Ln) (a : VReg) : Except Code (Option (Held × Nat × Nat)) :=
  match ln.th.held with
  | none => .error .illop
  | some h =>
    match s.cascadeAt T ln.g ln.l h.casc.toNat h.rung with
    | .error c => .error c
    | .ok { header := some (_, size), rung := some r } =>
      let regs := span a (size / 4)
      if a.toNat % (size / 4) != 0 then .error .illop
      else if regs.any fun n => (ln.key? n).isNone then .error .unallot
      else if regs.any fun n => (s.rd ln n).pend then .ok none
      else if regs.any fun n => (s.rd ln n).poison then .error .dataerr
      else
        let va := (r.results + h.index.toNat * size) % 2 ^ 64
        match firstFault [s.vaKey T va needW, s.vaKey T h.casc.toNat needRW] with
        | .error c => .error c
        | .ok _ =>
          match s.translate T.part (s.ctxOf T) va needW with
          | some ia => .ok (some (h, ia, size))
          | none => .error .perm
    | .ok _ => .error .illop

/-- The lane's result as a store, and its DONE increment. -/
def State.cretAccs (s : State) (T : Team) (ln : Ln) (a : VReg) (h : Held) (ia size : Nat) : LaneAcc × LaneAcc :=
  let casc := (s.translate T.part (s.ctxOf T) h.casc.toNat needRW).getD 0
  ({ lane := ln.l, va := 0#64, ia, keys := (s.iaKey ia).toList, data := s.data ln a (size / 4),
     dst := none, val := none, todo := true },
   { lane := ln.l, va := h.casc, ia := casc + 8, keys := (s.iaKey (casc + 8)).toList, data := 0#512,
     dst := none, val := none, todo := true })

/-- Two flights of CRET leave the core; those on shared lines of a deterministic launch are staged (R343). -/
def State.sendCret (s : State) (T : Team) (g size : Nat) (accs : List (Ln × LaneAcc × LaneAcc)) : State :=
  let shared (a : LaneAcc) : Bool := s.detClass T a.ia == .shared
  let own (op : AccOp) (size : Nat) (lanes : List LaneAcc) (s : State) : State :=
    let lanes := lanes.filter fun a => !shared a
    if lanes.isEmpty then s else s.addFlight { flightOf s T g op size 0 lanes with confirmed := true }
  -- a seventeenth entry of a thread is staged in the next round (R344)
  let stage (op : AccOp) (size : Nat) (lanes : List LaneAcc) (s : State) : State :=
    (List.range 2).foldl (fun s r =>
      let lanes := lanes.filter fun a => shared a && (s.thread T.id g a.lane).staged / stageMax == r
      if lanes.isEmpty then s else s.addFlight { flightOf s T g op size 0 lanes with confirmed := true, staged := true, later := r }) s
  let rs := accs.map (·.2.1)
  let ds := accs.map (·.2.2)
  let s := own (.store false) size rs (stage (.store false) size rs s)
  let s := s.countStaged T.id g ((rs.filter shared).map (·.lane))
  own .cret 4 ds (stage .cret 4 ds s)

/-- CRET (R219): the thread ends once its result and its earlier stores are released and DONE has advanced; in a
deterministic launch these are its last entries of the round, and it ends at once. -/
def execCret (i : Iss) (a : VReg) (s : State) : Out :=
  match s.team? s.cur.team with
  | none => .fault .noIssuer
  | some T =>
    let lns := s.actors T i
    let g := s.curGroup
    let ds := lns.map fun ln => (ln, s.cretDo T ln a)
    match firstOf (ds.filterMap fun (_, d) => match d with | .error c => some c | .ok _ => none) with
    | some code =>
      let hit := (ds.filter fun (_, d) => match d with | .error c => c == code | .ok _ => false).map (·.1)
      let places (ln : Ln) : List (Nat × Nat × Need) := match ln.th.held with
        | some h =>
          let result : List (Nat × Nat × Need) := match s.cascadeAt T ln.g ln.l h.casc.toNat h.rung with
            | .ok { header := some (_, size), rung := some r } => [((r.results + h.index.toNat * size) % 2 ^ 64, size, needW)]
            | _ => []
          rungPlaces h.casc.toNat h.rung (result ++ [(h.casc.toNat, 4, needRW)])
        | none => []
      .next (s.raising T.id g (s.raise (s.placeFault T code hit {} places)))
    | none =>
      let oks := ds.filterMap fun (ln, d) => match d with | .ok (some x) => some (ln, x) | _ => none
      if oks.length < ds.length then .next s
      else
        let sizes := (oks.map fun (_, _, _, size) => size).eraseDups
        let s1 := oks.foldl (fun s1 (_, h, _) => s1.reachRung T h.casc.toNat h.rung) (s.retire (lns.map fun ln => (ln.g, ln.l)))
        let s1 := sizes.foldl (fun s1 size =>
          s1.sendCret T g size ((oks.filter fun (_, _, _, z) => z == size).map fun (ln, h, ia, z) =>
            (ln, s.cretAccs T ln a h ia z))) s1
        if s.isDet T then .next (s.prompted (s1.exitLanes T.id g (lns.map (·.l)) false) T.id)
        else .next (s1.awaitAccess T.id g (s1.nextId - 1) (lns.map (·.l)))

/-- The DONE increment of a lane performed, or dropped with its window in reset (R398); the thread that waits for it ends (R219). -/
def State.performCret (s : State) (T : Team) (f : Flight) (a : LaneAcc) : State :=
  let k := s.accKey a
  let s := if s.windowReset T.part a.ia then s.modPart T.part (·.bump 0x1310)
    else s.stepWrite T f a.lane a.ia k 4 ((s.bytes k 4 + 1) % 2 ^ 32)
  match (s.thread T.id f.group a.lane).wait with
  | .access id => if id == f.id then s.prompted (s.exitLanes T.id f.group [a.lane] false) T.id else s
  | _ => s

end Sys2Proof.Machine
end

