-- ==== Sys2Proof/Machine/Access.lean ====
section
/-! DEFINITION. Accesses in flight (R171 to R191, R300, R362 to R365): confirmation, run-ahead, performance at the home, landing,
the external aperture (R390, R391), and the waits of fences and NAP. -/

namespace Sys2Proof.Machine

open Sys2Proof

/-! ## Flights -/

def State.flight? (s : State) (id : Nat) : Option Flight := s.flights.find? (·.id == id)

def State.modFlight (s : State) (id : Nat) (f : Flight → Flight) : State :=
  { s with flights := s.flights.map fun x => if x.id == id then f x else x }

def Flight.lane? (f : Flight) (l : Nat) : Option LaneAcc := f.lanes.find? (·.lane == l)

/-- A lane's part replaced. -/
def State.modLane (s : State) (id l : Nat) (g : LaneAcc → LaneAcc) : State :=
  s.modFlight id fun f => { f with lanes := f.lanes.map fun a => if a.lane == l then g a else a }

/-- A lane's part is over; a flight without lanes is over. -/
def State.endLane (s : State) (id l : Nat) : State :=
  { s with flights := (s.flights.map fun x =>
      if x.id == id then { x with lanes := x.lanes.filter (·.lane != l) } else x).filter fun x => x.id != id || !x.lanes.isEmpty }

/-! ## Confirmation (R362) -/

/-- The lane's page is known: it lies in the external aperture, a leaf holds it, or its window is in reset, so that the access
settles in error (R398). -/
def State.found (s : State) (p ia : Nat) : Bool := (apertureOf ia).isSome || s.windowReset p ia || (s.walk ia).isSome

/-- The partition of a flight's team. -/
def State.partOf (s : State) (f : Flight) : Nat := ((s.owner? f.team).map (·.part)).getD 8

/-- The speculation entry of a group dropped, once every access issued under it is confirmed (R362). While the team is being stopped, or a
group of it runs ahead, the entry stays for the rollback (R364, R367). -/
def State.dropSpec (s : State) (t g : Nat) : State :=
  match s.team? t, s.group? t g with
  | some T, some G =>
    match G.spec with
    | none => s
    | some sp =>
      if T.st != .run || (T.groups.any fun H => (H.spec.map (·.runAhead)).getD false) || s.unconfirmed t g then s
      else
        (sp.caps.foldl (fun s (l, c) => s.releaseCapture T.core G.sub l c) s).modGroup t g fun G => { G with spec := none }
  | _, _ => s

/-- Threads that waited for the confirmation of an access go on at the following word, once their group has no unconfirmed access; where a
result is staged they have closed the round (R344, R362). -/
def State.wakeAccess (s : State) (t g : Nat) : State :=
  match s.group? t g with
  | none => s
  | some G =>
    if s.unconfirmed t g then s
    else
      let ls := allLanes.filter fun l => (G.thread l).live && match (G.thread l).wait with
        | .access id => !(s.flights.any fun f => f.id == id && f.op.steps)
        | _ => false
      if ls.isEmpty then s else (s.nextLanes t g ls).closeStaged t g ls

/-- ACCESS_CONFIRMED (R362): every lane's page has been found. -/
def execAccessConfirmed (id : Nat) (s : State) : Out :=
  match s.flight? id with
  | none => .next s
  | some f =>
    if f.confirmed || !f.lanes.all fun a => s.found (s.partOf f) a.ia then .next s
    else
      let keys (a : LaneAcc) : List Nat := (s.iaKey a.ia).toList
      let s1 := s.modFlight id fun f => { f with confirmed := true, lanes := f.lanes.map fun a => { a with keys := keys a } }
      let s1 := s1.wakeAccess f.team f.group
      .next (f.lanes.foldl (fun s1 (a : LaneAcc) => s1.cache a.ia) (s1.dropSpec f.team f.group))

/-! ## Run-ahead (R363, R364) -/

/-- Destinations of some lanes of a flight become unknown, and no value is awaited for them any more (R363). -/
def State.unknownLanes (s : State) (f : Flight) (lanes : List LaneAcc) : State :=
  let w : Word × Nat := match s.team? f.team, s.group? f.team f.group with
    | some T, some G => match s.wordAt T f.group G (lanes.map fun a => a.lane) f.pc with
        | .ok w => fltOf (instrOf w)
        | .error _ => (allOnes, 1)
    | _, _ => (allOnes, 1)
  lanes.foldl (fun s a =>
    match a.dst with
    | none => s
    | some (k, pos) =>
      let r := s.row k
      let s := s.putRow k { r with pend := (List.range f.nreg).foldl (fun b j => setBit b (pos + j) false) r.pend }
      if w.1.toNat < 256 then
        s.modThread f.team f.group a.lane fun th =>
          { th with unkV := (List.range f.nreg).foldl (fun b j => setBit b (w.1.toNat + j) true) th.unkV }
      else s) s

/-- The group of a team that runs ahead. -/
def Team.aheadGroup (T : Team) : Option Nat := (T.numbered.find? fun (_, G) => (G.spec.map (·.runAhead)).getD false).map (·.1)

/-- Two flights are of one instruction: one is the other, or they are the two parts of a write of a deterministic launch (R343). -/
def Flight.sameWord (f x : Flight) : Bool :=
  x.id == f.id || (x.team == f.team && x.group == f.group && ((x.mate && x.id + 1 == f.id) || (f.mate && f.id + 1 == x.id)))

/-- An instruction whose access has faulted is withdrawn whole: its threads, where they wait at it, execute it again. -/
def State.withdraw (s : State) (f : Flight) : State :=
  let gone := s.flights.filter f.sameWord
  let s1 := s.dropFlights f.sameWord
  gone.foldl (fun s1 x => (x.lanes.foldl (fun s1 a => s1.modThread x.team x.group a.lane fun th => match th.wait with
    | .access k => if x.awaited k then { th with wait := .none } else th
    | _ => th) s1).recount x.team x.group (x.lanes.map (·.lane))) s1

/-- The lanes of an instruction's access whose pages are not found, ascending (R176). -/
def State.lostLanes (s : State) (f : Flight) : List LaneAcc :=
  let lost := ((s.flights.filter f.sameWord).map fun x => x.lanes.filter fun a => !s.found (s.partOf f) a.ia).flatten
  allLanes.filterMap fun l => lost.find? (·.lane == l)

/-- RUN_AHEAD (R363): an access of the group returns XLATE. Without a speculation entry it is raised at once (R364); with one
the group runs ahead; a step of a queue or cascade object ends the run-ahead where it stands. Where another group of the team runs ahead
already, or the team is being stopped, the page joins the batch (R364). -/
def execRunAhead (id : Nat) (s : State) : Out :=
  match s.flight? id with
  | none => .next s
  | some f =>
    let lost := s.lostLanes f
    if f.confirmed || lost.isEmpty then .next s
    else
      match s.team? f.team with
      | none => .next (s.dropFlights (·.id == id))
      | some T =>
        let pages := (lost.map fun a => pageOf a.ia).eraseDups
        let va := (lost.head?.map (·.va)).getD 0#64
        let lanes := maskOf (lost.map fun a => a.lane)
        let (dst, width) := match s.group? f.team f.group with
          | some G => match s.wordAt T f.group G (lost.map fun (a : LaneAcc) => a.lane) f.pc with
              | .ok w => fltOf (instrOf w)
              | .error _ => (allOnes, 1)
          | none => (allOnes, 1)
        let first := T.aheadGroup
        if T.st != .run then .next ((s.withdraw f).addPages f.team pages)
        else if first.any (· != f.group) then
          let g := first.getD 0
          let s1 := (s.withdraw f).modGroup f.team g fun G =>
            { G with spec := G.spec.map fun sp => { sp with pages := joinPages sp.pages pages } }
          if ((s1.group? f.team g).bind (·.spec)).any fun sp => 8 ≤ sp.pages.length then .next (s1.endRunAhead f.team g) else .next s1
        else
          match (s.group? f.team f.group).bind (·.spec) with
          | none =>
            .next ((s.withdraw f).systemFault
              { code := .xlate, t := f.team, g := f.group, lanes, pc := f.pc, dst, width, va, pages := pages.take 1 })
          | some sp =>
            let sp1 : Spec := if sp.runAhead then { sp with pages := joinPages sp.pages pages }
              else { sp with runAhead := true, pages := pages.take 8, words := 0, pc := f.pc, lanes, dst, va }
            let s1 := (s.flights.filter f.sameWord).foldl (fun s1 x =>
              s1.unknownLanes x (x.lanes.filter fun a => !s.found (s.partOf f) a.ia)) s
            let keep (x : Flight) : Flight :=
              if f.sameWord x then { x with confirmed := true, lanes := x.lanes.filter fun a => s.found (s.partOf f) a.ia } else x
            let s1 := { s1 with flights := (s1.flights.map keep).filter fun x => !x.lanes.isEmpty }
            let s1 := s1.modGroup f.team f.group fun G => { G with spec := some sp1 }
            if sp1.pages.length ≥ 8 || f.op.steps then .next (s1.endRunAhead f.team f.group) else .next s1

/-! ## The external aperture (R390, R391) -/

/-- A request sent out by the I/O die. -/
def State.sendOut (s : State) (p ia : Nat) (op : AccOp) (bytes : List Byte) (len : Nat) (flight : Option (Nat × Nat))
    (cmd : Option Nat) (team : Nat) : State :=
  match apertureOf ia with
  | none => s
  | some (k, a, low) =>
    let pt := s.part k
    let off := 0x1200 + 16 * a
    { s with
      outbox := s.outbox ++
        [{ id := s.nextId, part := p, win := k, path := pt.fld off 1 2, link := pt.fld off 3 4,
           addr := pt.fld (off + 8) 40 24 * 2 ^ 40 + low, op, bytes, len, flight, cmd, team,
           dead := (pt.fld off 1 2 != 2 && !s.busMaster k (pt.fld off 1 2)) || s.windowReset p ia }],
      nextId := s.nextId + 1 }

/-- The operation is a read-modify-write at one address (R178). -/
def AccOp.locks (op : AccOp) : Bool :=
  match op with
  | .load _ | .store _ => false
  | _ => true

/-- A lane's access through the aperture sent out; an atomic holds its address until its lanes there are done (R178). -/
def State.sendLane (s : State) (T : Team) (f : Flight) (a : LaneAcc) : State :=
  let n := match f.op with
    | .load _ => 0
    | .cas => 2 * f.size
    | _ => f.size
  let s := if f.op.locks then s.modFlight f.id fun f => { f with hot := insertNat f.hot a.ia } else s
  s.sendOut T.part a.ia f.op (listOf n a.data.toNat) f.size (some (f.id, a.lane)) none f.team

/-- Stores that the memory side discards count in XERRCNT (R388, R391). -/
def State.countXerr (s : State) (p : Nat) : State := s.modPart p (·.bump 0x1310)

/-- A read or an atomic through the aperture has brought a lane its value; the other lanes of a load that read the same bytes are served by
the same answer (R172). -/
def State.bring (s : State) (f : Flight) (a : LaneAcc) (v : LaneAcc → BitVec 128) (poison : Bool) : State :=
  let mine (b : LaneAcc) : Bool := b.lane == a.lane || (!f.op.writes && b.todo && b.ia == a.ia)
  s.modFlight f.id fun f => { f with lanes := f.lanes.map fun b => if mine b then { b with val := some (v b, poison), todo := false } else b }

/-- The lock on an address goes on while the flight has further steps there (R178, R316). -/
def State.relock (s : State) (id ia : Nat) (more : Bool) : State :=
  s.modFlight id fun f =>
    let hot := f.hot.filter (· != ia)
    { f with hot := if more || f.lanes.any (fun a => a.todo && a.ia == ia) then ia :: hot else hot }

/-- A lane's outbound access ended in error: a destination is marked poisoned, a write without one is dropped (R391). -/
def State.outFailed (s : State) (p id l : Nat) : State :=
  match s.flight? id, (s.flight? id).bind (·.lane? l) with
  | some f, some a =>
    let s := if a.dst.isSome || f.object then s.bring f a (fun _ => 0#128) true else (s.endLane id l).countXerr p
    if f.op.locks then s.relock id a.ia false else s
  | _, _ => s

/-- The link of a PCIe port carries requests; while it is in recovery they wait in it. -/
def Module.pcieOpen (m : Module) (port : Nat) : Bool := match vget m.pcie port .down with | .up | .recovery => true | _ => false

/-- A request that was refused, or whose link or port is down, ends in error (R387, R391, R394). -/
def State.pathDown (s : State) (r : OutReq) : Bool :=
  if r.dead then true
  else if r.path = 2 then (vget s.m.links r.link { st := .down, recov := 0#16, time := 0 }).st == .down
  else !s.m.pcieOpen r.path

/-! ## Performed at the home (R172, R178, R300) -/

/-- Two lanes of an access that reach the same place. Lanes of one instruction have one size, so that their places are the same or apart. -/
def Flight.same (f : Flight) (a b : LaneAcc) : Bool := if f.remote then a.ia == b.ia else a.keys == b.keys

/-- The lanes of an access still to be performed at the place of one. -/
def Flight.at_ (f : Flight) (a : LaneAcc) : List LaneAcc := f.lanes.filter fun b => b.todo && f.same a b

/-- The lanes that may be performed next: of those that reach one place the lowest (R178). -/
def Flight.heads (f : Flight) : List LaneAcc :=
  f.lanes.filter fun a => a.todo && !(f.lanes.any fun b => b.todo && b.lane < a.lane && f.same a b)

/-- The flight may be performed as far as its group goes: it is confirmed, and so is every access issued before it
(R362). -/
def State.mayGo (s : State) (f : Flight) : Bool := !f.staged && !s.held f

/-- The DONE increment of CRET has the thread's earlier accesses released (R314). -/
def State.stepReady (s : State) (f : Flight) (a : LaneAcc) : Bool :=
  match f.op with
  | .qenq _ | .cret => s.releasedBy f.team f.group a.lane f.id
  | _ => true

/-- A lane may be performed now: the thread's own earlier accesses to its bytes have been, for every lane that reaches its place, and no
other instruction's lanes hold it (R174, R178). -/
def State.laneReady (s : State) (f : Flight) (a : LaneAcc) : Bool :=
  s.stepReady f a &&
    (if (apertureOf a.ia).isSome && f.remote then
      !s.requested f.id a.lane && !s.earlier f a (fun _ => true) && !s.lockedBy f.id a.ia f.size
     else (f.at_ a).all (fun b => !s.earlier f b (fun _ => true)) && !(f.remote && s.lockedBy f.id a.ia f.size))

/-- REACHES_HOME has something to do for the flight. -/
def State.homeReady (s : State) (f : Flight) : Bool :=
  f.op.writes && s.mayGo f &&
    match f.op, s.team? f.team with
    | .qenq _, some T | .qdeq .., some T | .csub .., some T => f.lanes.all (s.laneReady f) && !(s.runSteps T f).busy
    | _, _ => f.heads.any (s.laneReady f)

/-- DATAERR for an atomic without return on a poisoned line (R185): a system fault of the team. -/
def State.atomicLost (s : State) (f : Flight) (a : LaneAcc) : State :=
  match ((s.team? f.team).map fun (T : Team) => T.st) with
  | some TeamSt.run => s.systemFault { code := .dataerr, t := f.team, g := f.group, lanes := maskOf [a.lane], pc := f.pc, va := a.va }
  | some (TeamSt.stopping _) | some TeamSt.inPlace =>
    s.modTeam f.team fun T => { T with late := T.late ++ [(f.group, maskOf [a.lane], f.pc, a.va)] }
  | _ => s

/-- The thread has observed the value of a load, or of an atomic with return, now (R186, R302). -/
def State.observed (s : State) (f : Flight) (l : Nat) : State :=
  s.modThread f.team f.group l fun th => if th.live then { th with lastLoad := max th.lastLoad s.gt } else th

/-- The value that an atomic returns, observed now, or the end of a lane that returns none. -/
def State.atomicDone (s : State) (f : Flight) (a : LaneAcc) (old : Nat) (poison lost : Bool) : State :=
  if a.dst.isSome then
    (s.modLane f.id a.lane fun a => { a with val := some (BitVec.ofNat 128 old, poison), todo := false }).observed f a.lane
  else
    let s := s.endLane f.id a.lane
    if lost then s.atomicLost f a else s

/-- One half of a lane's AB2ADD (R182, R316): the addition to bits 15:0, then that to bits 31:16. -/
def State.b2Half (s : State) (T : Team) (f : Flight) (a : LaneAcc) : State :=
  let h := if a.half then 1 else 0
  let x := a.data.toNat / 2 ^ (16 * h) % 2 ^ 16
  let (_, bad, s) := s.atomicAt T f a (a.ia + 2 * h) 2 fun old => sumIn bf16 old x
  if bad then (s.atomicDone f a 0 true (!s.windowReset T.part a.ia)).relock f.id a.ia false
  else if a.half then (s.endLane f.id a.lane).relock f.id a.ia false
  else (s.modLane f.id a.lane fun a => { a with half := true }).relock f.id a.ia true

/-- A lane of a flight performed at its home; of a store all the lanes that reach its place, of which the highest wins (R172). -/
def State.performLane (s : State) (T : Team) (f : Flight) (a : LaneAcc) : State :=
  match f.op with
  | .load _ | .qenq _ | .qdeq .. | .csub .. => s
  | .store fe => (f.at_ a).foldl (fun s b =>
      (if f.remote then s.storeAt T f b else s.storeLocal T fe b.keys b.data.toNat).endLane f.id b.lane) s
  | .b2add => s.b2Half T f a
  | .cret => (s.performCret T f a).endLane f.id a.lane
  | op =>
    let reset := s.windowReset T.part a.ia
    let (old, bad, s) := s.atomicAt T f a a.ia f.size fun old => op.newValue f.size old a.data
    (s.atomicDone f a old bad (bad && !reset)).relock f.id a.ia false

/-- One of a list of things, chosen freely; nothing is drawn where there is but one. -/
def State.pickOf {α : Type} (s : State) : List α → Option α × State
  | [] => (none, s)
  | [x] => (some x, s)
  | xs => let (n, s) := s.draw; (xs[n % xs.length]?, s)

/-- REACHES_HOME (R300): one place of a store or of an atomic is performed at its home, which of those that may be is free; or the steps of
QENQ, QDEQ or CSUB; or a request goes out through the aperture. -/
def execReachesHome (id : Nat) (s : State) : Out :=
  match s.flight? id with
  | none => .next s
  | some f =>
    match s.owner? f.team with
    | none => .next s
    | some T =>
      if !s.homeReady f then .next s
      else
        match f.op with
        | .qenq _ | .qdeq .. | .csub .. => .next (s.performSteps T f)
        | _ =>
          match s.pickOf (f.heads.filter (s.laneReady f)) with
          | (none, s) => .next s
          | (some a, s) => if (apertureOf a.ia).isSome && f.remote then .next (s.sendLane T f a) else .next (s.performLane T f a)

/-! ## Landing (R20, R177) -/

/-- The value of a lane lands in its registers, whether a thread or only a capture still maps the row (R206). -/
def State.land (s : State) (f : Flight) (a : LaneAcc) (v : BitVec 128) (poison : Bool) : State :=
  (s.landAt a.dst f.nreg v poison).endLane f.id a.lane

/-- The lanes of a load that read one line. They are performed together, so that lanes that read the same bytes receive the same value
(R172). -/
def Flight.lineOf (f : Flight) (a : LaneAcc) : List LaneAcc := f.lanes.filter fun b => b.todo && b.ia / 128 == a.ia / 128

/-- The lanes of a global load at the line of one may be performed now: the thread's earlier accesses to their bytes have been, but for those
staged in a deterministic round and the writes that a run-ahead will withdraw, which the load sees as they stand (R174, R345, R362). -/
def State.loadReady (s : State) (f : Flight) (a : LaneAcc) : Bool :=
  f.confirmed && (f.lineOf a).all fun b => !s.earlier f b fun x => !x.staged && !(x.op.writes && s.ahead x)

/-- A load through the aperture sends the request of a lane now: no lower lane has asked for the same bytes. -/
def State.loadSends (s : State) (f : Flight) (a : LaneAcc) : Bool :=
  !(f.lanes.any fun b => b.todo && b.ia == a.ia && (b.lane < a.lane || s.requested f.id b.lane))

/-- LOAD_LANDS has something to do for the lane. -/
def State.landReady (s : State) (f : Flight) (a : LaneAcc) : Bool :=
  (a.val.isSome && !f.object) || (s.ahead f && f.op.writes && !f.staged && a.dst.isSome) ||
    (match f.op with
     | .load _ => f.remote && a.val.isNone && s.loadReady f a && ((apertureOf a.ia).isNone || s.loadSends f a)
     | _ => false)

/-- The lanes of a load at one line performed at this moment: each has its value, and its thread has observed it (R171, R172, R186). -/
def State.performLoad (s : State) (T : Team) (f : Flight) (sgn : Bool) (lanes : List LaneAcc) : State :=
  let since := (lanes.map fun a => (s.thread T.id f.group a.lane).acqTime).foldl max T.since
  lanes.foldl (fun s a =>
    let (v, p, s) := s.loadAt T f a since
    (s.modLane f.id a.lane fun a => { a with val := some (extendLoad f.size sgn v, p), todo := false }).observed f a.lane) s

/-- LOAD_LANDS (R171, R177): the value of one lane lands. A plain global load is performed in the same step; one through the
aperture sends its request first. In run-ahead an atomic that is held leaves its destination unknown (R363). -/
def execLoadLands (id lane : Nat) (s : State) : Out :=
  match s.flight? id, (s.flight? id).bind (·.lane? lane) with
  | some f, some a =>
    if !s.landReady f a then .next s
    else
      match a.val, s.owner? f.team with
      | some (v, p), _ =>
        .next (if f.remote && (apertureOf a.ia).isNone then s.land f a v p else (s.land f a v p).observed f lane)
      | none, some T =>
        match f.op with
        | .load sgn =>
          if (apertureOf a.ia).isSome then .next (s.sendLane T f a)
          else
            let s := s.performLoad T f sgn (f.lineOf a)
            match (s.flight? id).bind (·.lane? lane) with
            | some b => .next (match b.val with | some (v, p) => s.land f b v p | none => s)
            | none => .next s
        | _ => .next ((s.unknownLanes f [a]).endLane id lane)
      | none, none => .next s
  | _, _ => .next s

/-! ## Outbound requests (R391) -/

def State.outReq? (s : State) (id : Nat) : Option OutReq := s.outbox.find? (·.id == id)

/-- The value of a load through the aperture in each lane that the answer serves: the bytes read, with the thread's own staged accesses over
them (R345). What such an access finds in bytes beside those read is free. -/
def State.outValue (s : State) (f : Flight) (sgn : Bool) (bytes : List Byte) : (LaneAcc → BitVec 128) × State :=
  let laid (low high : Nat) (a : LaneAcc) : BitVec 128 :=
    let lo := a.ia - a.ia % 16
    extendLoad f.size sgn (s.overlay f a lo (listOf (a.ia - lo) low ++ bytes.take f.size ++ listOf (lo + 32 - a.ia - f.size) high))
  if s.flights.any fun x => x.team == f.team && x.group == f.group && x.id < f.id && x.staged && x.op.locks then
    let (low, s1) := s.draw
    let (high, s1) := s1.draw
    (laid low high, s1)
  else (laid 0 0, s)

/-- A request of a lane's access ends well: with the bytes read, or acknowledged. -/
def State.outDone (s : State) (r : OutReq) (bytes : List Byte) : State :=
  match r.flight with
  | none => s
  | some (id, l) =>
    match s.flight? id with
    | none => s
    | some f =>
      match f.lane? l with
      | none => s
      | some a =>
        let s :=
          if a.dst.isSome || f.object then
            match f.op with
            | .load sgn => let (v, s) := s.outValue f sgn bytes; s.bring f a v false
            | _ => s.bring f a (fun _ => BitVec.ofNat 128 (valueOf bytes % 2 ^ (8 * f.size))) false
          else s.endLane id l
        if f.op.locks then s.relock id a.ia false else s

/-- One granule of an engine command through the aperture done (used with `Machine/Engine.lean`): the bytes read become the
source of its move. -/
def Cmd.arrived (c : Cmd) (id : Nat) (bytes : List Byte) (read : Bool) : Cmd :=
  match c.moves.find? (·.req == some id) with
  | none => c
  | some m =>
    if read then
      { c with moves := c.moves.map fun x => if x.req == some id then
          { m with src := .inr (BitVec.ofNat 128 (bytes.foldr (fun (b : Byte) v => b.toNat + 256 * v) 0)), req := none } else x }
    else { c with moves := c.moves.filter (·.req != some id), written := true }

/-- The error of an engine command that its outbound request ended in: 5 TIMEOUT or 8 ABORTED (R256, R391). -/
def Cmd.outFailed (c : Cmd) (timeout : Bool) : Cmd :=
  { c with err := some (c.err.getD (if timeout then 5#7 else 8#7)), moves := [] }

/-- The word that the launch queue engine reads through the aperture arrives, or its read fails (R323, R391); or its completion write is over, and
no more of it is to be done (R325). -/
def Launch.arrived (L : Launch) (id : Nat) (x : OutResult) : Launch :=
  match L.req with
  | some (i, va) =>
    if i == id then
      match L.st with
      | .finishing _ => { L with req := none, noCmpl := true }
      | _ => { L with req := none, got := L.got ++ [(va, match x with
          | .data bytes => some (bytes.foldr (fun (b : Byte) n => b.toNat + 256 * n) 0 % 2 ^ 32)
          | _ => none)] }
    else L
  | none => L

/-- How an outbound request ends. -/
def State.complete (s : State) (r : OutReq) (x : OutResult) : State :=
  let s := { s with outbox := s.outbox.filter (·.id != r.id), launches := s.launches.map (·.arrived r.id x) }
  let cmds (f : Cmd → Cmd) : State :=
    match r.cmd with
    | none => s
    | some c => { s with cmds := s.cmds.map fun x => if x.id == c then f x else x }
  match r.flight, x with
  | some _, .data bytes => s.outDone r bytes
  | some _, .acked => s.outDone r []
  | some (id, l), .error _ => s.outFailed r.part id l
  | none, .data bytes => cmds (·.arrived r.id bytes true)
  | none, .acked => cmds (·.arrived r.id [] false)
  -- a completion write of the launch queue engine is of no command; one that fails is counted as a store is (DEDUCED, log entry 44)
  | none, .error timeout => if r.cmd.isNone && r.op.writes then s.countXerr r.part else cmds (·.outFailed timeout)

/-- OUTBOUND_COMPLETION (R391). -/
def execOutboundCompletion (id : Nat) (r : OutResult) (s : State) : Out :=
  match s.outReq? id with
  | none => .next s
  | some q =>
    -- a read or an atomic with return ends with data, a posted write with an acknowledgement
    let reads := match q.op with
      | .load _ => true
      | _ => match q.flight with | some (id, l) => (((s.flight? id).bind (·.lane? l)).bind (·.dst)).isSome | none => false
    match r with
    | .data _ => if reads then .next (s.complete q r) else .next s
    | .acked => if reads then .next s else .next (s.complete q r)
    | .error _ => .next (s.complete q r)

/-- COMPLETION_TIMEOUT (R391): an outbound request has had no answer. -/
def execCompletionTimeout (id : Nat) (s : State) : Out :=
  match s.outReq? id with
  | none => .next s
  | some q => .next (s.complete q (.error true))

/-- Every request whose path is gone ends in error. -/
def State.failOut (s : State) (p : OutReq → Bool) : State :=
  (s.outbox.filter p).foldl (fun s r => s.complete r (.error false)) s

/-! ## Fences and NAP (R130, R186) -/

/-- The release in a thread is over. -/
def State.fenceDone (s : State) (T : Team) (g l : Nat) : Bool :=
  match (s.thread T.id g l).rel with
  | some q => s.relMet T.id g q && s.wctMet T g q
  | none => false

/-- WCT_PASSED (R186): GT has reached the WCTs that a thread's release waits for, and its accesses are performed; what the fence
held may issue. -/
def execWctPassed (t g l : Nat) (s : State) : Out :=
  match s.team? t with
  | none => .next s
  | some T => if s.fenceDone T g l then .next (s.modThread t g l fun th => { th with rel := none }) else .next s

/-- NAP_END (R130): GT has reached the end of a thread's NAP; the threads of a G-scope NAP go on together. -/
def execNapEnd (t g l : Nat) (s : State) : Out :=
  match s.group? t g with
  | none => .next s
  | some G =>
    let th := G.thread l
    match th.wait with
    | .nap til =>
      if til ≤ s.gt && th.live then
        .next (s.nextLanes t g (allLanes.filter fun j => (G.thread j).live && (G.thread j).wait == .nap til && (G.thread j).pc == th.pc))
      else .next s
    | _ => .next s

end Sys2Proof.Machine
end

