-- ==== Sys2Proof/Machine/Matrix.lean ====
section
/-! DEFINITION. The matrix engine (R221 to R246, R408): what each matrix instruction does at its execution, and what the
matrix unit does with its queue. -/

namespace Sys2Proof.Machine

open Sys2Proof

/-! ## Records (R224 to R228) -/

def recFld (r : RecW) (w lo n : Nat) : Nat := bits (vget r w 0#32).toNat lo n

def recBfmt (r : RecW) : Nat := recFld r 2 0 3
def recAfmt (r : RecW) : Nat := recFld r 2 3 3
def recCbt (r : RecW) : Nat := recFld r 2 6 2
def recBlen (r : RecW) : Nat := recFld r 2 8 7
def recKch (r : RecW) : Nat := recFld r 3 0 16
def recNblk (r : RecW) : Nat := recFld r 3 16 4
def recSoff (r : RecW) : Nat := recFld r 4 0 20
def recTscale (r : RecW) : Word := vget r 5 0#32
def recMxx (r : RecW) : Nat := recFld r 6 0 16

/-- The codebook table that a product with the record reads. -/
def BRead.table (b : BRead) : List (Nat × Nat) := if recBfmt b.img = 6 then [(2, recCbt b.img)] else []

/-- Bytes of a panel (R224). -/
def panelBytes (bfmt : Nat) : Nat := if bfmt = 6 then 1024 else 2048

/-- Scale bytes of a panel (R224). -/
def scaleBytes (bfmt : Nat) : Nat := if bfmt = 5 then 128 else if bfmt = 6 then 64 else 0

/-- Elements of a chunk along K (R66). -/
def chunkLen (bfmt : Nat) : Nat := if bfmt ≤ 1 then 32 else if bfmt ≤ 4 then 64 else 128

/-- The A formats that a B format pairs with (R224). -/
def pairs (bfmt afmt : Nat) : Bool :=
  match bfmt with
  | 0 => afmt == 0
  | 1 => afmt == 1
  | 2 | 3 => afmt == 2 || afmt == 3
  | 4 => afmt == 4
  | _ => afmt == 5

/-- The block length that a B format requires (R224). -/
def blockLen (bfmt : Nat) : Nat := if bfmt = 5 then 32 else if bfmt = 6 then 64 else 0

/-- The slot tag that a B format requires (R224): true for I40. -/
def tagOf (bfmt : Nat) : Bool := bfmt == 4

/-- The reserved bits of an image are 0, every code is assigned and every field lies in its range (R224). R226 lists the first two; that
a field out of its range fails as well is DEDUCED (log entry 61). -/
def imageOk (r : RecW) : Bool :=
  recFld r 0 20 12 == 0 && recFld r 1 21 11 == 0 && recFld r 2 15 17 == 0 && recFld r 3 20 12 == 0 &&
    recFld r 4 20 12 == 0 && recFld r 6 16 16 == 0 && recFld r 7 0 32 == 0 && recFld r 0 0 7 == 0 &&
    recFld r 1 0 7 == 0 && recLen r ≥ 128 && recLen r ≤ Config.slipBytes && recBfmt r != 7 && recKch r ≥ 1 &&
    1 ≤ recNblk r && recNblk r ≤ 12

/-- The tests of SLRSV that an image passes by itself (R226). -/
def recordOk (r : RecW) : Bool :=
  let p := recKch r * recNblk r
  let f := recBfmt r
  imageOk r && pairs f (recAfmt r) && recBlen r == blockLen f && recBase r + recLen r ≤ Config.slipBytes &&
    p * panelBytes f ≤ recLen r &&
    (if scaleBytes f = 0 then recSoff r == 0
     else recSoff r % 64 == 0 && p * panelBytes f ≤ recSoff r && recSoff r + p * scaleBytes f ≤ recLen r)

/-- The ranges of two records overlap. -/
def recsOverlap (a b : RecW) : Bool := overlaps (recBase a) (recLen a) (recBase b) (recLen b)

/-- LIVE set in a record (R226). -/
def makeLive (r : RecW) : RecW := vset r 7 (vget r 7 0#32 ||| 1#32)

/-! ## The queue (R223) -/

/-- The core that shares a paired MMA (R233). -/
def partnerCore (core : Nat) : Nat := if core % 2 = 0 then core + 1 else core - 1

/-- A queued paired MMA. -/
def MxWork.isPair : MxWork → Bool
  | .pair .. => true
  | _ => false

/-- What an instruction touches (R223): a slot (0), a record (1) or a codebook table (2), by number. -/
def MxWork.uses : MxWork → List (Nat × Nat)
  | .mma d _ b | .pair d _ _ _ _ b => [(0, d.toNat), (1, b.num.toNat)] ++ b.table
  | .mmag d _ _ _ _ b => [(0, d.toNat), (0, (d + 1#2).toNat), (1, b.num.toNat)] ++ b.table
  | .mzero d _ | .mwr d .. | .mscl d _ => [(0, d.toNat)]
  | .mrd _ a _ _ _ guid _ _ => if guid.isSome then [(0, a.toNat), (0, (a + 1#2).toNat)] else [(0, a.toNat)]
  | .mchk _ a _ | .mst a .. => [(0, a.toNat)]
  | .slcb d .. => [(2, d.toNat)]
  | .rec_ r => [(1, r.toNat)]

/-- The two touch the same slot, record or table. -/
def meets (xs ys : List (Nat × Nat)) : Bool := xs.any ys.contains

/-- The order of execution: by cycle, in one cycle by cv number (R223). -/
def MxOp.before (a b : MxOp) : Bool :=
  let cv (o : MxOp) : Nat := (o.arr.cv?.map (·.toNat)).getD 0
  a.time < b.time || (a.time == b.time && cv a < cv b)

/-- An instruction takes its place in a queue. -/
def MxOp.joins (o : MxOp) (q : List MxOp) : List MxOp :=
  q.takeWhile (fun x => !o.before x) ++ o :: q.dropWhile fun x => !o.before x

/-- The instructions of the unit that have not finished. Those that touch one slot, record or table stand in their order. -/
def Mx.waiting (m : Mx) : List MxOp := m.busy.map (·.2) ++ m.queue

/-- The tag that a slot has once every instruction before has been performed: true for I40. -/
def Mx.tag (m : Mx) (a : SlotN) : Bool :=
  m.waiting.foldl (fun t o => match o.work with | .mzero d i40 => if d = a then i40 else t | _ => t)
    (vget m.slots a.toNat accReset).i40

/-- A matrix instruction joins the queue of its core's unit. -/
def State.enqueue (s : State) (T : Team) (work : MxWork) (cycles : Nat) : State :=
  let m := s.mxOf T.core
  let o : MxOp := { team := T.id, pc := s.cur.pc, arr := s.cur.arr, members := s.cur.members, work, cycles, time := s.gt, after := s.gt,
                    waited := 0, skipped := 0, failed := false, held := false, again := 0 }
  s.setMx T.core { m with queue := o.joins m.queue }

/-! ## SLRSV, SLREL, MXCFG (R226 to R228) -/

/-- A matrix instruction whose operands are scalars: in a team without the declaration it raises ILLOP (R221). -/
def State.mxOnce (s : State) (n : Names) (f : Team → List Ln → Except (Code × List Ln) State) : Out :=
  match s.team? s.cur.team with
  | none => .fault .noIssuer
  | some T => if s.isMtx T then s.once n f else s.once { flt := n.flt } fun _ lns => .error (.illop, lns)

/-- SLRSV (R226). -/
def execSlrsv (_i : Iss) (p : PReg) (d : RecN) (a : VReg) (s : State) : Out :=
  s.mxOnce { src := span a 8, flt := dstQ p } fun T lns =>
    let img : RecW := Vector.ofFn fun j => match lns.head? with | some ln => (s.rd ln (a.toNat + j.val)).val | none => 0#32
    let m := s.mxOf T.core
    let old := vget m.recs d.toNat (.replicate 8 0#32)
    let ok := recordOk img && !recLive old && !(m.recs.toList.any fun r => recLive r && recsOverlap r img)
    let s1 := if ok then s.setMx T.core { m with recs := vset m.recs d.toNat (makeLive img) } else s
    .ok ((lns.foldl (fun s1 ln => s1.setPred ln p ok) (s1.enqueue T (.rec_ d) 1)).retire [])

/-- SLREL (R227). Queued instructions read the Slip in their execution cycles, before this one. -/
def execSlrel (_i : Iss) (d : RecN) (s : State) : Out :=
  s.mxOnce {} fun T _ =>
    let m := s.mxOf T.core
    let r := vget m.recs d.toNat (.replicate 8 0#32)
    .ok (((s.setMx T.core { m with recs := vset m.recs d.toNat (vset r 7 0#32) }).enqueue T (.rec_ d) 1).retire [])

/-- MXCFG (R228): instructions that executed earlier hold the old value. -/
def execMxcfg (_i : Iss) (d : RecN) (c : COp) (tscale : Bool) (s : State) : Out :=
  s.mxOnce { src := c.regs } fun T lns =>
    let m := s.mxOf T.core
    let r := vget m.recs d.toNat (.replicate 8 0#32)
    let x := s.scalar T .zero c
    if !recLive r then .error (.illop, lns)
    else
      let r1 := if tscale then vset r 5 x else vset r 6 (x &&& 0xFFFF#32)
      .ok (((s.setMx T.core { m with recs := vset m.recs d.toNat r1 }).enqueue T (.rec_ d) 1).retire [])

/-! ## Operands (R222) -/

/-- Members of the cursor that have a live thread. -/
def State.liveMembers (s : State) : List (Nat × BitVec 32) := s.cur.members.filter fun (_, m) => m != 0#32

/-- A matrix instruction that names registers of every member lane, and the scalars `c`, which the leading lane reads (R222). Its
execution ILLOPs come first, since the instruction does nothing else then; they need the scalars (DEDUCED, log entry 25). -/
def State.mxWide (s : State) (n : Names) (c : List Nat) (f : Team → List Ln → Except (Code × List Ln) State) : Out :=
  match s.team? s.cur.team with
  | none => .fault .noIssuer
  | some T =>
    let lns := s.members T
    let g := s.curGroup
    let lead := lns.take 1
    let nulls := nullLanes lns (n.src ++ n.dst ++ n.also)
    let bad := lns.filter fun ln => n.src.any fun r => (s.rd ln r).poison
    let fail (code : Code) (ls : List Ln) : Out := .next (s.raising T.id g (s.raise (s.faultOf code ls n)))
    let rest (o : Out) : Out := if !nulls.isEmpty then fail .unallot nulls else if !bad.isEmpty then fail .dataerr bad else o
    if !s.isMtx T then fail .illop lns
    else if !(nullLanes lead c).isEmpty then fail .unallot lead
    else if lead.any fun ln => c.any fun r => (s.rd ln r).poison then fail .dataerr lead
    else
      match f T lns with
      | .error (.illop, ls) => fail .illop ls
      | .error (code, ls) => rest (fail code ls)
      | .ok s1 => rest (.next s1)

/-! ## Operands of a product (R225, R230) -/

/-- A registers of a row in an A format (R230). -/
def rowWidth (afmt : Nat) : Nat := if afmt = 5 then 17 else 16

/-- The rows of a list of members: 32 to each, a lane without a live thread supplying 0. -/
def State.rowsIn (s : State) (T : Team) (ms : List (Nat × BitVec 32)) (a : VReg) (w : Nat) : List Nat :=
  (ms.map fun (g, m) => allLanes.map fun l =>
    if m.getLsbD l then fromWords ((List.range w).map fun j => (s.rd (T.ln g l) (a.toNat + j)).val.toNat) else 0).flatten

/-- Where a core's Slip holds block `j` of those that a product reads: key and length of the panel, and of its scales. -/
def BRead.places (b : BRead) (core j : Nat) : (Nat × Nat) × (Nat × Nat) :=
  let f := recBfmt b.img
  let p := b.kc * recNblk b.img + b.cb + j
  ((slipKey core (recBase b.img + p * panelBytes f), panelBytes f),
   (slipKey core (recBase b.img + recSoff b.img + p * scaleBytes f), scaleBytes f))

/-- An uncorrectable error stands in the B operand as the Slip holds it now (R244, R378). -/
def State.badB (s : State) (core : Nat) (b : BRead) : Bool :=
  (List.range b.panels.length).any fun j =>
    let ((p, n), (q, m)) := b.places core j
    s.poisonedIn p n || s.poisonedIn q m

/-- The B operand as the Slip holds it now. -/
def State.rereadB (s : State) (core : Nat) (b : BRead) : BRead :=
  let at_ (k n : Nat) : Nat := valueOf ((List.range n).map fun j => s.byte (k + j))
  { b with panels := (List.range b.panels.length).map fun j => let ((p, n), (q, m)) := b.places core j; (at_ p n, at_ q m),
           bad := s.badB core b }

/-- The B operand of record `num` as the Slip holds it now: `nb` blocks from `cb` of chunk `kc`. -/
def State.readB (s : State) (core : Nat) (r : RecW) (num : RecN) (kc cb nb : Nat) : BRead :=
  s.rereadB core { img := r, num, kc, cb, panels := List.replicate nb (0, 0), bad := false }

/-- Element `k` of an A row (R230). -/
def aElem (afmt row k : Nat) : Val :=
  match afmt with
  | 0 => bf16.value (bits row (16 * k) 16)
  | 1 => fp16.value (bits row (16 * k) 16)
  | 2 => e4m3.value (bits row (8 * k) 8)
  | 3 => e5m2.value (bits row (8 * k) 8)
  | 4 => Val.ofInt (BitVec.ofNat 8 (bits row (8 * k) 8)).toInt
  | _ => (Val.mul (e2m1.value (bits row (4 * k) 4)) (e8m0Value (bits row (512 + 8 * (k / 32)) 8))).1

/-- Weight `j` of a CB2 index before its block scale (R62). -/
def cb2Weight (table : SMap Word) (idx j : Nat) : Val :=
  let e := (Sparse.get 0#32 table (idx / 256)).toNat
  let sgn (j : Nat) : Bool := idx / 2 ^ (j + 1) % 2 == 1
  let neg := if j = 7 then (List.range 7).foldl (fun b i => b != sgn i) false else sgn j
  .fin neg (bits e (4 * j) 4 + 2 * (idx % 2)) (-2) false

/-- Element `k` of column `n` of a panel (R225, R61 to R63). -/
def bElem (r : RecW) (table : SMap Word) (panel scales n k : Nat) : Val :=
  let f := recBfmt r
  let col := 8 * (n * (panelBytes f / 32))
  match f with
  | 0 => bf16.value (bits panel (col + 16 * k) 16)
  | 1 => fp16.value (bits panel (col + 16 * k) 16)
  | 2 => e4m3.value (bits panel (col + 8 * k) 8)
  | 3 => e5m2.value (bits panel (col + 8 * k) 8)
  | 4 => Val.ofInt (BitVec.ofNat 8 (bits panel (col + 8 * k) 8)).toInt
  | 5 =>
    let code := bits panel (col + 4 * k) 4
    let x := if code = 8 then bf16.value (recMxx r) else e2m1.value code
    (Val.mul x (e8m0Value (bits scales (8 * (4 * n + k / 32)) 8))).1
  | _ =>
    let idx := bits panel (col + 16 * (k / 8)) 16
    (Val.mul (cb2Weight table idx (k % 8)) (e4m3.value (bits scales (8 * (2 * n + k / 64)) 8))).1

/-- The exact sum of a list of products, its zero sign by R55 over the products (R67). -/
def sumVals : List Val → Val
  | [] => .fin false 0 0 false
  | x :: xs => xs.foldl (fun a b => (Val.add rne a b).1) x

/-- The exact chunk sum of an A row and a B column. -/
def chunkSum (a b : List Val) : Val := sumVals ((a.zip b).map fun (x, y) => (Val.mul x y).1)

/-- The integer that an exact value is. -/
def Val.toInt : Val → Int
  | .fin neg m e _ => signed neg (m * 2 ^ e.toNat)
  | _ => 0

/-- A clamp to I40, and whether it clamped (R65). -/
def clamp40 (x : Int) : BitVec 40 × Bool :=
  let y := max (-(2 ^ 39 : Int)) (min x (2 ^ 39 - 1))
  (BitVec.ofInt 40 y, y != x)

/-- One chunk update of an entry (R66, R67): the new entry, and whether I40 saturated. -/
def chunkUpdate (i40 : Bool) (tscale : Word) (acc : BitVec 40) (sum : Val) : BitVec 40 × Bool :=
  if i40 then clamp40 (acc.toInt + sum.toInt)
  else
    let x := (Val.mul sum (fp32.value tscale.toNat)).1
    (BitVec.ofNat 40 (a40.round rne false false (Val.add rne (a40.value acc.toNat) x).1).1, false)

/-! ## Accumulator slots -/

/-- Columns of a slot (R29). -/
def slotCols : Nat := 384

def Acc.cell (a : Acc) (row col : Nat) : BitVec 40 := Sparse.get 0#40 a.cells (row * slotCols + col)

/-- Entries replaced: those given for a set of positions in ascending order, the others kept. -/
def Acc.putCells (a : Acc) (inside : Nat → Nat → Bool) (new : List (Nat × BitVec 40)) : Acc :=
  let old := a.cells.filter fun (k, _) => !inside (k / slotCols) (k % slotCols)
  { a with cells := List.merge old (new.filter fun (_, v) => v != 0#40) fun x y => x.1 ≤ y.1,
           poison := a.poison.filter fun k => !inside (k / slotCols) (k % slotCols) }

/-- Entries replaced by a computation on them: one that was poisoned stays so (R378). -/
def Acc.update (a : Acc) (inside : Nat → Nat → Bool) (new : List (Nat × BitVec 40)) : Acc :=
  { a.putCells inside new with poison := a.poison }

/-- A slot after a chunk of a product: rows of A from row 0, column blocks of B from column 0 (R231). -/
def Acc.product (a : Acc) (rows : List Nat) (b : BRead) (tables : Vector (SMap Word) 4) : Acc :=
  let f := recBfmt b.img
  let len := chunkLen f
  let table := vget tables (recCbt b.img) []
  let as := rows.map fun r => (List.range len).map fun k => aElem (recAfmt b.img) r k
  let bs := (b.panels.map fun (p, sc) =>
    (List.range 32).map fun n => (List.range len).map fun k => bElem b.img table p sc n k).flatten
  let new := (as.zipIdx.map fun (ar, i) => bs.zipIdx.map fun (bc, n) =>
    (i * slotCols + n, chunkUpdate (tagOf f) (recTscale b.img) (a.cell i n) (chunkSum ar bc))).flatten
  let m := rows.length
  let w := bs.length
  let a1 := a.update (fun r c => r < m && c < w) (new.map fun (k, v, _) => (k, v))
  { a1 with sat := a1.sat || new.any fun (_, _, x) => x }

/-- The codebook table that a product reads is poisoned (R244). -/
def Mx.cbBad (m : Mx) (b : BRead) : Bool := recBfmt b.img == 6 && m.cbPoison.getLsbD (recCbt b.img)

/-! ## MMA and MMAG (R231, R236, R237) -/

/-- The checks that MMA and MMAG share (R231). -/
def mmaOk (m : Mx) (r : RecW) (d : SlotN) (a : VReg) (pos : Word) (nb : Nat) : Bool :=
  recLive r && m.tag d == tagOf (recBfmt r) && a.toNat + rowWidth (recAfmt r) ≤ 256 && bits pos.toNat 0 16 < recKch r &&
    bits pos.toNat 16 4 + nb ≤ recNblk r && bits pos.toNat 20 12 == 0

/-- The rows, from the latch where it holds them, and the latch afterwards (R232). -/
def State.latched (s : State) (T : Team) (ru : Bool) (a : VReg) (afmt : Nat) (ms : List (Nat × BitVec 32)) : List Nat × Mx :=
  let m := s.mxOf T.core
  let hit := m.latch.filter fun l => ru && l.team == T.id && l.va == a && l.members == ms && l.afmt == afmt
  let rows := match hit with
    | some l => l.rows
    | none => s.rowsIn T ms a (rowWidth afmt)
  (rows, { m with latch := if ru then some { team := T.id, va := a, arr := s.cur.arr, members := ms, afmt, rows } else none })

/-- The registers of the rows, for the tests that come first: 17 where the record says MXFP4. -/
def State.rowRegs (s : State) (b : RecN) (a : VReg) : List Nat :=
  match s.team? s.cur.team with
  | none => []
  | some T =>
    let r := vget (s.mxOf T.core).recs b.toNat (.replicate 8 0#32)
    span a (if recLive r then rowWidth (recAfmt r) else 16)

/-- The paired MMA of the partner team that pairs with the one that a team executes next, if it has been executed (R233). -/
def State.partnerOp (s : State) (T : Team) : Option MxOp :=
  let c := partnerCore T.core
  let mine := (s.mxOf T.core).queue.countP fun o => o.work.isPair && o.team == T.id
  (s.teams.find? fun P => P.core == c && P.part == T.part && P.lnum == T.lnum && P.cid == T.cid && P.grid).bind fun P =>
    ((s.mxOf c).queue.filter fun o => o.work.isPair && o.team == P.id)[mine]?

/-- A record's formats are not those of the B operand of the even core's instruction (R233). -/
def MxOp.clashes (even : MxOp) (r : RecW) : Bool :=
  match even.work with
  | .pair _ _ _ _ _ b => recBfmt b.img != recBfmt r || recAfmt b.img != recAfmt r || !recLive r
  | _ => false

/-- The even core's instruction of the pair has been executed with a record of other formats (R233). Where it has not been executed yet, the
test comes with the start. -/
def State.pairClash (s : State) (T : Team) (r : RecW) : Bool :=
  T.core % 2 == 1 && ((s.partnerOp T).map (·.clashes r)).getD false

/-- MMA (R231, R233). -/
def execMma (i : Iss) (d : SlotN) (a : VReg) (b : RecN) (c : COp) (nb : BitVec 4) (pair : Bool) (s : State) : Out :=
  s.mxWide { src := s.rowRegs b a } c.regs fun T lns =>
    let m := s.mxOf T.core
    let r := vget m.recs b.toNat (.replicate 8 0#32)
    let pos := s.scalar T .zero c
    let blocks := nb.toNat + 1
    let members := s.cur.members.length
    let partner := T.grid && T.cores.contains (partnerCore T.core) && T.cores.contains T.core
    if members = 0 || 3 < members || !mmaOk m r d a pos blocks || (pair && (!partner || s.pairClash T r)) then
      .error (.illop, lns)
    else
      let (rows, m1) := s.latched T i.ru a (recAfmt r) s.cur.members
      -- of a pair only the even core reads B (R233)
      let read := s.readB T.core r b (bits pos.toNat 0 16) (bits pos.toNat 16 4) (if pair && T.core % 2 == 1 then 0 else blocks)
      let work := if pair then .pair d rows b (nb.toNat + 16) pos read else .mma d rows read
      .ok (((s.setMx T.core m1).enqueue T work 32).retire [])

/-- The halves of MMAG (R236). -/
def halves (ms : List (Nat × BitVec 32)) : List (Nat × BitVec 32) × List (Nat × BitVec 32) :=
  (ms.take (ms.length / 2), ms.drop (ms.length / 2))

/-- MMAG (R236, R237): GDEG of the cv is set at execution when a half has no live thread. -/
def execMmag (i : Iss) (d : SlotN) (a : VReg) (b : RecN) (c : COp) (nb : BitVec 4) (s : State) : Out :=
  s.mxWide { src := s.rowRegs b a } c.regs fun T lns =>
    let m := s.mxOf T.core
    let r := vget m.recs b.toNat (.replicate 8 0#32)
    let pos := s.scalar T .zero c
    let blocks := nb.toNat + 1
    let n := s.cur.members.length
    if !(n == 2 || n == 4 || n == 6) || !mmaOk m r d a pos blocks || !mmaOk m r (d + 1#2) a pos blocks then .error (.illop, lns)
    else
      let (lo, hi) := halves s.cur.members
      let (rows, m1) := s.latched T i.ru a (recAfmt r) s.cur.members
      let mh := 32 * (n / 2)
      let liveC := lo.any fun (_, x) => x != 0#32
      let liveU := hi.any fun (_, x) => x != 0#32
      let read := s.readB T.core r b (bits pos.toNat 0 16) (bits pos.toNat 16 4) blocks
      let s1 := (s.setMx T.core m1).enqueue T (.mmag d (rows.take mh) (rows.drop mh) liveC liveU read)
        (if 2 * mh ≤ 96 then 32 else 64)
      let s1 := if liveC && liveU then s1 else
        match s.cur.arr.cv? with
        | some cv => s1.modTeam T.id fun T =>
            { T with cvs := vset T.cvs cv.toNat { vget T.cvs cv.toNat cvReset with gdeg := true } }
        | none => s1
      .ok (s1.retire [])

/-! ## Accumulator access (R238 to R243) -/

/-- MZERO (R238). -/
def execMzero (_i : Iss) (d : SlotN) (i40 : Bool) (s : State) : Out :=
  s.mxOnce {} fun T _ => .ok ((s.enqueue T (.mzero d i40) 8).retire [])

/-- The window position of R239 for a window of `w` columns and a number of members. -/
def windowOk (pos w members : Nat) : Bool :=
  bits pos 7 1 == 0 && bits pos 17 15 == 0 && bits pos 8 9 % w == 0 && bits pos 8 9 + w ≤ 384 &&
    bits pos 0 7 + 32 * members ≤ 96

/-- The slot row of each live lane: ROW0 + 32 × its member's place + its lane (R239). -/
def State.slotRows (s : State) (lns : List Ln) (row0 : Nat) : List (Ln × Nat) :=
  let ms := s.cur.members.map (·.1)
  lns.map fun ln => (ln, row0 + elementOf ms ln)

/-- MWR (R240). -/
def execMwr (_i : Iss) (d : SlotN) (a : VReg) (c : COp) (i32 : Bool) (s : State) : Out :=
  s.mxWide { src := span a 8 } c.regs fun T lns =>
    let pos := (s.scalar T .zero c).toNat
    if !windowOk pos 8 s.cur.members.length || (s.mxOf T.core).tag d != i32 then .error (.illop, lns)
    else
      let vals := (s.slotRows lns (bits pos 0 7)).map fun (ln, row) =>
        (row, (List.range 8).map fun j => (s.rd ln (a.toNat + j)).val)
      .ok ((s.enqueue T (.mwr d i32 (bits pos 8 9) vals) 4).retire [])

/-- MSCL (R241). -/
def execMscl (_i : Iss) (d : SlotN) (a : VReg) (s : State) : Out :=
  s.mxWide { src := [a.toNat] } [] fun T lns =>
    if (s.mxOf T.core).tag d || 3 < s.cur.members.length then .error (.illop, lns)
    else
      let vals := (s.slotRows lns 0).map fun (ln, row) => (row, (s.rd ln a.toNat).val)
      .ok ((s.enqueue T (.mscl d vals) 32).retire [])

/-- Columns of an MRD window (R242). -/
def mrdCols : MrdFmt → Nat
  | .f32 => 8
  | .bf16 | .f16 => 16
  | .fp8 => 32

/-- The members wait for the matrix unit, their arrivals standing (R223). -/
def State.awaitMatrix (s : State) : State := s.park .matrix

/-- MRD (R242): GSCALE and the scale register are read now. -/
def execMrd (_i : Iss) (d : VReg) (a : SlotN) (kb : KReg) (c : COp) (fmt : MrdFmt) (e5m2 scl guid : Bool) (s : State) : Out :=
  s.mxWide { also := span d 8, flt := dstV d.toNat, width := 8 } c.regs fun T lns =>
    let m := s.mxOf T.core
    let pos := (s.scalar T .zero c).toNat
    if !windowOk pos (mrdCols fmt) s.cur.members.length || (guid && (m.tag a || m.tag (a + 1#2))) then .error (.illop, lns)
    else
      match s.cowAll T.id (rowsOf lns (span d 8)) with
      | .noRow => .ok s.stall
      | .pending => .ok s
      | .ok s1 =>
        let work := .mrd d a fmt e5m2 (if scl then some (T.kreg kb.toNat) else none) (if guid then some T.gscale else none)
          (bits pos 0 7) (bits pos 8 9)
        .ok (s1.enqueue T work (if guid then 8 else 4)).awaitMatrix

/-- MCHK (R243). -/
def execMchk (_i : Iss) (d : VReg) (a : SlotN) (clr : Bool) (s : State) : Out :=
  s.mxWide { also := [d.toNat], flt := dstV d.toNat } [] fun T lns =>
    match s.cowAll T.id (rowsOf lns [d.toNat]) with
    | .noRow => .ok s.stall
    | .pending => .ok s
    | .ok s1 => .ok (s1.enqueue T (.mchk d a clr) 1).awaitMatrix

/-- The lattice that SLCB reads as a load of a lane: its words, and whether one has an uncorrectable error (R229). -/
def State.readTable (s : State) (T : Team) (g l va : Nat) : Except Code (List Word × Bool) :=
  (s.readVa false T g l va 32).map fun (x, bad) => ((List.range 256).map fun j => BitVec.ofNat 32 (x / 2 ^ (32 * j)), bad)

/-- SLCB (R229): an ordinary load of the lowest member thread, which waits for what comes through the aperture (log entry 16). -/
def execSlcb (_i : Iss) (d : BitVec 2) (a : VReg) (off : COp) (s : State) : Out :=
  match s.team? s.cur.team with
  | none => .fault .noIssuer
  | some T0 =>
    let lead := (s.members T0).take 1
    let n : Names := { src := baseRegs .global a ++ off.regs }
    let ea := match lead.head? with | some ln => s.ea T0 ln .global a off | none => 0
    let fault (s : State) (code : Code) (pages : List Nat) : State :=
      s.raising T0.id s.curGroup (s.raise { s.faultOf code lead n with va := BitVec.ofNat 64 ea, pages })
    let ready := s.isMtx T0 && ea % 128 == 0 && lead.all fun ln => n.src.all fun r => (ln.key? r).isSome && !(s.rd ln r).poison
    s.withReads T0 (if ready then lead else []) (fun _ => [(ea, 1024)]) fun s => s.mxOnce n fun T lns =>
      match lns.head? with
      | none => .ok s
      | some ln =>
        if ea % 128 != 0 then .ok (fault s .misalign [])
        else
          match s.readTable T ln.g ln.l ea with
          | .error code => .ok (fault s code (if code = .xlate then s.missing T ea 1024 else []))
          | .ok (words, bad) => .ok ((s.enqueue T (.slcb d ea words bad) 1).retire [])

/-! ## Starting (R235, R334, R408) -/

/-- The instruction needs a power token (R235). -/
def MxWork.bursts : MxWork → Bool
  | .mma .. | .mmag .. | .pair .. => true
  | _ => false

/-- The start of a product would open a new burst (R235): an idle cycle has passed, or the burst is at its cap. -/
def Mx.newBurst (m : Mx) (gt : Nat) (cap : Nat) : Bool := m.lastEnd < gt || (cap != 0 && cap ≤ m.burst)

/-- The team's cluster holds a power token. -/
def State.hasToken (s : State) (T : Team) : Bool := s.tokens.contains (T.core / Config.coresPerDie, T.cid)

/-- An instruction may start now as far as its burst goes. -/
def State.mayBurst (s : State) (T : Team) (m : Mx) (o : MxOp) : Bool :=
  !o.work.bursts || !m.newBurst s.gt (T.burstcap.toNat % 256) || s.hasToken T

/-- The unit goes on performing the team's instructions: while it runs, and while it drains (R245). -/
def Team.performs (T : Team) : Bool := match T.st with | .run | .stopping _ => true | _ => false

/-- The first instruction of a queue that the property lets start, where earlier ones touch what is listed: none that is executed in this
cycle, touches the same as an earlier one, or stands behind one that failed (R223, R244, R408). -/
def startable (gt : Nat) (ok : MxOp → Bool) : List (Nat × Nat) → List MxOp → Option MxOp
  | _, [] => none
  | taken, o :: os =>
    if o.failed || o.held then none
    else if !meets taken o.work.uses && o.after < gt && ok o then some o
    else startable gt ok (taken ++ o.work.uses) os

/-- The instruction of a core's queue that may start, but for a property of its burst. A paired MMA starts with PAIRED_START. -/
def State.next? (s : State) (core : Nat) (ok : Team → MxOp → Bool) : Option MxOp :=
  let m := s.mxOf core
  startable s.gt (fun o => !o.work.isPair && match s.team? o.team with | some T => T.performs && ok T o | none => false)
    (m.busy.map (·.2.work.uses)).flatten m.queue

/-- The instruction that starts now. -/
def State.starting? (s : State) (core : Nat) : Option MxOp := s.next? core fun T o => s.mayBurst T (s.mxOf core) o

/-- The paired MMA that heads a core's queue, every earlier instruction having started (R334). -/
def State.pairHead (s : State) (core : Nat) : Option (Team × MxOp) :=
  match (s.mxOf core).queue with
  | o :: _ => if o.work.isPair && !o.failed && !o.held then ((s.team? o.team).filter (·.performs)).map fun T => (T, o) else none
  | [] => none

/-- The unit is ready for the paired MMA: its cluster holds a token (R334). -/
def State.pairReady (s : State) (core : Nat) : Option (Team × MxOp) := (s.pairHead core).filter fun (T, _) => s.hasToken T

/-- The team of which a start on the core waits for a power token (R235). -/
def State.waitsToken (s : State) (core : Nat) : Option Team :=
  match s.next? core fun T o => !s.mayBurst T (s.mxOf core) o with
  | some o => s.team? o.team
  | none => if (s.pairReady core).isSome then none else (s.pairHead core).map (·.1)

/-- The unit takes an instruction of its queue, which occupies it for its cycles (R408); an error that stands in its B operand now is
found (R244). -/
def State.startAt (s : State) (core : Nat) (o : MxOp) (cap : Nat) : State :=
  let m := s.mxOf core
  let ends := s.gt + o.cycles
  let idle := m.lastEnd < s.gt
  let burst := if o.work.bursts then (if m.newBurst s.gt cap then 1 else m.burst + 1) else if idle then 0 else m.burst
  let work := match o.work with
    | .mma d rows b => .mma d rows { b with bad := b.bad || s.badB core b }
    | .mmag d rc ru liveC liveU b => .mmag d rc ru liveC liveU { b with bad := b.bad || s.badB core b }
    | .pair d rows r mod pos b => .pair d rows r mod pos { b with bad := b.bad || s.badB (core - core % 2) b }
    | w => w
  s.setMx core { m with queue := m.queue.erase o, busy := m.busy ++ [(ends - 1, { o with work })], burst, lastEnd := max m.lastEnd ends }

/-- MATRIX_UNIT_PERFORM (R223, R235, R408): the unit of a core starts an instruction of its queue as soon as it may. -/
def execMatrixUnitPerform (core : Nat) (s : State) : Out :=
  match s.starting? core with
  | none => .next s
  | some o => .next (s.startAt core o (((s.team? o.team).map (·.burstcap.toNat)).getD 0 % 256))

def dieDefault : DiePower :=
  { mv := 0, share := 256, set := 256, rate := 1, passed := 0, cap := 0#32, heat := 0#32, forced := false }

/-- The ring of a die may pass its token on: the cycles that its rate asks for have gone by since the last pass (R401; the unit of the rate is the
model's, log entry 72). -/
def State.ringReady (s : State) (die : Nat) : Bool :=
  let x := vget s.m.dies die dieDefault
  decide (x.passed + x.rate ≤ s.gt)

/-- POWER_TOKEN (R235, R401): the token of a die's ring passes to a cluster that has a team there, given by its number. A unit that is ready for
a paired MMA keeps it until the start (R334). -/
def execPowerToken (die cluster : Nat) (s : State) : Out :=
  let kept := s.mx.any fun (c, _) => c / Config.coresPerDie == die && (s.pairReady c).isSome
  if !kept && s.ringReady die && s.teams.any fun T => T.cid == cluster && T.core / Config.coresPerDie == die then
    .next { s with tokens := (die, cluster) :: s.tokens.filter (·.1 != die),
                   m := { s.m with dies := vset s.m.dies die { vget s.m.dies die dieDefault with passed := s.gt } } }
  else .next s

/-! ## Results -/

/-- A slot of a core replaced. -/
def State.setSlot (s : State) (core : Nat) (a : SlotN) (f : Acc → Acc) : State :=
  let m := s.mxOf core
  s.setMx core { m with slots := vset m.slots a.toNat (f (vget m.slots a.toNat accReset)) }

/-- A fault of a matrix instruction whose members have gone on: GROUP is its lowest member group with a live thread, LANES its live
lanes (R244, R409). -/
def State.opRaise (s : State) (o : MxOp) (code : Code) : Raise :=
  let live (g : Nat) : BitVec 32 := ((s.group? o.team g).map (·.live)).getD 0#32
  let gs := o.members.map (·.1)
  let g := ((gs.find? fun g => live g != 0#32).or gs.head?).getD 0
  { code, t := o.team, g, lanes := live g, pc := o.pc, arr := o.arr, members := gs }

/-- The instructions of a unit for which it holds go back to its queue, unperformed. -/
def State.unstart (s : State) (core : Nat) (p : Nat × MxOp → Bool) : State :=
  let m := s.mxOf core
  let back := (m.busy.filter p).map (·.2)
  s.setMx core { m with busy := m.busy.filter fun x => !p x, queue := back.foldl (fun q o => { o with again := 0 }.joins q) m.queue,
                        pairs := m.pairs - back.countP (·.work.isPair) }

/-- DATAERR found by the unit (R244): the system fault of the team. The instruction and those behind it are kept; so are the other halves
of paired ones (DEDUCED, log entry 43). -/
def State.deferredFault (s : State) (core : Nat) (o : MxOp) : State :=
  let back (x : Nat × MxOp) : Bool := x.2.team == o.team && !x.2.before o
  let ends := ((s.mxOf core).busy.filter fun x => back x && x.2.work.isPair && x.2.time != o.time).map (·.1)
  let s := s.unstart core back
  let s := s.unstart (partnerCore core) fun x => x.2.work.isPair && ends.contains x.1
  let m := s.mxOf core
  let fails (x : MxOp) : MxOp := if x.team = o.team ∧ x.time = o.time ∧ x.arr = o.arr then { x with failed := true } else x
  (s.setMx core { m with queue := m.queue.map fails }).raise (s.opRaise o .dataerr)

/-- The unit has performed an instruction. Those that wait for it start after this cycle (R408). -/
def State.unitDone (s : State) (core : Nat) (o : MxOp) : State :=
  let m := s.mxOf core
  s.setMx core { m with busy := m.busy.filter (·.2 != o),
                        queue := m.queue.map fun x => if meets o.work.uses x.work.uses then { x with after := s.gt } else x }

/-- The status word of a slot (R243). -/
def Acc.status (a : Acc) : Word :=
  BitVec.ofNat 32 (a.rerun % 65536 + (if a.fail then 2 ^ 16 else 0) + (if a.sat then 2 ^ 17 else 0) + (if a.i40 then 2 ^ 18 else 0) +
    (if a.miss then 2 ^ 19 else 0))

/-- An entry as MRD reads it (R242). -/
def Acc.val (a : Acc) (row col : Nat) : Val := if a.i40 then Val.ofInt (a.cell row col).toInt else a40.value (a.cell row col).toNat

/-- Round to A40 and back to its value. -/
def in40 (x : Val) : Val := a40.value (a40.round rne false false x).1

/-- Whether MRD .guid finds one stream only (R242). -/
def Mx.oneStream (m : Mx) (a : SlotN) : Bool :=
  (vget m.slots a.toNat accReset).miss != (vget m.slots (a + 1#2).toNat accReset).miss

/-- The element that MRD converts (R242). -/
def Mx.mrdElem (m : Mx) (a : SlotN) (scl guid : Option Word) (row col : Nat) : Val :=
  let sa := vget m.slots a.toNat accReset
  let sb := vget m.slots (a + 1#2).toNat accReset
  let x := sa.val row col
  let x := match guid with
    | none => x
    | some g =>
      if sa.miss == sb.miss then
        let u := sb.val row col
        let d := in40 (Val.add rne x u.neg).1
        let e := in40 (Val.mul (fp32.value g.toNat) d).1
        in40 (Val.add rne u e).1
      else if sa.miss then sb.val row col else x
  match scl with
  | none => x
  | some k => in40 (Val.mul x (fp32.value k.toNat)).1

/-- The format that MRD converts to. -/
def mrdFmt (fmt : MrdFmt) (e5m2 : Bool) : Fmt :=
  match fmt with
  | .f32 => fp32
  | .bf16 => bf16
  | .f16 => fp16
  | .fp8 => if e5m2 then Machine.e5m2 else e4m3

/-- A slot entry that MRD reads for a row is poisoned (R378). Of one stream only, the other slot's entry is not read (R242). -/
def Mx.mrdBad (m : Mx) (a : SlotN) (guid : Bool) (row col0 w : Nat) : Bool :=
  let bad (x : SlotN) : Bool := (vget m.slots x.toNat accReset).poison.any fun k =>
    k / slotCols == row && col0 ≤ k % slotCols && k % slotCols < col0 + w
  let one := guid && m.oneStream a
  let missing := (vget m.slots a.toNat accReset).miss
  (!(one && missing) && bad a) || (guid && !(one && !missing) && bad (a + 1#2))

/-- The eight words that MRD gives a lane, and the flags of its conversions; that of a poisoned entry raises none (DESIGN CHOICE, log
entry 62). -/
def Mx.mrdLane (m : Mx) (a : SlotN) (fmt : MrdFmt) (e5m2 : Bool) (scl guid : Option Word) (row col0 : Nat) :
    List Word × BitVec 5 :=
  let f := mrdFmt fmt e5m2
  let outs := (List.range (mrdCols fmt)).map fun w => f.round rne false false (m.mrdElem a scl guid row (col0 + w))
  let x := outs.foldr (fun (v, _) n => v + 2 ^ f.width * n) 0
  ((List.range 8).map fun j => BitVec.ofNat 32 (x / 2 ^ (32 * j)), outs.zipIdx.foldl (fun b ((_, fl), w) => if m.mrdBad a guid.isSome row (col0 + w) 1 then b else b ||| fl) 0#5)

/-- The live lanes of the members as they stand, in element order. -/
def State.opLanes (s : State) (o : MxOp) : List (Ln × Nat) :=
  match s.team? o.team with
  | none => []
  | some T =>
    ((o.members.zipIdx.map fun ((g, m), j) => (lanesOf m).map fun l => (T.ln g l, 32 * j + l)).flatten).filter fun (ln, _) => ln.th.live

/-- The members of a matrix instruction that waited go on at the following word (R223). -/
def State.resume (s : State) (o : MxOp) : State :=
  let s := o.members.foldl (fun s (g, m) => s.nextLanes o.team g (lanesOf m)) s
  s.release o.team o.arr (o.members.map (·.1))

/-- MRD performed (R242): every lane whose flags do not trap is written; FPX is raised for the others (R101). A lane that
receives a poisoned entry has its eight registers marked poisoned (R378). -/
def State.finishMrd (s : State) (core : Nat) (o : MxOp) (d : VReg) (a : SlotN) (fmt : MrdFmt) (e5m2 : Bool)
    (scl guid : Option Word) (row0 col0 : Nat) : State :=
  let m := s.mxOf core
  let fpen := ((s.team? o.team).map (·.fpen)).getD 0#32
  let rs := (s.opLanes o).map fun (ln, e) =>
    let (ws, fl) := m.mrdLane a fmt e5m2 scl guid (row0 + e) col0
    let bad := m.mrdBad a guid.isSome (row0 + e) col0 (mrdCols fmt)
    (ln, ws, fl, bad)
  let one := guid.isSome && m.oneStream a
  let s := rs.foldl (fun s (ln, ws, fl, poison) =>
    let s := s.modThread ln.t ln.g ln.l fun th =>
      let th := th.orFlags fl
      if one then { th with tsw := th.tsw ||| tswGDEG } else th
    if trapsFpx fpen fl then s
    else ws.zipIdx.foldl (fun s (w, j) =>
      let s := s.wr ln.t ln.g ln.l (d.toNat + j) w false
      if poison then s.poisonReg ln.t ln.g ln.l (d.toNat + j) else s) s) s
  let bad := (rs.filter fun (_, _, fl, _) => trapsFpx fpen fl).map (·.1)
  let s := s.unitDone core o
  if bad.isEmpty then s.resume o
  else
    let g := ((o.members.find? fun (_, x) => x != 0#32).map (·.1)).getD 0
    let s := o.members.foldl (fun s (g, x) => (lanesOf x).foldl (fun s l => s.modThread o.team g l fun th =>
      { th with wait := .none }) s) s
    s.raise { code := .fpx, t := o.team, g, lanes := lanesIn g bad, pc := o.pc, dst := dstV d.toNat, width := 8,
              arr := o.arr, members := o.members.map (·.1) }

/-- MCHK performed (R243). -/
def State.finishMchk (s : State) (core : Nat) (o : MxOp) (d : VReg) (a : SlotN) (clr : Bool) : State :=
  let x := (vget (s.mxOf core).slots a.toNat accReset).status
  let s := (s.opLanes o).foldl (fun s (ln, _) => s.wr ln.t ln.g ln.l d.toNat x false) s
  let s := if clr then s.setSlot core a fun c => { c with rerun := 0, fail := false } else s
  (s.unitDone core o).resume o

/-- The checksum error that strikes the product of a core: whether the rerun fails too. -/
def State.badProduct (s : State) (core : Nat) : Option (Nat × Bool) :=
  s.upsets.findSome? fun u => match u.2 with
    | .product c twice => if c = core ∧ u.1 ≤ s.gt then some (u.1, twice) else none
    | _ => none

/-- The error has struck a product of the core; one that strikes twice will strike its rerun. -/
def State.struck (s : State) (core : Nat) : State :=
  match s.badProduct core with
  | none => s
  | some (t, twice) =>
    let rest := s.upsets.erase (t, .product core twice)
    { s with upsets := if twice then (t, .product core false) :: rest else rest }

/-- A product runs again, once: the slots keep their rows, RERUN of each advances (R234). -/
def State.rerun (s : State) (core : Nat) (o : MxOp) (slots : List SlotN) (why : Nat) : State :=
  let s := slots.foldl (fun s a => s.setSlot core a fun x => { x with rerun := min (x.rerun + 1) 0xFFFF }) s
  let m := s.mxOf core
  s.setMx core { m with busy := m.busy.map (fun x => if x.2 == o then (s.gt + o.cycles, { o with again := why }) else x),
                        lastEnd := max m.lastEnd (s.gt + o.cycles + 1) }

/-- The other half of a paired MMA, while its unit is at it: its core, the instruction and its slot. -/
def State.otherHalf (s : State) (core : Nat) (o : MxOp) : Option (Nat × MxOp × SlotN) :=
  let c := partnerCore core
  match o.work with
  | .pair _ _ r _ pos _ => (s.mxOf c).busy.findSome? fun x => match x.2.work with
    | .pair d _ r' _ pos' _ => if r = r' ∧ pos = pos' ∧ x.2.again.min 1 = o.again.min 1 then some (c, x.2, d) else none
    | _ => none
  | _ => none

/-- A product after its last cycle (R234, R244, R380): an error in its B operand or codebook is the deferred fault; on a mismatch of the
checksums it runs again once, on both cores of a pair, and a second one sets FAIL and is the deferred fault, of both (log entry 43);
otherwise its slots are written. -/
def State.endProduct (s : State) (core : Nat) (o : MxOp) (slots : List SlotN) (bad : Bool) (write : State → State) : State :=
  let halves := (core, o, slots) :: ((s.otherHalf core o).map fun (c, x, d) => (c, x, [d])).toList
  let off (c : Nat) : Bool := (s.badProduct c).isSome
  if bad then s.deferredFault core o
  else if halves.any fun (c, _) => off c then
    let s1 := halves.foldl (fun s (c, _) => s.struck c) s
    halves.foldl (fun s (c, x, ds) =>
      if o.again = 0 then s.rerun c x ds (if off c then 1 else 2)
      else (if off c then ds.foldl (fun s a => s.setSlot c a fun x => { x with fail := true }) s else s).deferredFault c x) s1
  else
    let s := if o.again = 1 then s.modPart (((s.team? o.team).map fun (T : Team) => T.part).getD 0) (·.bump 0xF98) else s
    (write s).unitDone core o

/-- A product performed on one slot. -/
def State.multiply (s : State) (core : Nat) (d : SlotN) (rows : List Nat) (b : BRead) : State :=
  let m := s.mxOf core
  s.setSlot core d (·.product rows b m.cbs)

/-! ## MST (R260) -/

/-- Bytes of an element of MST. -/
def mstBytes : MstFmt → Nat
  | .f32 | .i32 => 4
  | .bf16 | .f16 => 2
  | .fp8 => 1

/-- An entry as MST converts it. -/
def Acc.stored (a : Acc) (fmt : MstFmt) (e5m2 : Bool) (row col : Nat) : Nat :=
  let x := a40.value (a.cell row col).toNat
  match fmt with
  | .f32 => (fp32.round rne false false x).1
  | .bf16 => (bf16.round rne false false x).1
  | .f16 => (fp16.round rne false false x).1
  | .fp8 => ((if e5m2 then Machine.e5m2 else e4m3).round rne false false x).1
  | .i32 => (BitVec.ofInt 32 (max (-(2 ^ 31 : Int)) (min (a.cell row col).toInt (2 ^ 31 - 1)))).toNat

/-- A location a number of bytes further on. -/
def Loc.plus (x : Loc) (n : Nat) : Loc :=
  match x with
  | .va a => .va (a + n)
  | .basin t off swz => .basin t (off + n) swz
  | .slip off => .slip (off + n)
  | .buf i => .buf (i + n / 16)
  | .tab i => .tab (i + n / 16)

/-- The command of an MST once the unit has read the slot: one granule after another, or DATAERR where an entry is poisoned
(R256, R260). -/
def Cmd.tiled (c : Cmd) (a : Acc) (fmt : MstFmt) (e5m2 : Bool) (cb nb rows stride : Nat) : Cmd :=
  let dst := match c.plan with | .tile dst => dst | _ => .va 0
  let size := mstBytes fmt
  let width := 32 * nb
  if a.poison.any fun k => k / slotCols < rows && 32 * cb ≤ k % slotCols && k % slotCols < 32 * cb + width then
    { c with started := true, err := some 1#7 }
  else
    let line (r : Nat) : Nat :=
      (List.range width).foldr (fun j x => a.stored fmt e5m2 r (32 * cb + j) + 2 ^ (8 * size) * x) 0
    let moves := ((List.range rows).map fun r => (List.range (width * size / 16)).map fun j =>
      ({ src := .inr (BitVec.ofNat 128 (line r / 2 ^ (128 * j))), dst := dst.plus (r * stride + 16 * j), req := none } : Move)).flatten
    { c with started := true, moves }

/-- What finishing an instruction of a core's unit does. -/
def State.finishWork (s : State) (core : Nat) (o : MxOp) : State :=
  let m := s.mxOf core
  match o.work with
  | .mma d rows b | .pair d rows _ _ _ b => s.endProduct core o [d] (b.bad || m.cbBad b) (·.multiply core d rows b)
  | .mmag d rc ru liveC liveU b =>
    s.endProduct core o ((if liveC then [d] else []) ++ (if liveU then [d + 1#2] else [])) (b.bad || m.cbBad b) fun s =>
      let s := if liveC then s.multiply core d rc b else s.setSlot core d fun a => { a with miss := true }
      if liveU then s.multiply core (d + 1#2) ru b else s.setSlot core (d + 1#2) fun a => { a with miss := true }
  | .mzero d i40 => (s.setSlot core d fun a => { a with cells := [], poison := [], i40, sat := false, miss := false }).unitDone core o
  | .mwr d i32 col0 vals =>
    let new := (vals.map fun (row, ws) => ws.zipIdx.map fun (w, j) =>
      (row * slotCols + col0 + j,
        if i32 then w.signExtend 40 else BitVec.ofNat 40 (a40.round rne false false (fp32.value w.toNat)).1)).flatten
    let rows := vals.map (·.1)
    (s.setSlot core d fun a => a.putCells (fun r c => rows.contains r && col0 ≤ c && c < col0 + 8) new).unitDone core o
  | .mscl d vals =>
    (s.setSlot core d fun a =>
      let new := (vals.map fun (row, x) => (List.range slotCols).map fun c =>
        (row * slotCols + c, BitVec.ofNat 40 (a40.round rne false false (Val.mul (a.val row c) (fp32.value x.toNat)).1).1)).flatten
      a.update (fun r _ => (vals.map (·.1)).contains r) new).unitDone core o
  | .mrd d a fmt e5m2 scl guid row0 col0 =>
    s.finishMrd core o d a fmt e5m2 scl guid row0 col0
  | .mchk d a clr => s.finishMchk core o d a clr
  | .rec_ _ => s.unitDone core o
  | .slcb d _ words bad =>
    if bad then s.deferredFault core o
    else
      let table := words.zipIdx.foldl (fun t (w, j) => if w = 0#32 then t else t ++ [(j, w)]) []
      (s.setMx core { m with cbs := vset m.cbs d.toNat table, cbPoison := setBit m.cbPoison d.toNat false }).unitDone core o
  | .mst a fmt e5m2 cb nb rows stride cmd =>
    { s with cmds := s.cmds.map fun (c : Cmd) =>
        if c.id == cmd then c.tiled (vget m.slots a.toNat accReset) fmt e5m2 cb nb rows stride else c }.unitDone core o

/-- The lowest member thread of an instruction of a unit's queue. -/
def MxOp.lead? (o : MxOp) : Option (Nat × Nat) := o.members.findSome? fun (g, m) => (lanesOf m).head?.map fun l => (g, l)

/-- The pieces of its table that an SLCB whose members have gone on has not read yet through the aperture (R244, R391). -/
def State.tableWants (s : State) (T : Team) (o : MxOp) : List Nat :=
  match o.work, o.lead? with
  | .slcb _ va _ _, some (g, l) =>
    let s := { s with cur := { s.cur with pc := o.pc } }
    ((chunksOf [(va, 1024)]).map fun (va, n) => (s.wants T g l va n).pieces).flatten
  | _, _ => []

/-- An instruction that failed, when its team goes on: what it reads of the Slip or of memory is read again (R244; log entry 16). An SLCB
stays as it is until its table has come through the aperture. -/
def State.reread (s : State) (core : Nat) (o : MxOp) : MxOp :=
  if !o.failed || ((s.team? o.team).any fun T => !(s.tableWants T o).isEmpty) then o
  else
    let s := { s with cur := { s.cur with pc := o.pc } }
    let work := match o.work with
      | .mma d rows b => .mma d rows (s.rereadB core b)
      | .mmag d rc ru liveC liveU b => .mmag d rc ru liveC liveU (s.rereadB core b)
      | .pair d rows r mod pos b => .pair d rows r mod pos (if core % 2 = 0 then s.rereadB core b else { b with bad := false })
      | .slcb d va words bad =>
        match s.team? o.team, o.lead? with
        | some T, some (g, l) =>
          match s.readTable T g l va with
          | .ok (ws, b) => .slcb d va ws b
          | .error _ => .slcb d va words bad
        | _, _ => .slcb d va words bad
      | w => w
    { o with work, failed := false, again := 0 }

/-- The instructions of a team on its core are performed again from the one that failed (R244): an SLCB asks for its table through the
aperture anew. -/
def State.redo (s : State) (T : Team) : State :=
  let m := s.mxOf T.core
  let s1 := s.setMx T.core { m with queue := m.queue.map fun o => if o.team = T.id then s.reread T.core o else o }
  (m.queue.filter fun o => o.team == T.id && o.failed).foldl (fun s o =>
    match o.lead? with
    | none => s
    | some (g, l) =>
      let pc := s.cur.pc
      let s := { s with cur := { s.cur with pc := o.pc } }.ask T [] [(T.ln g l, s.tableWants T o)]
      { s with cur := { s.cur with pc } }) s1

/-- The read of an object serves an SLCB whose members have gone on (R244). -/
def State.rereads (s : State) (f : Flight) : Bool := s.mx.any fun (_, m) => m.queue.any fun o => o.failed && o.team == f.team && o.pc == f.pc

/-- SLCBs whose tables have come through the aperture after their teams went on (R244). -/
def State.retables (s : State) : State :=
  if s.mx.all fun (_, m) => m.queue.all fun o => !o.failed then s
  else
    let again (c : Nat) (o : MxOp) : MxOp := if (s.team? o.team).any fun T => T.st == .run && T.core == c then s.reread c o else o
    { s with mx := s.mx.map fun (c, m) => (c, { m with queue := m.queue.map (again c) }) }

/-! ## Paired MMA (R233, R334) -/

/-- The two sides agree: record number, MOD and position value (R233). -/
def pairAgrees : MxWork → MxWork → Bool
  | .pair _ _ r mod pos _, .pair _ _ r' mod' pos' _ => r == r' && mod == mod' && pos == pos'
  | _, _ => false

/-- The record of the odd side has the formats of the even side's (R233). -/
def pairFormats (even : MxOp) (odd : MxOp) : Bool :=
  match odd.work with
  | .pair _ _ _ _ _ b => !even.clashes b.img
  | _ => false

/-- The B operand of the even core taken by a side of a pair. -/
def MxOp.withB (o : MxOp) (even : MxOp) : MxOp :=
  match o.work, even.work with
  | .pair d rows r mod pos _, .pair _ _ _ _ _ b => { o with work := .pair d rows r mod pos b }
  | _, _ => o

/-- The cycle at which the pair of an even core and its neighbour starts, or that none is agreed. -/
def State.setPairAt (s : State) (even : Nat) (t : Option Nat) : State :=
  let m := s.mxOf even
  s.setMx even { m with pairAt := t }

/-- A paired MMA that starts as one of a pair. -/
def State.startPair (s : State) (core : Nat) (T : Team) (o : MxOp) (even : MxOp) : State :=
  let m := s.mxOf core
  let s := s.setMx core { m with queue := o.withB even :: m.queue.erase o, pairs := m.pairs + 1 }
  s.startAt core (o.withB even) (T.burstcap.toNat % 256)

/-- PAIRED_START (R233, R334): once both units are ready they start together four cycles later, with the even core's B, or as soon after as
what they touch is free. Where the two sides differ, both teams end; where only the formats of their records do, the odd side raises
the ILLOP of its execution, for all live lanes of its members, whose threads have gone on: the handler runs in the lowest of them, the others
are held until its TRET, which lets the instruction execute again or drops it (DEDUCED, log entry 43). -/
def execPairedStart (core : Nat) (s : State) : Out :=
  let even := core - core % 2
  let odd := even + 1
  match s.pairReady even, s.pairReady odd, (s.mxOf even).pairAt with
  | some (A, a), some (B, b), none =>
    if A.part != B.part || A.lnum != B.lnum || A.cluster != B.cluster then .next s
    else if !pairAgrees a.work b.work then .next ((s.raise (s.opRaise a .rdvmis)).raise (s.opRaise b .rdvmis))
    else if !pairFormats a b then
      let m := s.mxOf odd
      .next ((s.setMx odd { m with queue := m.queue.map fun x => if x == b then { x with held := true } else x }).raise
        { s.opRaise b .illop with arr := .no, late := b.arr })
    else .next (s.setPairAt even (some (s.gt + 4)))
  | some (A, a), some (B, b), some t =>
    let clear (c : Nat) (o : MxOp) : Bool := !(s.mxOf c).busy.any fun x => meets x.2.work.uses o.work.uses
    if t ≤ s.gt && clear even a && clear odd b && a.after < s.gt && b.after < s.gt then
      .next (((s.setPairAt even none).startPair even A a a).startPair odd B b a)
    else .next s
  | _, _, some _ => .next (s.setPairAt even none)
  | _, _, none => .next s

/-- The two units of the core's pair have agreed on their start, and its cycle has come: the wait of R233 is over (R334). -/
def State.pairOver (s : State) (core : Nat) : Bool :=
  match (s.mxOf (core - core % 2)).pairAt with
  | some t => t ≤ s.gt
  | none => false

/-- PAIRED_MMA_TIMEOUT (R233): the wait of a paired MMA has reached RDVWD; REMTMO takes the place of RDVTMO when WDREM cycles were
skipped, and then the instruction stays in the queue (R245, R366). -/
def execPairedMmaTimeout (core : Nat) (s : State) : Out :=
  match (s.mxOf core).queue.find? (·.work.isPair) with
  | none => .next s
  | some o =>
    match s.team? o.team with
    | none => .next s
    | some T =>
      if T.rdvwd != 0#32 && T.rdvwd.toNat ≤ o.waited && T.st == .run && T.wdSet != s.gt + 1 && !s.pairOver core then
        let m := s.mxOf core
        let late := T.wdrem != 0#32 && T.wdrem.toNat ≤ o.skipped
        let s := if late then s else s.setMx core { m with queue := m.queue.erase o }
        .next (s.raise (s.opRaise o (if late then .remtmo else .rdvtmo)))
      else .next s

/-! ## The reuse latch (R232) -/

/-- A latch whose registers or live lanes have changed since is empty. -/
def State.checkLatch (s : State) : State :=
  s.mx.foldl (fun s (core, m) =>
    match m.latch with
    | none => s
    | some l =>
      let keep : Bool := match s.team? l.team with
        | none => false
        | some T =>
          T.core == core && l.members.all (fun (g, x) => ((T.group? g).map (·.live)).getD 0#32 == x) &&
            s.rowsIn T l.members l.va (rowWidth l.afmt) == l.rows
      if keep then s else s.setMx core { m with latch := none }) s

end Sys2Proof.Machine
end

