-- ==== Sys2Proof/Machine/Engine.lean ====
section
/-! DEFINITION. Engine commands (R247 to R266): copies, MST, barrier words, arming and waiting, and collectives. -/

namespace Sys2Proof.Machine

open Sys2Proof

/-! ## Control words and locations (R248, R254) -/

def ctlSsp (w : Nat) : Nat := bits w 0 2
def ctlDsp (w : Nat) : Nat := bits w 2 2
def ctlAcqe (w : Nat) : Bool := bits w 10 1 == 1
def ctlRele (w : Nat) : Bool := bits w 14 1 == 1
def ctlRels (w : Nat) : Nat := bits w 15 3
def ctlHint (w : Nat) : Nat := bits w 18 2
def ctlCs (w : Nat) : Nat := bits w 20 12

/-- The control word sets no reserved bit and no unassigned code, but for its command-specific field. -/
def ctlOk (w : Nat) : Bool :=
  (ctlSsp w == 1 || bits w 4 3 == 0) && (ctlDsp w == 1 || bits w 7 3 == 0) && bits w 11 3 < 6 &&
    (ctlAcqe w || bits w 11 3 == 0) && ctlRels w < 6 && (ctlRele w || ctlRels w == 0)

/-- A FENCE scope by its code (R75). -/
def scopeOf : Nat → FScope
  | 0 => .group
  | 1 => .team
  | 2 => .cluster
  | 3 => .die
  | 4 => .device
  | _ => .system

/-- A space code is global or Cistern. -/
def wideSpace (sp : Nat) : Bool := sp == 0 || sp == 3

/-- The resident team of a team's cluster on the core of a rank (R254). -/
def State.rankTeam (s : State) (T : Team) (rank : Nat) : Option Team :=
  if rank = T.rank then some T
  else
    s.teams.find? fun U =>
      U.part == T.part && U.lnum == T.lnum && T.grid && U.grid && U.cluster == T.cluster && U.rank == rank &&
        match U.st with | .run | .stopping _ | .inPlace => true | _ => false

/-- The location in a pair of registers (R254); `none` where it raises ILLOP. -/
def State.locOf (s : State) (T : Team) (sp swz lo hi : Nat) : Option Loc :=
  if lo % 16 != 0 then none
  else
    match sp with
    | 1 => if hi < 16 then (s.rankTeam T hi).map fun U => .basin U.id lo (BitVec.ofNat 3 swz) else none
    | 2 => if hi = T.rank then some (.slip lo) else none
    | _ => some (.va (lo + 2 ^ 32 * hi))

/-- A location of another rank's Basin. -/
def Loc.foreign (x : Loc) (T : Team) : Bool := match x with | .basin t _ _ => t != T.id | _ => false

/-- The team that holds the barrier word, given the destination (R250). -/
def Loc.holder (x : Loc) (T : Team) : Nat := match x with | .basin t _ _ => t | _ => T.id

/-- The offset is that of a barrier word of the team (R247, R249). -/
def State.barrierOk (s : State) (t off : Nat) : Bool :=
  off % 8 == 0 && match s.team? t with | some U => off + 8 ≤ U.basinLen | none => false

/-- The three copies (R253). -/
inductive Copy where
  | plain | gather | scatter
  deriving DecidableEq, Repr

/-- The pairs of spaces that a copy permits (R254). -/
def Copy.spaces (k : Copy) (ssp dsp : Nat) : Bool :=
  match k with
  | .plain => wideSpace ssp || wideSpace dsp || (ssp == 1 && dsp == 1)
  | .gather => wideSpace ssp && dsp != 2
  | .scatter => ssp != 2 && wideSpace dsp

/-- The largest byte count of a slice (R253). -/
def sliceMax : Nat := 16777200

/-- A location whose bytes are all in a shared line of a deterministic launch, or some of them (R344). -/
def State.sharedRange (s : State) (T : Team) (x : Loc) (len : Nat) : Bool :=
  match x with
  | .va a => (List.range (len / 16)).any fun j =>
      match s.translate T.part (s.ctxOf T) (a + 16 * j) needW with
      | some ia => s.detClass T ia == .shared
      | none => false
  | _ => false

/-- A command as an execution starts it. -/
def State.newCmd (s : State) (T : Team) (id : Nat) (groups : List Nat) (tk : BitVec 3) (ctl : Nat) (dst : Loc) (barOff bytes : Nat)
    (plan : CmdPlan) (held : Bool) : Cmd :=
  { id, team := T.id, pc := s.cur.pc, groups, tk, barTeam := dst.holder T, barOff, ctl := BitVec.ofNat 32 ctl, plan,
    started := false, moves := [], bytes, err := none, page := none, wct := 0, written := false, held, late := false, coll := none,
    opening := (s.detOf T).map (·.opening), bound := s.nextId, issuers := s.cur.members }

/-- The tokens of a command that is gone clear in its groups, but for those that another command holds (R251). -/
def State.clearTokens (s : State) (c : Cmd) : State :=
  let busy (g : Nat) : Bool := s.cmds.any fun x => x.team == c.team && x.tk == c.tk && x.groups.contains g
  c.groups.foldl (fun (s : State) (g : Nat) =>
    if busy g then s else s.modGroup c.team g fun G => { G with tokens := setBit G.tokens c.tk.toNat false }) s

/-- Tokens set in the groups of a command (R251). -/
def State.setToken (s : State) (c : Cmd) : State :=
  c.groups.foldl (fun s g => s.modGroup c.team g fun G => { G with tokens := setBit G.tokens c.tk.toNat true }) s

/-- Commands join those in flight. -/
def State.addCmds (s : State) (cs : List Cmd) : State :=
  let s := { s with cmds := s.cmds ++ cs, nextId := s.nextId + cs.length }
  cs.foldl State.setToken s

/-! ## Copies (R253) -/

/-- What one slice comes to. -/
inductive Slice where
  | illop
  | empty
  | go (ctl : Nat) (dst : Loc) (bar bytes : Nat) (plan : CmdPlan)
  deriving DecidableEq, Repr

/-- The barrier offset that C gives a slice (R247). -/
def State.barrierOf (s : State) (T : Team) (ln : Ln) (c : COp) : Nat := ((s.cval T ln .zero c).getD 0#32).toNat

/-- The slice of a member group, from its lowest live lane. -/
def State.slice (s : State) (T : Team) (k : Copy) (d a b : VReg) (c : COp) (ln : Ln) : Slice :=
  let r (v : VReg) (j : Nat) : Nat := (s.rd ln (v.toNat + j)).val.toNat
  let ctl := r b 1
  let bar := s.barrierOf T ln c
  if !ctlOk ctl || ctlCs ctl != 0 || !k.spaces (ctlSsp ctl) (ctlDsp ctl) then .illop
  else
    match s.locOf T (ctlSsp ctl) (bits ctl 4 3) (r a 0) (r a 1), s.locOf T (ctlDsp ctl) (bits ctl 7 3) (r d 0) (r d 1) with
    | some src, some dst =>
      let ranks := (!src.foreign T && !dst.foreign T) || (ctlSsp ctl == 1 && ctlDsp ctl == 1)
      if !ranks || !s.barrierOk (dst.holder T) bar then .illop
      else
        match k with
        | .plain =>
          let len := r b 0
          if len % 16 != 0 || sliceMax < len then .illop
          else if len = 0 then .empty
          else .go ctl dst bar len (.rows src dst len)
        | _ =>
          let rb := r b 0
          let nr := r b 2
          let idx := r b 3
          if rb % 16 != 0 || rb < 16 || 65536 < rb || nr < 1 || 65536 < nr || sliceMax < nr * rb || idx % 4 != 0 then .illop
          else .go ctl dst bar (nr * rb) (if k == .gather then .gather src dst rb nr idx else .scatter src dst rb nr idx)
    | _, _ => .illop

/-- The destination of a plan and the bytes it spans, as far as they are known before the index array is read. -/
def CmdPlan.target (p : CmdPlan) (bytes : Nat) : Loc × Nat :=
  match p with
  | .rows _ dst _ => (dst, bytes)
  | .gather _ dst _ _ _ => (dst, bytes)
  | .scatter _ dst _ _ _ => (dst, bytes)
  | .tile dst => (dst, bytes)
  | .coll => (.va 0, 0)

/-- The rows of an index array as it stands now. -/
def State.indices (s : State) (T : Team) (off n : Nat) : List Nat :=
  (List.range n).map fun j => s.gather (T.basinKeys 0 (off + 4 * j) 4)

/-- The destination of a copy includes a shared line (R344, R348). -/
def State.planShared (s : State) (T : Team) (p : CmdPlan) (bytes : Nat) : Bool :=
  match p with
  | .scatter _ dst rb nr idx =>
    idx + 4 * nr ≤ T.basinLen && (s.indices T idx nr).any fun r => s.sharedRange T (dst.plus (r * rb)) rb
  | _ => let (dst, n) := p.target bytes; s.sharedRange T dst n

/-- The lowest live lane of each member group. -/
def firstLanes (lns : List Ln) : List Ln :=
  ((lns.map (·.g)).eraseDups).filterMap fun g => lns.find? (·.g == g)

/-- Members whose command is held wait for the commit, and have closed the round (R344, R348). -/
def State.holdMembers (s : State) : State :=
  s.cur.members.foldl (fun s (g, m) => s.closeAfter s.cur.team g (lanesOf m)) s

/-- The registers that a copy reads in the lowest live lane of each member group. -/
def Copy.regs (k : Copy) (d a b : VReg) (c : COp) : List Nat := span d 2 ++ span a 2 ++ span b (if k == .plain then 2 else 4) ++ c.regs

/-- CPY, CPYG and CPYS. Where the core has no room for the slices, nothing happens and the instruction comes again (R247). -/
def State.copy (s : State) (k : Copy) (d a b : VReg) (c : COp) (tk : BitVec 3) : Out :=
  match s.team? s.cur.team with
  | none => .fault .noIssuer
  | some T =>
    let lead := firstLanes (s.members T)
    let regs := k.regs d a b c
    let g := s.curGroup
    let nulls := nullLanes lead regs
    let bad := lead.filter fun ln => regs.any fun n => (s.rd ln n).poison
    let slices := lead.map fun ln => (ln, s.slice T k d a b c ln)
    let fail (code : Code) (ls : List Ln) : Out := .next (s.raising T.id g (s.raise (s.faultOf code ls {})))
    if !nulls.isEmpty then fail .unallot nulls
    else if !bad.isEmpty then fail .dataerr bad
    else if slices.any fun (_, x) => x == .illop then fail .illop (s.members T)
    else
      let goes := slices.filterMap fun (ln, x) => match x with
        | .go ctl dst bar bytes plan => some (ln, ctl, dst, bar, bytes, plan)
        | _ => none
      if Config.cmdMax < s.cmdCount T.core + goes.length then .next s
      else
        let cs := goes.zipIdx.map fun ((ln, ctl, dst, bar, bytes, plan), j) =>
          s.newCmd T (s.nextId + j) [ln.g] tk ctl dst bar bytes plan (s.isDet T && s.planShared T plan bytes)
        let s1 := (s.addCmds cs).retire []
        .next (if cs.any (·.held) then { s1 with cur := s.cur }.holdMembers else s1)

/-- CPY (R253). -/
def execCpy (_i : Iss) (d a b : VReg) (c : COp) (tk : BitVec 3) (s : State) : Out := s.copy .plain d a b c tk

/-- CPYG (R253). -/
def execCpyg (_i : Iss) (d a b : VReg) (c : COp) (tk : BitVec 3) (s : State) : Out := s.copy .gather d a b c tk

/-- CPYS (R253). -/
def execCpys (_i : Iss) (d a b : VReg) (c : COp) (tk : BitVec 3) (s : State) : Out := s.copy .scatter d a b c tk

/-! ## MST (R260) -/

/-- MST: the command and its matrix instruction start together; the members go on. -/
def execMst (_i : Iss) (d : VReg) (a : SlotN) (b : VReg) (c : COp) (fmt : MstFmt) (tk : BitVec 3) (s : State) : Out :=
  let n : Names := { src := span d 2 ++ span b 2 ++ c.regs }
  s.mxOnce n fun T lns =>
    match lns.head? with
    | none => .ok s
    | some ln =>
      let r (v : VReg) (j : Nat) : Nat := (s.rd ln (v.toNat + j)).val.toNat
      let stride := r b 0
      let ctl := r b 1
      let nb := bits ctl 20 4
      let cb := bits ctl 24 4
      let e5m2 := bits ctl 28 1 == 1
      let members := s.cur.members.length
      let row := 32 * nb * mstBytes fmt
      let ok := ctlOk ctl && ctlSsp ctl == 0 && ctlDsp ctl != 2 && bits ctl 29 3 == 0 && (fmt == .fp8 || !e5m2) &&
        1 ≤ nb && nb ≤ 12 && cb + nb ≤ 12 && stride % 16 == 0 && row ≤ stride && 1 ≤ members && members ≤ 3 &&
        (s.mxOf T.core).tag a == (fmt == .i32)
      match s.locOf T (ctlDsp ctl) (bits ctl 7 3) (r d 0) (r d 1) with
      | none => .error (.illop, lns)
      | some dst =>
        if !ok || dst.foreign T || !s.barrierOk T.id (s.barrierOf T ln c) then .error (.illop, lns)
        else
          let rows := 32 * members
          let held := s.isDet T && (List.range rows).any fun j => s.sharedRange T (dst.plus (j * stride)) row
          let cmd := s.newCmd T s.nextId (s.cur.members.map (·.1)) tk ctl dst (s.barrierOf T ln c) (row * rows) (.tile dst) held
          let s1 := ((s.addCmds [cmd]).enqueue T (.mst a fmt e5m2 cb nb rows stride cmd.id) 1).retire []
          .ok (if held then { s1 with cur := s.cur }.holdMembers else s1)

/-! ## COLL (R261) -/

/-- Bytes of an element of a collective's TYPE. -/
def collBytes : Nat → Nat
  | 2 => 2
  | 3 => 8
  | _ => 4

/-- The types that an operation permits (R261). -/
def collType (op : CollOp) (ty : Nat) : Bool :=
  match op with
  | .aradd | .armax | .rsadd => ty ≤ 2
  | .aravimx => ty == 3
  | .gather => ty ≤ 3

/-- A collective of the partition with the same tag is in flight. -/
def State.tagBusy (s : State) (p tag : Nat) : Bool :=
  s.cmds.any fun c => match c.coll with
    | some x => x.tag == tag && ((s.team? c.team).map (·.part)).getD 8 == p
    | none => false

/-! ## Barrier words (R249, R250) -/

/-- A barrier word, field by field. -/
structure Bar where
  exp : Nat
  arr : Nat
  ph : Nat
  err : Nat
  deriving DecidableEq, Repr

def Bar.of (w : Nat) : Bar := { exp := bits w 0 32, arr := bits w 32 24, ph := bits w 56 1, err := bits w 57 7 }

def Bar.word (b : Bar) : Nat := b.exp % 2 ^ 32 + b.arr % 2 ^ 24 * 2 ^ 32 + b.ph % 2 * 2 ^ 56 + b.err % 128 * 2 ^ 57

/-- Settle (R250). -/
def Bar.settle (b : Bar) : Bar :=
  if b.exp ≠ 0 ∧ b.exp ≤ b.arr then { b with arr := b.arr - b.exp, exp := 0, ph := 1 - b.ph } else b

/-- Fail (R250). -/
def Bar.fail (b : Bar) (code : Nat) : Bar :=
  if b.err ≠ 0 then b else { err := code, exp := 0, arr := 0, ph := 1 - b.ph }

/-- Arrive (R250). -/
def Bar.arrive (b : Bar) (n : Nat) : Bar :=
  if b.err ≠ 0 then b
  else if 2 ^ 24 - 1 < b.arr + n then b.fail 8
  else { b with arr := b.arr + n }.settle

/-- CARM (R250), or `none` where it raises ILLOP (R257). -/
def Bar.arm (b : Bar) (n : Nat) : Option Bar :=
  let b := if b.err ≠ 0 then { b with err := 0, arr := 0 } else b
  if n = 0 ∨ 2 ^ 24 - 1 < b.exp + n then none else some { b with exp := b.exp + n }.settle

/-- The barrier word at a Basin offset of a team. -/
def State.bar (s : State) (T : Team) (off : Nat) : Bar := Bar.of (s.gather (T.basinKeys 0 off 8))

/-- A barrier word written; an engine's write clears the shadows of its words (R351). -/
def State.setBar (s : State) (T : Team) (off : Nat) (b : Bar) : State :=
  (s.scatter (T.basinKeys 0 off 8) b.word).modTeam T.id fun T => T.unshade (T.wordsOf (T.basinKeys 0 off 8))

/-! ## CARM, CWAIT, CTEST (R257 to R259) -/

/-- The place of a barrier word that an instruction names, or MISALIGN or PERM (R258). -/
def State.barAt (s : State) (T : Team) (ln : Ln) (a : VReg) (off : COp) : Nat × Except Code Place :=
  s.at_ .basin 0 8 needRW a off T ln

/-- Lanes arm one after the other: the state, and the lanes that may not. -/
def State.armAll (s : State) (T : Team) (b : VReg) (accs : List (Ln × Place)) : State × List Ln :=
  accs.foldl (fun (x : State × List Ln) (ln, p) =>
    match (x.1.bar T p.ea).arm (s.rd ln b.toNat).val.toNat with
    | some w => (x.1.setBar T p.ea w, x.2)
    | none => (x.1, x.2 ++ [ln])) (s, [])

/-- The lanes whose registers are there and whose word's address is right. -/
def State.armable (s : State) (T : Team) (a : VReg) (off : COp) (src : List Nat) (lns : List Ln) : List (Ln × Place) :=
  (lns.filter fun ln => src.all fun n => (ln.key? n).isSome && !(s.rd ln n).poison).filterMap fun ln =>
    match (s.barAt T ln a off).2 with
    | .ok p => some (ln, p)
    | .error _ => none

/-- The fault of a single execution at a barrier word, whose address its leading lane reads. -/
def State.barFault (s : State) (T : Team) (ln : Ln) (code : Code) (ea : Nat) (n : Names) : State :=
  s.raising T.id s.curGroup (s.raise { s.faultOf code [ln] n with va := BitVec.ofNat 64 ea })

/-- The count that a lane would arm with is 0, as far as its register can be read. -/
def State.armsNone (s : State) (b : VReg) (ln : Ln) : Bool :=
  (ln.key? b.toNat).isSome && !(s.rd ln b.toNat).poison && (s.rd ln b.toNat).val == 0#32

/-- CARM (R257): once for each lane at L scope, once at G and T scope; nothing is changed when one may not arm. ILLOP comes before the
faults of the other registers and of the address (R176). -/
def execCarm (i : Iss) (a : VReg) (off : COp) (b : VReg) (s : State) : Out :=
  match s.team? s.cur.team with
  | none => .fault .noIssuer
  | some T =>
    let src := a.toNat :: b.toNat :: off.regs
    match i.scope with
    | .lane .. =>
      let bad := (s.armAll T b (s.armable T a off src (s.actors T i))).2
      s.ordered i { src } (a.toNat :: off.regs) (fun _ ln => s.armsNone b ln || bad.contains ln) (fun T ln => s.barAt T ln a off) fun s T accs =>
        .next ((s.armAll T b accs).1.retire [])
    | _ =>
      if (s.leader T).any (s.armsNone b) then .next (s.raising T.id s.curGroup (s.raise (s.faultOf .illop (s.members T) { src })))
      else
      s.once { src } fun T lns =>
        match lns.head? with
        | none => .ok s
        | some ln =>
          match s.barAt T ln a off with
          | (ea, .error code) => .ok (s.barFault T ln code ea { src })
          | (_, .ok p) =>
            match s.armAll T b [(ln, p)] with
            | (s1, []) => .ok (s1.retire [])
            | _ => .error (.illop, lns)

/-- The phase has flipped since the value observed. -/
def Bar.flipped (w : Bar) (ph : Bool) : Bool := (w.ph == 1) != ph

/-- What CWAIT and CTEST write when the phase has flipped: ERR, untainted, and Q[P]. -/
def State.observe (s : State) (ln : Ln) (p : Option PReg) (d : VReg) (w : Bar) : State :=
  let s := s.wr ln.t ln.g ln.l d.toNat (BitVec.ofNat 32 w.err) false
  match p with
  | some p => s.setPred ln p true
  | none => s

/-- CWAIT, and CTEST of a deterministic launch: each lane waits and observes on its own. -/
def State.waitBar (s : State) (i : Iss) (p : Option PReg) (d a : VReg) (off : COp) (b : VReg) : Out :=
  let n : Names := { src := a.toNat :: b.toNat :: off.regs, dst := [d.toNat], flt := dstV d.toNat }
  s.ordered i n (a.toNat :: off.regs) (fun _ _ => false) (fun T ln => s.barAt T ln a off) fun s T accs =>
    s.withRows T (accs.map (·.1)) [d.toNat] fun s1 =>
      let ph (ln : Ln) : Bool := (s.rd ln b.toNat).val.getLsbD 0
      let go := accs.filter fun (ln, x) => (s.bar T x.ea).flipped (ph ln)
      let stay := accs.filter fun (ln, x) => !(s.bar T x.ea).flipped (ph ln)
      let s1 := go.foldl (fun s1 (ln, x) => s1.observe ln p d (s.bar T x.ea)) s1
      let s1 := s1.retire (stay.map fun (ln, _) => (ln.g, ln.l))
      .next (stay.foldl (fun s1 (ln, x) => s1.modThread T.id ln.g ln.l fun th =>
        { th with wait := .cwait p d x.ea (ph ln) }) s1)

/-- CWAIT (R258): at L scope lane by lane; at the wider scopes it waits once and writes every live member lane. A register without a
row is found first, the sources of the leader and the destination of every member (R176). -/
def execCwait (i : Iss) (d a : VReg) (off : COp) (b : VReg) (s : State) : Out :=
  match i.scope with
  | .lane .. => s.waitBar i none d a off b
  | _ =>
    let n : Names := { src := a.toNat :: b.toNat :: off.regs, flt := dstV d.toNat }
    match s.team? s.cur.team with
    | none => .fault .noIssuer
    | some T =>
      let lns := s.members T
      let nulls := lns.filter fun ln => (ln.key? d.toNat).isNone || (lns.head? == some ln && n.src.any fun r => (ln.key? r).isNone)
      if !nulls.isEmpty then .next (s.raising T.id s.curGroup (s.raise (s.faultOf .unallot nulls n)))
      else
        s.once n fun T lns =>
          match lns.head? with
          | none => .ok s
          | some ln =>
            match s.barAt T ln a off with
            | (ea, .error code) => .ok (s.barFault T ln code ea { flt := dstV d.toNat })
            | (_, .ok x) =>
              let w := s.bar T x.ea
              let ph := (s.rd ln b.toNat).val.getLsbD 0
              match s.cowAll T.id (rowsOf lns [d.toNat]) with
              | .noRow => .ok s.stall
              | .pending => .ok s
              | .ok s1 =>
                if w.flipped ph then .ok ((lns.foldl (fun s1 ln => s1.observe ln none d w) s1).retire [])
                else .ok (s1.park (.cwait none d x.ea ph))

/-- CTEST (R259); in a deterministic launch it waits as CWAIT does. -/
def execCtest (i : Iss) (p : PReg) (d a : VReg) (off : COp) (b : VReg) (s : State) : Out :=
  match s.team? s.cur.team with
  | none => .fault .noIssuer
  | some T =>
    if s.isDet T then s.waitBar i (some p) d a off b
    else
      let n : Names := { src := a.toNat :: b.toNat :: off.regs, dst := [d.toNat], flt := dstV d.toNat }
      s.ordered i n (a.toNat :: off.regs) (fun _ _ => false) (fun T ln => s.barAt T ln a off) fun s T accs =>
        s.withRows T (accs.map (·.1)) [d.toNat] fun s1 =>
          .next ((accs.foldl (fun s1 (ln, x) =>
            let w := s.bar T x.ea
            if w.flipped ((s.rd ln b.toNat).val.getLsbD 0) then s1.observe ln (some p) d w
            else (s1.wr ln.t ln.g ln.l d.toNat allOnes false).setPred ln p false) s1).retire [])

/-- The waiting threads that go on with a thread of a group: those of its single execution (R258). -/
def Team.waitPeers (T : Team) (g l : Nat) : List (Nat × Nat) :=
  let th := (T.ln g l).th
  if th.arr = .no then [(g, l)]
  else
    (T.numbered.map fun (j, G) =>
      ((lanesOf G.live).filter fun k =>
        let x := G.thread k
        x.wait == th.wait && x.pc == th.pc && x.arr == th.arr && (j == g || th.arr.cv?.isSome)).map fun k => (j, k)).flatten

/-- CWAIT_WAKE (R258): the phase of the word that a thread waits for has flipped. -/
def execCwaitWake (t g l : Nat) (s : State) : Out :=
  match s.team? t with
  | none => .next s
  | some T =>
    let th := (T.ln g l).th
    match th.wait with
    | .cwait p d off ph =>
      let w := s.bar T off
      if !th.live || !w.flipped ph then .next s
      else
        let peers := T.waitPeers g l
        let lns := peers.map fun (j, k) => T.ln j k
        match s.cowAll t (rowsOf lns [d.toNat]) with
        | .ok s1 =>
          let s1 := lns.foldl (fun s1 ln => s1.observe ln p d w) s1
          let gs := (peers.map (·.1)).eraseDups
          let s1 := gs.foldl (fun s1 j => s1.nextLanes t j ((peers.filter (·.1 == j)).map (·.2))) s1
          .next (if th.arr = .no then s1 else s1.release t th.arr (if th.arr.cv?.isSome then T.membership th.arr g else [g]))
        | _ => .next s
    | _ => .next s

/-! ## The engine's accesses (R252, R255) -/

/-- What one access of 16 bytes comes to. -/
inductive Got where
  | val (x : BitVec 128)
  | done (s : State) (wct : Nat)
  /-- It waits for an access that comes first. -/
  | later
  | err (code : BitVec 7)
  | page (p : Nat)
  /-- It goes out through the external aperture. -/
  | out (ia : Nat)
  deriving DecidableEq, Repr

/-- The IA of a granule, or what stops it first. -/
def State.engineIa (s : State) (T : Team) (a : Nat) (need : Need) : Except Got (Nat × Nat) :=
  match s.translate T.part (s.ctxOf T) a need with
  | none => .error (.err 3#7)
  | some ia =>
    if s.detClass T ia == .race then .error (.err 3#7)
    else if (apertureOf ia).isSome then .error (.out ia)
    else if s.windowReset T.part ia then .error (.err 8#7)
    else
      match s.iaKey ia with
      | none => .error (.page (pageOf ia))
      | some k => .ok (ia, k)

/-- An earlier access of the issuing threads is not performed yet, of a lane as `p` says. -/
def State.issuerOwes (s : State) (c : Cmd) (p : Flight → LaneAcc → Bool) : Bool :=
  s.flights.any fun f => f.team == c.team && f.id < c.bound && !f.staged &&
    f.lanes.any fun a => a.todo && p f a && c.issuers.any fun (g, m) => g == f.group && m.getLsbD a.lane

/-- An earlier access of the issuing threads to these bytes is not performed yet: a read of the command comes after it (R174, R307). -/
def State.issuerPending (s : State) (c : Cmd) (ia : Nat) : Bool := s.issuerOwes c fun f a => f.remote && overlaps a.ia f.size ia 16

/-- The same of bytes of Basin or Slip. -/
def State.issuerHolds (s : State) (c : Cmd) (keys : List Nat) : Bool := s.issuerOwes c fun f a => !f.remote && keys.any a.keys.contains

/-- The keys of 16 bytes of a team's Basin, if they lie in its allocation. -/
def State.basinGranule (s : State) (t off : Nat) (swz : BitVec 3) : Option (Team × List Nat) :=
  match s.team? t with
  | none => none
  | some U => if off + 16 ≤ U.basinLen then some (U, U.basinKeys swz.toNat off 16) else none

/-- 16 bytes read for a command; those of a shared line as they stood when the round of its execution began (R348). -/
def State.engineRead (s : State) (T : Team) (c : Cmd) : Loc → Got
  | .va a =>
    match s.engineIa T a needR with
    | .error (.out ia) => if s.issuerPending c ia then .later else .out ia
    | .error r => r
    | .ok (ia, k) =>
      match c.opening, s.detClass T ia == .shared && !c.late with
      | some o, true =>
        if s.poisonedIn k 16 || s.cxlDown k then .err 1#7
        else .val (BitVec.ofNat 128 ((List.range 16).foldr (fun j x => (Sparse.get unwritten o (k + j)).toNat + 256 * x) 0))
      | _, _ =>
        if s.issuerPending c ia then .later
        else if s.poisonedIn k 16 || s.cxlDown k then .err 1#7
        else .val (BitVec.ofNat 128 (s.bytes k 16))
  | .basin t off swz =>
    match s.basinGranule t off swz with
    | none => .err 3#7
    | some (_, keys) =>
      if s.issuerHolds c keys then .later
      else if keys.any s.poisonedAt then .err 1#7 else .val (BitVec.ofNat 128 (s.gather keys))
  | .slip off =>
    if s.inSlip T off 16 then
      let k := slipKey T.core off
      if s.issuerHolds c ((List.range 16).map (k + ·)) then .later
      else if s.poisonedIn k 16 then .err 1#7 else .val (BitVec.ofNat 128 (s.bytes k 16))
    else .err 3#7
  | .buf _ | .tab _ => .later

/-- A 16-byte granule of Basin written whole by an engine: its full-empty bit is set, the shadows of its words and its poison
mark are cleared (R175, R351, R378). The bit orders nothing for the LDFE that takes it (R309). -/
def State.basinWrite (s : State) (U : Team) (keys : List Nat) (x : BitVec 128) : State :=
  ((s.scatter keys x.toNat).clearPoison (keys.headD 0)).modTeam U.id fun U =>
    { U.unshade (U.wordsOf keys) with full := insertNat U.full (U.granule (keys.headD 0)), engFull := insertNat U.engFull (U.granule (keys.headD 0)) }

/-- 16 bytes written for a command, the line inserted at a re-reference position. -/
def State.engineWrite (s : State) (T : Team) (pos : Nat) (x : BitVec 128) : Loc → Got
  | .va a =>
    match s.engineIa T a needW with
    | .error (.out ia) => if s.locked ia 16 then .later else .out ia
    | .error r => r
    | .ok (ia, k) =>
      if s.locked ia 16 then .later
      else
        let s := (s.writeKey T.part k (numbered 16 x.toNat)).dropLine T ia
        let (w, s) := (s.cache ia).stamp ia k (T.core / Config.coresPerDie) pos
        .done s w
  | .basin t off swz =>
    match s.basinGranule t off swz with
    | none => .err 3#7
    | some (U, keys) => .done (s.basinWrite U keys x) 0
  | .slip off =>
    if s.inSlip T off 16 then
      let k := slipKey T.core off
      .done ((s.setBytes k 16 x.toNat).clearPoison k) 0
    else .err 3#7
  | .buf _ | .tab _ => .later

/-- A command in flight. -/
def State.cmd? (s : State) (id : Nat) : Option Cmd := s.cmds.find? (·.id == id)

def State.modCmd (s : State) (id : Nat) (f : Cmd → Cmd) : State := { s with cmds := s.cmds.map fun x => if x.id == id then f x else x }

/-- A command stops at its first failure (R256). -/
def Cmd.stop (c : Cmd) (code : BitVec 7) : Cmd := { c with err := some (c.err.getD code), moves := [], page := none }

/-- The bytes of a granule. -/
def granuleBytes (x : BitVec 128) : List Byte := listOf 16 x.toNat

/-- What follows from an access that did not give a value or finish a write. -/
def State.engineStuck (s : State) (T : Team) (c : Cmd) (g : Got) (data : Option (BitVec 128)) : State :=
  match g with
  | .err code => s.modCmd c.id (·.stop code)
  | .page p => s.modCmd c.id fun c => { c with page := some p }
  | .out ia =>
    let id := s.nextId
    let s := match data with
      | none => s.sendOut T.part ia (.load false) [] 16 none (some c.id) T.id
      | some x => s.sendOut T.part ia (.store false) (granuleBytes x) 16 none (some c.id) T.id
    s.modCmd c.id fun c => { c with moves := match c.moves with | m :: rest => { m with req := some id } :: rest | [] => [] }
  | _ => s

/-- What a read of a command leaves: the translation kept, the line counted where it missed (R288, R291), and no older copy of it in the L1 of the
issuing threads, which may not see that afterwards (R300, R307; DEDUCED, log entry 9). -/
def State.afterRead (s : State) (T : Team) : Loc → State
  | .va a =>
    match s.engineIa T a needR with
    | .ok (ia, k) => ((s.dropLine T ia).cache ia).reach ia k (T.core / Config.coresPerDie) anyPos
    | .error _ => s
  | _ => s

/-- A read has gone to the memory: it has brought a value or found the line poisoned. -/
def Got.read (g : Got) : Bool :=
  match g with
  | .val _ => true
  | g => g == .err 1#7

/-- The first move of a command carried out as far as it goes in one access: its value, then its write. -/
def State.moveOne (s : State) (T : Team) (c : Cmd) : State :=
  match c.moves with
  | [] => s
  | m :: rest =>
    if m.req.isSome then s
    else
      let got : Got := match m.src with
        | .inr x => .val x
        | .inl l => s.engineRead T c l
      let s := match m.src with | .inl l => if got.read then s.afterRead T l else s | .inr _ => s
      match got with
      | .val x =>
        match m.dst with
        | .buf i => s.modCmd c.id fun c =>
            { c with moves := rest, coll := c.coll.map fun y => { y with own := Sparse.insert y.own i x } }
        | .tab i => s.modCmd c.id fun c =>
            { c with moves := rest, coll := c.coll.map fun y => { y with tab := Sparse.insert y.tab i x } }
        | d =>
          match s.engineWrite T (ctlHint c.ctl.toNat) x d with
          | .done s w => s.modCmd c.id fun c => { c with moves := rest, wct := max c.wct w, written := true }
          | g => s.engineStuck T { c with moves := { m with src := .inr x } :: rest } g (some x)
      | g => s.engineStuck T c g none

/-! ## Starting a command -/

/-- The acquire of a command is met: every earlier load of its issuing threads has returned (R252). -/
def State.acquireMet (s : State) (c : Cmd) : Bool :=
  !ctlAcqe c.ctl.toNat ||
    s.flights.all fun f => f.team != c.team || f.id ≥ c.bound ||
      !(f.lanes.any fun a => a.dst.isSome && c.issuers.any fun (g, m) => g == f.group && m.getLsbD a.lane)

/-- The moves of one row. -/
def rowMoves (src dst : Loc) (len : Nat) : List Move :=
  (List.range (len / 16)).map fun j => { src := .inl (src.plus (16 * j)), dst := dst.plus (16 * j), req := none }

/-- The moves of one CPYS: of those to one destination the last writes (R253: the row with the highest number stands), and the others
are read and checked only (R255). -/
def lastMoves (ms : List Move) : List Move :=
  ms.foldr (fun m kept => (if kept.any (·.dst == m.dst) then { m with dst := .buf 0 } else m) :: kept) []

/-- The Slip side of a copy lies in one live record (R254). -/
def State.slipOk (s : State) (T : Team) (x : Loc) (len : Nat) : Bool :=
  match x with
  | .slip off => s.inSlip T off len
  | _ => true

/-- A copy starts: its moves, or the failure of its Slip range or of its index array. -/
def State.startCopy (s : State) (T : Team) (c : Cmd) : State :=
  let go (ms : List Move) : State := s.modCmd c.id fun c => { c with started := true, moves := ms }
  let indexed (idx nr : Nat) (f : List Nat → List Move) : State :=
    if T.basinLen < idx + 4 * nr then s.modCmd c.id fun c => { c.stop 3#7 with started := true }
    else if (T.basinKeys 0 idx (4 * nr)).any s.poisonedAt then s.modCmd c.id fun c => { c.stop 1#7 with started := true }
    else go (f (s.indices T idx nr))
  match c.plan with
  | .rows src dst len =>
    if s.slipOk T src len && s.slipOk T dst len then go (rowMoves src dst len)
    else s.modCmd c.id fun c => { c.stop 3#7 with started := true }
  | .gather src dst rb nr idx => indexed idx nr fun rs =>
      (rs.zipIdx.map fun (x, r) => rowMoves (src.plus (x * rb)) (dst.plus (r * rb)) rb).flatten
  | .scatter src dst rb nr idx => indexed idx nr fun rs =>
      lastMoves (rs.zipIdx.map fun (x, r) => rowMoves (src.plus (r * rb)) (dst.plus (x * rb)) rb).flatten
  | _ => s

/-! ## Collectives (R262 to R265) -/

/-- Hops from a node to the root, within a bound. -/
def reachesRoot (parents : List Nat) : Nat → Nat → Bool
  | 0, x => parents.getD x 0 == 0xFFFF
  | n + 1, x => if parents.getD x 0 = 0xFFFF then true else reachesRoot parents n (parents.getD x 0)

/-- A topology table is right (R264): its words, from the header on. -/
def topoOk (ws : List Nat) : Bool :=
  let nn := bits (ws.getD 0 0) 0 16
  let self := bits (ws.getD 0 0) 16 16
  let es := (ws.drop 4).take nn
  let parents := es.map (bits · 0 16)
  2 ≤ nn && nn ≤ 1024 && self < nn && ws.getD 1 0 == 0 && ws.getD 2 0 == 0 && ws.getD 3 0 == 0 &&
    (es.all fun e => bits e 24 8 == 0) && (parents.zipIdx.all fun (p, i) => p != i && (p == 0xFFFF || p < nn)) &&
    parents.countP (· == 0xFFFF) == 1 && reachesRoot parents nn self

/-- A link port carries a collective: it is up, or in recovery (R394). -/
def State.portUp (s : State) (port : Nat) : Bool :=
  match (vget s.m.links port { st := .down, recov := 0#16, time := 0 }).st with
  | .up | .recovery => true
  | _ => false

/-- Bytes of the own contribution and of the result that is sent down (R261). -/
def CollSt.ownBytes (x : CollSt) : Nat := x.n * collBytes x.ty * (if x.op == .rsadd then x.nn else 1)
def CollSt.destBytes (x : CollSt) : Nat := x.n * collBytes x.ty * (if x.op == .gather then x.nn else 1)

/-- A collective starts, or goes on to the next of its phases: the granules that it reads now (R264, R265). -/
def CollSt.reading (x : CollSt) : List Move :=
  let read (a : Nat) (dst : Nat → Loc) (lo n : Nat) : List Move :=
    (List.range n).map fun i => { src := .inl (.va (a + 16 * (lo + i))), dst := dst (lo + i), req := none }
  match x.phase with
  | 0 => read x.table .tab 0 1
  | 1 => if x.nn ≤ 1024 then read x.table .tab 1 ((x.nn + 3) / 4) else []
  | _ => read x.src .buf 0 (x.ownBytes / 16)

/-- A collective whose header is known. -/
def CollSt.headed (x : CollSt) (header : BitVec 128) : CollSt :=
  { x with phase := 1, tab := [(0, header)], nn := bits header.toNat 0 16, self := bits header.toNat 16 16 }

/-- The words of the topology table from its header on. -/
def CollSt.tableWords (x : CollSt) : List Nat :=
  (List.range (4 + x.nn)).map fun j => bits (Sparse.get 0#128 x.tab (j / 4)).toNat (32 * (j % 4)) 32

/-- A collective whose table has been read: the parents, and the nodes that it hears from. -/
def CollSt.joined (x : CollSt) : CollSt :=
  let es := if x.nn ≤ 1024 then x.tableWords.drop 4 else []
  let parents := es.map (bits · 0 16)
  let port (i lo : Nat) : Nat := bits (es.getD i 0) lo 4
  let up := parents.getD x.self 0xFFFF
  let peer (node port : Nat) : Peer := { node, port, silent := 0, skipped := 0 }
  { x with
    phase := 2, parents,
    peers := (if up = 0xFFFF then [] else [peer up (port x.self 16)]) ++
      ((List.range x.nn).filter fun i => parents.getD i 0xFFFF == x.self).map fun i => peer i (port i 20) }

/-- A byte count of a collective is over its limit for a number of nodes (R261). -/
def collOver (op : CollOp) (bytes nn : Nat) : Bool :=
  (op == .gather || op == .rsadd) && 2 ≤ nn && nn ≤ 1024 && sliceMax < nn * bytes

/-- The execution of COLL goes on once the number of nodes is known, or cannot be read: its threads are past the word; where the command
is held, they wait for its commit (R348). -/
def State.collPassed (s : State) (c : Cmd) : State :=
  let stands (g l : Nat) : Bool := (s.thread c.team g l).wait == .coll c.id
  let ms := c.issuers.filter fun (g, m) => (lanesOf m).any (stands g)
  match ms with
  | [] => s
  | (g, m) :: _ =>
    let a := (((lanesOf m).find? (stands g)).map fun l => (s.thread c.team g l).arr).getD .no
    let s1 := ms.foldl (fun s1 (g, m) => s1.nextLanes c.team g ((lanesOf m).filter (stands g))) s
    let s1 := s1.release c.team a (ms.map (·.1))
    if c.held then ms.foldl (fun s1 (g, m) => s1.closeAfter c.team g ((lanesOf m).filter (stands g))) s1 else s1

/-- The execution of COLL finds that a byte count is over its limit: nothing is started, and it raises ILLOP (R247, R261). -/
def State.collRefused (s : State) (c : Cmd) : State :=
  let stands (g l : Nat) : Bool := (s.thread c.team g l).wait == .coll c.id
  let ms := c.issuers.map (·.1)
  match c.issuers.findSome? fun (g, m) => ((lanesOf m).find? (stands g)).map fun l => (g, (s.thread c.team g l).arr) with
  | none => s
  | some (g, a) =>
    let s := c.issuers.foldl (fun s (g, m) => (lanesOf m).foldl (fun s l =>
      s.modThread c.team g l fun th => if th.wait == .coll c.id then { th with wait := .none } else th) s) s
    s.raisingIn c.team ms
      (s.raise { code := .illop, t := c.team, g, lanes := ((s.group? c.team g).map (·.live)).getD 0#32, pc := c.pc, arr := a, members := ms })

/-- A collective starts: it reads its table. -/
def State.startColl (s : State) (c : Cmd) (x : CollSt) : State :=
  s.modCmd c.id fun c => { c with started := true, moves := x.reading }

/-- The collective that a COLL names (R261). -/
def State.collOf (s : State) (ln : Ln) (d a b : VReg) (op : CollOp) : CollSt :=
  let r (v : VReg) (j : Nat) : Nat := (s.rd ln (v.toNat + j)).val.toNat
  let pair (v : VReg) (j : Nat) : Nat := r v j + 2 ^ 32 * r v (j + 1)
  { op, ty := bits (r b 1) 20 4, tag := bits (r b 1) 24 8, n := r b 0, table := pair b 2, src := pair a 0, dst := pair d 0, nn := 0,
    self := 0, parents := [], peers := [], own := [], phase := 0, tab := [], shards := [], sent := [], stored := false }

/-- The command of a COLL, before its table is read. -/
def State.collCmd (s : State) (T : Team) (ln : Ln) (d a b : VReg) (c : COp) (op : CollOp) (tk : BitVec 3) : Cmd :=
  let x := s.collOf ln d a b op
  { s.newCmd T s.nextId (s.cur.members.map (·.1)) tk (s.rd ln (b.toNat + 1)).val.toNat (.va x.dst) (s.barrierOf T ln c)
      (x.n * collBytes x.ty) .coll false with coll := some x }

/-- COLL (R261). While another collective of the partition has its tag, or the core has no room, it comes again. Where the byte counts
depend on the number of nodes, the threads wait at the word until the engine has read the topology table's first word, unless it can
be read at once. -/
def execColl (_i : Iss) (d a b : VReg) (c : COp) (op : CollOp) (tk : BitVec 3) (s : State) : Out :=
  s.once { src := span d 2 ++ span a 2 ++ span b 4 ++ c.regs } fun T lns =>
    match lns.head? with
    | none => .ok s
    | some ln =>
      let x := s.collOf ln d a b op
      let ctl := (s.rd ln (b.toNat + 1)).val.toNat
      let bytes := x.n * collBytes x.ty
      let ok := ctlOk ctl && ctlSsp ctl == 0 && ctlDsp ctl == 0 && collType op x.ty && 1 ≤ x.n && bytes % 16 == 0 && bytes ≤ sliceMax &&
        x.dst % 16 == 0 && x.src % 16 == 0 && x.table % 64 == 0 && s.barrierOk T.id (s.barrierOf T ln c)
      let cmd := s.collCmd T ln d a b c op tk
      let go (cmd : Cmd) : Except (Code × List Ln) State :=
        let s1 := (s.addCmds [cmd]).retire []
        .ok (if cmd.held then { s1 with cur := s.cur }.holdMembers else s1)
      let held (y : CollSt) : Bool := s.isDet T && s.sharedRange T (.va x.dst) (max bytes y.destBytes)
      if !ok then .error (.illop, lns)
      else if s.tagBusy T.part x.tag || Config.cmdMax ≤ s.cmdCount T.core then .ok s
      else if op != .gather && op != .rsadd then go { cmd with held := held x }
      else if !s.acquireMet cmd then .ok ((s.addCmds [cmd]).park (.coll cmd.id))
      else
        match s.engineRead T cmd (.va x.table) with
        | .val header =>
          let y := x.headed header
          if collOver op bytes y.nn then .error (.illop, lns)
          else go { cmd with held := held y, coll := some y }
        | .err code => go ({ cmd with started := true }.stop code)
        | _ => .ok ((s.addCmds [cmd]).park (.coll cmd.id))

/-- What a collective has read in a phase leads to the next (R261, R264, R265). -/
def State.collPhase (s : State) (T : Team) (c : Cmd) : State :=
  match c.coll with
  | none => s
  | some x =>
    if !c.started || !c.moves.isEmpty || c.page.isSome then s
    else if c.err.isSome then (if x.phase = 0 then (s.modCmd c.id fun c => { c with coll := some { x with phase := 1 } }).collPassed c else s)
    else
      match x.phase with
      | 0 =>
        let y := x.headed (Sparse.get 0#128 x.tab 0)
        -- at the commit its threads have passed the word, and a table that has become too long is no table for it (phase 1)
        if !c.late && collOver x.op (x.n * collBytes x.ty) y.nn then ({ s with cmds := s.cmds.filter (·.id != c.id) }.clearTokens c).collRefused c
        else if s.isDet T && !c.late && s.sharedRange T (.va x.dst) y.destBytes then
          let c := { c with held := true, started := false, coll := some y }
          (s.modCmd c.id fun _ => c).collPassed c
        else (s.modCmd c.id fun c => { c with coll := some y, moves := y.reading }).collPassed c
      | 1 =>
        let y := x.joined
        let s := s.modCmd c.id fun c => { c with coll := some y }
        if !topoOk x.tableWords || sliceMax < y.ownBytes || sliceMax < y.destBytes then s.modCmd c.id (·.stop 4#7)
        else if y.peers.any fun p => !s.portUp p.port then s.modCmd c.id (·.stop 7#7)
        else s.modCmd c.id fun c => { c with bytes := y.destBytes, moves := y.reading }
      | _ => s

/-- Bytes of a chunk (R263). -/
def chunkBytes : Nat := 4096

/-- The checksum of a chunk (R263). -/
def chunkSumOf (data : List Byte) : Word :=
  BitVec.ofNat 32 (((List.range (data.length / 4)).map fun j =>
    (j + 1) * ((data.drop (4 * j)).take 4).foldr (fun (b : Byte) x => b.toNat + 256 * x) 0).sum % 2 ^ 32)

/-- Node `i` lies in the subtree of `top`. -/
def CollSt.under (x : CollSt) (top : Nat) : Nat → Nat → Bool
  | 0, i => i == top
  | n + 1, i => i == top || (x.parents.getD i 0xFFFF != 0xFFFF && CollSt.under x top n (x.parents.getD i 0xFFFF))

/-- Bytes of what a node's shard holds in all. -/
def CollSt.shardBytes (x : CollSt) : Nat := if x.op == .gather then x.n * collBytes x.ty else x.ownBytes

/-- The nodes whose shards are received: every other node's block of a gather, else those of the peers. -/
def CollSt.expected (x : CollSt) : List Nat :=
  if x.op == .gather then (List.range x.nn).filter (· != x.self) else x.peers.map (·.node)

/-- Chunks of a shard. -/
def CollSt.chunks (x : CollSt) : Nat := (x.shardBytes + chunkBytes - 1) / chunkBytes

/-- The chunk has been received. -/
def CollSt.has (x : CollSt) (node chunk : Nat) : Bool := x.shards.any fun h => h.node == node && h.chunk == chunk

/-- Every chunk of a node's shard has been received. -/
def CollSt.whole (x : CollSt) (node : Nat) : Bool := (List.range x.chunks).all (x.has node)

/-- The peer through which a node's shard comes: the child above it, else the parent. -/
def CollSt.via (x : CollSt) (node : Nat) : Option Peer :=
  if x.op == .gather then
    (x.peers.find? fun p => x.parents.getD p.node 0xFFFF == x.self && x.under p.node x.nn node).or
      (x.peers.find? fun p => x.parents.getD p.node 0xFFFF != x.self)
  else x.peers.find? (·.node == node)

/-- Something is still awaited from a peer. -/
def CollSt.awaits (x : CollSt) (p : Peer) : Bool :=
  x.expected.any fun i => (x.via i).map (·.node) == some p.node && !x.whole i

/-- A shard put together. -/
def CollSt.shard (x : CollSt) (node : Nat) : List Byte :=
  ((List.range x.chunks).map fun k => ((x.shards.find? fun h => h.node == node && h.chunk == k).map (·.data)).getD []).flatten

/-- The own contribution as bytes. -/
def CollSt.ownData (x : CollSt) : List Byte :=
  ((List.range (x.ownBytes / 16)).map fun i => granuleBytes (Sparse.get 0#128 x.own i)).flatten

/-- Op on one element (R263). -/
def collOp (op : CollOp) (ty a b : Nat) : Nat :=
  match op, ty with
  | .armax, 0 => if (BitVec.ofNat 32 a).toInt ≤ (BitVec.ofNat 32 b).toInt then b else a
  | .armax, 1 => (fp32.round rne false false (Val.minmax true (fp32.value a) (fp32.value b))).1
  | .armax, _ => (bf16.round rne false false (Val.minmax true (bf16.value a) (bf16.value b))).1
  | .aravimx, _ => max a b
  | _, 0 => (a + b) % 2 ^ 32
  | _, 1 => sumIn fp32 a b
  | _, _ => sumIn bf16 a b

/-- Elements of `w` bytes of a list. -/
def elements (w : Nat) (data : List Byte) : List Nat :=
  (List.range (data.length / w)).map fun j => ((data.drop (w * j)).take w).foldr (fun (b : Byte) x => b.toNat + 256 * x) 0

/-- Op element by element. -/
def CollSt.combine (x : CollSt) (a b : List Byte) : List Byte :=
  let w := collBytes x.ty
  (((elements w a).zip (elements w b)).map fun (p, q) => listOf w (collOp x.op x.ty p q)).flatten

/-- The bytes that the destination takes (R261, R263): at the root the subtree result, elsewhere what the parent sent; of a
reduce-scatter the block of this node. -/
def CollSt.result (x : CollSt) : List Byte :=
  let up := x.peers.find? fun p => x.parents.getD p.node 0xFFFF != x.self
  if x.op == .gather then ((List.range x.nn).map fun i => if i = x.self then x.ownData else x.shard i).flatten
  else
    let all := match up with
      | some p => x.shard p.node
      | none => (x.peers.map (·.node)).foldl (fun acc c => x.combine acc (x.shard c)) x.ownData
    if x.op == .rsadd then (all.drop (x.self * x.destBytes)).take x.destBytes else all

/-- The peer toward the root, and those below this node in ascending number. -/
def CollSt.up? (x : CollSt) : Option Peer := x.peers.find? fun p => x.parents.getD p.node 0xFFFF != x.self
def CollSt.below (x : CollSt) : List Peer := x.peers.filter fun p => x.parents.getD p.node 0xFFFF == x.self

/-- A chunk of a node's shard, as it came. -/
def CollSt.got (x : CollSt) (node chunk : Nat) : Option Shard := x.shards.find? fun h => h.node == node && h.chunk == chunk

/-- A chunk of a list of bytes. -/
def chunkOf (data : List Byte) (k : Nat) : List Byte := (data.drop (chunkBytes * k)).take chunkBytes

/-- A chunk of the subtree result of this node, once every child's is there (R263). -/
def CollSt.reduced (x : CollSt) (k : Nat) : Option (List Byte) :=
  x.below.foldl (fun acc p => acc.bind fun a => (x.got p.node k).map fun h => x.combine a h.data) (some (chunkOf x.ownData k))

/-- What this node can send now: to whom, of which node, which chunk, its hop count, its data. Of a gather, each node's block passes
on unchanged to every peer but the one that it came through; else the subtree result goes up, and the result goes down unchanged
(R263). -/
def CollSt.sendable (x : CollSt) : List (Peer × Nat × Nat × Nat × List Byte) :=
  let ks := List.range x.chunks
  if x.op == .gather then
    (x.peers.map fun p => (ks.map fun k => (p, x.self, k, 1, chunkOf x.ownData k)) ++
      ((x.shards.filter fun h => (x.via h.node).map (·.node) != some p.node).map fun h =>
        (p, h.node, h.chunk, h.hops + 1, h.data))).flatten
  else
    let result (k : Nat) : Option (Nat × List Byte) := match x.up? with
      | some q => (x.got q.node k).map fun h => (h.hops + 1, h.data)
      | none => (x.reduced k).map fun d => (1, d)
    (x.up?.toList.map fun p => ks.filterMap fun k => (x.reduced k).map fun d => (p, x.self, k, 1, d)).flatten ++
      (x.below.map fun p => ks.filterMap fun k => (result k).map fun (h, d) => (p, x.self, k, h, d)).flatten

/-- Everything that this node can send has been sent. -/
def CollSt.allSent (x : CollSt) : Bool := x.sendable.all fun (p, i, k, _) => x.sent.contains (p.node, i, k)

/-- A flit of a command that is in its exchange: started, not failed, not yet stored. -/
def Cmd.exchanging (c : Cmd) : Option CollSt :=
  match c.coll with
  | some x => if c.started && c.err.isNone && x.phase = 2 && !x.stored then some x else none
  | none => none

/-- The chunks of a collective that can leave now leave, each with its checksum (R263); its own contribution has been read. -/
def State.collSend (s : State) (id : Nat) : State :=
  match s.cmd? id with
  | none => s
  | some c =>
    match c.exchanging, s.team? c.team with
    | some x, some T =>
      if !c.moves.isEmpty then s
      else
        let out := x.sendable.filter fun (p, i, k, _) => !x.sent.contains (p.node, i, k)
        let msgs : List LinkMsg := out.map fun (p, i, k, h, d) =>
          { part := T.part, tag := x.tag, port := p.port, peer := p.node, body := .chunk i k h d (chunkSumOf d) }
        { s with linkOut := s.linkOut ++ msgs }.modCmd id fun c =>
          { c with coll := some { x with sent := x.sent ++ out.map fun (y : Peer × Nat × Nat × Nat × List Byte) => (y.1.node, y.2.1, y.2.2.1) } }
    | _, _ => s

/-- The parent and the children that a failing node knows: those of its table, as far as the entries could be read (R265; DEDUCED, log
entry 41). -/
def CollSt.known (x : CollSt) : List Peer :=
  if x.phase != 1 || 1024 < x.nn then x.peers
  else
    let entry (i : Nat) : Option Nat := (x.tab.lookup ((4 + i) / 4)).map fun g => bits g.toNat (32 * ((4 + i) % 4)) 32
    let peer (node port : Nat) : Peer := { node, port, silent := 0, skipped := 0 }
    (match entry x.self with
     | some e => if bits e 0 16 = 0xFFFF then [] else [peer (bits e 0 16) (bits e 16 4)]
     | none => []) ++
      (List.range x.nn).filterMap fun i => (entry i).bind fun e => if bits e 0 16 = x.self then some (peer i (bits e 20 4)) else none

/-- A failing node tells its parent and its children (R265). -/
def State.tellFailure (s : State) (c : Cmd) : State :=
  match c.coll, s.team? c.team with
  | some x, some T =>
    { s with linkOut := s.linkOut ++ x.known.map fun p =>
        { part := T.part, tag := x.tag, port := p.port, peer := p.node, body := .failure } }
  | _, _ => s

/-- FLIT (R263 to R265): a chunk of a node's shard arrives. A hop count of NN ends the collective with TOPO; a checksum that does
not match its data, with CHECKSUM. -/
def execFlit (id node chunk hops : Nat) (data : List Byte) (sum : Word) (s : State) : Out :=
  match s.cmd? id with
  | none => .next s
  | some c =>
    match c.exchanging with
    | none => .next s
    | some x =>
      let len := min chunkBytes (x.shardBytes - chunk * chunkBytes)
      if x.nn ≤ hops then .next (s.modCmd id (·.stop 4#7))
      else if !x.expected.contains node || x.chunks ≤ chunk || x.has node chunk || data.length ≠ len then .next s
      else if chunkSumOf data != sum then .next (s.modCmd id (·.stop 6#7))
      else
        let peer := (x.via node).map (·.node)
        let heard (p : Peer) : Peer := if some p.node == peer then { p with silent := 0 } else p
        let y := { x with shards := x.shards ++ [{ node, chunk, hops, data }], peers := x.peers.map heard }
        .next ((s.modCmd id fun c => { c with coll := some y }).collSend id)

/-- FAILURE_NOTICE (R265): a peer reports failure. -/
def execFailureNotice (id : Nat) (s : State) : Out :=
  match (s.cmd? id).bind (·.exchanging) with
  | none => .next s
  | some _ => .next (s.modCmd id (·.stop 7#7))

/-- A peer of a collective has been silent for RDVWD cycles (R265); a new RDVWD counts from the cycle after its write (R32). -/
def State.collLate (s : State) (c : Cmd) : Bool :=
  match c.exchanging, s.team? c.team with
  | some x, some T => T.rdvwd != 0#32 && T.wdSet != s.gt + 1 && x.peers.any fun p => x.awaits p && T.rdvwd.toNat ≤ p.silent
  | _, _ => false

/-- COLL_TIMEOUT (R265). -/
def execCollTimeout (id : Nat) (s : State) : Out :=
  match s.cmd? id with
  | none => .next s
  | some c => if s.collLate c then .next (s.modCmd id (·.stop 5#7)) else .next s

/-- One cycle of the exchange: a peer that is awaited has been silent for one cycle more, unless its link is in recovery,
up to WDREM of them (R265). -/
def State.collTick (s : State) (T : Team) (c : Cmd) : State :=
  match c.exchanging with
  | none => s
  | some x =>
    let step (p : Peer) : Peer :=
      if !x.awaits p then p
      else if (vget s.m.links p.port { st := .down, recov := 0#16, time := 0 }).st == .recovery && p.skipped < T.wdrem.toNat then
        { p with skipped := p.skipped + 1 }
      else { p with silent := p.silent + 1 }
    s.modCmd c.id fun c => { c with coll := some { x with peers := x.peers.map step } }

/-- Every chunk has been received, the own contribution read, and everything sent. -/
def Cmd.gathered (c : Cmd) : Option CollSt :=
  match c.exchanging with
  | some x => if c.moves.isEmpty && x.expected.all x.whole && x.allSent then some x else none
  | none => none

/-- The granules of a destination. -/
def granulesOf (data : List Byte) : List (BitVec 128) := (elements 16 data).map (BitVec.ofNat 128 ·)

/-- The first granule of a destination that cannot be written now. -/
def State.firstStuck (s : State) (T : Team) (dst : Nat) : List Nat → Option Got
  | [] => none
  | j :: rest =>
    match s.engineIa T (dst + 16 * j) needW with
    | .error (.out _) => State.firstStuck s T dst rest
    | .error g => some g
    | .ok (ia, _) => if s.locked ia 16 then some .later else State.firstStuck s T dst rest

/-- COLL_COMPLETE (R265): every chunk has been received and checked, and the destination is written: all of it, or none where a
check of it fails. Granules in the external aperture are sent out afterwards. -/
def execCollComplete (id : Nat) (s : State) : Out :=
  match s.cmd? id with
  | none => .next s
  | some c =>
    match c.gathered, s.team? c.team with
    | some x, some T =>
      if c.page.isSome then .next s
      else
        let gs := granulesOf x.result
        match s.firstStuck T x.dst (List.range gs.length) with
        | some (.err code) => .next (s.modCmd id (·.stop code))
        | some (.page p) => .next (s.modCmd id fun c => { c with page := some p })
        | some _ => .next s
        | none =>
          let s := gs.zipIdx.foldl (fun s (g, j) =>
            match s.engineWrite T (ctlHint c.ctl.toNat) g (.va (x.dst + 16 * j)) with
            | .done s w => s.modCmd id fun c => { c with wct := max c.wct w, written := true }
            | .out _ => s.modCmd id fun c =>
                { c with moves := c.moves ++ [{ src := .inr g, dst := .va (x.dst + 16 * j), req := none }] }
            | _ => s) s
          .next (s.modCmd id fun c => { c with coll := c.coll.map fun y => { y with stored := true } })
    | _, _ => .next s

/-! ## Progress -/

/-- A command may start: it is not held, and its acquire is met. A tile starts with its matrix instruction. -/
def State.startReady (s : State) (c : Cmd) : Bool :=
  !c.started && !c.held && c.err.isNone && c.page.isNone && s.acquireMet c &&
    match c.plan with | .tile _ => false | _ => true

/-- A command starts. -/
def State.startCmd (s : State) (T : Team) (c : Cmd) : State :=
  match c.coll with
  | some x => s.startColl c x
  | none => s.startCopy T c

/-- The command has a granule to move now. -/
def Cmd.moving (c : Cmd) : Bool := c.started && !c.held && c.err.isNone && c.page.isNone && !c.moves.isEmpty

/-- Up to `n` granules of a command moved, each the next of the list; a granule that waits goes to the end. -/
def State.moveSome (s : State) (T : Team) (id : Nat) : Nat → State
  | 0 => s
  | n + 1 =>
    match s.cmd? id with
    | none => s
    | some c =>
      if !c.moving then s
      else
        let s := s.moveOne T c
        let s := s.modCmd id fun c => match c.moves with | m :: rest => { c with moves := rest ++ [m] } | [] => c
        State.moveSome s T id n

/-- One cycle of an engine command (R252: the bytes of a command may be performed in any order): it starts, or a free number of
its granules, chosen freely, moves. -/
def State.cmdTick (s : State) (id : Nat) : State :=
  match s.cmd? id with
  | none => s
  | some c =>
    match s.team? c.team with
    | none => s
    | some T =>
      let s := s.collTick T c
      let s := s.collPhase T c
      if s.startReady c then s.startCmd T c
      else if c.moving then
        let (n, s) := s.draw
        let (k, s) := s.draw
        let r := n % c.moves.length
        let s := s.modCmd id fun c => { c with moves := c.moves.drop r ++ c.moves.take r }
        (s.moveSome T id (k % (c.moves.length + 1))).collSend id
      else s.collSend id

/-- One cycle of every engine command. -/
def State.enginesTick (s : State) : State := (s.cmds.map (·.id)).foldl State.cmdTick s

/-! ## Page faults of an engine (R296) -/

/-- The agent that VAL names. -/
def Cmd.agent (c : Cmd) : Nat := if c.coll.isSome then 2 else 1

/-- EFAULT (R296): a command waits for a page; one notification is posted for each page while accesses to it wait. -/
def execEfault (id : Nat) (s : State) : Out :=
  match s.cmd? id with
  | none => .next s
  | some c =>
    match c.page with
    | none => .next s
    | some p =>
      let w := p / 2 ^ 32
      if ((s.part w).efaults.map (·.1)).contains p then .next s
      else
        let s := s.modPart w fun pt => { pt with efaults := pt.efaults ++ [(p, c.agent)] }
        .next (s.notify w kindEfault 0 c.agent (p * 2 ^ 16))

/-! ## Reports (R250, R251) -/

/-- Nothing of the command is outstanding at the outside. -/
def State.cmdQuiet (s : State) (c : Cmd) : Bool := !s.outbox.any (·.cmd == some c.id)

/-- The release of a command is finished (R252). -/
def State.cmdReleased (s : State) (T : Team) (c : Cmd) : Bool :=
  !ctlRele c.ctl.toNat ||
    match scopeOf (ctlRels c.ctl.toNat) with
    | .group | .team => true
    | .cluster => ((s.launchOf T).map (·.r.fuse)).getD false || c.wct ≤ s.gt
    | _ => c.wct ≤ s.gt

/-- The last write of a command has been performed, and its release has finished. -/
def State.cmdDone (s : State) (c : Cmd) : Bool :=
  c.started && !c.held && c.moves.isEmpty && c.err.isNone && c.page.isNone && s.cmdQuiet c &&
    (match c.coll with | some x => x.stored | none => true) &&
    match s.team? c.team with
    | some T => s.cmdReleased T c
    | none => true

/-- A command completes: it leaves, the tokens that no other command holds clear, and its launch knows its last WCT (R251). -/
def State.endCmd (s : State) (c : Cmd) : State :=
  let s := { s with cmds := s.cmds.filter (·.id != c.id) }.clearTokens c
  match s.team? c.team with
  | some T => s.modLaunch T.part T.lnum fun L => { L with wct := max L.wct c.wct }
  | none => s

/-- The report of a command in its barrier word. -/
def State.report (s : State) (c : Cmd) (f : Bar → Bar) : State :=
  match s.team? c.barTeam with
  | some U => s.setBar U c.barOff (f (s.bar U c.barOff))
  | none => s

/-- ARRIVE (R250, R251): a command that has succeeded reports and completes. -/
def execArrive (id : Nat) (s : State) : Out :=
  match s.cmd? id with
  | none => .next s
  | some c => if s.cmdDone c then .next ((s.report c (·.arrive c.bytes)).endCmd c) else .next s

/-- FAIL (R250, R256): a command that has failed reports its code and completes. -/
def execFail (id : Nat) (code : BitVec 7) (s : State) : Out :=
  match s.cmd? id with
  | none => .next s
  | some c => if c.err == some code && s.cmdQuiet c then .next (((s.report c (·.fail code.toNat)).endCmd c).tellFailure c) else .next s

/-- MATRIX_INSTRUCTION_FINISH (R223, R408): the instruction of a core's unit ends after its cycles. -/
def execMatrixInstructionFinish (core : Nat) (s : State) : Out :=
  match (s.mxOf core).busy.find? fun x => x.1 ≤ s.gt with
  | none => .next s
  | some (_, o) => .next (s.finishWork core o)

end Sys2Proof.Machine
end

