-- ==== Sys2Proof/Machine/GenLoop.lean ====
section
/-! DEFINITION. The generation-loop instructions: block hash, page pins and sequence slots (R267 to R271). -/

namespace Sys2Proof.Machine

open Sys2Proof

/-! ## PHASH (R267) -/

/-- The block hash of 16 tokens after a value (R267). -/
def phash (h : Word) (tokens : List Word) : Word :=
  let mix (x : Word) : Word := x ^^^ (x >>> 16)
  let h := tokens.foldl (fun h x => h.rotateLeft 7 ^^^ x) h
  mix (mix h * 0x045D9F3B#32)

/-- PHASH (R267). -/
def execPhash (i : Iss) (d a b : VReg) (s : State) : Out :=
  s.perLane i (.toV (a.toNat :: span b 16) d) fun _ ln =>
    Res.reg d (phash (s.rd ln a.toNat).val ((List.range 16).map fun j => (s.rd ln (b.toNat + j)).val))

/-! ## Page pins (R268) -/

/-- The IA of the page that a lane names, or PERM or XLATE (R176, R268). -/
def State.pinAt (s : State) (a : VReg) (off : COp) (T : Team) (ln : Ln) : Nat × Except Code Nat :=
  let ea := s.ea T ln .global a off
  (ea, match s.translate T.part (s.ctxOf T) ea needR with
    | none => .error .perm
    | some ia => if (s.walk ia).isSome then .ok ia else .error .xlate)

/-- PGPIN and PGUNPIN: the lanes stay at the word until the page unit answers. -/
def State.pinOp (s : State) (i : Iss) (p : PReg) (a : VReg) (off : COp) (add : Bool) : Out :=
  let addr := baseRegs .global a ++ off.regs
  s.ordered i { src := addr, flt := dstQ p } addr (fun _ _ => false) (s.pinAt a off) fun s T accs =>
    let s1 := s.retire (accs.map fun (ln, _) => (ln.g, ln.l))
    let s1 := accs.foldl (fun s1 (ln, ia) => s1.modThread T.id ln.g ln.l fun th => { th with wait := .pin ia p add }) s1
    -- the members of a G-scope word keep their arrival until all are answered
    .next (match i.scope with
      | .group => accs.foldl (fun s1 (ln, _) => s1.modThread T.id ln.g ln.l fun th => { th with arr := .group }) s1
      | _ => s1)

/-- PGPIN (R268). -/
def execPgpin (i : Iss) (p : PReg) (a : VReg) (off : COp) (s : State) : Out := s.pinOp i p a off true

/-- PGUNPIN (R268). -/
def execPgunpin (i : Iss) (p : PReg) (a : VReg) (off : COp) (s : State) : Out := s.pinOp i p a off false

/-- The page unit's answer for one lane: the count in the page's leaf, and Q[P]. `none` where no leaf holds the page. -/
def State.answerPin (s : State) (ln : Ln) (ia : Nat) (p : PReg) (add : Bool) : Option State :=
  (s.walk ia).map fun leaf =>
    let e := s.bytes leaf.entry 8
    let n := ptePin e
    let ok := if add then n < 65535 else 0 < n
    let m := if add then n + 1 else n - 1
    let s := if ok then s.setBytes leaf.entry 8 (e % 2 ^ 48 + m * 2 ^ 48) else s
    s.setPred ln p ok

/-- The page may be pinned now: no migration of it is in progress (R268, R294). -/
def State.pinFree (s : State) (ia : Nat) (add : Bool) : Bool :=
  !add || match s.walk ia with | some leaf => !pteMig (s.bytes leaf.entry 8) | none => true

/-- The lanes of a group whose PGPIN or PGUNPIN is answered in one step with a lane's: all of a G-scope word, else that lane
once no lower lane of the same word waits. -/
def Group.pinSet (G : Group) (l : Nat) : List (Nat × Nat × PReg × Bool) :=
  let th := G.thread l
  let all := (lanesOf G.live).filterMap fun k =>
    let x := G.thread k
    match x.wait with
    | .pin ia p add => if x.pc == th.pc && x.arr == th.arr then some (k, ia, p, add) else none
    | _ => none
  if th.arr = .group then all
  else match all.head? with
    | some (k, ia, p, add) => if k == l then [(k, ia, p, add)] else []
    | none => []

/-- The page unit's answers reach the team: it runs, or drains (R367). -/
def Team.answers (T : Team) : Bool := match T.st with | .run | .stopping _ => true | _ => false

/-- PGPIN_ANSWER (R268): the page unit answers a lane; lanes of one instruction are served in ascending order. A page that holds no
leaf any more raises XLATE. -/
def execPgpinAnswer (t g l : Nat) (s : State) : Out :=
  match s.team? t, s.group? t g with
  | some T, some G =>
    let set := G.pinSet l
    if set.isEmpty || !(set.map (·.1)).contains l || !T.answers || !set.all fun (_, ia, _, add) => s.pinFree ia add then .next s
    else
      let lost := set.filter fun (_, ia, _, _) => (s.walk ia).isNone
      let th := G.thread l
      if !lost.isEmpty then
        let dst := match set.head? with | some (_, _, p, _) => dstQ p | none => allOnes
        let s1 := set.foldl (fun s1 (k, _) => s1.modThread t g k fun th => { th with wait := .none }) s
        .next (s1.raise { code := .xlate, t, g, lanes := maskOf (lost.map (·.1)), pc := th.pc, dst, arr := th.arr,
                          pages := ((lost.map fun (_, ia, _, _) => pageOf ia).eraseDups).take 8 })
      else
        let s1 := set.foldl (fun s1 (k, ia, p, add) => (s1.answerPin (T.ln g k) ia p add).getD s1) s
        let s1 := s1.nextLanes t g (set.map (·.1))
        .next (if th.arr = .group then s1.release t .group [g] else s1)
  | _, _ => .next s

/-! ## Sequence slots (R269 to R271) -/

/-- Sequence slots of a partition. -/
def slotMax : Nat := 4096

def Part.slot (p : Part) (n : Nat) : SeqSlot := Sparse.get slotReset p.slots n

def Part.setSlot (p : Part) (n : Nat) (x : SeqSlot) : Part := { p with slots := Sparse.set slotReset p.slots n x }

/-- The commit of k tokens: how many are taken, and the slot (R270). -/
def SeqSlot.commitN (x : SeqSlot) (k : Nat) : Nat × SeqSlot :=
  let n := min k (min x.ntok.toNat x.ctx.toNat)
  let w : Word := BitVec.ofNat 32 n
  let y := { x with ntok := x.ntok - w, ctx := x.ctx - w, commit := x.commit + w }
  (n, if y.ntok = 0#32 ∨ y.ctx = 0#32 then { y with done := true } else y)

/-- The slot index of a lane. -/
def State.slotIndex (s : State) (a : VReg) (ln : Ln) : Nat × Except Code Nat := (0, .ok (s.rd ln a.toNat).val.toNat)

/-- The index of a lane is out of range, as far as its register can be read: ILLOP, before any other fault (R176, R270). -/
def State.noSlot (s : State) (a : VReg) (ln : Ln) : Bool :=
  (ln.key? a.toNat).isSome && !(s.rd ln a.toNat).poison && decide (slotMax ≤ (s.rd ln a.toNat).val.toNat)

/-- SLCOMMIT, now or at the team's turn. -/
def State.slcommitNow (s : State) (turn : Bool) (i : Iss) (p : PReg) (d a : VReg) (c : COp) : Out :=
  let n : Names := { src := a.toNat :: c.regs, dst := [d.toNat], flt := dstV d.toNat }
  s.ordered i n [] (fun _ ln => s.noSlot a ln) (fun _ ln => s.slotIndex a ln) fun s T lns =>
    s.withRows T (lns.map (·.1)) [d.toNat] fun s1 =>
      s1.atTurn T turn (lns.map (·.1)) <|
        .next ((lns.foldl (fun s1 (ln, ix) =>
          let k := ((s.cval T ln .zero c).getD 0#32).toNat
          let (m, y) := ((s1.part T.part).slot ix).commitN k
          let s1 := s1.modPart T.part (·.setSlot ix y)
          (s1.wr T.id ln.g ln.l d.toNat (BitVec.ofNat 32 m) false).setPred ln p y.done) s1).retire [])

/-- SLCOMMIT (R270): a device-scope release, which the issue of the word has waited for; it is performed on the table at issue
(log entry 19). -/
def execSlcommit (i : Iss) (p : PReg) (d a : VReg) (c : COp) (s : State) : Out := s.slcommitNow false i p d a c

/-- A field of a slot. -/
def SeqSlot.field (x : SeqSlot) : SlotField → Word
  | .ntok => x.ntok
  | .ctx => x.ctx
  | .commit => x.commit
  | .done => if x.done then 1#32 else 0#32

/-- A field of a slot replaced (R271). -/
def SeqSlot.putField (x : SeqSlot) (f : SlotField) (v : Word) : SeqSlot :=
  match f with
  | .ntok => { x with ntok := v }
  | .ctx => { x with ctx := v }
  | .commit => { x with commit := v }
  | .done => { x with done := v.getLsbD 0 }

/-- SLQRY, now or at the team's turn. -/
def State.slqryNow (s : State) (turn : Bool) (i : Iss) (d a b : VReg) (set : Bool) (f : SlotField) : Out :=
  let n : Names := { src := a.toNat :: (if set then [b.toNat] else []), dst := [d.toNat], flt := dstV d.toNat }
  s.ordered i n [] (fun _ ln => s.noSlot a ln) (fun _ ln => s.slotIndex a ln) fun s T lns =>
    s.withRows T (lns.map (·.1)) [d.toNat] fun s1 =>
      s1.atTurn T turn (lns.map (·.1)) <|
        .next ((lns.foldl (fun s1 (ln, ix) =>
          let x := (s1.part T.part).slot ix
          let s1 := if set then s1.modPart T.part (·.setSlot ix (x.putField f (s.rd ln b.toNat).val)) else s1
          s1.wr T.id ln.g ln.l d.toNat (x.field f) false) s1).retire [])

/-- SLQRY (R271). -/
def execSlqry (i : Iss) (d a b : VReg) (set : Bool) (f : SlotField) (s : State) : Out := s.slqryNow false i d a b set f

end Sys2Proof.Machine
end

