-- ==== Sys2Proof/Machine/Launch.lean ====
section
/-! DEFINITION. Launch records and queues, dequeue, admission, placement and the end of a launch (R272, R318 to R330). -/

namespace Sys2Proof.Machine

open Sys2Proof

/-! ## The record (R318, R319) -/

/-- The shapes of a cluster that R10 and R319 permit. -/
def shapeOk (w h : Nat) : Bool :=
  1 ≤ w && 1 ≤ h &&
    ((w ≤ 3 && h ≤ 4) || (w ≤ 4 && h ≤ 3) || (w ≤ 2 && h ≤ 6) || (w ≤ 6 && h ≤ 2) || (w == 1 && h ≤ 12) || (h == 1 && w ≤ 12))

/-- Sub-core of each group of a team: ordinary groups round from `s0`, each reserve group with the ordinary group it serves
(R330). -/
def subOf (s0 teamg resv g : Nat) : Nat :=
  let n := teamg - resv
  (s0 + (if g < n then g else (g - n) % n)) % Config.subs

/-- Groups of a team on a sub-core. -/
def groupsOn (s0 teamg resv sub : Nat) : Nat := (List.range teamg).countP fun g => subOf s0 teamg resv g == sub

/-- Rows that a team sets aside in each lane bank of a sub-core (R17). -/
def rowsNeeded (groups xblk snaprows : Nat) : Nat := if groups = 0 then 0 else 8 * (1 + xblk) * groups + snaprows

/-- One team fits an empty core (R319, R330). -/
def fitsEmpty (teamg resv xblk snaprows basin : Nat) : Bool :=
  basin ≤ Config.basinBytes && (List.range Config.subs).all fun sub =>
    let n := groupsOn 0 teamg resv sub
    n ≤ Config.slotsPerSub && rowsNeeded n xblk snaprows ≤ Config.bankRows

/-- The record in 640 bytes; `ok` is false where it is malformed by itself (R319). -/
def recordOf (x : Nat) : LaunchRec :=
  let f (byte lo n : Nat) : Nat := bits x (8 * byte + lo) n
  let d (byte : Nat) : Dword := BitVec.ofNat 64 (f byte 0 64)
  let w (byte : Nat) : Word := BitVec.ofNat 32 (f byte 0 32)
  let teamg := f 0x14 0 7
  let resv := f 0x14 8 6
  let xblk := f 0x14 14 2
  let snrows := f 0x14 16 9
  let basin := f 0x18 0 21
  let clw := f 0x18 24 4
  let clh := f 0x18 28 4
  let lease := f 0x1C 0 17
  let ind := f 0x34 0 3
  let datak := f 0x34 8 8
  let nbnd := f 0x34 16 4
  let predm := f 0x34 20 2
  let reserved := f 0 31 1 == 0 && f 0x14 7 1 == 0 && f 0x14 25 7 == 0 && f 0x18 21 3 == 0 && f 0x1C 23 9 == 0 && f 0x34 3 5 == 0 &&
    f 0x34 22 10 == 0 && f 0x58 17 15 == 0 && f 0x78 0 64 == 0
  let extents := (List.range 3).all fun e =>
    if ind / 2 ^ e % 2 == 1 then f (0x60 + 8 * e) 0 64 % 4 == 0
    else let n := f (0x28 + 4 * e) 0 32; 1 ≤ n && n ≤ 65535
  let bounds := (List.range (min nbnd 8)).all fun j => f (0x100 + 16 * j) 6 58 == 0 && f (0x108 + 16 * j) 0 64 % 4 == 0
  let masks := (List.range 16).all fun c => f (0x80 + 8 * c) 0 64 < 2 ^ teamg
  { ok := f 0 0 16 == 0x4C52 && f 0 16 8 == 1 && reserved && predm != 3 && f 4 0 32 % 8 == 0 && f 4 0 32 < f 0x10 0 32 &&
      f 8 0 64 % 128 == 0 && f 0x10 0 32 % 8 == 0 && f 0x10 0 32 != 0 && 1 ≤ teamg && teamg ≤ 64 && resv < teamg &&
      snrows ≤ 504 && basin % 16 == 0 && basin ≤ Config.basinBytes && shapeOk clw clh && 256 ≤ lease && lease ≤ 65536 &&
      extents && (datak == 0xFF || (datak % 2 == 0 && datak ≤ 62)) && nbnd ≤ 8 && f 0x38 0 64 % 4 == 0 && f 0x50 0 64 % 8 == 0 &&
      bounds && masks && fitsEmpty teamg resv xblk snrows basin,
    prio := f 0 24 3, det := f 0 27 1 == 1, rdi := f 0 28 1 == 1, fuse := f 0 29 1 == 1, mtx := f 0 30 1 == 1,
    entry := w 4, code := d 8, codeLen := w 0x10, teamG := teamg, resv, xblk, snrows, basin, clw, clh, lease,
    ctx := f 0x1C 17 6, rdvwd := w 0x20, wdrem := w 0x24, ext := (List.range 3).map fun e => f (0x28 + 4 * e) 0 32,
    ind := BitVec.ofNat 3 ind, datak, nbnd, predm, sema := d 0x38, semv := w 0x40, predn := w 0x44, data := d 0x48,
    cmpl := d 0x50, msiv := f 0x58 0 16, msie := f 0x58 16 1 == 1, gxaddr := (List.range 3).map fun e => d (0x60 + 8 * e),
    cvmask := (List.range 16).map fun c => d (0x80 + 8 * c), kidx := (List.range 8).map fun j => f (0x100 + 16 * j) 0 6,
    baddr := (List.range 8).map fun j => d (0x108 + 16 * j), ktab := (List.range 64).map fun j => w (0x180 + 4 * j) }

/-- A number was already given to a record of the partition (R319, R322). -/
def Part.accepted (p : Part) (n : Word) : Bool := p.lapped || (n != 0#32 && (p.nextLnum == 0#32 || n.toNat < p.nextLnum.toNat))

/-- The record is malformed (R319). -/
def Part.malformed (p : Part) (r : LaunchRec) : Bool := !r.ok || (r.predm == 1 && !p.accepted r.predn)

/-! ## Queues (R321, R322) -/

/-- Offset of a queue's registers (R321). -/
def queueOff (q : Nat) : Nat := 0x800 + 32 * q

def Part.qslots (p : Part) (q : Nat) : Nat := 2 ^ p.fld (queueOff q + 8) 0 4
def Part.qen (p : Part) (q : Nat) : Bool := p.fld (queueOff q + 8) 4 1 == 1
def Part.qdev (p : Part) (q : Nat) : Bool := p.fld (queueOff q + 8) 5 1 == 1
def Part.qtail (p : Part) (q : Nat) : Nat := p.fld (queueOff q + 0x10) 0 32
def Part.qhead (p : Part) (q : Nat) : Nat := p.fld (queueOff q + 0x18) 0 32
def Part.qwait (p : Part) (q : Nat) : Bool := p.fld (queueOff q + 0x18) 32 1 == 1
/-- Records accepted and not yet dequeued. -/
def Part.qcount (p : Part) (q : Nat) : Nat := (p.qtail q + 2 ^ 32 - p.qhead q) % 2 ^ 32

/-- Key of a record slot. -/
def Part.slotKey (p : Part) (q n : Nat) : Nat :=
  physKey (p.fld (queueOff q) 48 2) (p.fld (queueOff q) 7 41 * 128 + 1024 * (n % p.qslots q))

/-- A record accepted (R322): its number, written into its slot. -/
def State.accept (s : State) (p q slot : Nat) : Word × State :=
  let pt := s.part p
  let n := pt.nextLnum
  let s := s.setBytes (pt.slotKey q slot + 0x5C) 4 n.toNat
  (n, s.modPart p fun pt =>
    { pt with nextLnum := n + 1#32, lapped := pt.lapped || n == 0#32, lastLnum := (q, n) :: pt.lastLnum.filter (·.1 != q),
              preds := (n, pt.lastLnum.lookup q) :: pt.preds })

/-- Records accepted one after the other from a slot. -/
def State.acceptMany (s : State) (p q slot : Nat) : Nat → State
  | 0 => s
  | n + 1 => State.acceptMany (s.accept p q slot).2 p q (slot + 1) n

/-- A host write of QTAIL: the records up to its value are accepted, or it is ignored whole. -/
def State.writeQtail (s : State) (p q : Nat) (v : Word) : State :=
  let pt := s.part p
  let n := (v.toNat + 2 ^ 32 - pt.qtail q) % 2 ^ 32
  if pt.qdev q || n == 0 || pt.qslots q < pt.qcount q + n then s
  else (s.acceptMany p q (pt.qtail q) n).modPart p fun pt => pt.setFld (queueOff q + 0x10) 0 32 v.toNat

/-- QTAIL (R321, R322). -/
def execQtail (p q : Nat) (v : Word) (s : State) : Out := if 16 ≤ q ∨ 8 ≤ p then .next s else .next (s.writeQtail p q v)

/-! ## LNCH (R272) -/

/-- The record at a lane's address, 32 bytes at a time with their poison, or the fault. At the turn of a commit memory is read as it then
stands (R344). -/
def State.recordAt (s : State) (turn : Bool) (T : Team) (ln : Ln) (a : VReg) (off : COp) : Nat × Except Code (List (Nat × Bool)) :=
  let ea := s.ea T ln .global a off
  (ea, if ea % 128 != 0 then .error .misalign else s.readChunks turn T ln.g ln.l ea 20)

/-- A record copied into a slot with its poison marks, line by line (R272, R378). -/
def State.copyRecord (s : State) (k : Nat) (cs : List (Nat × Bool)) : State :=
  let s := s.setBytes k 640 (joinChunks cs).1
  (List.range 5).foldl (fun s j =>
    let s := s.clearPoison (k + 128 * j)
    if ((cs.drop (4 * j)).take 4).any (·.2) then s.markPoison (k + 128 * j) else s) s

/-- One lane of LNCH: appended, or the queue counts as full. -/
def State.lnchLane (s : State) (T : Team) (p : PReg) (d b : VReg) (ln : Ln) (cs : List (Nat × Bool)) : State :=
  let q := (s.rd ln b.toNat).val.toNat % 16
  let pt := s.part T.part
  if !pt.qdev q || !pt.qen q || pt.qslots q ≤ pt.qcount q then
    (s.wr ln.t ln.g ln.l d.toNat allOnes false).setPred ln p false
  else
    let n := pt.qtail q
    let (num, s) := (s.copyRecord (pt.slotKey q n) cs).accept T.part q n
    let s := s.modPart T.part fun pt => pt.setFld (queueOff q + 0x10) 0 32 ((n + 1) % 2 ^ 32)
    (s.wr ln.t ln.g ln.l d.toNat num false).setPred ln p true

/-- LNCH, now or at the team's turn. -/
def State.lnchNow (s : State) (turn : Bool) (i : Iss) (p : PReg) (d a : VReg) (off : COp) (b : VReg) : Out :=
  let addr := baseRegs .global a ++ off.regs
  let n : Names := { src := addr ++ [b.toNat], dst := [d.toNat], flt := dstV d.toNat, reach := 640 }
  s.ordered i n addr (fun _ _ => false) (fun T ln => s.recordAt turn T ln a off) fun s T lns =>
    s.withReads T (lns.map (·.1)) (s.objectReads turn T a off 640) fun s =>
      s.withRows T (lns.map (·.1)) [d.toNat] fun s1 =>
        s1.atTurn T turn (lns.map (·.1)) <|
          .next ((lns.foldl (fun s1 (ln, cs) => s1.lnchLane T p d b ln cs) s1).retire [])

/-- LNCH (R272): the issue of the word has waited for the thread's release. -/
def execLnch (i : Iss) (p : PReg) (d a : VReg) (off : COp) (b : VReg) (s : State) : Out := s.lnchNow false i p d a off b

/-! ## Priority (R326) -/

/-- A task queue whose CONS names the launch has OVER set. The queues are those that QENQ and QDEQ have acted on (DEDUCED, log entry 63). -/
def State.raised (s : State) (p : Nat) (lnum : Word) : Bool := (s.part p).queues.any fun ia => s.overOf ia == some lnum

def State.effective (s : State) (p : Nat) (lnum : Word) (prio : Nat) (task : Bool) : Nat :=
  min 7 (prio + (if s.raised p lnum || (task && Config.spawnHigh < s.spawnCount p) then 1 else 0))

/-! ## Dequeue (R323) -/

/-- Launches of a partition in flight. -/
def State.inFlight (s : State) (p : Nat) : List Launch := s.launches.filter (·.part == p)

/-- The launches of a partition that hold one of its places: those that have not ended (R323, R325). -/
def State.places (s : State) (p : Nat) : Nat := (s.inFlight p).countP fun L => match L.st with | .finishing _ => false | _ => true

/-- The dequeue of a launch has not ended. -/
def Launch.atHead (L : Launch) : Bool := L.st == .sema || L.st == .reading

/-- QWAIT of a queue (R321). -/
def Part.setQwait (p : Part) (q : Nat) (b : Bool) : Part := p.setFld (queueOff q + 0x18) 32 1 (if b then 1 else 0)

/-- The dequeue of a queue's head ends: QHEAD advances. -/
def State.advance (s : State) (p q : Nat) : State :=
  s.modPart p fun pt => (pt.setQwait q false).setFld (queueOff q + 0x18) 0 32 ((pt.qhead q + 1) % 2 ^ 32)

/-- What reading a word for the launch queue engine comes to. -/
inductive WordRead where
  | ok (v : Nat)
  | fail
  | page (p : Nat)
  | out (ia : Nat)
  deriving DecidableEq, Repr

/-- A word read in a launch's context. -/
def State.launchWord (s : State) (L : Launch) (va : Nat) : WordRead :=
  match L.got.lookup va with
  | some (some v) => .ok v
  | some none => .fail
  | none =>
    match s.translate L.part L.r.ctx va needR with
    | none => .fail
    | some ia =>
      if (apertureOf ia).isSome then .out ia
      else if s.windowReset L.part ia then .fail
      else
        match s.iaKey ia with
        | none => .page (pageOf ia)
        | some k => if s.poisonedIn k 4 || s.cxlDown k then .fail else .ok (s.bytes k 4)

/-- A word has been read for the engine at its home, which counts for it there (R287, R291). The engine stands on no die, and R291 gives it no
number: it counts as the lowest die of the partition (DESIGN CHOICE, log entry 66). -/
def State.launchTouch (s : State) (L : Launch) (va : Nat) : State :=
  match s.translate L.part L.r.ctx va needR with
  | none => s
  | some ia =>
    if s.windowReset L.part ia then s
    else
    match s.iaKey ia with
    | none => s
    | some k => s.reach ia k ((s.m.diesOf L.part).headD 0) anyPos

/-- EFAULT posted for a page, once while accesses to it wait (R296). -/
def State.postEfault (s : State) (page agent : Nat) : State :=
  let w := page / 2 ^ 32
  if ((s.part w).efaults.map (·.1)).contains page then s
  else
    (s.modPart w fun pt => { pt with efaults := pt.efaults ++ [(page, agent)] }).notify w kindEfault 0 agent (page * 2 ^ 16)

/-- A launch waits for a page. -/
def State.launchPage (s : State) (L : Launch) (page : Nat) : State :=
  (s.modLaunch L.part L.lnum fun L => { L with page := some page }).postEfault page 3

/-- A launch reads a word through the external aperture. -/
def State.launchOut (s : State) (L : Launch) (ia va : Nat) : State :=
  let id := s.nextId
  (s.sendOut L.part ia (.load false) [] 4 none none 0).modLaunch L.part L.lnum fun L => { L with req := some (id, va) }

/-- Finish(r, status) at dequeue (R323). -/
def State.finish (s : State) (L : Launch) (st : Status) : State :=
  (s.modLaunch L.part L.lnum fun L => { L with st := .finishing st, page := none, req := none }).advance L.part L.queue

/-- The addresses read at dequeue: extents named by IND, then bound constants. -/
def LaunchRec.reads (r : LaunchRec) : List Nat :=
  ((List.range 3).filter fun e => r.ind.getLsbD e).map (fun e => (r.gxaddr.getD e 0#64).toNat) ++
    (r.baddr.take r.nbnd).map (·.toNat)

/-- The reads of a list, those done before listed: the words, `none` for a read that fails, up to one that has to wait. -/
def State.readAll (s : State) (L : Launch) : List Nat → List (Nat × Option Nat) → List (Nat × Option Nat) × Option (Nat × WordRead)
  | [], acc => (acc, none)
  | va :: rest, acc =>
    let noted (v : Option Nat) : List (Nat × Option Nat) := if (acc.lookup va).isSome then acc else acc ++ [(va, v)]
    match s.launchWord { L with got := acc } va with
    | .ok v => State.readAll s L rest (noted (some v))
    | .fail => State.readAll s L rest (noted none)
    | r => (acc, some (va, r))

/-- Extents after the reads. -/
def Launch.extents (L : Launch) (got : List (Nat × Option Nat)) : List Nat :=
  (List.range 3).map fun e =>
    if L.r.ind.getLsbD e then ((got.lookup (L.r.gxaddr.getD e 0#64).toNat).bind id).getD 0 else L.r.ext.getD e 1

/-! ## Deterministic launches at dequeue (R339 to R341) -/

/-- Offsets of a context's ownership registers (R340). -/
def ownOff (ctx : Nat) : Nat := 0xB00 + 16 * ctx

/-- An entry of the ownership table: its range and team, or whether it is wrong, for a launch of `n` teams. -/
def ownEntry (x n : Nat) : Option (Except Unit (Nat × Nat × Nat)) :=
  if bits x (8 * 0x10 + 31) 1 = 0 then none
  else
    let first := bits x 7 45
    let last := bits x 71 45
    let team := bits x 128 24
    if bits x 0 7 == 0 && bits x 52 12 == 0 && bits x 64 7 == 0 && bits x 116 12 == 0 && bits x 152 7 == 0 && bits x 160 96 == 0 &&
        first ≤ last && team < n then some (.ok (first, last, team))
    else some (.error ())

/-- The ownership table of a context: its entries by number; `none` when a read fails, `some none` when an entry is wrong. -/
def State.readOwn (s : State) (p ctx n : Nat) : Option (Option (List (Nat × Nat × Nat))) :=
  let pt := s.part p
  let count := min 256 (pt.fld (ownOff ctx + 8) 0 9)
  let k := physKey (pt.fld (ownOff ctx) 48 2) (pt.fld (ownOff ctx) 5 43 * 32)
  if s.poisonedIn k (32 * count) then none
  else
    let es := (List.range count).filterMap fun j => ownEntry (s.bytes (k + 32 * j) 32) n
    some (if es.any fun e => match e with | .error _ => true | .ok _ => false then none
      else some (es.filterMap fun e => match e with | .ok x => some x | .error _ => none))

/-! ## Fitting (R330) -/

/-- What a team asks of a core. -/
structure Foot where
  teamG : Nat
  resv : Nat
  xblk : Nat
  snrows : Nat
  basin : Nat
  mtx : Bool
  fuse : Bool
  part : Nat
  lnum : Word
  deriving DecidableEq, Repr

def Launch.foot (L : Launch) : Foot :=
  { teamG := L.r.teamG, resv := L.r.resv, xblk := L.r.xblk, snrows := L.r.snrows, basin := L.r.basin, mtx := L.r.mtx,
    fuse := L.r.fuse, part := L.part, lnum := L.lnum }

def Pending.foot (x : Pending) (L : Launch) : Foot :=
  { teamG := 1, resv := 0, xblk := x.xblk, snrows := x.snrows, basin := x.basin, mtx := L.r.mtx, fuse := L.r.fuse,
    part := x.part, lnum := x.lnum }

/-- Teams resident on a core. -/
def State.teamsOn (s : State) (core : Nat) : List Team := s.teams.filter (·.core == core)

/-- Groups of a team on a sub-core, and the rows they set aside in a bank. -/
def Team.onSub (T : Team) (sub : Nat) : Nat := T.groups.countP (·.sub == sub)
def Team.rowsOn (T : Team) (sub : Nat) : Nat := rowsNeeded (T.onSub sub) T.xblk T.snaprows

/-- The lowest free run of `len` bytes at a multiple of 16 in a core's Basin (R330). -/
def basinRun (taken : List (Nat × Nat)) (len : Nat) : Option Nat :=
  let fits (b : Nat) : Bool := b + len ≤ Config.basinBytes && taken.all fun (x, n) => n == 0 || len == 0 || b + len ≤ x || x + n ≤ b
  leastOf ((0 :: taken.map fun (x, n) => x + n).filter fits)

/-- Rows of a bank that wait for the values of teams that have ended (R16, R128): the most of any lane of the sub-core. -/
def State.strayRows (s : State) (core sub : Nat) : Nat :=
  let stray := s.kiln.filter fun (k, r) => r.owner == 0 && k / (32 * Config.bankRows) == core * Config.subs + sub
  if stray.isEmpty then 0 else (allLanes.map fun l => stray.countP fun (k, _) => k / Config.bankRows % 32 == l).foldl max 0

/-- A team fits a core, where its groups start at sub-core `s0`: the base of its Basin run. A core under re-plan is full (R405). -/
def State.fitAt (s : State) (f : Foot) (core s0 : Nat) : Option Nat :=
  let on := s.teamsOn core
  let subsOk := (List.range Config.subs).all fun sub =>
    let n := groupsOn s0 f.teamG f.resv sub
    n == 0 ||
      ((on.map fun (T : Team) => T.onSub sub).sum + n ≤ Config.slotsPerSub &&
        (on.map fun (T : Team) => T.rowsOn sub).sum + s.strayRows core sub + rowsNeeded n f.xblk f.snrows ≤ Config.bankRows)
  let other (T : Team) : Bool := T.part != f.part || T.lnum != f.lnum
  let fused (T : Team) : Bool := ((s.launchOf T).map (·.r.fuse)).getD false
  -- the cluster of a fused launch keeps its cores while one of its teams is resident
  let held := s.teams.any fun T => other T && fused T && T.cores.contains core
  if !(s.m.replan.any (·.1 == core)) && subsOk && (!f.mtx || !on.any s.isMtx) && !(f.fuse && on.any other) && !held then
    basinRun (on.map fun (T : Team) => (T.basinBase, T.basinLen)) f.basin
  else none

/-- The first s0 at which a team fits a core, with the base of its Basin run (R330). -/
def State.fit (s : State) (f : Foot) (core : Nat) : Option (Nat × Nat) :=
  (List.range Config.subs).findSome? fun s0 => (s.fitAt f core s0).map fun b => (s0, b)

/-- The cores of a cluster at each position of a die, in the order in which the engine tries them (R329). -/
def clusterSpots (die w h : Nat) : List (List Nat) :=
  let base := die * Config.coresPerDie
  let cell (row col : Nat) : Nat := base + row * Config.columns + col
  let n := w * h
  if w > Config.columns then
    (List.range (Config.coresPerDie + 1 - n)).map fun o => (List.range n).map fun r => base + o + r
  else if h > Config.rowsOfDie then
    (List.range (Config.coresPerDie + 1 - n)).map fun o => (List.range n).map fun r =>
      let k := o + r
      cell (k % Config.rowsOfDie) (k / Config.rowsOfDie)
  else
    ((List.range (Config.rowsOfDie + 1 - h)).map fun row => (List.range (Config.columns + 1 - w)).map fun col =>
      (List.range n).map fun r => cell (row + r / w) (col + r % w)).flatten

/-- The first position of a partition at which every rank's core fits its team: the cores, with s0 and Basin base. -/
def State.clusterFit (s : State) (L : Launch) : Option (List (Nat × Nat × Nat)) :=
  ((s.m.diesOf L.part).map fun d => clusterSpots d L.r.clw L.r.clh).flatten.findSome? fun cores =>
    let fits := cores.map fun c => (s.fit L.foot c).map fun (s0, b) => (c, s0, b)
    if fits.all (·.isSome) then some (fits.filterMap id) else none

/-! ## Starting a team (R11, R17, R221, R279, R320) -/

/-- A thread as it starts at an entry (R11). -/
def threadStart (entry : Word) : Thread := { threadIdle with live := true, pc := entry }

/-- The team's threads of one lane get fresh base rows with zero in every register (R11, R17). -/
def State.baseRows (s : State) (T : Team) (g l : Nat) : State :=
  (List.range 8).foldl (fun s i =>
    let ln := T.ln g l
    match s.freeRow? T.core ln.sub l with
    | none => s
    | some j =>
      let s := s.setRow (rowKey T.core ln.sub l j)
        { regs := .replicate 8 0#32, pend := 0#8, poison := 0#8, count := 1, owner := T.id, pool := .base g }
      s.modThread T.id g l fun th => { th with rows := vset th.rows i (some j) }) s

/-- A thread started with words in its first registers. -/
def State.startThread (s : State) (T : Team) (g l : Nat) (entry : Word) (words : List Word) (held : Option Held) : State :=
  let s := s.modThread T.id g l fun _ => { threadStart entry with held }
  let s := s.baseRows ((s.team? T.id).getD T) g l
  words.zipIdx.foldl (fun s (w, j) => s.wr T.id g l j w false) s

/-- The lowest free slot of a sub-core for each group, in order (R330). -/
def State.slotsFor (s : State) (core : Nat) : List Nat → List (Nat × Nat) → List Nat
  | [], _ => []
  | sub :: rest, taken =>
    let used := (s.teamsOn core).map (fun (T : Team) => (T.groups.filter (·.sub == sub)).map (·.slot)) |>.flatten
    let k := ((List.range Config.slotsPerSub).find? fun k => !used.contains k && !taken.contains (sub, k)).getD 0
    k :: State.slotsFor s core rest ((sub, k) :: taken)

/-- A group before its threads start. -/
def groupStart (sub slot : Nat) (reserve : Bool) : Group :=
  { sub, slot, threads := .replicate 32 threadIdle, tokens := 0#8, reserve, active := false, xhold := 0#3, fltmask := 0#32,
    fltpc := 0#32, fltcode := 0#32, fltdst := 0#32, handler := none, spec := none, trap := none, passed := [], prefer := none,
    yielded := none, readySince := 0, readyAt := [], passedBy := 0, lastIssue := 0, pendSince := 0, timer := none, tskip := 0, gbc := 0#16, gates := [] }

/-- The k registers of a team (R320). -/
def Launch.kregs (L : Launch) : Vector Word 64 :=
  let k : Vector Word 64 := Vector.ofFn fun j => L.r.ktab.getD j.val 0#32
  let k := if L.r.datak = 0xFF then k
    else vset (vset k L.r.datak (L.r.data.setWidth 32)) (L.r.datak + 1) ((L.r.data >>> 32).setWidth 32)
  ((L.r.kidx.zip L.kv).take L.r.nbnd).foldl (fun k (i, v) => vset k i v) k

/-- A team as it is placed, before its threads start. -/
def State.newTeam (s : State) (L : Launch) (f : Foot) (core s0 base index : Nat) (grid task : Bool) (cluster rank depth cid id : Nat)
    (cores : List Nat) : Team :=
  let subs := (List.range f.teamG).map (subOf s0 f.teamG f.resv)
  let slots := s.slotsFor core subs []
  { id, part := L.part, lnum := L.lnum, index, grid, task, depth, core, s0, cluster, rank, cid, cores, st := .run, k := L.kregs,
    cvs := Vector.ofFn fun n => { cvReset with mask := L.r.cvmask.getD n.val 0#64 },
    groups := (subs.zip slots).zipIdx.map fun ((sub, slot), g) => groupStart sub slot (f.teamG - f.resv ≤ g),
    basinBase := base, basinLen := f.basin, xblk := f.xblk, snaprows := f.snrows, trapvec := 0#32, fpen := 0#32,
    rdvwd := L.r.rdvwd, wdrem := L.r.wdrem, gscale := 0x3F800000#32, burstcap := 0#32, succ := false, tbc := 0#16,
    shadows := [], full := [], broken := false, late := [], struck := 0, wdSet := 0, engFull := [], since := 0 }

/-- The keys from `k` on, `n` of them, read as zero again, with no mark (R279). -/
def State.zero (s : State) (k n : Nat) : State :=
  { s with mem := s.mem.filter fun (a, _) => !(k ≤ a && a < k + n), poison := s.poison.filter fun a => !(k ≤ a && a < k + n) }

/-- A team joins its core: its Basin is zero, and the Slip and the matrix state of the core when it declares matrix use. -/
def State.addTeam (s : State) (T : Team) (mtx : Bool) : State :=
  let s := { s with teams := s.teams ++ [T], nextId := max s.nextId (T.id + 1) }
  let s := s.zero (basinKey T.core T.basinBase) T.basinLen
  if mtx then (s.zero (slipKey T.core 0) Config.slipBytes).setMx T.core mxReset else s

/-- A team of the grid placed: every ordinary group's lanes start at the kernel's entry (R10, R320). -/
def State.placeTeam (s : State) (L : Launch) (core s0 base cluster rank cid : Nat) (cores : List Nat) : State :=
  let T := s.newTeam L L.foot core s0 base (cluster * (L.r.clw * L.r.clh) + rank) true false cluster rank 0 cid s.nextId cores
  let s := s.addTeam T L.r.mtx
  (List.range (L.r.teamG - L.r.resv)).foldl (fun s g =>
    allLanes.foldl (fun s l => s.startThread T g l L.r.entry [] none) s) s

/-- The next cluster of a launch placed on cores that fit it. -/
def State.placeCluster (s : State) (L : Launch) (spot : List (Nat × Nat × Nat)) : State :=
  let cores := spot.map (·.1)
  let cid := s.nextId
  let s := spot.zipIdx.foldl (fun s ((c, s0, b), r) => s.placeTeam L c s0 b L.nextCluster r cid cores) s
  s.modLaunch L.part L.lnum fun L => { L with nextCluster := L.nextCluster + 1, sinceCluster := s.gt, urgent := false }

/-- Clusters of a launch. -/
def Launch.clusters (L : Launch) : Nat := L.ext.foldl (· * ·) 1 / (L.r.clw * L.r.clh)

/-- Every cluster of a launch placed on the machine as it stands, if all fit (R339). -/
def State.placeAll (s : State) (L : Launch) : Nat → Option State
  | 0 => some s
  | n + 1 =>
    match s.launch? L.part L.lnum with
    | none => none
    | some K =>
      match s.clusterFit K with
      | none => none
      | some spot => State.placeAll (s.placeCluster K spot) L n

/-- The launch's clusters all fit its partition's cores when those are empty (R339): no team is there, nor a row of one that has ended. -/
def State.fitsAlone (s : State) (L : Launch) : Bool :=
  (({ s with teams := s.teams.filter (·.part != L.part), launches := s.launches ++ [L], kiln := s.kiln.filter fun (_, r) => r.owner != 0,
             m := { s.m with replan := [] } }).placeAll L L.clusters).isSome

/-- A deterministic launch asks for more than the partition holds (R339). -/
def State.detTooBig (s : State) (L : Launch) : Bool :=
  let teams := L.ext.foldl (· * ·) 1
  (s.part L.part).fld 0xA08 0 32 * 4096 < teams * L.r.teamG * 32 * 512 || !s.fitsAlone L

/-! ## Dequeue, carried out -/

/-- The launch of a predecessor has let this one in: every team of its grid has executed SUCC or ended, one at least by SUCC, or it has ended
(R273, R327). Once launch numbers have wrapped, a number may be both that of a launch in flight and that of one that ended a lap before: it then
names the one in flight; one that is queued and not yet in flight is not looked at (DESIGN CHOICE, log entry 67). -/
def State.predDone (s : State) (p : Nat) : Option Word → Bool
  | none => true
  | some n =>
    match s.launch? p n with
    | some L =>
      match L.st with
      | .admitted => L.succRan && L.ext.foldl (· * ·) 1 ≤ L.succs
      | .finishing _ => true
      | _ => false
    | none => ((s.part p).done.lookup n).isSome

/-- Another deterministic launch of the partition has been admitted and has not ended (R339): one has ended with its last team, whatever its
completion still waits for (R325). -/
def State.detBusy (s : State) (L : Launch) : Bool :=
  L.r.det && (s.inFlight L.part).any fun K => K.lnum != L.lnum && K.r.det && K.st == .admitted

/-- A launch may be admitted now (R327, R339). -/
def State.mayAdmit (s : State) (L : Launch) : Bool := L.st == .waiting && s.predDone L.part L.pred && !s.detBusy L

/-- A launch admitted: it is offered room from now on. -/
def State.letIn (s : State) (L : Launch) : State :=
  s.modLaunch L.part L.lnum fun L =>
    { L with st := .admitted, sinceCluster := s.gt,
             det := L.det.map fun d => { d with opening := s.mem, openGt := s.gt } }

/-- The reads of a launch are done: it ends at once, or awaits admission (R323, R339, R341). One that does not fit ends with BADREC without a
read of its ownership table, so that no READERR can come of it (DESIGN CHOICE, log entry 40). -/
def State.dequeued (s : State) (L : Launch) (got : List (Nat × Option Nat)) : State :=
  let ext := L.extents got
  let teams := ext.foldl (· * ·) 1
  let kv := (L.r.baddr.take L.r.nbnd).map fun a => (BitVec.ofNat 32 (((got.lookup a.toNat).bind id).getD 0) : Word)
  let L1 := { L with ext, kv, got := [], st := .waiting, counter := teams % 2 ^ 24 }
  if ext.contains 0 then s.finish L .ok
  else if (ext.any fun n => 65535 < n) || 2 ^ 24 < teams || teams % (L.r.clw * L.r.clh) != 0 then s.finish L .badBound
  else if L.r.det && s.detTooBig L1 then s.finish L .badRec
  else
    let go (det : Option Det) : State :=
      let s := (s.modLaunch L.part L.lnum fun _ => { L1 with det }).advance L.part L.queue
      if s.mayAdmit { L1 with det } then s.letIn L1 else s
    if L.r.det then
      match s.readOwn L.part L.r.ctx teams with
      | none => s.finish L .readErr
      | some none => s.finish L .badRec
      | some (some own) => go (some { round := 1, opening := [], openGt := s.gt, until_ := none, commit := false, own })
    else go none

/-- The reads of a launch go on as far as they can. -/
def State.readOn (s : State) (L : Launch) : State :=
  let (got, stop) := s.readAll L L.r.reads L.got
  let new := got.filter fun (va, _) => (L.got.lookup va).isNone
  let s := new.foldl (fun s (va, _) => s.launchTouch L va) (s.modLaunch L.part L.lnum fun x => { x with got })
  match stop with
  | none => if got.any (·.2.isNone) then s.finish L .readErr else s.dequeued L got
  | some (_, .page p) => s.launchPage L p
  | some (va, .out ia) => s.launchOut L ia va
  | some _ => s

/-- A launch as its dequeue begins. -/
def State.newLaunch (s : State) (p q : Nat) (lnum : Word) (r : LaunchRec) : Launch :=
  let pred := match r.predm with
    | 1 => some r.predn
    | 2 => ((s.part p).preds.lookup lnum).bind id
    | _ => none
  { part := p, lnum, queue := q, r, st := .reading, pred, ext := [], kv := [], nextCluster := 0, counter := 0, succs := 0, succRan := false, ended := 0,
    faulted := false, wct := 0, sinceTask := s.gt, sinceRung := s.gt, sinceCluster := s.gt, urgent := false, page := none, got := [], req := none, noCmpl := false, det := none }

/-- The heads that may be dequeued: priority and queue. -/
def State.heads (s : State) (p : Nat) : List (Nat × Nat) :=
  let pt := s.part p
  ((List.range 16).filter fun q => pt.qen q && 0 < pt.qcount q && !(s.inFlight p).any fun L => L.queue == q && L.atHead).map fun q =>
    let k := pt.slotKey q (pt.qhead q)
    (s.effective p (BitVec.ofNat 32 (s.bytes (k + 0x5C) 4)) (s.bytes k 4 / 2 ^ 24 % 8) false, q)

/-- The head of highest priority, and of those the one of the lowest queue. -/
def bestHead : List (Nat × Nat) → Option Nat
  | [] => none
  | (pr, q) :: rest =>
    some (rest.foldl (fun (b : Nat × Nat) x => if b.1 < x.1 then x else b) (pr, q)).2

/-- A launch whose reads may go on: the page or the word that it waited for is there. -/
def State.resumable (s : State) (p : Nat) : Option Launch :=
  (s.inFlight p).find? fun L => L.st == .reading && L.page.isNone && L.req.isNone

/-- DEQUEUE has something to do for the partition. -/
def State.dequeueReady (s : State) (p : Nat) : Bool :=
  (s.resumable p).isSome || (s.places p < Config.launchMax && !(s.heads p).isEmpty)

/-- DEQUEUE (R323): a launch whose reads can go on goes on; else the engine takes the head of highest priority. -/
def execDequeue (p : Nat) (s : State) : Out :=
  match s.resumable p with
  | some L => .next (s.readOn L)
  | none =>
    if Config.launchMax ≤ s.places p || s.m.resetting p then .next s
    else
      match bestHead (s.heads p) with
      | none => .next s
      | some q =>
        let pt := s.part p
        let k := pt.slotKey q (pt.qhead q)
        let r := recordOf (s.bytes k 640)
        let lnum := BitVec.ofNat 32 (s.bytes (k + 0x5C) 4)
        let L := s.newLaunch p q lnum r
        let s1 := { s with launches := s.launches ++ [L] }
        let s1 := s1.modPart p fun pt => { pt with preds := pt.preds.filter (·.1 != lnum) }
        if s.poisonedIn k 1024 then .next (s1.finish L .readErr)
        else if pt.malformed r then .next (s1.finish L .badRec)
        else if r.sema != 0#64 then
          .next ((s1.modLaunch p lnum fun L => { L with st := .sema }).modPart p (·.setQwait q true))
        else .next (s1.readOn L)

/-- SEMAPHORE_POLL (R323): the engine reads the semaphore of a waiting head; once it has reached the target, the reads begin. -/
def execSemaphorePoll (p q : Nat) (s : State) : Out :=
  match (s.inFlight p).find? fun L => L.queue == q && L.st == .sema with
  | none => .next s
  | some L =>
    if L.page.isSome || L.req.isSome then .next s
    else
      match s.launchWord L L.r.sema.toNat with
      | .page pg => .next (s.launchPage L pg)
      | .out ia => .next (s.launchOut L ia L.r.sema.toNat)
      | .fail => .next ((s.launchTouch L L.r.sema.toNat).finish L .readErr)
      | .ok v =>
        if L.r.semv.toNat ≤ v then
          let L1 := { L with st := .reading, got := [] }
          .next ((((s.launchTouch L L.r.sema.toNat).modLaunch p L.lnum fun _ => L1).modPart p (·.setQwait q false)).readOn L1)
        else .next ((s.launchTouch L L.r.sema.toNat).modLaunch p L.lnum fun L => { L with got := [] })

/-- ADMIT (R327). -/
def execAdmit (p : Nat) (lnum : Word) (s : State) : Out :=
  match s.launch? p lnum with
  | some L => if s.mayAdmit L then .next (s.letIn L) else .next s
  | none => .next s

/-! ## Placement (R328) -/

/-- A unit of placement. -/
inductive Unit_ where
  | task (i : Nat)
  | rung (i : Nat)
  | cluster
  deriving DecidableEq, Repr

/-- A unit that is offered room: its effective priority, its launch. -/
structure Offer where
  prio : Nat
  L : Launch
  u : Unit_
  deriving DecidableEq, Repr

/-- The next task of a launch by its place in the list of units. -/
def State.nextTask (s : State) (L : Launch) : Option Nat :=
  s.pending.findIdx? fun x => x.part == L.part && x.lnum == L.lnum && x.task

/-- The next rung group of a launch: the highest rung, and of it the first launched. -/
def State.nextRung (s : State) (L : Launch) : Option Nat :=
  let rs := s.pending.filter fun x => x.part == L.part && x.lnum == L.lnum && !x.task
  let top := rs.foldl (fun m x => max m x.rung) 0
  if rs.isEmpty then none
  else s.pending.findIdx? fun x => x.part == L.part && x.lnum == L.lnum && !x.task && x.rung == top

/-- The next units of a launch, by kind in order. -/
def State.unitsOf (s : State) (L : Launch) : List Offer :=
  let pr := s.effective L.part L.lnum L.r.prio false
  -- a unit that a commit under way has created waits for the next round (R349)
  if L.st != .admitted || L.det.any (·.commit) then []
  else
    ((s.nextTask L).map fun i => { prio := s.effective L.part L.lnum L.r.prio true, L, u := .task i : Offer }).toList ++
      ((s.nextRung L).map fun i => { prio := pr, L, u := .rung i : Offer }).toList ++
      (if L.nextCluster < L.clusters then [{ prio := pr, L, u := .cluster : Offer }] else [])

/-- An offer put after those that come before it: higher priority, then lower launch number, then as they stand. -/
def insertOffer : List Offer → Offer → List Offer
  | [], x => [x]
  | y :: ys, x =>
    if y.prio < x.prio || (y.prio == x.prio && x.L.lnum.toNat < y.L.lnum.toNat) then x :: y :: ys else y :: insertOffer ys x

/-- The predecessors of a launch that are in flight, farthest first. -/
def State.ancestors (s : State) : Nat → Launch → List Launch
  | 0, _ => []
  | n + 1, L =>
    match L.pred.bind (s.launch? L.part) with
    | none => []
    | some K => State.ancestors s n K ++ [K]

/-- The units of a partition in the order in which they are offered room (R328): the tasks and rung groups of a launch before the
teams of its successors. -/
def State.offers (s : State) (p : Nat) : List Offer :=
  let sorted := (((s.inFlight p).map s.unitsOf).flatten).foldl insertOffer []
  sorted.foldl (fun out x =>
    let before := ((s.ancestors 64 x.L).map fun K => (s.unitsOf K).filter fun (y : Offer) => y.u != Unit_.cluster).flatten
    out ++ (before.filter fun y => !out.contains y) ++ (if out.contains x then [] else [x])) []

/-- An urgent launch keeps the unit from being placed: one of a launch of equal or lower effective priority, which the raise of a spawned task
does not change (R328). -/
def State.heldUrgent (s : State) (x : Offer) : Bool :=
  let prio (K : Launch) : Nat := s.effective K.part K.lnum K.r.prio false
  (s.inFlight x.L.part).any fun K => K.urgent && K.lnum != x.L.lnum && prio x.L ≤ prio K

/-- The cores that a task or rung group is tried on, in order (R210, R330). -/
def State.nearCores (s : State) (x : Pending) : List Nat :=
  let home := x.near.headD 0 / Config.coresPerDie
  let die (d : Nat) : List Nat := (List.range Config.coresPerDie).map (d * Config.coresPerDie + ·)
  let ds := s.m.diesOf x.part
  (x.near.filter fun c => ds.contains (c / Config.coresPerDie)) ++ ((ds.filter (· == home)).map die).flatten ++
    ((ds.filter (· != home)).map die).flatten

/-- A task or rung group placed on a core. -/
def State.placePending (s : State) (L : Launch) (i : Nat) (x : Pending) (core s0 base : Nat) : State :=
  let s := { s with pending := s.pending.eraseIdx i }
  let T := s.newTeam L (x.foot L) core s0 base x.index false x.task 0 0 x.depth x.id x.id [core]
  let s := s.addTeam T L.r.mtx
  let s := x.lanes.zipIdx.foldl (fun s ((ws, h), l) => if l < 32 then s.startThread T 0 l x.entry ws h else s) s
  (s.modLaunch L.part L.lnum fun L =>
    { L with sinceTask := if x.task then s.gt else L.sinceTask, sinceRung := if x.task then L.sinceRung else s.gt,
             urgent := false }).spawnRelease L.part

/-- A unit placed, if it fits. -/
def State.tryPlace (s : State) (x : Offer) : Option State :=
  let pend (i : Nat) : Option State :=
    match s.pending[i]? with
    | none => none
    | some q =>
      if s.gt < q.after then none
      else
        (s.nearCores q).findSome? fun c => (s.fit (q.foot x.L) c).map fun (s0, b) => s.placePending x.L i q c s0 b
  match x.u with
  | .task i => pend i
  | .rung i => pend i
  | .cluster =>
    if x.L.r.det then s.placeAll x.L (x.L.clusters - x.L.nextCluster)
    else (s.clusterFit x.L).map fun spot => s.placeCluster x.L spot

/-- The machine after the next placement of a partition, if there is one. -/
def State.nextPlaced (s : State) (p : Nat) : Option State :=
  if s.m.resetting p then none
  else ((s.offers p).filter fun x => !s.heldUrgent x).findSome? fun x => s.tryPlace x

/-- PLACE (R328): the first unit of the offer that fits is placed. -/
def execPlace (p : Nat) (s : State) : Out := .next ((s.nextPlaced p).getD s)

/-- A unit of the launch has been next of its kind for 65,536 cycles (R328). -/
def State.overdue (s : State) (L : Launch) : Bool :=
  let late (since : Nat) : Bool := decide (since + Config.urgentAfter ≤ s.gt)
  L.st == .admitted && (((s.nextTask L).isSome && late L.sinceTask) || ((s.nextRung L).isSome && late L.sinceRung) ||
    (decide (L.nextCluster < L.clusters) && late L.sinceCluster))

/-- URGENT (R328): a unit has been next in its launch for 65,536 cycles. -/
def execUrgent (p : Nat) (lnum : Word) (s : State) : Out :=
  match s.launch? p lnum with
  | some L =>
    if s.overdue L then .next (s.modLaunch p lnum fun L => { L with urgent := true })
    else .next s
  | none => .next s

/-! ## The end of a launch (R325) -/

/-- Every team, task and rung group of a launch has ended. -/
def State.allEnded (s : State) (L : Launch) : Bool :=
  let mine (p : Nat) (n : Word) : Bool := p == L.part && n == L.lnum
  L.st == .admitted && L.clusters ≤ L.nextCluster && !(s.teams.any fun T => mine T.part T.lnum) &&
    !(s.saved.any fun v => mine v.team.part v.team.lnum) && !(s.pending.any fun x => mine x.part x.lnum) &&
    !(s.packers.any fun k => mine k.part k.lnum && !k.items.isEmpty)

/-- The status of the completion doubleword (R325). -/
def Status.num : Status → Nat
  | .ok => 0 | .teamFault => 1 | .badRec => 2 | .badBound => 3 | .readErr => 4

/-- A launch leaves: its number joins those that have ended, with whether no team fault ended a team (R274). -/
def State.removeLaunch (s : State) (L : Launch) : State :=
  { s with launches := s.launches.filter fun x => !(x.part == L.part && x.lnum == L.lnum),
           packers := s.packers.filter fun k => !(k.part == L.part && k.lnum == L.lnum) }.modPart L.part fun pt =>
    { pt with done := (L.lnum, !L.faulted) :: pt.done }

/-- The completion is reported: MSI-X when MSIE is set, and the launch leaves. -/
def State.signOff (s : State) (L : Launch) : State :=
  let s := if L.r.msie then s.msix L.part L.r.msiv else s
  s.removeLaunch L

/-- The completion doubleword written, or what keeps it from being written (R325). Through the aperture it is first performed, and the message that
announces it is sent after that (R392). -/
def State.writeCompletion (s : State) (L : Launch) (st : Status) : State :=
  let v := L.lnum.toNat + st.num * 2 ^ 32
  let a := L.r.cmpl.toNat
  if a = 0 ∨ L.noCmpl ∨ a % 8 ≠ 0 then s.signOff L
  else
    match s.translate L.part L.r.ctx a needW with
    | none => s.signOff L
    | some ia =>
      if (apertureOf ia).isSome then
        if L.req.isSome then s
        else (s.sendOut L.part ia (.store false) (listOf 8 v) 8 none none 0).modLaunch L.part L.lnum fun L => { L with req := some (s.nextId, a) }
      else if s.windowReset L.part ia then s.signOff L
      else
        match s.iaKey ia with
        | none => s.launchPage L (pageOf ia)
        | some k =>
          if s.locked ia 8 then s
          else ((s.writeKey L.part k (numbered 8 v)).reach ia k ((s.m.diesOf L.part).headD 0) anyPos).signOff L

/-- LAUNCH_END (R325): the last team of the launch has ended; then its writes have passed their WCTs, and its completion is
written. -/
def execLaunchEnd (p : Nat) (lnum : Word) (s : State) : Out :=
  match s.launch? p lnum with
  | none => .next s
  | some L =>
    match L.st with
    | .finishing st => if L.wct ≤ s.gt && L.page.isNone && !s.writesUnderWay L then .next (s.writeCompletion L st) else .next s
    | .admitted =>
      if s.allEnded L then
        .next (s.modLaunch p lnum fun L => { L with st := .finishing (if L.faulted then .teamFault else .ok) })
      else .next s
    | _ => .next s

end Sys2Proof.Machine
end

