-- ==== Sys2Proof/Machine/Teams.lean ====
section
/-! DEFINITION. What happens to groups and teams as time passes: the active set (R331, R332), the entry of a user handler (R355),
the watchdogs (R175, R211, R214, R258, R347, R366), the release of PWAIT (R274), the end of a team (R128, R353), and the posting of
fault records (R359, R360). -/

namespace Sys2Proof.Machine

open Sys2Proof

/-! ## The active set (R331, R332) -/

/-- A group with its team and number. -/
structure Seat where
  T : Team
  g : Nat
  G : Group
  deriving DecidableEq, Repr

/-- The groups resident on a sub-core. -/
def State.seats (s : State) (core sub : Nat) : List Seat :=
  ((s.teamsOn core).map fun (T : Team) => (T.numbered.filter fun (_, G) => G.sub == sub).map fun (g, G) => { T, g, G : Seat }).flatten

/-- A SPAWN or QENQ, or the stop of its team, holds the group out of the active set (R211, R214, R361). -/
def Seat.out (x : Seat) : Bool := x.T.st != .run || x.G.party.any fun l => (x.G.thread l).holding

def State.seatReady (s : State) (x : Seat) : Bool := s.groupReady x.T x.g x.G

/-- A thread set of the group waits on a token of its word (R331). -/
def State.tokenWait (s : State) (x : Seat) : Bool :=
  (x.G.pcs x.G.considered).any fun p =>
    match s.wordAt x.T x.g x.G x.G.considered (BitVec.ofNat 32 p) with
    | .ok w => !x.G.tokensClear (instrOf w)
    | .error _ => false

/-- An access of the group issued 64 or more cycles ago will land in register `n` of a lane. -/
def State.lateLoad (s : State) (T : Team) (g l n : Nat) : Bool :=
  (s.flightsOf T.id g).any fun f => 64 ≤ f.age && f.lanes.any fun a => match a.dst with
    | some (k, pos) => (T.ln g l).key? n == some k && pos ≤ n % 8 && n % 8 < pos + f.nreg
    | none => false

/-- A source of a thread set is pending on a load or atomic that issued 64 or more cycles ago (R331). -/
def State.oldPending (s : State) (x : Seat) : Bool :=
  x.G.considered.any fun l =>
    match s.wordAt x.T x.g x.G [l] (x.G.thread l).pc with
    | .ok w => (sourcesOf (instrOf w)).any fun n => (s.rd (x.T.ln x.g l) n).pend && s.lateLoad x.T x.g l n
    | .error _ => false

/-- A wait that R331 names. -/
def Wait.long : Wait → Bool
  | .nap _ | .cwait .. | .ldfe .. | .pwait _ | .kiln | .xacq .. => true
  | _ => false

/-- An active group is stalled long (R331, R344). -/
def State.stalledLong (s : State) (x : Seat) : Bool :=
  !s.seatReady x &&
    (s.tokenWait x || ((lanesOf x.G.live).all fun l => (x.G.thread l).stands || (x.G.thread l).closed) || s.oldPending x ||
      (lanesOf x.G.live).any fun l => (x.G.thread l).wait.long)

/-- Effective priority of a group's launch (R326). -/
def State.seatPrio (s : State) (x : Seat) : Nat :=
  s.effective x.T.part x.T.lnum (((s.launchOf x.T).map (·.r.prio)).getD 0) x.T.task

/-- The order of promotion: priority, then the time since which the group is ready, then the slot (R332). -/
def State.promotesBefore (s : State) (x y : Seat) : Bool :=
  let key (z : Seat) : List Nat := [7 - s.seatPrio z, z.G.readySince, z.G.slot]
  decide (key x < key y)

def insertSeat (before : Seat → Seat → Bool) : List Seat → Seat → List Seat
  | [], x => [x]
  | y :: ys, x => if before x y then x :: y :: ys else y :: insertSeat before ys x

/-- A group enters or leaves the active set; no architected state changes. -/
def State.setActive (s : State) (x : Seat) (b : Bool) : State :=
  s.modGroup x.T.id x.g fun G => { G with active := b, pendSince := if b then G.pendSince else s.gt }

/-- The pending groups that may be promoted, in their order. -/
def State.promotable (s : State) (core sub : Nat) : List Seat :=
  ((s.seats core sub).filter fun x => !x.G.active && !x.out && s.seatReady x).foldl (insertSeat s.promotesBefore) []

/-- What GROUP_SWAP does at the end of a cycle. -/
def State.groupSwap (s : State) (core sub : Nat) : State :=
  let seats := s.seats core sub
  let gone := seats.filter fun x => x.G.active && x.out
  let s1 := gone.foldl (fun s x => s.setActive x false) s
  let on := seats.filter fun x => x.G.active && !x.out
  let cands := s1.promotable core sub
  let free := Config.activeMax - on.length
  let s2 := (cands.take free).foldl (fun s x => s.setActive x true) s1
  let stalled := on.filter s.stalledLong
  ((cands.drop free).zip stalled).foldl (fun s (x, y) => (s.setActive y false).setActive x true) s2

/-- GROUP_SWAP (R331): at the end of a cycle the stalled active groups of a sub-core change places with ready pending ones. -/
def execGroupSwap (core sub : Nat) (s : State) : Out := .next (s.groupSwap core sub)

/-- The pending group has been ready for 4,096 cycles (R332). -/
def State.starved (s : State) (x : Seat) : Bool :=
  !x.G.active && !x.out && x.G.readySince != 0 && s.seatReady x && max x.G.readySince x.G.pendSince + Config.starveBound ≤ s.gt

/-- STARVED_PROMOTION (R332): it takes the place of the active group whose last issue is oldest. -/
def execStarvedPromotion (t g : Nat) (s : State) : Out :=
  match s.team? t, s.group? t g with
  | some T, some G =>
    let x : Seat := { T, g, G }
    if !s.starved x then .next s
    else
      let on := (s.seats T.core G.sub).filter (·.G.active)
      if on.length < Config.activeMax then .next (s.setActive x true)
      else
        match on.foldl (insertSeat fun a b => a.G.lastIssue < b.G.lastIssue) [] with
        | y :: _ => .next ((s.setActive y false).setActive x true)
        | [] => .next s
  | _, _ => .next s

/-! ## Entry of a user handler (R355) -/

def TrapReq.raise (r : TrapReq) (t g : Nat) : Raise :=
  { code := if r.code = 8#32 then .fpx else if r.code = 0xB#32 then .race else if r.code = 0x10#32 then .swtrap
      else if r.code = 0x11#32 then .bkpt else if r.code = 0x12#32 then .stackovf else .illop,
    t, g, lanes := r.lanes, pc := r.pc, dst := r.dst, width := r.width, arr := r.arr, late := r.late, members := r.members }

/-- A group that waits for its hardware entry can enter now. -/
def State.trapReady (s : State) (t g : Nat) : Bool :=
  match (s.group? t g).bind (·.trap) with
  | some r => (s.enterHandler (r.raise t g)).isOk
  | none => false

/-- TRAP_ENTRY (R355): a hardware entry has become free, and a group enters its handler. -/
def execTrapEntry (t g : Nat) (s : State) : Out :=
  match (s.group? t g).bind (·.trap) with
  | some r =>
    match s.enterHandler (r.raise t g) with
    | .ok s => .next s
    | .error _ => .next s
  | none => .next s

/-! ## PWAIT (R274) -/

/-- The thread waits in PWAIT (R274). -/
def Thread.pwaits (th : Thread) : Bool := match th.wait with | .pwait _ => true | _ => false

/-- The wait of the group's PWAIT: its predicate and arrival. -/
def Group.pwaiting (G : Group) : Option (PReg × Arr) :=
  G.party.findSome? fun l => match (G.thread l).wait with
    | .pwait p => some (p, (G.thread l).arr)
    | _ => none

/-- The threads of a group that wait in a PWAIT at which they arrived so. -/
def Group.parked (G : Group) (a : Arr) : List Nat := G.party.filter fun l => (G.thread l).pwaits && (G.thread l).arr == a

/-- The cursor of the PWAIT that a group waits in: of each member the threads that wait there, not a sibling that has been started since
(R135). -/
def Team.cursorAt (T : Team) (g : Nat) (a : Arr) : Cursor :=
  let ms := (T.membership a g).map fun j => (j, ((T.group? j).map fun G => maskOf (G.parked a)).getD 0#32)
  let pc := (T.group? g).bind fun G => (G.parked a).head?.map fun l => (G.thread l).pc
  { team := T.id, pc := pc.getD 0#32, members := ms, arr := a }

/-- PWAIT_RELEASE (R274): the predecessor has ended, its stores are visible, and the members go on. -/
def execPwaitRelease (t g : Nat) (s : State) : Out :=
  match s.team? t, s.group? t g with
  | some T, some G =>
    match G.pwaiting, s.predEnded T with
    | some (p, a), some ok => if T.st = .run then .next ({ s with cur := T.cursorAt g a }.passPwait T p ok) else .next s
    | _, _ => .next s
  | _, _ => .next s

/-! ## Watchdogs -/

/-- A wait that WDOG bounds (R175, R211, R214, R258, R259, R347). -/
def Wait.watched : Wait → Bool
  | .ldfe .. | .cwait .. | .spawnHold | .queueHold _ | .commit | .turn => true
  | _ => false

/-- The instruction at which the thread waits has completed, or is performed at its turn: nothing executes again (R211, R347). -/
def Wait.completed : Wait → Bool
  | .spawnHold | .queueHold _ | .commit | .turn => true
  | _ => false

/-- The thread has waited as long as RDVWD allows; a thread that has closed a round waits for its commit (R347). -/
def Team.overdue (T : Team) (th : Thread) : Bool :=
  T.st == .run && T.rdvwd != 0#32 && decide (T.rdvwd.toNat ≤ th.waited) && th.live && (th.wait.watched || th.closed)

/-- The destination that the word at a PC names in %fltdst, with its width. -/
def State.dstAt (s : State) (T : Team) (g : Nat) (lanes : List Nat) (pc : Word) : Word × Nat :=
  match T.group? g with
  | none => (allOnes, 1)
  | some G =>
    match s.wordAt T g G lanes pc with
    | .ok w => fltOf (instrOf w)
    | .error _ => (allOnes, 1)

/-- What a thread waits for, without what differs from lane to lane: the lanes of one instruction agree on it. -/
def Wait.word (w : Wait) : Wait :=
  match w with
  | .ldfe d size _ swz clear => .ldfe d size 0 swz clear
  | .cwait p d _ _ => .cwait p d 0 false
  | .queueHold _ => .queueHold 0#64
  | w => w

/-- The effective address of an instruction that waits at one. -/
def Wait.ea : Wait → Nat
  | .ldfe _ _ off _ _ => off
  | .cwait _ _ off _ => off
  | _ => 0

/-- A wait that has come to its end starts afresh: an instruction that has not completed executes again (R361). -/
def Thread.afresh (th : Thread) : Thread :=
  { th with wait := match th.wait with
              | .commit => .commit
              | .turn => .turn
              | _ => .none,
            waited := 0, skipped := 0 }

/-- WDOG (R175, R211, R214, R258, R347): a timed wait has come to RDVWD; REMTMO takes its place when WDREM cycles were skipped
(R366). -/
def execWdog (t g l : Nat) (s : State) : Out :=
  match s.team? t, s.group? t g with
  | some T, some G =>
    let th := G.thread l
    if !T.overdue th then .next s
    else
      let same (x : Thread) : Bool := T.overdue x && x.closed == th.closed && x.wait.word == th.wait.word && x.pc == th.pc && x.arr == th.arr
      let ls := (lanesOf G.live).filter fun j => same (G.thread j)
      let (dst, width) := if th.wait.completed || th.closed then (allOnes, 1) else s.dstAt T g ls th.pc
      let ms := if th.arr.cv?.isSome then T.membership th.arr g else []
      let s1 := (if ms.isEmpty then [g] else ms).foldl (fun s1 j => s1.modGroup t j fun H =>
        (lanesOf H.live).foldl (fun H k => if same (H.thread k) then H.modThread k Thread.afresh else H) H) s
      let code : Code := if T.wdrem != 0#32 && T.wdrem.toNat ≤ th.skipped then .remtmo else .wdog
      .next (s.raisingIn t (if ms.isEmpty then [g] else ms)
        (s1.raise { code, t, g, lanes := maskOf ls, pc := th.pc, dst, width, arr := th.arr, members := ms,
                    va := BitVec.ofNat 64 (((ls.head?.map G.thread).map (·.wait.ea)).getD 0) }))
  | _, _ => .next s

/-- A load, an atomic with return or a fence of a lane waits for an operation that is still outstanding through a link or port after
RDVWD counted cycles (R366): the flight. -/
def State.remoteLate (s : State) (T : Team) (g l : Nat) : Option Flight :=
  (s.flightsOf T.id g).find? fun f =>
    T.st == .run && T.rdvwd != 0#32 && f.lanes.any (fun a => a.lane == l && decide (T.rdvwd.toNat ≤ a.waited)) && f.remote &&
      s.outbox.any (fun r => r.flight == some (f.id, l)) &&
        (f.loading l || f.object || (s.thread T.id g l).rel.isSome)

/-- REMTMO (R366): the operation itself ends in the drain of the swap-out (R367). -/
def execRemtmo (t g l : Nat) (s : State) : Out :=
  match s.team? t with
  | none => .next s
  | some T =>
    match s.remoteLate T g l with
    | none => .next s
    | some f =>
      let (dst, width) := s.dstAt T g [l] f.pc
      .next (s.raising t g (s.raise { code := .remtmo, t, g, lanes := maskOf [l], pc := f.pc, dst, width,
                                      va := ((f.lane? l).map (·.va)).getD 0#64 }))

/-! ## Fault records (R359, R360) -/

/-- The 128 bytes of a record, little-endian. -/
def FaultRec.image (r : FaultRec) : Nat :=
  let w0 := r.code.toNat + r.cls.toNat * 2 ^ 8 + (if r.inh then 2 ^ 10 else 0) +
    (match r.cv with | some c => 2 ^ 11 + c.toNat * 2 ^ 12 | none => 0) + r.pages.length % 16 * 2 ^ 16
  let w3 := r.core % 2 ^ 10 + r.group % 2 ^ 6 * 2 ^ 10 + (r.slot.getD 0x1FF) % 2 ^ 9 * 2 ^ 16
  let low := fromWords [w0, r.lnum.toNat, r.team % 2 ^ 24, w3, r.pc.toNat, r.lanes.toNat]
  let pages := (List.range 8).map fun i => match r.pages[i]? with | some p => (1 + p % 2 ^ 36 * 2 ^ 16) * 2 ^ (64 * i) | none => 0
  low + 2 ^ 192 * r.members.toNat + 2 ^ 256 * r.pc2.toNat + 2 ^ 288 * r.dst.toNat + 2 ^ 320 * r.va.toNat +
    2 ^ 384 * (r.time % 2 ^ 64) + 2 ^ 448 * pages.sum

/-- FQTAIL and FQHEAD, and the entries of the ring. -/
def Part.ringFull (p : Part) : Bool := (p.fld 0xF18 0 32 + 2 ^ 32 - p.fld 0xF10 0 32) % 2 ^ 32 ≥ 2 ^ p.fld 0xF08 0 4

/-- Records posted in the order in which they were raised, while the ring has room (R360). -/
def State.postFaults (s : State) (p : Nat) : List FaultRec → State
  | [] => s.modPart p fun pt => { pt with faults := [] }
  | r :: rest =>
    let pt := s.part p
    if pt.ringFull then s.modPart p fun pt => { pt with faults := r :: rest }
    else
      let n := pt.fld 0xF18 0 32
      let k := physKey (pt.fld 0xF00 48 2) (pt.fld 0xF00 7 41 * 128 + 128 * (n % 2 ^ pt.fld 0xF08 0 4))
      let s := s.setBytes k 128 r.image
      let s := s.modPart p fun pt => pt.setFld 0xF18 0 32 ((n + 1) % 2 ^ 32)
      State.postFaults (s.notify p kindFault 0 0 n) p rest

/-- The records of a partition that wait are posted as far as they can be. -/
def State.post (s : State) (p : Nat) : State := if (s.part p).faults.isEmpty then s else s.postFaults p (s.part p).faults

/-- FQHEAD (R358, R360): the host has consumed records; those that wait are posted. -/
def execFqhead (p : Nat) (v : Word) (s : State) : Out :=
  if 8 ≤ p then .next s else .next ((s.modPart p fun pt => pt.setFld 0xF10 0 32 v.toNat).post p)

/-! ## The end of a team (R128, R353) -/

/-- An engine command of the team has not completed, or one of another team whose destination lies in its Basin (R128). -/
def State.teamBusy (s : State) (t : Nat) : Bool := s.cmds.any fun c => c.team == t || c.barTeam == t

/-- The team's threads have all exited, each access confirmed, or a fault has ended it, and its engine commands have completed (R128). Its
accesses may still be under way. -/
def State.teamOver (s : State) (T : Team) : Bool :=
  !s.teamBusy T.id &&
    match T.st with
    | .ending _ => true
    | .run => T.groups.all (fun G => G.occupied == 0#32) && s.flights.all fun f => f.team != T.id || f.confirmed
    | _ => false

/-- Rows in which a value of an ended team has still to land stay out of the pool, nobody's (R16, R128). -/
def State.strand (s : State) (t : Nat) : State :=
  let waits (k : Nat) : BitVec 8 := s.flights.foldl (fun b f =>
    if f.team = t then f.lanes.foldl (fun b a => match a.dst with
      | some (x, pos) => if x = k then (List.range f.nreg).foldl (fun b j => setBit b (pos + j) true) b else b
      | none => b) b else b) 0#8
  if s.flights.any fun f => f.team == t then
    { s with kiln := s.kiln.map fun (k, r) =>
        if r.owner = t ∧ waits k ≠ 0#8 then (k, { r with owner := 0, count := 0, pend := waits k }) else (k, r) }
  else s

/-- A team that has ended goes on as the owner of its accesses until they have been performed (R337). -/
def State.depart (s : State) (T : Team) (fault : Bool) : State :=
  if s.flights.any fun f => f.team == T.id then { s with gone := s.gone ++ [{ T with groups := [], st := .ending fault }] } else s

/-- The owners of no access more leave. -/
def State.dropGone (s : State) : State :=
  if s.gone.isEmpty then s else { s with gone := s.gone.filter fun T => s.flights.any fun f => f.team == T.id }

/-- Every live thread of a team ended where it stands; an item that one holds is lost (R219, R353). -/
def State.exitAll (s : State) (T : Team) : State :=
  T.numbered.foldl (fun s (g, G) =>
    let s := match G.handler with
      | some h => h.caps.foldl (fun s (l, c) => s.releaseCapture T.core G.sub l c) s
      | none => s
    let s := match G.spec with
      | some sp => sp.caps.foldl (fun s (l, c) => s.releaseCapture T.core G.sub l c) s
      | none => s
    (lanesOf G.occupied).foldl (fun s l => s.exitThread T.id g l true) s) s

/-- What belongs to a team on its core returns to the pools: rows, handle entries, Basin allocation, matrix queue (R353). -/
def State.freeTeam (s : State) (T : Team) : State :=
  let mine (e : Nat × Entry) : Bool := e.2.owner == T.id && e.1 / 4096 == T.core
  let gens := (s.entries.filter mine).foldl (fun g (k, _) => Sparse.set 0#6 g k (Sparse.get 0#6 g k + 1#6)) s.gens
  let m := s.mxOf T.core
  let s := s.setMx T.core { m with queue := m.queue.filter (·.team != T.id), busy := m.busy.filter (·.2.team != T.id),
                                   latch := m.latch.filter (·.team != T.id) }
  { s with
    kiln := s.kiln.filter fun (k, r) => !(r.owner == T.id && k / (4 * 32 * Config.bankRows) == T.core),
    entries := s.entries.filter fun e => !mine e, gens,
    loops := s.loops.filter (·.team != T.id),
    teams := s.teams.filter (·.id != T.id) }

/-- A cluster of which no team is left gives up its power token and its count (R32, R235). -/
def State.dropCluster (s : State) (cid : Nat) : State :=
  if (s.teams ++ s.saved.map (·.team)).any (·.cid == cid) then s
  else { s with pwrtok := Sparse.set 0#32 s.pwrtok cid 0#32, tokens := s.tokens.filter (·.2 != cid) }

/-- A team counts as ended for its launch (R128, R273, R325). -/
def State.countEnd (s : State) (T : Team) (fault : Bool) : State :=
  (s.dropCluster T.cid).modLaunch T.part T.lnum fun L =>
    { L with ended := L.ended + 1, succs := if T.grid && !T.succ then L.succs + 1 else L.succs, faulted := L.faulted || fault }

/-- A swapped-out team that the host has ended, when nothing of it is left to be committed (R344, R361). -/
def State.endedOut (s : State) (t : Nat) : Option Team :=
  (s.saved.find? fun v => v.team.id == t && match v.team.st with | .ending _ => !s.teamBusy t | _ => false).map (·.team)

/-- TEAM_END (R128, R353): the team is over, and its resources return to their pools. -/
def execTeamEnd (t : Nat) (s : State) : Out :=
  match s.team? t with
  | none =>
    match s.endedOut t with
    | none => .next s
    | some T => .next (({ s with saved := s.saved.filter fun v => v.team.id != t }.countEnd T true).depart T true)
  | some T =>
    if s.teamOver T then
      let fault := match T.st with | .ending f => f | _ => false
      .next (((((s.exitAll T).strand T.id).freeTeam T).countEnd T fault).depart T fault)
    else .next s

end Sys2Proof.Machine
end

