-- ==== Sys2Proof/Machine/Swap.lean ====
section
/-! DEFINITION. Swap-out, the team image, resumption, and the host's commands on teams (R358 to R371). -/

namespace Sys2Proof.Machine

open Sys2Proof

/-! ## The drain (R367) -/

/-- The instructions of a queue that a swap-out leaves unperformed, where earlier ones that it leaves touch what is listed (R244, R245): one
that failed and all behind it; a paired MMA whose partner has not executed, of which the first `n` have; and those that wait for one of
these. -/
def leftOf : Nat → List (Nat × Nat) → List MxOp → List MxOp
  | _, _, [] => []
  | n, taken, o :: os =>
    let pair := o.work.isPair
    if o.failed then o :: os
    else if meets taken o.work.uses || (pair && (n == 0 || !taken.isEmpty)) then o :: leftOf (if pair then 0 else n) (taken ++ o.work.uses) os
    else leftOf (if pair then n - 1 else n) taken os

/-- The matrix instructions that a swap-out of the team leaves unperformed. -/
def State.mxLeft (s : State) (T : Team) : List MxOp :=
  let mate (o : MxOp) : Bool := match s.team? o.team with
    | some U => o.work.isPair && U.part == T.part && U.lnum == T.lnum && U.cluster == T.cluster
    | none => false
  leftOf ((s.mxOf (partnerCore T.core)).queue.countP mate) [] ((s.mxOf T.core).queue.filter (·.team == T.id))

/-- The matrix unit has performed every instruction of the team that it will perform before the swap-out (R245). -/
def State.mxDrained (s : State) (T : Team) : Bool :=
  let m := s.mxOf T.core
  !(m.busy.any (·.2.team == T.id)) && (s.mxLeft T).length == m.queue.countP (·.team == T.id)

/-- A command that does not keep a swap-out waiting: one held for a commit (R348), or an MST whose matrix instruction is left unperformed. -/
def State.cmdLeft (s : State) (T : Team) (c : Cmd) : Bool :=
  c.held || (!c.started && (s.mxLeft T).any fun o => match o.work with | .mst _ _ _ _ _ _ _ id => id == c.id | _ => false)

/-- A live thread of the team waits for something that the drain completes: a fence, or the answer about a pin. -/
def Team.draining (T : Team) : Bool :=
  T.groups.any fun G =>
    (lanesOf G.live).any fun l => (G.thread l).rel.isSome || match (G.thread l).wait with | .pin .. => true | _ => false

/-- The team has drained, but for traps that have still to be entered. What a deterministic round has staged stays with the Weir (R343). -/
def State.emptied (s : State) (T : Team) : Bool :=
  (s.flights.all fun f => f.team != T.id || f.staged || (f.object && f.lanes.all (·.val.isSome))) &&
    (s.cmds.all fun c => (c.team != T.id && c.barTeam != T.id) || s.cmdLeft T c) && s.mxDrained T && !T.draining

/-- The team has drained: what it has under way, and each trap has been entered first (R371). -/
def State.drained (s : State) (T : Team) : Bool := s.emptied T && !T.groups.any (·.trap.isSome)

/-- A group of the team holds a speculation entry. -/
def Team.speculates (T : Team) : Bool := T.groups.any (·.spec.isSome)

/-- Every access of the team is confirmed, or has faulted (R364). -/
def State.allConfirmed (s : State) (t : Nat) : Bool := s.flights.all fun f => f.team != t || f.confirmed

/-! ## The team image (R368, R369) -/

/-- A piece of an image: offset, bytes, value. -/
abbrev Piece := Nat × Nat × Nat

/-- Key of a row or of an entry within its core. -/
def relRow (core k : Nat) : Nat := k - rowKey core 0 0 0
def relEntry (core k : Nat) : Nat := k - entryKey core 0 0

/-- The entries of a team, ascending sub-core and slot. -/
def State.teamEntries (s : State) (T : Team) : List (Nat × Entry) :=
  s.entries.filter fun (k, e) => e.owner == T.id && k / 4096 == T.core

/-- The rows of a team. -/
def State.teamRows (s : State) (T : Team) : List (Nat × Row) :=
  s.kiln.filter fun (k, r) => r.owner == T.id && k / (4 * 32 * Config.bankRows) == T.core

/-- The captures in a team's hardware entries: sub-core, lane, capture, by ascending sub-core and group. -/
def Team.hwCaps (T : Team) : List (Nat × Nat × Capture) :=
  ((List.range Config.subs).map fun sub => ((T.groups.filter (·.sub == sub)).map fun G =>
    match G.handler with
    | some h => h.caps.map fun (l, c) => (sub, l, c)
    | none => []).flatten).flatten

/-- The record number of the entry that a handle names; 0xFFFF where it names none. -/
def State.recordNo (s : State) (T : Team) (es : List (Nat × Entry)) (h : Word) : Nat :=
  if h = 0#32 then 0xFFFF
  else
    let k := handleKey T.core h
    match es.findIdx? (·.1 == k) with
    | some n => if s.handle k = h then n else 0xFFFF
    | none => 0xFFFF

/-- A thread record or entry record of 256 bytes (R203, R368). -/
def State.recordImage (s : State) (T : Team) (es : List (Nat × Entry)) (sub : Nat) (e : Entry) (live : Bool)
    (held : Option Held) : Nat :=
  let head := spillHeader e (s.capPoison T.core sub e) 0 0
  let rows := ((List.range 32).map fun j => ((vget e.cap.rows j none).getD 0xFFFF) * 2 ^ (16 * j)).sum
  let hs := ((List.range 16).map fun j => s.recordNo T es (vget e.cap.h j 0#32) * 2 ^ (16 * j)).sum
  let place := (if live then 1 else 0) + e.lane * 2 + sub * 2 ^ 6
  let item := match held with
    | some h => h.index.toNat + (h.rung % 8 + h.casc.toNat / 64 * 64) * 2 ^ 32
    | none => 0
  head % 2 ^ 1152 + 2 ^ 1152 * rows + 2 ^ 1664 * hs + 2 ^ 1920 * s.recordNo T es e.cap.parent + 2 ^ 1936 * place + 2 ^ 1952 * item

/-- What a thread's record shows, as an entry would. -/
def Thread.asEntry (th : Thread) (t l : Nat) : Entry :=
  { cap := th.capture, resume := 0#8, owner := t, refs := 1, lane := l, spill := 0#64 }

/-- A convergence register in the layout of R28. -/
def Cv.image (c : Cv) : Nat :=
  c.mask.toNat + c.arr % 128 * 2 ^ 64 + (if c.phase then 2 ^ 72 else 0) + (if c.mism then 2 ^ 73 else 0) + (if c.gdeg then 2 ^ 74 else 0)

/-- A group's part of the header. ARRPC of a group that has no pending G-scope arrival is `free` (log entry 1). -/
def Group.pieces (G : Group) (g free : Nat) : List Piece :=
  let arrived := (lanesOf G.live).filter fun l => (G.thread l).arr == .group
  let pc := match arrived with | l :: _ => (G.thread l).pc.toNat | [] => free / 2 ^ (32 * g) % 2 ^ 32
  let flags := G.xhold.toNat + (if G.reserve then 8 else 0) + (if G.handler.isSome then 16 else 0)
  let o := 0x400 + 32 * g
  [(o, 16, fromWords [G.live.toNat, pc, (maskOf arrived).toNat, flags]),
   (o + 16, 16, fromWords [G.fltmask.toNat, G.fltpc.toNat, G.fltcode.toNat, G.fltdst.toNat])]

/-- The header (R369). -/
def State.headerPieces (s : State) (T : Team) (nent free : Nat) : List Piece :=
  [(0, 4, 0x5A54 + 2 ^ 16), (4, 4, T.lnum.toNat), (8, 3, T.index % 2 ^ 24), (0xC, 2, nent), (0x10, 8, s.gt % 2 ^ 64)] ++
    ((List.range 64).map fun j => (0x100 + 4 * j, 4, (T.kreg j).toNat)) ++
    ((List.range 16).map fun n => (0x200 + 16 * n, 16, (vget T.cvs n cvReset).image)) ++
    ((List.range 10).map fun n => (0x300 + 4 * n, 4, ((s.csr T T.s0 (BitVec.ofNat 8 n)).getD 0#32).toNat)) ++
    (T.numbered.map fun (g, G) => G.pieces g free).flatten

/-- The matrix section: slots, status words, records, tables. -/
def Mx.pieces (m : Mx) : List Piece :=
  ((List.range 4).map fun a => (List.range 96).map fun r =>
    (0x6A0000 + (a * 96 + r) * 1920, 1920,
      (List.range slotCols).foldr (fun c x => ((vget m.slots a accReset).cell r c).toNat + 2 ^ 40 * x) 0)).flatten ++
    ((List.range 4).map fun a => (0x754000 + 4 * a, 4, (vget m.slots a accReset).status.toNat)) ++
    ((List.range 16).map fun r => (0x754010 + 32 * r, 32, fromWords ((vget m.recs r (.replicate 8 0#32)).toList.map (·.toNat)))) ++
    ((List.range 4).map fun c => (0x754210 + 1024 * c, 1024,
      fromWords ((List.range 256).map fun j => (Sparse.get 0#32 (vget m.cbs c []) j).toNat)))

/-- The image of a team, piece by piece (R368). -/
def State.teamPieces (s : State) (T : Team) (free : Nat) : List Piece :=
  let es := s.teamEntries T
  let hw := T.hwCaps
  let rows := s.teamRows T
  s.headerPieces T (es.length + hw.length) free ++
    (T.numbered.map fun (g, G) => allLanes.map fun l =>
      (0x1000 + 256 * (32 * g + l), 256,
        s.recordImage T es G.sub ((G.thread l).asEntry T.id l) (G.thread l).live (G.thread l).held)).flatten ++
    (es.zipIdx.map fun ((k, e), n) => (0x81000 + 256 * n, 256, s.recordImage T es (k / 1024 % 4) e true none)) ++
    (hw.zipIdx.map fun ((sub, l, c), n) =>
      (0x81000 + 256 * (es.length + n), 256,
        s.recordImage T es sub { cap := c, resume := 0#8, owner := T.id, refs := 1, lane := l, spill := 0#64 } true none)) ++
    (rows.map fun (k, r) => (0x200000 + 32 * relRow T.core k, 32, fromWords (r.regs.toList.map (·.toNat)))) ++
    (rows.map fun (k, r) => (0x400000 + relRow T.core k, 1, r.poison.toNat)) ++
    ((List.range (T.basinLen / 16)).map fun j => (0x410000 + 16 * j, 16, s.bytes (basinKey T.core (T.basinBase + 16 * j)) 16)) ++
    [(0x590000, (T.basinLen / 16 + 7) / 8, bitsAt T.full)] ++
    (if s.isMtx T then
      ((List.range (Config.slipBytes / 16)).map fun j => (0x5A0000 + 16 * j, 16, s.bytes (slipKey T.core (16 * j)) 16)) ++
        (s.mxOf T.core).pieces
     else [])

/-- First key of a save slot (R358). -/
def Part.saveKey (p : Part) (slot : Nat) : Nat := physKey (p.fld 0xF28 48 2) (p.fld 0xF28 23 25 * 2 ^ 23 + 2 ^ 23 * slot)

/-- The save slot of a swapped-out team. -/
def Saved.slot? (v : Saved) : Option Nat :=
  match v.team.st with
  | .out n | .resuming n => some n
  | _ => none

/-- The lowest free save slot of a partition (R361). -/
def State.saveSlot (s : State) (p : Nat) : Option Nat :=
  let used := (s.saved.filter (·.team.part == p)).filterMap (·.slot?)
  (List.range (min 256 ((s.part p).fld 0xF30 0 9))).find? fun n => !used.contains n

/-! ## Swap-out (R367) -/

/-- Cells of a range of keys, by offset from its first. -/
def State.cellsIn (s : State) (k n : Nat) : List Host.Cell :=
  (s.mem.filter fun (a, _) => k ≤ a && a < k + n).map fun (a, b) => (a - k, b)

/-- Poisoned granules of a range, by offset. -/
def State.poisonOf (s : State) (slip : Bool) (k n : Nat) : List (Bool × Nat) :=
  (s.poison.filter fun a => k ≤ a && a < k + n).map fun a => (slip, a - k)

/-- A capture whose parent no longer exists names none. -/
def State.liveParent (s : State) (core : Nat) (h : Word) : Word :=
  let k := handleKey core h
  if h ≠ 0#32 ∧ (s.entry? k).isSome ∧ s.handle k = h then h else 0#32

/-- A queued instruction as it is kept: a paired MMA begins its wait afresh (R245). -/
def MxOp.rest (o : MxOp) : MxOp := { o with waited := 0, skipped := 0 }

/-- A team with all it holds, as it is saved. -/
def State.saveOf (s : State) (T : Team) (slot : Nat) (image : List Piece) : Saved :=
  let m := s.mxOf T.core
  let par (c : Capture) : Capture := { c with parent := s.liveParent T.core c.parent }
  let grp (G : Group) : Group :=
    { G with threads := G.threads.map (fun th => { th with parent := s.liveParent T.core th.parent, born := false }),
             handler := G.handler.map fun h => { h with caps := h.caps.map fun (l, c) => (l, par c) },
             active := false, gates := [] }
  { slot, team := { T with st := .out slot, shadows := [], groups := T.groups.map grp },
    rows := (s.teamRows T).map fun (k, r) => (relRow T.core k, r),
    entries := (s.teamEntries T).map fun (k, e) => (relEntry T.core k, { e with cap := par e.cap }),
    basin := s.cellsIn (basinKey T.core T.basinBase) T.basinLen,
    slip := if s.isMtx T then s.cellsIn (slipKey T.core 0) Config.slipBytes else [],
    mx := if s.isMtx T then
        some { m with latch := none, busy := [], pairAt := none, queue := (m.queue.filter (·.team == T.id)).map MxOp.rest }
      else none,
    poison := s.poisonOf false (basinKey T.core T.basinBase) T.basinLen ++
      (if s.isMtx T then s.poisonOf true (slipKey T.core 0) Config.slipBytes else []),
    image }

/-- A record put among those that wait, in the order in which they were raised (R360). -/
def insertFault (r : FaultRec) (l : List FaultRec) : List FaultRec :=
  l.takeWhile (fun x => x.time ≤ r.time) ++ r :: l.dropWhile fun x => x.time ≤ r.time

/-- The record of a swap-out joins those to be posted, with the save slot (R359, R361). -/
def State.report_ (s : State) (T : Team) (r : FaultRec) (slot : Option Nat) : State :=
  (s.modPart T.part fun p => { p with faults := insertFault { r with slot } p.faults }).post T.part

/-- The image is written and every resource of the team returns to its pool; where no save slot is free the team stays on its core
with its groups out of the active set (R361, R367). R361 says so of a system fault; a PREEMPT does the same, and its record of CLASS 10 shows
SLOT 0x1FF (DESIGN CHOICE, log entry 26). -/
def State.swapOut (s : State) (T : Team) (r : FaultRec) : State :=
  match s.saveSlot T.part with
  | none =>
    (s.modTeam T.id fun T => { T with st := .inPlace, groups := T.groups.map fun G => { G with active := false } }).report_ T r none
  | some slot =>
    let (free, s) := s.draw
    let image := s.teamPieces T free
    let v := s.saveOf T slot image
    let s := s.freeTeam T
    let k := (s.part T.part).saveKey slot
    let s := image.foldl (fun s (o, n, x) => s.setBytes (k + o) n x) s
    { s with saved := s.saved ++ [v] }.report_ T r (some slot)

/-- A trap completes its entry before the swap-out (R371). Where nothing is under way any more, one that still wants for rows of the team's own
budget will never find them, since no thread of the team runs: it is dropped, and its instruction raises again (DEDUCED, log entry 26). -/
def State.dropTraps (s : State) (T : Team) : State :=
  if !s.emptied T then s
  else
    T.numbered.foldl (fun s (g, G) =>
      match G.trap with
      | some r => match s.enterHandler (r.raise T.id g) with
        | .error .row => s.modGroup T.id g fun G => { G with trap := none }
        | _ => s
      | none => s) s

/-- SWAP_OUT has something to do: a rollback, or the image. -/
def State.swapReady (s : State) (T : Team) : Bool :=
  match T.st with
  | .stopping _ => s.allConfirmed T.id && (T.speculates || s.drained T)
  | _ => false

/-- SWAP_OUT (R364, R367): once every access of a team that is being stopped is confirmed, its groups roll back; once it has drained,
its image is written. -/
def execSwapOut (t : Nat) (s : State) : Out :=
  match s.team? t with
  | none => .next s
  | some T =>
    match T.st with
    | .stopping r =>
      if !s.allConfirmed t then .next s
      else if T.speculates then .next (s.rollbackAll t)
      else if s.drained T then .next (s.swapOut T r)
      else .next (s.dropTraps T)
    | _ => .next s

/-! ## Commands of the host (R358, R361) -/

/-- ACT, BUSY and STAT: ACT reads 00 when the command is done, and a RESUME alone is ever in progress. -/
def Part.setAct (p : Part) (busy : Bool) (stat : Nat) : Part :=
  p.setReg 0xF48 (BitVec.ofNat 64 ((if busy then 2 + 4 else 0) + stat % 16 * 8))

def Part.busy (p : Part) : Bool := p.fld 0xF48 2 1 == 1

/-- A team that a command may name: it has not ended. -/
def Team.named (T : Team) (p index : Nat) (lnum : Word) : Bool :=
  T.part == p && T.index == index && T.lnum == lnum && match T.st with | .ending _ => false | _ => true

/-- The team that a command names: of two, the one created earlier (R320). -/
def State.named? (s : State) (p index : Nat) (lnum : Word) : Option Team :=
  ((s.teams ++ s.saved.map (·.team)).filter (·.named p index lnum)).foldl (fun best T => match best with
    | some b => if T.id < b.id then some T else some b
    | none => some T) none

/-- A record of a team without a faulting group: GROUP, PC and DST are free (log entry 1). -/
def State.bareRecord (s : State) (T : Team) (code : BitVec 8) (cls : BitVec 2) : FaultRec × State :=
  let (n, s) := s.draw
  ({ code, cls, inh := false, cv := none, lnum := T.lnum, team := T.index, core := T.core, group := n % 64, slot := none,
     pc := BitVec.ofNat 32 (n / 2 ^ 6), lanes := 0#32, members := 0#64, pc2 := allOnes, dst := BitVec.ofNat 32 (n / 2 ^ 38),
     va := 0#64, time := s.gt, pages := [] }, s)

/-- A team goes on from where its threads stand; a data error of an atomic that was reported meanwhile is raised now (R185), and a
matrix instruction that failed is performed again (R244). -/
def State.goOn (s : State) (t : Nat) : State :=
  let s := s.modTeam t fun T => { T with st := .run }
  let s := match s.team? t with | some T => s.redo T | none => s
  match (s.team? t).map (·.late) with
  | some ((g, lanes, pc, va) :: rest) =>
    (s.modTeam t fun T => { T with late := rest }).systemFault { code := .dataerr, t, g, lanes, pc, va }
  | _ => s

/-- The team's record has not been posted (R360). -/
def State.unposted (s : State) (T : Team) : Bool :=
  (s.part T.part).faults.any fun r => r.lnum == T.lnum && r.team == T.index && r.cls != 0#2

/-- PREEMPT of the team named by the command register. It is accepted of every resident team that is not of a deterministic launch: one
that is on its way out goes on so, and one that was stopped in place is swapped out now (R361). -/
def State.preemptCmd (s : State) (p : Nat) : State :=
  let pt := s.part p
  let stat (s : State) (n : Nat) : State := s.modPart p (·.setAct false n)
  let index := pt.fld 0xF40 0 24
  let lnum := BitVec.ofNat 32 (pt.fld 0xF40 32 32)
  match s.named? p index lnum with
  | none => stat s 1
  | some T =>
    if s.isDet T then stat s 2
    else if !T.resident then stat s 3
    else
      let stop (s : State) : State :=
        let (r, s) := s.bareRecord T 0#8 2#2
        stat (s.modTeam T.id fun T => { T with st := .stopping r }) 0
      match T.st with
      | .run =>
        match T.numbered.find? fun (_, G) => (G.spec.map (·.runAhead)).getD false with
        | some (g, _) => stat (s.endRunAhead T.id g) 0
        | none => stop s
      | .inPlace => stop s
      | _ => stat s 0

/-- A team that waits to be resumed. -/
def State.resumeCmd (s : State) (p : Nat) : State :=
  let pt := s.part p
  let stat (n : Nat) : State := s.modPart p (·.setAct false n)
  let index := pt.fld 0xF40 0 24
  let lnum := BitVec.ofNat 32 (pt.fld 0xF40 32 32)
  let wait (s : State) (t : Nat) : State := s.modPart p fun pt => { pt.setAct true 0 with resuming := some t }
  match s.named? p index lnum with
  | none => stat 1
  | some T =>
    match T.st with
    | .inPlace =>
      if T.broken then stat 2
      else if s.unposted T then wait s T.id
      else (s.goOn T.id).modPart p (·.setAct false 0)
    | .out n =>
      if T.broken then stat 2
      else
        wait { s with saved := s.saved.map fun x => if x.team.id == T.id then { x with team := { x.team with st := .resuming n } } else x } T.id
    | _ => stat 3

/-- Items that the threads of a swapped-out team hold are lost (R219). -/
def State.loseItems (s : State) (T : Team) : State :=
  T.groups.foldl (fun s G => (lanesOf G.live).foldl (fun s l =>
    match (G.thread l).held with
    | some h => s.bumpCascade T h.casc 0x0C
    | none => s) s) s

/-- A swapped-out team ends; its save slot is free. What a round has staged is still committed (R344). -/
def State.endSaved (s : State) (v : Saved) : State :=
  let t := v.team.id
  let s := (s.dropQueued t).loseItems v.team
  let s : State := { s with
    flights := s.flights.map fun f => if f.team == t then { f with lanes := f.lanes.map fun a => { a with dst := none } } else f }
  if s.teamBusy t then
    { s with saved := s.saved.map fun x => if x.team.id == t then { x with team := { x.team with st := .ending true } } else x }
  else ({ s with saved := s.saved.filter fun x => x.team.id != t }.countEnd v.team true).depart v.team true

/-- A RESUME under way for the team is over. -/
def State.stopResume (s : State) (p t : Nat) : State :=
  s.modPart p fun pt => if pt.resuming = some t then { pt.setAct false 0 with resuming := none } else pt

/-- END of the team named by the command register. -/
def State.endCommand (s : State) (p : Nat) : State :=
  let pt := s.part p
  let index := pt.fld 0xF40 0 24
  let lnum := BitVec.ofNat 32 (pt.fld 0xF40 32 32)
  match s.named? p index lnum with
  | none => s.modPart p (·.setAct false 1)
  | some T =>
    let ended := match s.saved.find? (·.team.id == T.id) with
      | some v => s.endSaved v
      | none => s.stopTeam T
    (ended.stopResume p T.id).modPart p (·.setAct false 0)

/-- While a RESUME is under way only the END of its team is taken (R358, R371). -/
def State.endTaken (s : State) (p : Nat) : Bool :=
  let pt := s.part p
  let index := pt.fld 0xF40 0 24
  let lnum := BitVec.ofNat 32 (pt.fld 0xF40 32 32)
  !pt.busy || (s.saved.map (·.team) ++ s.teams).any fun (T : Team) => pt.resuming == some T.id && T.named p index lnum

/-- A command written to ACT (R358): 1 PREEMPT, 2 RESUME, 3 END. -/
def State.command (s : State) (p act : Nat) : State :=
  match act with
  | 1 => if (s.part p).busy then s else s.preemptCmd p
  | 2 => if (s.part p).busy then s else s.resumeCmd p
  | 3 => if s.endTaken p then s.endCommand p else s
  | _ => s

/-- PREEMPT (R361). -/
def execPreempt (p : Nat) (s : State) : Out := if 8 ≤ p then .next s else .next (s.command p 1)

/-- RESUME (R361, R370). -/
def execResume (p : Nat) (s : State) : Out := if 8 ≤ p then .next s else .next (s.command p 2)

/-- END (R361, R371). -/
def execEnd (p : Nat) (s : State) : Out := if 8 ≤ p then .next s else .next (s.command p 3)

/-! ## Placement of a resumed team (R370) -/

/-- A sub-core of the new core for one of the old. -/
def turnSub (old new sub : Nat) : Nat := (sub + new + Config.subs - old) % Config.subs

/-- Free handle-table entries and hardware entries of a core for a saved team. -/
def State.entriesFit (s : State) (v : Saved) (core s0 : Nat) : Bool :=
  (List.range Config.subs).all fun sub =>
    let here := turnSub v.team.s0 s0 sub
    let used := s.entries.countP fun (k, _) => k / 1024 == core * 4 + here
    let need := v.entries.countP fun (k, _) => k / 1024 == sub
    let hw := (v.team.groups.filter (·.sub == sub)).countP (·.handler.isSome)
    used + need ≤ Config.tableEntries && s.hwUsed core here + hw ≤ Config.hwEntries

/-- What a saved team asks of a core. -/
def State.footOf (s : State) (T : Team) : Foot :=
  { teamG := T.groups.length, resv := T.groups.countP (·.reserve), xblk := T.xblk, snrows := T.snaprows, basin := T.basinLen,
    mtx := s.isMtx T, fuse := ((s.launchOf T).map (·.r.fuse)).getD false, part := T.part, lnum := T.lnum }

/-- The places that a saved team fits: core, s0 and Basin base. -/
def State.resumeSpots (s : State) (v : Saved) : List (Nat × Nat × Nat) :=
  ((s.m.diesOf v.team.part).map fun d => (List.range Config.coresPerDie).map (d * Config.coresPerDie + ·)).flatten.filterMap fun core =>
    (List.range Config.subs).findSome? fun s0 =>
      if s.entriesFit v core s0 then (s.fitAt (s.footOf v.team) core s0).map fun b => (core, s0, b) else none

/-- The image in memory is what was written (R369). Bytes of the slot that no field describes are not compared: the spec does not say whether a
change of them ends the RESUME (DESIGN CHOICE, log entry 50). -/
def State.imageIntact (s : State) (v : Saved) : Bool :=
  match v.slot? with
  | none => false
  | some n =>
    let k := (s.part v.team.part).saveKey n
    v.image.all fun (o, len, x) => s.bytes (k + o) len == x % 2 ^ (8 * len) && !s.poisonedIn (k + o) len

/-- The saved rows put on a core: the new pool index of each. -/
def State.putRows (s : State) (core : Nat) (turn : Nat → Nat) : List (Nat × Row) → State × List (Nat × Nat)
  | [] => (s, [])
  | (k, r) :: rest =>
    let sub := turn (k / (32 * Config.bankRows))
    let lane := k / Config.bankRows % 32
    match s.freeRow? core sub lane with
    | none => State.putRows s core turn rest
    | some x =>
      let (s, l) := State.putRows (s.setRow (rowKey core sub lane x) r) core turn rest
      (s, (k, x) :: l)

/-- The entry slots taken on a core for saved entries: the new key of each. -/
def State.takeSlots (s : State) (core : Nat) (turn : Nat → Nat) : List (Nat × Entry) → State × List (Nat × Nat)
  | [] => (s, [])
  | (k, e) :: rest =>
    let sub := turn (k / 1024)
    match s.freeSlot? core sub with
    | none => State.takeSlots s core turn rest
    | some x =>
      let nk := entryKey core sub x
      let (s, l) := State.takeSlots (s.setEntry nk e) core turn rest
      (s, (k, nk) :: l)

/-- How a team's row pointers and handles read on its new core. -/
structure Remap where
  rows : List (Nat × Nat)
  slots : List (Nat × Nat)
  deriving DecidableEq, Repr

def Remap.row (m : Remap) (sub lane i : Nat) : Option Nat := m.rows.lookup ((sub * 32 + lane) * Config.bankRows + i)

def Remap.handle (m : Remap) (s : State) (h : Word) : Word :=
  if h = 0#32 then 0#32
  else match m.slots.lookup (h.toNat / 2 ^ 10 % 4 * 1024 + h.toNat % 2 ^ 10) with
    | some k => s.handle k
    | none => 0#32

def Remap.cap (m : Remap) (s : State) (sub lane : Nat) (c : Capture) : Capture :=
  { c with rows := c.rows.map (fun o => o.bind (m.row sub lane)), h := c.h.map (m.handle s), parent := m.handle s c.parent }

/-- A saved group on its new sub-core and slot. -/
def Remap.group (m : Remap) (s : State) (sub slot : Nat) (G : Group) : Group :=
  { G with
    sub, slot, active := false, pendSince := s.gt, readySince := 0, readyAt := [], passedBy := 0,
    threads := Vector.ofFn fun l =>
      let th := G.thread l.val
      { th with rows := th.rows.map (fun o => o.bind (m.row G.sub l.val)), h := th.h.map (m.handle s), parent := m.handle s th.parent,
                clkLatch := none, gtLatch := none,
                wait := match th.wait with | .object => .none | w => w },
    handler := G.handler.map fun h => { h with caps := h.caps.map fun (l, c) => (l, m.cap s G.sub l c) } }

/-- The landing places of what a round has staged for the team, on its new core. -/
def Flight.moved (f : Flight) (m : Remap) (old core : Nat) (turn : Nat → Nat) : Flight :=
  { f with lanes := f.lanes.map fun a =>
      { a with dst := a.dst.bind fun (k, pos) =>
          let rel := relRow old k
          (m.rows.lookup rel).map fun x => (rowKey core (turn (rel / (32 * Config.bankRows))) (rel / Config.bankRows % 32) x, pos) } }

/-- The core of a cluster's rank changed in the lists of its teams. -/
def State.moveRank (s : State) (T : Team) (core : Nat) : State :=
  let swap (x : Team) : Team :=
    if x.cid == T.cid then { x with cores := x.cores.set T.rank core } else x
  { s with teams := s.teams.map swap, saved := s.saved.map fun v => { v with team := swap v.team } }

/-- Cells put back from offsets. -/
def State.putCells (s : State) (k : Nat) (cs : List Host.Cell) : State := cs.foldl (fun s (o, b) => s.setByte (k + o) b) s

/-- A saved team put on a core (R370). Its threads hit no copy that the core's L1 held before (`Team.since`; R300; DEDUCED, log entry 7). -/
def State.restoreTeam (s : State) (v : Saved) (core s0 base : Nat) : State :=
  let T := v.team
  let turn := turnSub T.s0 s0
  let (s, rows) := s.putRows core turn v.rows
  let (s, slots) := s.takeSlots core turn v.entries
  let m : Remap := { rows, slots }
  let s := v.entries.foldl (fun s (k, e) =>
    match slots.lookup k with
    | some nk => s.setEntry nk { e with cap := m.cap s (k / 1024) e.lane e.cap }
    | none => s) s
  let subs := T.groups.map fun G => turn G.sub
  let places := subs.zip (s.slotsFor core subs [])
  let groups := (T.groups.zip places).map fun (G, sub, slot) => m.group s sub slot G
  let s := { s with
    saved := s.saved.filter fun x => x.team.id != T.id,
    teams := s.teams ++ [{ T with core, s0, basinBase := base, groups, st := .inPlace, since := s.gt }],
    flights := s.flights.map fun (f : Flight) => if f.team == T.id then f.moved m T.core core turn else f }
  let s := s.moveRank T core
  let s := (s.zero (basinKey core base) T.basinLen).putCells (basinKey core base) v.basin
  let s := match v.mx with
    | some x => ((s.zero (slipKey core 0) Config.slipBytes).putCells (slipKey core 0) v.slip).setMx core x
    | none => s
  let s := v.poison.foldl (fun s (slip, o) => s.markPoison (if slip then slipKey core o else basinKey core base + o)) s
  s.goOn T.id

/-- The team fault of a resumption from an image that has been changed (R369). -/
def State.badImage (s : State) (v : Saved) : State :=
  let (r, s) := s.bareRecord v.team 6#8 0#2
  (s.endSaved v).modPart v.team.part fun p => { p with faults := p.faults ++ [r] }

/-- The team that a partition's RESUME waits for can go on now. -/
def State.resumeReady (s : State) (p : Nat) : Bool :=
  match (s.part p).resuming with
  | none => false
  | some t =>
    match s.team? t, s.saved.find? (·.team.id == t) with
    | some T, _ => !s.unposted T
    | none, some v => !s.unposted v.team && (!s.imageIntact v || !(s.resumeSpots v).isEmpty)
    | none, none => true

/-- RESUME_PLACEMENT (R369, R370): the team goes on in place, or a core that fits it takes it; which core that is, of several, is
free (log entry 1). An image that has been changed ends the team. -/
def execResumePlacement (p : Nat) (s : State) : Out :=
  if 8 ≤ p ∨ !s.resumeReady p then .next s
  else
    match (s.part p).resuming with
    | none => .next s
    | some t =>
      match s.team? t, s.saved.find? (·.team.id == t) with
      | some T, _ => .next ((if T.st = .inPlace then s.goOn t else s).stopResume p t)
      | none, some v =>
        if !s.imageIntact v then .next (((s.badImage v).stopResume p t).post p)
        else
          match s.resumeSpots v with
          | [] => .next s
          | [(c, s0, b)] => .next ((s.restoreTeam v c s0 b).stopResume p t)
          | x :: xs =>
            let (n, s) := s.draw
            let (c, s0, b) := (x :: xs).getD (n % (xs.length + 1)) x
            .next ((s.restoreTeam v c s0 b).stopResume p t)
      | none, none => .next (s.stopResume p t)

end Sys2Proof.Machine
end

