-- ==== Sys2Proof/Machine/Det.lean ====
section
/-! DEFINITION. The commit of a deterministic round (R343 to R349). -/

namespace Sys2Proof.Machine

open Sys2Proof

/-- The teams of a launch that the commit knows: those on cores, those that the host has ended while they were out, and those that have
ended with accesses staged. -/
def State.teamsOf (s : State) (L : Launch) : List Team :=
  let mine (T : Team) : Bool := T.part == L.part && T.lnum == L.lnum
  s.teams.filter mine ++ ((s.saved.map (·.team)).filter fun T => mine T && match T.st with | .ending _ => true | _ => false) ++
    s.gone.filter mine

/-- The team has closed the round: its live threads have closed it or are blocked (R344). -/
def Team.closedRound (T : Team) : Bool :=
  match T.st with
  | .ending _ => true
  | .run => T.groups.all fun G => (lanesOf G.occupied).all fun l => (G.thread l).closed || T.blockedAt G l
  | _ => false

/-- Something of the round is to be committed, or a thread waits for its commit. -/
def State.roundOpen (s : State) (T : Team) : Bool :=
  (s.flights.any fun f => f.team == T.id && f.staged && f.lanes.any (·.todo)) || (s.cmds.any fun c => c.team == T.id && c.held) ||
    T.groups.any fun G => (lanesOf G.live).any fun l => (G.thread l).closed

/-- Every thread of every team of the launch has closed the round (R346); teams that await placement, or have been swapped out,
have not (R349). Its accesses that are not staged have been performed: no load of the round sees what its commit writes (R345). What a
commit under way has created has no part in it. -/
def State.roundClosed (s : State) (L : Launch) : Bool :=
  let mine (p : Nat) (n : Word) : Bool := p == L.part && n == L.lnum
  let ts := s.teamsOf L
  (L.det.any (·.commit) || (ts.all (·.closedRound) && ts.any s.roundOpen && !(s.pending.any fun x => mine x.part x.lnum))) &&
    !(s.saved.any fun v => mine v.team.part v.team.lnum && match v.team.st with | .ending _ => false | _ => true) &&
    s.flights.all fun f => (f.staged && f.confirmed) || f.object || !(ts.any fun T => T.id == f.team)

/-- What the commit performs next for a team. -/
inductive Entry_ where
  /-- A staged access: flight and lane. -/
  | access (id lane : Nat)
  /-- The word at which a thread waits for its turn. -/
  | turn (t g l : Nat)
  /-- A held engine command. -/
  | command (id : Nat)
  deriving DecidableEq, Repr

/-- The first access of a thread that is staged in the current round, in program order. -/
def State.stagedOf (s : State) (t g l : Nat) : Option Entry_ :=
  (s.flights.filter fun f => f.team == t && f.group == g && f.staged && f.later == 0 && f.lanes.any fun a => a.lane == l && a.todo).foldl
    (fun (best : Option Flight) f => match best with
      | some b => if f.id < b.id then some f else some b
      | none => some f) none |>.map fun f => .access f.id l

/-- What a team's threads have left for the commit, in ascending group and lane; a team that has ended has left its accesses. -/
def State.threadEntry (s : State) (T : Team) : Option Entry_ :=
  let groups := s.flights.foldl (fun n f => if f.team == T.id && f.staged then max n (f.group + 1) else n) T.groups.length
  (List.range groups).findSome? fun g => allLanes.findSome? fun l =>
    (s.stagedOf T.id g l).or (if (s.thread T.id g l).wait = .turn then some (.turn T.id g l) else none)

/-- A held command of the commit that has done what it does. -/
def Cmd.committed (c : Cmd) : Bool :=
  !c.held && (!c.late || c.err.isSome || (c.started && c.moves.isEmpty && match c.coll with | some x => x.stored | none => true))

/-- The first command of a team that the commit has still to perform. -/
def State.commandEntry (s : State) (t : Nat) : Option Entry_ :=
  (s.cmds.filter fun c => c.team == t && !c.committed).foldl
    (fun (best : Option Cmd) c => match best with
      | some b => if c.id < b.id then some c else some b
      | none => some c) none |>.map fun c => .command c.id

/-- Teams in ascending index. -/
def insertTeam : List Team → Team → List Team
  | [], T => [T]
  | U :: rest, T => if T.index < U.index then T :: U :: rest else U :: insertTeam rest T

/-- The next entry of a commit. -/
def State.nextEntry (s : State) (L : Launch) : Option (Team × Entry_) :=
  ((s.teamsOf L).foldl insertTeam []).findSome? fun T => ((s.threadEntry T).or (s.commandEntry T.id)).map fun e => (T, e)

/-- The instruction of a word performed at the team's turn (R344). -/
def turnNow (i : Instr) (s : State) : Out :=
  match i with
  | .spawn i p a off => s.spawnNow true i p a off
  | .qenq i p a off b => s.qenqNow true i p a off b
  | .qdeq i p d a off => s.qdeqNow true i p d a off
  | .csub i p d a off b => s.csubNow true i p d a off b
  | .esc i p a => s.escNow true i p a
  | .slcommit i p d a c => s.slcommitNow true i p d a c
  | .slqry i d a b set f => s.slqryNow true i d a b set f
  | .lnch i p d a off b => s.lnchNow true i p d a off b
  | _ => .next s

/-- The state that a meaning of this model answers. -/
def Out.state (o : Out) (s : State) : State := match o with | .next s' => s' | _ => s

/-- A hold of R211 or R214 that one lane of a SPAWN or QENQ has met holds every lane that executed the word with it, since their turns are
parts of one instruction: WDOG names them all. -/
def State.shareHold (s : State) (t g l : Nat) : State :=
  match s.group? t g with
  | none => s
  | some G =>
    let holds (w : Wait) : Bool := w.completed && w != .commit && w != .turn
    let peers := (lanesOf G.live).filter fun j =>
      (G.thread j).pc == (G.thread l).pc && ((G.thread j).wait == .commit || holds (G.thread j).wait)
    match peers.find? fun j => holds (G.thread j).wait with
    | none => s
    | some j => peers.foldl (fun s k => s.modThread t g k fun th => if th.wait == .commit then { th with wait := (G.thread j).wait } else th) s

/-- A thread's word performed at the turn; a thread that has passed it waits for the end of the commit. -/
def State.takeTurn (s : State) (T : Team) (g l : Nat) : State :=
  let pc := (s.thread T.id g l).pc
  let s := s.modThread T.id g l fun th => { th with wait := .none, closed := false }
  match T.group? g with
  | none => s
  | some G =>
    match s.wordAt T g G [l] pc with
    | .error _ => s
    | .ok w =>
      let s := { s with cur := { team := T.id, pc, members := [(g, maskOf [l])], arr := .no } }
      let s := (turnNow (instrOf w) s).state s
      let s := s.modThread T.id g l fun th =>
        if th.live && th.pc != pc then { th with closed := true, wait := if th.wait = .none then .commit else th.wait } else th
      match instrOf w with
      | .spawn .. | .qenq .. => s.shareHold T.id g l
      | _ => s

/-- A staged access performed at its home, or sent through the aperture (R346). -/
def State.commitAccess (s : State) (T : Team) (id l : Nat) : Option State :=
  match s.flight? id, (s.flight? id).bind (·.lane? l) with
  | some f, some a =>
    if (apertureOf a.ia).isSome then (if s.requested id l then none else some (s.sendLane T f a))
    else if s.lockedBy id a.ia f.size then none
    else some ((s.performLane T { f with lanes := [a] } a).modFlight id fun f => { f with hot := [] })
  | _, _ => none

/-- A held command carried one step further, whole where nothing keeps it (R348). -/
def State.commitCommand (s : State) (id : Nat) : Option State :=
  match s.cmd? id with
  | none => none
  | some c =>
    match s.team? c.team with
    | none => some (s.modCmd id fun c => { c with held := false, late := true, err := some (c.err.getD 8#7) })
    | some T =>
      -- a collective reads its table anew, as the commit has left it (R348)
      if c.held then some (s.modCmd id fun c =>
        { c with held := false, late := true, coll := c.coll.map fun x => { x with phase := 0, tab := [] } })
      else if s.startReady c then some (s.startCmd T c)
      else if c.started && c.moves.isEmpty && c.page.isNone && c.err.isNone && c.coll.any (·.phase < 2) then some (s.collPhase T c)
      else if c.moving then
        let s1 := s.moveSome T id c.moves.length
        let moved : Bool := match s1.cmd? id with
          | some d => d.moves.length < c.moves.length || d.err.isSome || d.page.isSome || d.moves.any fun m => m.req.isSome && !c.moves.contains m
          | none => true
        if moved then some s1 else none
      else none

/-- No access is half performed, so that a word may be performed at its turn (R178). -/
def State.turnFree (s : State) : Bool := s.flights.all (·.hot.isEmpty)

/-- Entries performed one after the other, as far as they go. -/
def State.commitOn (s : State) (p : Nat) (lnum : Word) : Nat → State
  | 0 => s
  | n + 1 =>
    match s.launch? p lnum with
    | none => s
    | some L =>
      if !(s.teamsOf L).all fun T => match T.st with | .run | .ending _ => true | _ => false then s
      else
        match s.nextEntry L with
        | none => s
        | some (T, e) =>
          let r := match e with
            | .access id l => s.commitAccess T id l
            | .turn _ g l => if s.turnFree then some (s.takeTurn T g l) else none
            | .command id => s.commitCommand id
          match r with
          | none => s
          | some s => State.commitOn s p lnum n

/-- Entries that a commit can have at most. -/
def State.commitFuel (s : State) (L : Launch) : Nat :=
  ((s.flights.map fun f => 2 * f.lanes.length).sum) + ((s.cmds.map fun c => 4 + c.moves.length).sum) +
    ((s.teamsOf L).map fun T => 32 * T.groups.length).sum + 1

/-- A thread as the next round begins: one that has more staged than a round takes has closed that too (R344). -/
def Thread.reopened (th : Thread) (gt : Nat) : Thread :=
  if !th.live then th
  else
    let staged := th.staged - stageMax
    let full := decide (stageMax < staged)
    { th with closed := full, staged, waited := 0, skipped := 0, acqTime := max th.acqTime gt,
              wait := match th.wait with | .commit => if full then .commit else .none | w => w }

/-- The threads of a round go on in the next, which begins with memory as it is now (R345, R346). -/
def State.nextRound (s : State) (L : Launch) : State :=
  let mine (t : Nat) : Bool := (s.teamsOf L).any fun T => T.id == t
  let s1 := { s with
    teams := s.teams.map fun (T : Team) =>
      if T.part == L.part && T.lnum == L.lnum then
        { T with groups := T.groups.map fun (G : Group) => { G with threads := G.threads.map fun (th : Thread) => th.reopened s.gt } }
      else T,
    flights := s.flights.map fun (f : Flight) => if f.staged && mine f.team then { f with later := f.later - 1 } else f }
  s1.modLaunch L.part L.lnum fun L =>
    { L with det := L.det.map fun d => { d with round := d.round + 1, opening := s.mem, openGt := s.gt, until_ := none, commit := false } }

/-- GT from which every write of the round is visible at device scope. -/
def State.roundWct (s : State) (L : Launch) : Nat :=
  (s.cmds.filter fun c => c.late && (s.teamsOf L).any fun T => T.id == c.team).foldl (fun m c => max m c.wct) L.wct

/-- The deterministic launch of a partition whose rounds are committed: the one admitted, but before it one that has ended with accesses
staged (R325, R346). -/
def State.detLaunch (s : State) (p : Nat) : Option (Launch × Det) :=
  (s.launches.find? fun L => L.part == p && L.r.det && match L.st with
    | .admitted => true
    | .finishing _ => (s.teamsOf L).any s.roundOpen
    | _ => false).bind fun L => L.det.map fun d => (L, d)

/-- ROUND_COMMIT has something to do. -/
def State.commitReady (s : State) (p : Nat) : Bool :=
  match s.detLaunch p with
  | none => false
  | some (L, d) =>
    match d.until_ with
    | some u => u ≤ s.gt
    | none => s.roundClosed L && match s.nextEntry L with
      | none => true
      | some (_, .access id l) => !((s.flight? id).bind (·.lane? l)).any (fun (a : LaneAcc) =>
          if (apertureOf a.ia).isSome then s.requested id l else s.lockedBy id a.ia (((s.flight? id).map (·.size)).getD 0))
      | some (_, .turn ..) => s.turnFree
      | some (_, .command id) => (s.commitCommand id).isSome

/-- ROUND_COMMIT (R346): the entries of the round in their order, as far as they go; at the end the commit waits until they are
visible, and the threads go on in the next round. -/
def execRoundCommit (p : Nat) (s : State) : Out :=
  match s.detLaunch p with
  | none => .next s
  | some (L, d) =>
    match d.until_ with
    | some u => if u ≤ s.gt then .next (s.nextRound L) else .next s
    | none =>
      if !s.roundClosed L then .next s
      else
        let s := s.modLaunch p L.lnum fun L => { L with det := L.det.map fun d => { d with commit := true } }
        let s := s.commitOn p L.lnum (s.commitFuel L)
        match s.launch? p L.lnum with
        | none => .next s
        | some L =>
          if (s.nextEntry L).isSome then .next s
          else
            let u := s.roundWct L
            if u ≤ s.gt then .next (s.nextRound L)
            else .next (s.modLaunch p L.lnum fun L => { L with det := L.det.map fun d => { d with until_ := some u } })

end Sys2Proof.Machine
end

