-- ==== Sys2Proof/Machine/Host.lean ====
section
/-! DEFINITION. The memory side as the host drives it: page-table entries (R289), the drop of translations (R290), migration
(R293 to R295), page-fault answers (R296), residency handles (R297, R298), sequence slots (R400), requests through landing windows
(R388, R389), and the registers of BAR0 (R385, R386). -/

namespace Sys2Proof.Machine

open Sys2Proof

/-! ## Page tables (R288, R289) -/

/-- Keys of the valid entries of a table: its first key and its bytes. -/
def State.validIn (s : State) (t : Nat × Nat) : List Nat :=
  (s.mem.filter fun (a, b) => t.1 ≤ a && a < t.1 + t.2 && (a - t.1) % 8 == 0 && b.getLsbD 0).map (·.1)

/-- The tables of `size` bytes that the pointers of some tables lead to. -/
def State.tablesBelow (s : State) (ts : List (Nat × Nat)) (size : Nat) : List (Nat × Nat) :=
  ((ts.map s.validIn).flatten.filterMap fun k => (ptePointer (s.bytes k 8) size).map fun (tier, a) => (physKey tier a, size)).eraseDups

/-- The part of a partition's root table that is consulted: the external aperture has no entries (R390). -/
def State.rootTable (s : State) (p : Nat) : List (Nat × Nat) :=
  let pt := s.part p
  [(physKey (pt.fld 0 48 2) (pt.fld 0 12 36 * 2 ^ 12), 8 * 0x1E0)]

/-- The tables of the third level, and of the fourth. -/
def State.tables3 (s : State) (p : Nat) : List (Nat × Nat) := s.tablesBelow (s.tablesBelow (s.rootTable p) 4096) 4096
def State.tables4 (s : State) (p : Nat) : List (Nat × Nat) := s.tablesBelow (s.tables3 p) 256

/-- Every table of a partition that a walk can reach. -/
def State.pageTables (s : State) (p : Nat) : List (Nat × Nat) :=
  s.rootTable p ++ s.tablesBelow (s.rootTable p) 4096 ++ s.tables3 p ++ s.tables4 p

/-- Keys of a partition's leaf entries. -/
def State.leaves (s : State) (p : Nat) : List Nat :=
  ((s.tables3 p ++ s.tables4 p).map s.validIn).flatten.filter fun k => pteLeaf (s.bytes k 8)

/-- The byte that a host write leaves: MIG and PIN of the entries of page tables are kept (R289). -/
def State.keepPte (s : State) (k : Nat) (b : Byte) : Byte :=
  if (List.range 8).any fun p => (s.pageTables p).any fun t => t.1 ≤ k && k < t.1 + t.2 then
    if k % 8 = 0 then (b &&& 0xFB#8) ||| (s.byte k &&& 4#8) else if k % 8 ≥ 6 then s.byte k else b
  else b

/-- The partition is there, and out of reset: its function answers (R384, R397). -/
def State.serving (s : State) (p : Nat) : Bool := p < 8 && s.m.present p && !s.m.resetting p

/-! ## Dropping translations (R290) -/

/-- The cached translation belongs to what is dropped: everything of the partition, or the page that holds a granule. -/
def dropsLeaf (p : Nat) (d : Option Nat) (x : Nat × Leaf) : Bool :=
  match d with
  | none => x.1 / 2 ^ 32 == p
  | some g => x.1 == g || (x.2.big && x.1 / 32 == g / 32)

def State.dropTlb (s : State) (p : Nat) (d : Option Nat) : State := { s with tlb := s.tlb.filter fun x => !dropsLeaf p d x }

/-- A drop is asked for; BUSY until the page units have completed it. -/
def Part.askDrop (pt : Part) (d : Option Nat) : Part := { pt.setFld 0x008 63 1 1 with drops := pt.drops ++ [d] }

/-- ALL (R290): every cached translation of the partition is to be dropped. -/
def execAll (p : Nat) (s : State) : Out :=
  if s.serving p then .next (s.modPart p fun pt => (pt.setFld 0x008 0 1 1).askDrop none) else .next s

/-- PAGE (R290): the cached translation of the page that holds an IA is to be dropped. -/
def execPage (p page : Nat) (s : State) : Out :=
  if s.serving p then
    .next (s.modPart p fun pt => ((pt.setFld 0x008 0 1 0).setFld 0x008 16 36 page).askDrop (some (page % 2 ^ 36)))
  else .next s

/-- TRANSLATION_DROP_DONE (R290): every page unit has completed the drops asked for. -/
def execTranslationDropDone (p : Nat) (s : State) : Out :=
  if p < 8 ∧ !(s.part p).drops.isEmpty then
    .next (((s.part p).drops.foldl (fun s d => s.dropTlb p d) s).modPart p fun pt => { pt.setFld 0x008 63 1 0 with drops := [] })
  else .next s

/-! ## Migration (R293 to R295) -/

/-- Bytes of a page. -/
def pageBytes (big : Bool) : Nat := if big then 2 ^ 21 else 2 ^ 16

/-- MQTAIL (R290, R293): descriptors appended. -/
def execMqtail (p : Nat) (v : Word) (s : State) : Out :=
  if s.serving p then .next (s.modPart p fun pt => pt.setFld 0x058 0 32 v.toNat) else .next s

/-- The queue of a partition has a descriptor that may be taken. -/
def State.migrateReady (s : State) (p : Nat) : Bool :=
  s.serving p && (s.part p).mig.isNone && (s.part p).fld 0x058 0 32 != (s.part p).fld 0x060 0 32

/-- The leaf of a page of one size in a partition's window. -/
def State.leafOf (s : State) (p page : Nat) (big : Bool) : Option Leaf :=
  if page / 2 ^ 32 = p ∧ (apertureOf (page * 2 ^ 16)).isNone then (s.walkTable (page * 2 ^ 16)).filter (·.big == big) else none

/-- A descriptor of 16 bytes: no reserved bit is set, and the page's leaf and the destination are as R294 asks. -/
def State.migOf (s : State) (p x : Nat) : Option Mig :=
  let big := bits x 0 1 == 1
  let page := bits x 16 36
  let dst := bits x (64 + 16) 32 * 2 ^ 16
  let tier := bits x (64 + 48) 2
  let plain := bits x 1 15 == 0 && bits x 52 12 == 0 && bits x 64 16 == 0 && bits x (64 + 50) 14 == 0 && (!big || page % 32 == 0)
  match s.leafOf p page big with
  | none => none
  | some l =>
    if plain && dst % pageBytes big == 0 && s.m.inRanges p tier dst (pageBytes big) && !(l.tier == tier && l.addr == dst) then
      some { big, page, leaf := l.entry, src := physKey l.tier l.addr, dst := physKey tier dst }
    else none

/-- Bit 2 of a leaf entry (R289). -/
def State.setMig (s : State) (leaf : Nat) (b : Bool) : State :=
  let e := s.bytes leaf 8
  s.setBytes leaf 8 (e - e / 4 % 2 * 4 + if b then 4 else 0)

/-- MIGRATE (R294): the page units take the next descriptor. A wrong one, or one of a pinned page, changes nothing but the queue. -/
def execMigrate (p : Nat) (s : State) : Out :=
  if !s.migrateReady p then .next s
  else
    let pt := s.part p
    let n := pt.fld 0x060 0 32
    let x := s.bytes (physKey 0 (pt.fld 0x048 4 44 * 16 + 16 * (n % 2 ^ pt.fld 0x050 0 5))) 16
    let s := s.modPart p fun pt => pt.setFld 0x060 0 32 ((n + 1) % 2 ^ 32)
    match s.migOf p x with
    | none => .next (s.notify p kindMigabort 0 4 (bits x 16 36 * 2 ^ 16))
    | some g =>
      if ptePin (s.bytes g.leaf 8) ≠ 0 then .next (s.notify p kindMigabort 0 3 (g.page * 2 ^ 16))
      else .next ((s.setMig g.leaf true).modPart p fun pt => { pt with mig := some g })

/-- The first line of a migration's source whose read is poisoned: its number in the page. Behind a CXL port that is down every read is
(R393). -/
def State.migPoison (s : State) (g : Mig) : Option Nat :=
  if s.cxlDown g.src then some 0
  else match s.poison.filter fun k => g.src ≤ k && k < g.src + pageBytes g.big with
  | [] => none
  | k :: _ => some ((k - g.src) / 128)

/-- The bytes and marks of a page copied to its destination: the lines are copied with the writes that reach memory meanwhile, so that
the destination holds what the source holds at the end (R294; log entry 21). -/
def State.copyPage (s : State) (g : Mig) : State :=
  let n := pageBytes g.big
  let from_ (k : Nat) : Bool := g.src ≤ k && k < g.src + n
  (s.mem.filter fun (k, _) => from_ k).foldl (fun s (k, b) => s.setByte (g.dst + (k - g.src)) b) (s.zero g.dst n)

/-- The bytes of a page at its new place among bytes noted by their keys. -/
def Mig.moved (g : Mig) (cells : List Host.Cell) : List Host.Cell :=
  let n := pageBytes g.big
  let in_ (lo k : Nat) : Bool := lo ≤ k && k < lo + n
  (cells.filter fun (k, _) => in_ g.src k).foldl (fun m (k, b) => Sparse.set unwritten m (g.dst + (k - g.src)) b)
    (cells.filter fun (k, _) => !in_ g.dst k)

/-- What a round's loads and reads see of a page goes with it (R345, R348). -/
def State.moveOpenings (s : State) (g : Mig) : State :=
  { s with launches := s.launches.map fun L => { L with det := L.det.map fun d => { d with opening := g.moved d.opening } },
           cmds := s.cmds.map fun c => { c with opening := c.opening.map g.moved } }

/-- A migration ends: MIG clears. -/
def State.endMig (s : State) (p : Nat) (g : Mig) : State :=
  (s.setMig g.leaf false).modPart p fun pt => { pt with mig := none }

/-- The leaf names its new place. -/
def State.remap (s : State) (g : Mig) : State :=
  let e := s.bytes g.leaf 8
  s.setBytes g.leaf 8 (bits e 0 3 + g.dst / 2 ^ 48 * 8 + bits e 5 3 * 2 ^ 5 + g.dst % 2 ^ 48 / 256 * 256 + bits e 48 16 * 2 ^ 48)

/-- MIGDONE (R294): every line has been copied, and none of the writes has failed. -/
def execMigdone (p : Nat) (s : State) : Out :=
  match (s.part p).mig with
  | none => .next s
  | some g =>
    if (s.migPoison g).isSome || s.cxlDown g.dst then .next s
    else .next ((((((s.copyPage g).moveOpenings g).remap g).dropTlb p (some g.page)).endMig p g).notify p kindMigdone 0 0 (g.page * 2 ^ 16))

/-- MIGABORT (R295): the copy meets a poisoned line, or (`none`) a write to the destination fails. -/
def execMigabort (p : Nat) (line : Option Nat) (s : State) : Out :=
  match (s.part p).mig with
  | none => .next s
  | some g =>
    match line with
    | none => .next ((s.endMig p g).notify p kindMigabort 0 2 (g.page * 2 ^ 16))
    | some n =>
      if s.migPoison g = some n then .next ((s.endMig p g).notify p kindMigabort 0 1 (g.page * 2 ^ 16 + 128 * n)) else .next s

/-! ## Page-fault answers (R296) -/

/-- The answer is taken: EACT reads 00, and no access waits for the page. -/
def Part.answered (pt : Part) (page : Nat) : Part :=
  { (pt.setFld 0x070 0 2 0).setFld 0x070 16 36 page with efaults := pt.efaults.filter (·.1 != page) }

/-- Every waiting access to a page walks again. -/
def State.retryPage (s : State) (p page : Nat) : State :=
  let s := s.modPart p (·.answered page)
  { s with cmds := s.cmds.map fun (c : Cmd) => if c.page = some page then { c with page := none } else c,
           launches := s.launches.map fun (L : Launch) => if L.page = some page then { L with page := none } else L }

/-- EACT_RETRY (R296). -/
def execEactRetry (p page : Nat) (s : State) : Out :=
  if s.serving p ∧ page / 2 ^ 32 = p then .next (s.retryPage p page) else .next s

/-- A launch whose access to a page fails: at dequeue it ends with READERR, at its end the completion is dropped (R323, R325). -/
def State.launchLost (s : State) (L : Launch) : State :=
  match L.st with
  | .sema => s.finish L .readErr
  | .reading =>
    -- the read that waits is the first not done; the engine goes on with the others (R323)
    let got := L.got ++ ((L.r.reads.find? fun va => (L.got.lookup va).isNone).map fun va => (va, none)).toList
    let L1 := { L with page := none, got }
    (s.modLaunch L.part L.lnum fun _ => L1).readOn L1
  | _ => s.modLaunch L.part L.lnum fun L => { L with page := none, noCmpl := true }

/-- Every waiting access to a page fails, commands with a code (R296). -/
def State.failPage (s : State) (page : Nat) (code : BitVec 7) : State :=
  let s := { s with cmds := s.cmds.map fun (c : Cmd) => if c.page = some page then c.stop code else c }
  (s.launches.filter fun L => L.page == some page).foldl State.launchLost s

/-- EACT_UNRESOLVABLE (R296): every waiting access to the page fails. -/
def execEactUnresolvable (p page : Nat) (s : State) : Out :=
  if s.serving p ∧ page / 2 ^ 32 = p then .next ((s.modPart p (·.answered page)).failPage page 2#7) else .next s

/-! ## Residency handles (R297, R298) -/

/-- The action that a handle asks for. -/
def Part.handleAct (pt : Part) (h : Nat) : Nat := if h < 64 ∧ pt.fld 0x068 0 1 = 1 then pt.fld (handleOff h) 3 2 else 0

/-- EVICT (R298): the lines of the range leave L2 and the last-level cache, those of a live Cistern lease excepted. The spec does not say whether
V gates ACT: an action written on a handle whose V is 0 is carried out (DESIGN CHOICE, log entry 68). -/
def execEvict (p h : Nat) (s : State) : Out :=
  if s.serving p ∧ (s.part p).handleAct h = 1 then
    let goes (line : Nat) : Bool := (s.part p).inHandle h line && !s.kept line
    let s := ((s.l2.map (·.line)).filter goes).foldl State.evictL2 s
    .next ({ s with llc := s.llc.filter fun x => !goes x.line }.modPart p fun pt => pt.setFld (handleOff h) 3 2 0)
  else .next s

/-- DEMOTE (R298): the lines of the range are set to the next-victim position. No value changes. -/
def execDemote (p h : Nat) (s : State) : Out :=
  if s.serving p ∧ (s.part p).handleAct h = 2 then
    let last (x : CLine) : CLine := if (s.part p).inHandle h x.line then { x with rrpv := 3 } else x
    .next ({ s with l2 := s.l2.map last, llc := s.llc.map last }.modPart p fun pt => pt.setFld (handleOff h) 3 2 0)
  else .next s

/-! ## Sequence slots through BAR0 (R400) -/

/-- One 32-bit write to a slot. -/
def Part.slotWord (pt : Part) (off : Nat) (v : Word) : Part :=
  let n := off / 16
  let f : SlotField := match off / 4 % 4 with | 0 => .ntok | 1 => .ctx | 2 => .commit | _ => .done
  pt.setSlot n ((pt.slot n).putField f v)

/-- A write of a word at a BAR0 offset of the slots; one of 1 or 2 bytes, or one that is not aligned, is ignored. -/
def Part.slotWrite (pt : Part) (off width : Nat) (v : Dword) : Part :=
  if off < 0x10000 ∨ 0x20000 ≤ off ∨ off % 4 ≠ 0 ∨ width ≠ 4 then pt else pt.slotWord (off - 0x10000) (v.setWidth 32)

/-- An input that follows at once on the one that acts now, in its place among the inputs; what comes between the two is free (log entry 1). -/
def State.followedBy (s : State) (i : Instr) : State :=
  let (n, s) := s.draw
  { s with agenda := (s.gt + n, i) :: s.agenda }

/-- SLOT_WRITE (R400): one of 8 bytes is two writes of a word, the lower first; each is indivisible, the pair is not. -/
def execSlotWrite (p off width : Nat) (v : Dword) (s : State) : Out :=
  if !s.serving p then .next s
  else if width = 8 ∧ off % 8 = 0 ∧ 0x10000 ≤ off ∧ off < 0x20000 then
    .next ((s.modPart p fun pt => pt.slotWrite off 4 v).followedBy (.slotWrite p (off + 4) 4 (v >>> 32)))
  else .next (s.modPart p fun pt => pt.slotWrite off width v)

/-! ## Landing windows (R388, R389) -/

/-- Offset of a landing window's registers. -/
def landOff (w : Nat) : Nat := 0x1000 + 32 * w

/-- First byte of a window in BAR2, and its bytes. -/
def Part.landBase (pt : Part) (w : Nat) : Nat := pt.fld (landOff w + 8) 16 24 * 2 ^ 16
def Part.landLen (pt : Part) (w : Nat) : Nat := pt.fld (landOff w + 0x10) 0 25 * 2 ^ 16

/-- The lowest window in use that holds a BAR2 offset. -/
def Part.landing (pt : Part) (off : Nat) : Option Nat :=
  (List.range 16).find? fun w => pt.fld (landOff w) 0 1 == 1 && pt.landBase w ≤ off && off < pt.landBase w + pt.landLen w

/-- The kinds of an inbound request, as bits of RWA. -/
inductive InKind where
  | read | write | atomic
  deriving DecidableEq, Repr

def InKind.bit : InKind → Nat
  | .read => 1 | .write => 2 | .atomic => 3

def InKind.need : InKind → Need
  | .read => needR | .write => needW | .atomic => needRW

/-- The bytes of a request: IA and key of each, or `none` when one of them fails. -/
def State.inBytes (s : State) (p ctx va : Nat) (need : Need) (len : Nat) : Option (List (Nat × Nat)) :=
  (List.range len).mapM fun j =>
    (s.translate p ctx (va + j) need).bind fun ia =>
      if (apertureOf ia).isSome || s.windowReset p ia then none else (s.iaKey ia).map fun k => (ia, k)

/-- What an inbound request finds: its bytes, or the failure with the window that it matched. -/
def State.inbound (s : State) (p off len : Nat) (kind : InKind) : Except (Option Nat) (List (Nat × Nat)) :=
  let pt := s.part p
  match pt.landing off with
  | none => .error none
  | some w =>
    if pt.landBase w + pt.landLen w < off + len || pt.fld (landOff w) kind.bit 1 != 1 then .error (some w)
    else
      match s.inBytes p (pt.fld (landOff w) 4 6) (pt.fld (landOff w + 0x18) 16 41 * 2 ^ 16 + (off - pt.landBase w)) kind.need len with
      | none => .error (some w)
      | some bs => .ok bs

/-- A failed request counts, and a failed posted write sets ERR of its window. -/
def Part.inFailed (pt : Part) (w : Option Nat) : Part :=
  (match w with | some w => pt.setFld (landOff w) 63 1 1 | none => pt).bump 0x1308

/-- Requests of a port reach the partition's function: a PCIe port that is up, or a link of the partition (R394). Port 2 + l is
link port l. -/
def State.reaches (s : State) (port p : Nat) : Bool :=
  s.serving p &&
    (if port < 2 then s.m.pcieOpen port
     else port < 18 && s.portUp (port - 2) && ownerIn s.m.linkpart (port - 2) == some p)

/-- The requester of an inbound request: a Requester ID on a PCIe port; a link port is one requester (R312, R394). -/
def requester (port req : Nat) : Nat × Nat := if port < 2 then (port, req) else (port, 0)

/-- Its number in the hotness counters (R291). -/
def hotRequester (port : Nat) : Nat := if port < 2 then 24 else 8 + (port - 2)

/-- The earlier posted writes of a requester have reached their WCTs (R312). -/
def State.inOrder (s : State) (port req : Nat) : Bool :=
  s.wrote.all fun (x, r, t) => (x, r) != requester port req || t ≤ s.gt

/-- The earlier posted writes of every requester have reached their WCTs: a register write of the host follows them (R312). -/
def State.allInOrder (s : State) : Bool := s.wrote.all fun (_, _, t) => t ≤ s.gt

/-- A posted write performed: its latest WCT. -/
def State.noteWrote (s : State) (port req t : Nat) : State :=
  let q := requester port req
  { s with wrote := (q.1, q.2, t) :: s.wrote.filter fun (x, r, _) => (x, r) != q }

/-- No flight holds a byte of the request for its lanes (R178). -/
def State.unlocked (s : State) (bs : List (Nat × Nat)) : Bool := bs.all fun (ia, _) => !s.locked ia 1

/-- The lines of the bytes of a request: IA and key of one byte of each. -/
def linesOf (bs : List (Nat × Nat)) : List (Nat × Nat) :=
  bs.foldl (fun (ls : List (Nat × Nat)) x => if ls.any fun y => y.1 / 128 == x.1 / 128 then ls else ls ++ [x]) []

/-- What an access of an outside requester leaves at the home of each line: the translation, the line in L2. -/
def State.inTouch (s : State) (port : Nat) (bs : List (Nat × Nat)) : State :=
  (linesOf bs).foldl (fun s (ia, k) => (s.cache ia).reach ia k (hotRequester port) anyPos) s

/-- The WCT of writes to the lines of a request (R284). -/
def State.inWct (s : State) (bs : List (Nat × Nat)) : Nat := (linesOf bs).foldl (fun t (ia, _) => max t (s.wctOf ia)) s.gt

/-- Bytes of a posted write performed at the home: a system-scope store, whose lines a poisoned TLP marks. -/
def State.inWrite (s : State) (port req p : Nat) (bs : List (Nat × Nat)) (data : List Byte) (ep : Bool) : State :=
  let t := s.inWct bs
  let s0 := s.inTouch port bs
  let cells := (bs.zip data).filter fun ((_, k), _) => !s0.cxlDown k
  let s := cells.foldl (fun s ((_, k), b) => s.setByte k (s0.keepPte k b)) s0
  let s := if cells.length < bs.length then s.modPart p (·.bump 0xF88) else s
  let s := if ep then (linesOf bs).foldl (fun s (_, k) => if s.cxlDown k then s else s.markPoison k) s else s
  s.noteWrote port req t

/-- INBOUND_POSTED_WRITE (R389) may be performed now. -/
def State.writeReady (s : State) (port req p off len : Nat) : Bool :=
  !s.reaches port p ||
    (s.inOrder port req && match s.inbound p off len .write with | .ok bs => s.unlocked bs | .error _ => true)

/-- INBOUND_POSTED_WRITE (R312, R389). -/
def execInboundPostedWrite (port req p off : Nat) (bytes : List Byte) (ep : Bool) (s : State) : Out :=
  if !s.reaches port p ∨ !s.writeReady port req p off bytes.length then .next s
  else
    match s.inbound p off bytes.length .write with
    | .error w => .next (s.modPart p (·.inFailed w))
    | .ok bs => .next (s.inWrite port req p bs bytes ep)

/-- A completion returned. -/
def State.reply (s : State) (port req : Nat) (data : Option (List Byte)) (ep : Bool) : State :=
  { s with replies := s.replies ++ [{ port, req, data, ep }] }

/-- A failed read or AtomicOp: Unsupported Request, counted where the partition's function answers (R389, R397). -/
def State.unsupported (s : State) (port req p : Nat) : State :=
  (if s.serving p then s.modPart p fun pt => pt.bump 0x1308 else s).reply port req none false

/-- The doubleword that a partition's BAR0 shows at an offset that is a multiple of 8 (R385): a sequence slot (R269), the MSI-X table and the pending
bits of the function on a port, or a register; an offset that names nothing reads 0. -/
def Part.bar0 (pt : Part) (port off : Nat) : Dword :=
  if 0x10000 ≤ off ∧ off < 0x20000 then
    let y := pt.slot ((off - 0x10000) / 16)
    if off % 16 = 0 then y.ctx ++ y.ntok else (if y.done then 1#32 else 0#32) ++ y.commit
  else if 0x20000 ≤ off ∧ off < 0x28000 then pt.reg (0x100000 * port + off)
  else if 0x28000 ≤ off ∧ off < 0x28100 then
    BitVec.ofNat 64 (bitsAt ((pt.msixPend.filter fun w => w / 2048 == port && w % 2048 / 64 == (off - 0x28000) / 8).map (· % 64)))
  else if off < 0x40000 then pt.reg off
  else 0#64

/-- A register of the module function below the mailbox (R395). -/
def Module.reg (m : Module) (off : Nat) : Dword :=
  match off with
  | 0x00 => m.diepart | 0x08 => m.linkpart | 0x10 => m.cxlpart | 0x18 => m.lpdq | 0x20 => m.hold.setWidth 64 | 0x28 => m.xacc
  | _ => 0#64

/-- A word of the mailbox, by its offset (R403); the other bits of 0x800 to 0x9FF are reserved and read 0. -/
def Module.mailWord (m : Module) (off : Nat) : Word :=
  match off with
  | 0x800 => m.mbcmd.setWidth 32
  | 0x804 => if m.mbdb then 1#32 else 0#32
  | 0x808 => m.mbstat.setWidth 32
  | 0x80C => BitVec.ofNat 32 m.stage
  | _ => if 0x900 ≤ off ∧ off < 0xA00 then Sparse.get 0#32 m.mbdata ((off - 0x900) / 4) else 0#32

/-- The doubleword that the module function's BAR0 shows. -/
def Module.bar0 (m : Module) (off : Nat) : Dword :=
  if off < 0x800 then m.reg off else m.mailWord (off + 4) ++ m.mailWord off

/-- The function answers reads of its BAR0 on the port: a partition's while it is out of reset (R397), the module function's from stage 4 on, its
mailbox from stage 3 on (R404, R406; DEDUCED, log entry 24). -/
def State.bar0Open (s : State) (port fn off : Nat) : Bool :=
  decide (port < 2 ∧ fn < 9) &&
    (if fn = 0 then (s.m.stage == 4 && s.m.pcieOpen port) || (s.m.stage == 3 && 0x800 ≤ off) else s.serving (fn - 1) && s.m.pcieOpen port)

/-- The bytes that a read of BAR0 returns: those of the doubleword that holds them; a read that is not naturally aligned, or of another width
than 1, 2, 4 or 8 bytes, returns 0 (R400 for the sequence slots; DEDUCED for the rest, log entry 34). -/
def State.bar0Bytes (s : State) (port fn off len : Nat) : List Byte :=
  let x := if fn = 0 then s.m.bar0 (off / 8 * 8) else (s.part (fn - 1)).bar0 port (off / 8 * 8)
  if len ∈ [1, 2, 4, 8] ∧ off % len = 0 then listOf len (x.toNat / 2 ^ (8 * (off % 8))) else List.replicate len 0#8

/-- A read of BAR0 (R385, R400, R403). One of a doubleword of a sequence slot is two reads of a word, the lower first, and each has an answer of
its own. -/
def State.bar0Read (s : State) (port req fn off len : Nat) : State :=
  if !s.bar0Open port fn off then s.reply port req none false
  else if len = 8 ∧ off % 8 = 0 ∧ 1 ≤ fn ∧ 0x10000 ≤ off ∧ off < 0x20000 then
    (s.reply port req (some (s.bar0Bytes port fn off 4)) false).followedBy (.inboundRead port req (.bar0 fn) (off + 4) 4)
  else s.reply port req (some (s.bar0Bytes port fn off len)) false

/-- A read of BAR2 (R389). -/
def State.bar2Read (s : State) (port req p off len : Nat) : Out :=
  if !s.reaches port p then .next (s.reply port req none false)
  else if !s.inOrder port req then .next s
  else
    match s.inbound p off len .read with
    | .error _ => .next (s.unsupported port req p)
    | .ok bs =>
      .next ((s.inTouch port bs).reply port req (some (bs.map fun (_, k) => s.byte k))
        (bs.any fun (_, k) => s.poisonedAt k || s.cxlDown k))

/-- INBOUND_READ (R312, R385, R389): performed once the requester's earlier posted writes have passed their WCTs. -/
def execInboundRead (port req : Nat) (bar : PciBar) (off len : Nat) (s : State) : Out :=
  match bar with
  | .bar2 p => s.bar2Read port req p off len
  | .bar0 fn => if s.inOrder port req then .next (s.bar0Read port req fn off len) else .next s

/-- What an AtomicOp stores (R387). -/
def aopNew (kind : AOpKind) (n old a b : Nat) : Nat :=
  match kind with
  | .fetchAdd => (old + a) % 2 ^ (8 * n)
  | .swap => a % 2 ^ (8 * n)
  | .cas => if old = a % 2 ^ (8 * n) then b % 2 ^ (8 * n) else old

/-- INBOUND_ATOMICOP (R389) may be performed now. -/
def State.aopReady (s : State) (port req p off n : Nat) : Bool :=
  s.inOrder port req && match s.inbound p off n .atomic with | .ok bs => s.unlocked bs | .error _ => true

/-- INBOUND_ATOMICOP (R387, R389, R305): performed indivisibly at the home slice; on a poisoned line nothing is performed, as for
an atomic of the device (R185; DEDUCED, log entry 22). PCIe aligns an AtomicOp to its size; one that is not fails (PRESUMED). -/
def execInboundAtomicop (port req p off : Nat) (wide : Bool) (kind : AOpKind) (a b : Dword) (s : State) : Out :=
  let n := if wide then 8 else 4
  if !s.reaches port p then .next (s.reply port req none false)
  else if !s.aopReady port req p off n then .next s
  else
    match s.inbound p off n .atomic with
    | .error _ => .next (s.unsupported port req p)
    | .ok bs =>
      match bs with
      | [] => .next s
      | (_, k) :: _ =>
        if off % n ≠ 0 then .next (s.unsupported port req p)
        else
          let (old, poison) := s.readKey k n
          let s := s.inTouch port bs
          if poison then .next (s.reply port req (some (listOf n old)) true)
          else
            let s := (numbered n (aopNew kind n old a.toNat b.toNat)).foldl (fun s1 (j, x) => s1.setByte (k + j) (s.keepPte (k + j) x)) s
            .next (s.reply port req (some (listOf n old)) false)

/-! ## Registers of BAR0 (R385, R386) -/

/-- The fields that a host write of a doubleword replaces: lowest bit and width. Offsets with a behaviour of their own are not
here. -/
def rwFields (off : Nat) : List (Nat × Nat) :=
  if off % 8 ≠ 0 then []
  else if off < 0x80 then
    match off with
    | 0x00 => [(12, 36), (48, 2)]
    | 0x10 => [(6, 42), (48, 2)]
    | 0x18 => [(0, 16), (16, 1)]
    | 0x20 => [(6, 42)]
    | 0x28 => [(0, 5)]
    | 0x30 => [(0, 32)]
    | 0x48 => [(4, 44)]
    | 0x50 => [(0, 5)]
    | 0x68 => [(0, 1)]
    | _ => []
  else if off < 0x480 then (if off % 16 = 0 then [(0, 1), (1, 2), (7, 45)] else [(7, 45)])
  else if 0x800 ≤ off ∧ off < 0xA00 then
    match off % 32 with
    | 0 => [(7, 41), (48, 2)]
    | 8 => [(0, 4), (4, 1), (5, 1)]
    | _ => []
  else if off = 0xA00 then [(12, 36), (48, 2)]
  else if off = 0xA08 then [(0, 32)]
  else if 0xB00 ≤ off ∧ off < 0xF00 then (if off % 16 = 0 then [(5, 43), (48, 2)] else [(0, 9)])
  else if 0xF00 ≤ off ∧ off < 0x1000 then
    match off - 0xF00 with
    | 0x00 => [(7, 41), (48, 2)]
    | 0x08 => [(0, 4)]
    | 0x28 => [(23, 25), (48, 2)]
    | 0x30 => [(0, 9)]
    | 0x40 => [(0, 24), (32, 32)]
    | 0x80 | 0x88 | 0x90 | 0x98 => [(0, 32)]
    | _ => []
  else if 0x1000 ≤ off ∧ off < 0x1200 then
    match off % 32 with
    | 0 => [(0, 1), (1, 3), (4, 6)]
    | 8 => [(16, 24)]
    | 16 => [(0, 25)]
    | _ => [(16, 41)]
  else if 0x1200 ≤ off ∧ off < 0x1300 then (if off % 16 = 0 then [(0, 1), (1, 2), (3, 4)] else [(40, 24)])
  else if off = 0x1300 then [(0, 11), (16, 1)]
  else if off = 0x1308 ∨ off = 0x1310 then [(0, 32)]
  else if 0x8000 ≤ off ∧ off < 0x10000 then
    match off % 32 with
    | 0 | 8 => [(16, 41)]
    | 16 => [(16, 36)]
    | _ => [(0, 4)]
  else if 0x20000 ≤ off % 0x100000 ∧ off % 0x100000 < 0x28000 then (if off % 16 = 0 then [(0, 64)] else [(0, 32), (32, 1)])
  else []

/-- The value places every field of the register in the range that its table gives (R386). -/
def regValid (off v : Nat) : Bool :=
  let tier := bits v 48 2 < 2
  let within (w lo hi : Nat) : Bool := lo ≤ bits v 0 w && bits v 0 w ≤ hi
  if off = 0x00 ∨ off = 0x10 ∨ off = 0xA00 ∨ off = 0xF00 ∨ off = 0xF28 then tier
  else if off = 0x18 then within 16 1 0xFFFF
  else if off = 0x28 ∨ off = 0x50 then within 5 4 16
  else if 0x80 ≤ off ∧ off < 0x480 then off % 16 ≠ 0 || bits v 3 2 != 3
  else if 0x800 ≤ off ∧ off < 0xA00 then (if off % 32 = 0 then tier else off % 32 ≠ 8 || within 4 1 10)
  else if 0xB00 ≤ off ∧ off < 0xF00 then (if off % 16 = 0 then tier else within 9 0 256)
  else if off = 0xF08 then within 4 4 12
  else if off = 0xF30 then within 9 0 256
  else if 0x1200 ≤ off ∧ off < 0x1300 then off % 16 ≠ 0 || bits v 1 2 != 3
  else true

/-- The fields of a register replaced. -/
def Part.putFields (pt : Part) (off v : Nat) : Part :=
  (rwFields off).foldl (fun pt (lo, w) => pt.setFld off lo w (bits v lo w)) pt

/-- A deterministic launch of the partition is in flight (R340). -/
def State.detInFlight (s : State) (p : Nat) : Bool := (s.inFlight p).any (·.r.det)

/-- A host write of a doubleword to a register without behaviour of its own. -/
def State.plainWrite (s : State) (p off v : Nat) : State :=
  if !regValid off v || (decide (0xA00 ≤ off ∧ off < 0xF00) && s.detInFlight p) then s
  else
    let s := s.modPart p fun pt => pt.putFields off v
    if 0xF80 ≤ off ∧ off ≤ 0xF98 then s.modPart p fun pt => { pt with pinned := insertNat pt.pinned off }
    else if 0x80 ≤ off ∧ off < 0x480 ∧ off % 16 = 0 then
      if (s.part p).fld 0x68 0 1 = 1 then s.modPart p fun pt => pt.setFld off 3 2 (bits v 3 2) else s
    else if off = 0x68 ∧ bits v 0 1 = 0 then
      s.modPart p fun pt => (List.range 64).foldl (fun pt h => pt.setFld (handleOff h) 3 2 0) pt
    else if 0x1000 ≤ off ∧ off < 0x1200 ∧ off % 32 = 0 ∧ bits v 63 1 = 1 then s.modPart p fun pt => pt.setFld off 63 1 0
    else if 0x20000 ≤ off then s.flushMsix p
    else s

end Sys2Proof.Machine
end

