-- ==== Sys2Proof/Machine/Module.lean ====
section
/-! DEFINITION. The module: links and ports (R387, R393, R394), partitions and their reset (R395 to R398), the mailbox (R403, R404),
power and ageing (R401, R402, R405), bring-up and freeze (R406, R407), errors that strike (R375 to R380), and host writes to
registers (R385, R386). -/

namespace Sys2Proof.Machine

open Sys2Proof

/-! ## Links and ports (R387, R393, R394) -/

def linkDefault : Link := { st := .down, recov := 0#16, time := 0 }

def State.modModule (s : State) (f : Module → Module) : State := { s with m := f s.m }

/-- A link port in a new state; a recovery that begins is counted (R395). -/
def Link.enter (l : Link) (st : LinkSt) : Link :=
  { st, time := 0, recov := if st = .recovery ∧ l.st ≠ .recovery ∧ l.recov ≠ 0xFFFF#16 then l.recov + 1#16 else l.recov }

/-- Requests outstanding on a port that goes down end in error, and a collective that names it ends with PEERFAIL (R394). -/
def State.portLost (s : State) (port : Nat) : State :=
  let s := s.failOut fun r => r.path == 2 && r.link == port
  { s with cmds := s.cmds.map fun (c : Cmd) => match c.coll with
      | some x => if c.err.isNone && !x.stored && x.peers.any (·.port == port) then c.stop 7#7 else c
      | none => c }

/-- A Dexgal Link port changes state. -/
def State.linkTo (s : State) (port : Nat) (st : LinkSt) : State :=
  let s := s.modModule fun m => { m with links := vset m.links port ((vget m.links port linkDefault).enter st) }
  if st = .down then s.portLost port else s

/-- LINK_STATE (R394). -/
def execLinkState (port : Nat) (st : LinkSt) (s : State) : Out := if port < 16 then .next (s.linkTo port st) else .next s

/-- The port has been in recovery as long as it may. -/
def State.recoveryOver (s : State) (port : Nat) : Bool :=
  let l := vget s.m.links port linkDefault
  port < 16 && l.st == .recovery && Config.recoveryMax ≤ l.time

/-- RECOVERY_LIMIT (R394): the port goes down. -/
def execRecoveryLimit (port : Nat) (s : State) : Out := if s.recoveryOver port then .next (s.linkTo port .down) else .next s

/-- CXL_PORT_DOWN (R393). -/
def execCxlPortDown (port : Nat) (s : State) : Out :=
  .next (s.modModule fun m => { m with cxlUp := vset m.cxlUp port false })

/-- PCIE_LINK_STATE (R387): a port trains, is up, or is in recovery, as when it falls back; or it goes down, and the requests outstanding on it
end in error (R391). -/
def execPcieLinkState (port : Nat) (st : LinkSt) (s : State) : Out :=
  let s := s.modModule fun m => { m with pcie := vset m.pcie port st }
  .next (if s.m.pcieOpen port then s else s.failOut fun r => r.path != 2 && r.path == port)

/-- BUS_MASTER_ENABLE (R387): set, pending MSI-X messages go out. -/
def execBusMasterEnable (p port : Nat) (en : Bool) (s : State) : Out :=
  if p < 8 then .next ((s.modPart p fun pt => { pt with bme := pt.bme.set port en }).flushMsix p) else .next s

/-- VECTOR_UNMASK (R392): a held message is sent. Vector v of the twin on port 1 is 2048 + v. -/
def execVectorUnmask (p w : Nat) (s : State) : Out :=
  if s.serving p ∧ w < 4096 then .next ((s.modPart p fun pt => pt.setFld (msixOff w + 8) 32 1 0).flushMsix p) else .next s

/-! ## Ownership (R395) -/

/-- An owner that must be held for its resources to move: none where the resource has no owner. -/
def Module.heldOwner (m : Module) (o : Option Nat) : Bool := match o with | none => true | some p => m.hold.getLsbD p

/-- The owners of a number of resources may change from one assignment to another. -/
def Module.mayMove (m : Module) (n : Nat) (old new : Nat → Option Nat) : Bool :=
  (List.range n).all fun i => old i == new i || (m.heldOwner (old i) && m.heldOwner (new i))

/-- The partition that has a unit of LPDDR6: units are handed out in partition order (log entry 12). -/
def unitOwner (q : Dword) (u : Nat) : Option Nat :=
  (List.range 8).find? fun p =>
    let upto (n : Nat) : Nat := ((List.range n).map fun k => q.toNat / 2 ^ (8 * k) % 128).sum
    upto p ≤ u && u < upto (p + 1)

/-- DIEPART, LINKPART, CXLPART or LPDQ written, or ignored. -/
def State.assign (s : State) (reg : Nat) (v : Dword) : State :=
  let m := s.m
  match reg with
  | 0x00 =>
    let v := v &&& 0xFFFFFFFF#64
    if m.mayMove 8 (ownerIn m.diepart) (ownerIn v) then { s with m := { m with diepart := v } } else s
  | 0x08 => if m.mayMove 16 (ownerIn m.linkpart) (ownerIn v) then { s with m := { m with linkpart := v } } else s
  | 0x10 =>
    let v := v &&& 0xFFFF#64
    if m.mayMove 4 (ownerIn m.cxlpart) (ownerIn v) then { s with m := { m with cxlpart := v } } else s
  | 0x18 =>
    let v := v &&& 0x7F7F7F7F7F7F7F7F#64
    let units := ((List.range 8).map fun k => v.toNat / 2 ^ (8 * k) % 128).sum
    if units ≤ 64 && m.mayMove 64 (unitOwner m.lpdq) (unitOwner v) then { s with m := { m with lpdq := v } } else s
  | _ => s

/-- DIEPART (R395): a write to DIEPART (offset 0x00), LINKPART (0x08), CXLPART (0x10) or LPDQ (0x18). -/
def execDiepart (reg : Nat) (v : Dword) (s : State) : Out := .next (s.assign reg v)

/-! ## Partition reset (R397, R398) -/

/-- The core lies on a die of the partition. -/
def Module.owns (m : Module) (p core : Nat) : Bool := m.partOfCore core == some p

/-- What the cores of a partition hold is gone: Kiln, handle tables, matrix state, caches, counters. -/
def State.clearCores (s : State) (p : Nat) : State :=
  let keep (core : Nat) : Bool := !s.m.owns p core
  { s with
    kiln := s.kiln.filter fun (k, _) => keep (k / (4 * 32 * Config.bankRows)),
    entries := s.entries.filter fun (k, _) => keep (k / 4096), gens := s.gens.filter fun (k, _) => keep (k / 4096),
    mx := s.mx.filter fun (c, _) => keep c, l1 := s.l1.filter fun c => if c.holder < Config.cores then keep c.holder else !(s.teams.any fun T => T.cid == (c.holder - Config.cores) / 128 && s.m.owns p T.core),
    icache := s.icache.filter fun c => keep c.core, loops := s.loops.filter fun c => keep c.core,
    lbinv := s.lbinv.filter fun (k, _) => keep (k / 4), tokens := s.tokens.filter fun (d, _) => keep (d * Config.coresPerDie) }

/-- Teams, launches and work in flight of a partition are gone, without records or completions. -/
def State.clearWork (s : State) (p : Nat) : State :=
  let mine (t : Nat) : Bool := (s.teams ++ s.saved.map (·.team) ++ s.gone).any fun (T : Team) => T.id == t && T.part == p
  { s with
    flights := s.flights.filter fun f => !mine f.team, cmds := s.cmds.filter fun c => !mine c.team,
    teams := s.teams.filter (·.part != p), saved := s.saved.filter (·.team.part != p),
    launches := s.launches.filter (·.part != p), pending := s.pending.filter (·.part != p),
    packers := s.packers.filter (·.part != p), gone := s.gone.filter (·.part != p), outbox := s.outbox.filter (·.part != p),
    pwrtok := s.pwrtok.filter fun (c, _) => !((s.teams ++ s.saved.map (·.team)).any fun (T : Team) => T.cid == c && T.part == p) }

/-- Pins clear, and with them a migration (R268). -/
def State.clearPins (s : State) (p : Nat) : State :=
  (s.leaves p).foldl (fun s k => let e := s.bytes k 8; s.setBytes k 8 (e % 2 ^ 48 - e / 4 % 2 * 4)) s

/-- The lines of a partition's window leave L2 and the last-level cache (R397). -/
def State.clearLines (s : State) (p : Nat) : State :=
  let mine (x : CLine) : Bool := x.line / 2 ^ 41 == p
  let s := ((s.l2.filter mine).map (·.line)).foldl State.evictL2 s
  { s with llc := s.llc.filter fun x => !mine x }

/-- What other partitions have outstanding at the window settles in error (R398): waits for its pages, and requests through its
apertures. Accesses settle at their turn, which comes before INRST clears. -/
def State.failWindow (s : State) (p : Nat) : State :=
  let pages := ((s.part p).efaults.map (·.1)) ++ (s.cmds.filterMap (·.page)) ++ (s.launches.filterMap (·.page))
  let s := (pages.filter fun g => g / 2 ^ 32 == p).foldl (fun s g => s.failPage g 8#7) s
  s.failOut fun r => r.win == p

/-- A partition enters reset (R397). Bus Master Enable lies in configuration space, which is kept. -/
def State.resetPart (s : State) (p : Nat) : State :=
  let s := ((((s.clearWork p).clearCores p).clearPins p).clearLines p).failWindow p
  let s := (s.dropTlb p none).modPart p fun pt => { partReset with bme := pt.bme }
  s.modModule fun m => { m with inrst := setBit m.inrst p true }

/-- HOLD written: partitions whose bit rises enter reset; those whose bit falls leave it at INRST_CLEAR. -/
def State.writeHold (s : State) (v : BitVec 8) : State :=
  let rising := (List.range 8).filter fun p => v.getLsbD p && !s.m.hold.getLsbD p
  (rising.foldl State.resetPart s).modModule fun m => { m with hold := v }

/-- HOLD (R395, R397). -/
def execHold (v : BitVec 8) (s : State) : Out := .next (s.writeHold v)

/-- Another partition's access to the window has still to settle (R398). -/
def State.unsettled (s : State) (p : Nat) : Bool :=
  s.flights.any fun f => f.remote && !f.staged && s.partOf f != p && f.lanes.any fun a => a.todo && a.ia / 2 ^ 48 == p

/-- A partition may leave reset. -/
def State.inrstReady (s : State) (p : Nat) : Bool :=
  p < 8 && s.m.inrst.getLsbD p && !s.m.hold.getLsbD p && !s.unsettled p

/-- CXL ports of a partition are enumerated at its release (R393). -/
def State.enumerate (s : State) (p : Nat) : State :=
  s.modModule fun m =>
    { m with cxlUp := (List.range 4).foldl (fun v x => if ownerIn m.cxlpart x == some p then vset v x true else v) m.cxlUp }

/-- A command of another partition still has an access to the window before it (R398). -/
def State.aimsAt (s : State) (p : Nat) (c : Cmd) : Bool :=
  match s.owner? c.team with
  | none => false
  | some T =>
    let into (x : Loc) : Bool := match x with
      | .va a => match s.translate T.part (s.ctxOf T) a { r := false, w := false, x := false } with
        | some ia => ia / 2 ^ 48 == p && (apertureOf ia).isNone
        | none => false
      | _ => false
    T.part != p && c.started && c.moves.any fun m => into m.dst || (match m.src with | .inl x => into x | .inr _ => false)

/-- The commands of other partitions whose accesses to the window had not been performed before its reset end ABORTED (R398). -/
def State.abortInto (s : State) (p : Nat) : State :=
  { s with cmds := s.cmds.map fun c => if s.aimsAt p c then c.stop 8#7 else c }

/-- INRST_CLEAR (R397). -/
def execInrstClear (p : Nat) (s : State) : Out :=
  if s.inrstReady p then
    let s := s.abortInto p
    let s := { s with clock0 := Sparse.set 0 s.clock0 p s.gt }
    .next ((s.enumerate p).modModule fun m => { m with inrst := setBit m.inrst p false })
  else .next s

/-! ## The mailbox (R403, R404) -/

/-- A word of MBDATA by its byte offset. -/
def Module.mbWord (m : Module) (off : Nat) : Word := Sparse.get 0#32 m.mbdata (off / 4)

/-- The controller has finished: MBSTAT, the reply where there is one, MBDB. -/
def State.mbDone (s : State) (stat : Byte) (reply : Option (List Word)) : State :=
  s.modModule fun m =>
    { m with mbstat := stat, mbdb := false,
             mbdata := match reply with
               | none => m.mbdata
               | some ws => ws.zipIdx.foldl (fun d (w, j) => Sparse.set 0#32 d j w) [] }

/-- The posted command has this code. -/
def Module.posted (m : Module) (code : Nat) : Bool := m.mbdb && m.mbcmd.toNat == code

/-- A command other than GETLIMITS carried out, or answered busy before stage 4 (R404). -/
def State.mbRun (s : State) (code : Nat) (run : State → State) : Out :=
  if !s.m.posted code then .next s else if s.m.stage < 4 then .next (s.mbDone 3#8 none) else .next (run s)

/-- GETLIMITS (R404). -/
def execGetlimits (s : State) : Out :=
  if s.m.posted 1 then
    .next (s.mbDone 0#8 (some ([Config.firmwareVersion, Config.fusedCeiling, Config.fusedTrip, Config.fusedVoltage] ++
      (List.range 8).map Config.fusedDieCeiling)))
  else .next s

/-- A measured word: free up to a bound (log entry 1). -/
def State.measure (s : State) (bound : Word) : Word × State :=
  let (x, s) := s.draw
  (BitVec.ofNat 32 (min (x % 2 ^ 32) bound.toNat), s)

/-- A sensor of each die read: none is past the trip while the module runs (R402). -/
def State.readHeat (s : State) : State :=
  (List.range 8).foldl (fun s d =>
    let (x, s) := s.measure Config.fusedTrip
    s.modModule fun m => { m with dies := vset m.dies d { vget m.dies d dieDefault with heat := x } }) s

/-- A power cap in force: what is measured over 1 ms is under it once it has stood that long (R404), and under the fused ceiling always (R402). -/
def State.powerBound (s : State) (cap fused : Word) : Word :=
  if cap ≠ 0#32 ∧ s.m.capTime + Config.powerWindow ≤ s.gt then cap else fused

/-- A die at or above the warning temperature (R404). -/
def Module.warm (m : Module) (d : Nat) : Bool := m.warn != 0#32 && decide (m.warn.toNat ≤ (vget m.dies d dieDefault).heat.toNat)

/-- The words of a die in the reply of GETTELEM: power, hottest sensor, supply voltage, issue share. -/
def State.dieWords (s : State) (d : Nat) : List Word × State :=
  let x := vget s.m.dies d dieDefault
  let (power, s) := s.measure (s.powerBound x.cap (Config.fusedDieCeiling d))
  ([power, x.heat, BitVec.ofNat 32 x.mv, BitVec.ofNat 32 x.share], s)

/-- The reply of GETTELEM: power and temperatures are measured, so they are free within their bounds; the hottest sensor of the module is no cooler
than any die's. -/
def State.telemetry (s : State) : List Word × State :=
  let (power, s) := s.measure (s.powerBound s.m.moduleCap Config.fusedCeiling)
  let (other, s) := s.measure Config.fusedTrip
  let (dies, s) := (List.range 8).foldl (fun (ws, s) d => let (w, s) := State.dieWords s d; (ws ++ w, s)) (([] : List Word), s)
  let heat (d : Nat) : Word := (vget s.m.dies d dieDefault).heat
  let top := (List.range 8).foldl (fun (x : Word) d => if x.toNat < (heat d).toNat then heat d else x) other
  ([power, top] ++ dies ++ [maskOf ((List.range 8).filter s.m.warm)], s)

/-- GETTELEM (R404). While no warning temperature is set the sensors are read for it; else they have been read in this cycle. -/
def execGettelem (s : State) : Out :=
  s.mbRun 2 fun s =>
    let (ws, s) := (if s.m.warn = 0#32 then s.readHeat else s).telemetry
    s.mbDone 0#8 (some ws)

/-- SETCAP (R404): caps within the fused ceilings are kept; 0 stands for the fused value. -/
def execSetcap (s : State) : Out :=
  s.mbRun 3 fun s =>
    let cap (d : Nat) : Word := s.m.mbWord (4 + 4 * d)
    if Config.fusedCeiling.toNat < (s.m.mbWord 0).toNat || (List.range 8).any fun d => (Config.fusedDieCeiling d).toNat < (cap d).toNat then
      s.mbDone 2#8 none
    else
      (s.modModule fun m =>
        { m with moduleCap := m.mbWord 0, capTime := s.gt,
                 dies := Vector.ofFn fun d => { vget m.dies d.val dieDefault with cap := cap d.val } }).mbDone 0#8 none

/-- SETWARN (R404). -/
def execSetwarn (s : State) : Out :=
  s.mbRun 4 fun s =>
    let w := s.m.mbWord 0
    if Config.fusedTrip.toNat ≤ w.toNat then s.mbDone 2#8 none
    else ((s.modModule fun m => { m with warn := w }).readHeat).mbDone 0#8 none

def ageDefault : Age := { slack := 0#32, time := 0, replans := 0#32 }

def Module.age (m : Module) (core : Nat) : Age := Sparse.get ageDefault m.ageing core

/-- GETAGEING (R404). -/
def execGetageing (s : State) : Out :=
  s.mbRun 5 fun s =>
    let core := (s.m.mbWord 0).toNat
    if Config.cores ≤ core then s.mbDone 2#8 none
    else
      let a := s.m.age core
      s.mbDone 0#8 (some [a.slack, BitVec.ofNat 32 a.time, BitVec.ofNat 32 (a.time / 2 ^ 32), a.replans])

/-- UNKNOWN_COMMAND (R404). -/
def execUnknownCommand (s : State) : Out :=
  if s.m.mbdb ∧ ¬(1 ≤ s.m.mbcmd.toNat ∧ s.m.mbcmd.toNat ≤ 5) then .next (s.mbDone 1#8 none) else .next s

/-! ## Power and ageing (R401, R402, R405) -/

/-- FIRMWARE_THROTTLE (R401): voltage within the fused ceiling, the share of issue cycles in 1/256, the rate of the power tokens. -/
def execFirmwareThrottle (die mv share rate : Nat) (s : State) : Out :=
  if die < 8 ∧ mv ≤ Config.fusedVoltage.toNat ∧ share ≤ 256 then
    .next (s.modModule fun m => { m with dies := vset m.dies die { vget m.dies die dieDefault with mv, share, set := share, rate } })
  else .next s

/-- Firmware keeps dies under caps and warning (R401, R404): while a die is at or above the warning temperature, or under a cap, its share of issue
cycles is what firmware chooses, which is free; a warm die is throttled. -/
def State.throttle (s : State) : State :=
  let s := if s.m.warn = 0#32 then s else s.readHeat
  (List.range 8).foldl (fun s d =>
    let x := vget s.m.dies d dieDefault
    let set (share : Nat) (s : State) : State := s.modModule fun m => { m with dies := vset m.dies d { vget m.dies d dieDefault with share } }
    if s.m.warm d then let (n, s) := s.draw; set (min x.set (n % 256)) s
    else if s.m.moduleCap != 0#32 || x.cap != 0#32 then let (n, s) := s.draw; set (min x.set (n % 257)) s
    else if x.share = x.set then s else set x.set s) s

/-- FUSED_CEILING (R402): the die issues nothing in this cycle. -/
def execFusedCeiling (die : Nat) (s : State) : Out :=
  .next (s.modModule fun m => { m with dies := vset m.dies die { vget m.dies die dieDefault with forced := true } })

/-- SLACK_MEASUREMENT (R405). -/
def execSlackMeasurement (core : Nat) (ps : Word) (s : State) : Out :=
  if core < Config.cores then
    .next (s.modModule fun m => { m with ageing := Sparse.set ageDefault m.ageing core { m.age core with slack := ps, time := s.gt } })
  else .next s

/-- The core may be re-planned: it holds no team, and is not under re-plan. -/
def State.mayReplan (s : State) (core : Nat) : Bool :=
  core < Config.cores && (s.teamsOn core).isEmpty && !(s.m.replan.any (·.1 == core))

/-- REPLAN (R405): counted as it begins. -/
def execReplan (core : Nat) (s : State) : Out :=
  if s.mayReplan core then
    .next (s.modModule fun m =>
      let a := m.age core
      { m with replan := Sparse.insert m.replan core s.gt,
               ageing := Sparse.set ageDefault m.ageing core
                 { a with replans := if a.replans = allOnes then a.replans else a.replans + 1#32 } })
  else .next s

/-- REPLAN_END (R405). -/
def execReplanEnd (core : Nat) (s : State) : Out := .next (s.modModule fun m => { m with replan := m.replan.filter (·.1 != core) })

/-- The re-plan has taken as long as it may. -/
def State.replanOver (s : State) (core : Nat) : Bool := s.m.replan.any fun (c, t) => c == core && decide (t + Config.replanMax ≤ s.gt)

/-! ## Freeze (R407) -/

/-- Every clock stops, and PCIe, CXL and the Dexgal Links go down. -/
def State.freeze (s : State) : State :=
  s.modModule fun m =>
    { m with frozen := true, pcie := .replicate 2 .down, cxlUp := .replicate 4 false,
             links := m.links.map fun l => { l with st := .down } }

/-- THERMAL_TRIP (R402, R407): a freeze in which the trip took part. -/
def execThermalTrip (s : State) : Out := .next (s.freeze.modModule fun m => { m with thermtrip := true })

/-- FREEZE (R407). -/
def execFreeze (s : State) : Out := .next s.freeze

/-- FRZ (R407). -/
def execFrz (s : State) : Out := .next s.freeze

/-- READ_OUT (R407): the test port reads out state and changes none. -/
def execReadOut (_net : Nat) (s : State) : Out := .next s

/-! ## Reset and bring-up (R406) -/

/-- The machine with its state lost; the inputs to come, and the free values not yet used, are not state of the device. -/
def State.wiped (s : State) (m : Module) : State :=
  { State.reset with agenda := s.agenda, upsets := s.upsets, fresh := s.fresh, m }

/-- MODULE_RESET_ASSERT (R406): the module stops, a frozen one too. -/
def execModuleResetAssert (s : State) : Out := .next (s.wiped { moduleInit with inReset := true, rail := s.m.rail })

/-- MAIN_RAIL_LOSS (R406). -/
def execMainRailLoss (s : State) : Out := .next (s.wiped { moduleInit with rail := false, inReset := true })

/-- MODULE_RESET (R406): the pin rises with the main rail good, and bring-up starts. -/
def execModuleReset (s : State) : Out := if s.m.inReset then .next (s.wiped moduleInit) else .next s

/-- The module is in bring-up. -/
def Module.bringing (m : Module) : Bool := m.stage < 4 && !m.stageFailed && !m.inReset && m.rail && !m.frozen

/-- Stage 4 is reached: the PCIe links are trained, CXL and Dexgal Link ports begin training, partitions are released, and the
mailbox registers take their Reset values (R403, R406; DEDUCED, log entry 24). -/
def State.released (s : State) : State :=
  let s := { s with clock0 := (List.range 8).foldl (fun c p => Sparse.set 0 c p s.gt) s.clock0 }
  s.modModule fun m =>
    { m with stage := 4, mbcmd := 0#16, mbdb := false, mbstat := 0#8, mbdata := [], pcie := .replicate 2 .up, cxlUp := .replicate 4 true,
             links := m.links.map fun l => { l with st := .training } }

/-- BRINGUP_STAGE (R406): the work of a stage ends, and STAGE advances; or it fails, and STAGE stays. -/
def execBringupStage (ok : Bool) (s : State) : Out :=
  if !s.m.bringing then .next s
  else if !ok then .next (s.modModule fun m => { m with stageFailed := true })
  else if s.m.stage = 3 then .next s.released
  else .next (s.modModule fun m => { m with stage := m.stage + 1 })

/-! ## Errors that strike (R375 to R380) -/

/-- The partition whose memory or core a key belongs to. -/
def State.partOfKey (s : State) (k : Nat) : Option Nat :=
  if k < regionBase 3 then (List.range 8).find? fun p => s.m.inRanges p (k / 2 ^ 48) (k % 2 ^ 48) 1
  else s.m.partOfCore ((k / 2 ^ 48 - 4) / 2)

/-- An error counted in a partition: corrected, or not. -/
def State.countError (s : State) (p : Option Nat) (off : Nat) : State := match p with | some p => s.modPart p (·.bump off) | none => s

/-- The control state of a team is lost: DATAERR with LANES = 0, and the team cannot be resumed (R378). A team that is being stopped for another fault
keeps that record and has this one beside it (R382). -/
def State.loseControl (s : State) (T : Team) : State :=
  let s := s.countError (some T.part) 0xF88
  let s := s.modTeam T.id fun T => { T with broken := true }
  let (r, s) := s.bareRecord T 6#8 1#2
  match T.st with
  | .run | .inPlace => s.modTeam T.id fun T => { T with st := .stopping r }
  | .stopping _ => s.report_ T r none
  | _ => s

/-- An error is found, and settled as R378 states. Those of issue and of products wait for their word. -/
def State.strike (s : State) (u : Upset) : State :=
  match u with
  | .mem k => (s.markPoison k).countError (s.partOfKey k) 0xF88
  | .corrected p => s.countError (some p) 0xF80
  | .l1 h line =>
    let p := if h < Config.cores then s.m.partOfCore h
      else (s.teams.find? fun T => T.cid == (h - Config.cores) / 128).map (·.part)
    (s.dropL1 h (· == line)).countError p 0xF80
  | .icache core line => (s.dropI core (· == line)).countError (s.m.partOfCore core) 0xF80
  | .row k =>
    let r := s.row k
    if r = rowDefault then s
    else (s.setRow k { r with poison := 0xFF#8 }).countError (s.m.partOfCore (k / (4 * 32 * Config.bankRows))) 0xF88
  | .acc core a cell => (s.setSlot core a fun x => { x with poison := insertNat x.poison cell }).countError (s.m.partOfCore core) 0xF88
  | .cb core d =>
    let m := s.mxOf core
    (s.setMx core { m with cbPoison := setBit m.cbPoison d.toNat true }).countError (s.m.partOfCore core) 0xF88
  | .control t => match s.team? t with | some T => s.loseControl T | none => s
  | .rdi .. | .product .. => s

/-- The error waits for a word or a product of its unit. -/
def Upset.waits : Upset → Bool
  | .rdi .. | .product .. => true
  | _ => false

/-! ## Host writes to registers (R385, R386) -/

/-- What a word written to one half of a register makes of the whole: the other half as it stands, except that a bit which a written 1
clears counts as 0 (R9). -/
def State.halfValue (s : State) (p off v : Nat) : Nat :=
  let x := (s.part p).reg (off / 8 * 8)
  if off % 8 = 4 then bits x.toNat 0 32 + v % 2 ^ 32 * 2 ^ 32
  else v % 2 ^ 32 + bits x.toNat 32 (if 0x1000 ≤ off ∧ off < 0x1200 then 31 else 32) * 2 ^ 32

/-- A word written to the upper half of a register, which takes the value `v` as a whole: only the fields that reach into that half are
written. A page number written to 0x008 drops the translation of the page (R290). -/
def State.upperWrite (s : State) (p off v : Nat) : State :=
  if off = 0x008 then s.modPart p fun pt => (pt.setFld 0x008 16 36 (bits v 16 36)).askDrop (some (bits v 16 36))
  else if off = 0x070 then s.modPart p fun pt => pt.setFld 0x070 16 36 (bits v 16 36)
  else if (rwFields off).any (fun (lo, w) => 32 < lo + w) ∨ (0x1000 ≤ off ∧ off < 0x1200 ∧ off % 32 = 0) then s.plainWrite p off v
  else s

/-- A whole register of a partition written. -/
def State.wholeWrite (s : State) (p off v : Nat) : State :=
  if off = 0x008 then
    let s := s.modPart p fun pt => (pt.setFld 0x008 0 1 v).setFld 0x008 16 36 (bits v 16 36)
    s.modPart p fun pt => pt.askDrop (if v % 2 = 1 then none else some (bits v 16 36))
  else if off = 0x058 then s.modPart p fun pt => pt.setFld 0x058 0 32 v
  else if off = 0x070 then
    let page := bits v 16 36
    let here := decide (page / 2 ^ 32 = p)
    match bits v 0 2 with
    | 0 => s.modPart p fun pt => pt.setFld 0x070 16 36 page
    | 1 => if here then s.retryPage p page else s.modPart p (·.answered page)
    | 2 => if here then (s.modPart p (·.answered page)).failPage page 2#7 else s.modPart p (·.answered page)
    | _ => s
  else if 0x800 ≤ off ∧ off < 0xA00 ∧ off % 32 = 0x10 then s.writeQtail p ((off - 0x800) / 32) (BitVec.ofNat 32 v)
  else if off = 0xF10 then (s.modPart p fun pt => pt.setFld 0xF10 0 32 v).post p
  else if off = 0xF48 then s.command p (bits v 0 2)
  else s.plainWrite p off v

/-- A write to a register of a partition: of a doubleword (`wide`) at an offset that is a multiple of 8, or of a word at one that is a
multiple of 4, which leaves the other half as it was; another offset names nothing (DEDUCED, log entry 34). Sequence slots have rules
of their own (R400). -/
def State.partWrite (s : State) (p off v : Nat) (wide : Bool) : State :=
  if 0x10000 ≤ off ∧ off < 0x20000 then
    let x : Dword := BitVec.ofNat 64 v
    let s1 := s.modPart p fun pt => pt.slotWrite off 4 x
    if !wide then s1 else if off % 8 = 0 then s1.followedBy (.slotWrite p (off + 4) 4 (x >>> 32)) else s
  else if off % 8 = 0 then s.wholeWrite p off (if wide then v else s.halfValue p off v)
  else if off % 8 = 4 ∧ !wide then s.upperWrite p (off - 4) (s.halfValue p off v)
  else s

/-- A word of the mailbox written (R403). MBDB is RW: a 0 written to it takes back a command that has been posted and not yet read. -/
def State.mailWrite (s : State) (off : Nat) (v : Word) : State :=
  if off = 0x804 then s.modModule fun m => { m with mbdb := v.getLsbD 0 }
  else if s.m.mbdb then s
  else if off = 0x800 then s.modModule fun m => { m with mbcmd := v.setWidth 16 }
  else if 0x900 ≤ off ∧ off < 0xA00 ∧ off % 4 = 0 then
    s.modModule fun m => { m with mbdata := Sparse.set 0#32 m.mbdata ((off - 0x900) / 4) v }
  else s

/-- A write to the module function: of a doubleword or of a word, as to a partition's registers; a doubleword of the mailbox is its two
words, the lower first (DEDUCED, log entry 34). -/
def State.moduleWrite (s : State) (off v : Nat) (wide : Bool) : State :=
  if 0x800 ≤ off then
    let s1 := s.mailWrite off (BitVec.ofNat 32 v)
    if !wide then s1 else if off % 8 = 0 then s1.mailWrite (off + 4) (BitVec.ofNat 32 (v / 2 ^ 32)) else s
  else if off % 8 ≠ 0 ∧ (wide ∨ off % 8 ≠ 4) then s
  else
    let r := off / 8 * 8
    let x := (s.m.reg r).toNat
    let d : Dword := BitVec.ofNat 64 (if wide then v else if off % 8 = 4 then bits x 0 32 + v % 2 ^ 32 * 2 ^ 32
      else v % 2 ^ 32 + bits x 32 32 * 2 ^ 32)
    if r = 0x20 then s.writeHold (d.setWidth 8)
    else if r = 0x28 then s.modModule fun m => { m with xacc := d }
    else s.assign r d

/-- REGISTER_WRITE (R385, R386): function 0 is the module function; 1 + k is partition k's on port 0, and 9 + k its twin on port 1,
which differs in its MSI-X table alone (R384). A partition in reset answers Unsupported Request (R397). Before
stage 4 the module function takes writes to the mailbox alone, since the registers take their Reset values at stage 4 (R404, R406;
DEDUCED, log entry 24). -/
def execRegisterWrite (fn off : Nat) (v : RegVal) (s : State) : Out :=
  if fn = 0 then .next (if s.m.stage = 4 ∨ (s.m.stage = 3 ∧ 0x800 ≤ off) then s.moduleWrite off v.toNat v.wide else s)
  else
    let p := (fn - 1) % 8
    let off := if 9 ≤ fn ∧ 0x20000 ≤ off then off + 0x100000 else off
    if fn < 17 ∧ s.serving p then .next (s.partWrite p off v.toNat v.wide) else .next s

end Sys2Proof.Machine
end

