-- ==== Sys2Proof/Machine/Dispatch.lean ====
section
/-! DEFINITION. The one dispatch of the instructions and events to their meanings. -/

namespace Sys2Proof.Machine

def exec (i : Instr) (s : State) : Host.Outcome State Fault Refusal :=
  match i with
  | .nop x1 => Sys2Proof.Machine.execNop x1 s
  | .mov x1 x2 x3 => Sys2Proof.Machine.execMov x1 x2 x3 s
  | .movs x1 x2 x3 x4 => Sys2Proof.Machine.execMovs x1 x2 x3 x4 s
  | .kset x1 x2 x3 => Sys2Proof.Machine.execKset x1 x2 x3 s
  | .iadd x1 x2 x3 x4 x5 x6 => Sys2Proof.Machine.execIadd x1 x2 x3 x4 x5 x6 s
  | .isub x1 x2 x3 x4 x5 x6 => Sys2Proof.Machine.execIsub x1 x2 x3 x4 x5 x6 s
  | .imul x1 x2 x3 x4 x5 x6 => Sys2Proof.Machine.execImul x1 x2 x3 x4 x5 x6 s
  | .imulh x1 x2 x3 x4 x5 => Sys2Proof.Machine.execImulh x1 x2 x3 x4 x5 s
  | .imad x1 x2 x3 x4 x5 x6 x7 => Sys2Proof.Machine.execImad x1 x2 x3 x4 x5 x6 x7 s
  | .imadw x1 x2 x3 x4 x5 x6 => Sys2Proof.Machine.execImadw x1 x2 x3 x4 x5 x6 s
  | .iaddw x1 x2 x3 x4 x5 x6 => Sys2Proof.Machine.execIaddw x1 x2 x3 x4 x5 x6 s
  | .idiv x1 x2 x3 x4 x5 => Sys2Proof.Machine.execIdiv x1 x2 x3 x4 x5 s
  | .irem x1 x2 x3 x4 x5 => Sys2Proof.Machine.execIrem x1 x2 x3 x4 x5 s
  | .imin x1 x2 x3 x4 x5 => Sys2Proof.Machine.execImin x1 x2 x3 x4 x5 s
  | .imax x1 x2 x3 x4 x5 => Sys2Proof.Machine.execImax x1 x2 x3 x4 x5 s
  | .iabs x1 x2 x3 x4 => Sys2Proof.Machine.execIabs x1 x2 x3 x4 s
  | .and x1 x2 x3 x4 => Sys2Proof.Machine.execAnd x1 x2 x3 x4 s
  | .or x1 x2 x3 x4 => Sys2Proof.Machine.execOr x1 x2 x3 x4 s
  | .xor x1 x2 x3 x4 => Sys2Proof.Machine.execXor x1 x2 x3 x4 s
  | .andn x1 x2 x3 x4 => Sys2Proof.Machine.execAndn x1 x2 x3 x4 s
  | .shl x1 x2 x3 x4 => Sys2Proof.Machine.execShl x1 x2 x3 x4 s
  | .shr x1 x2 x3 x4 => Sys2Proof.Machine.execShr x1 x2 x3 x4 s
  | .sar x1 x2 x3 x4 => Sys2Proof.Machine.execSar x1 x2 x3 x4 s
  | .rot x1 x2 x3 x4 => Sys2Proof.Machine.execRot x1 x2 x3 x4 s
  | .shf x1 x2 x3 x4 x5 => Sys2Proof.Machine.execShf x1 x2 x3 x4 x5 s
  | .popc x1 x2 x3 => Sys2Proof.Machine.execPopc x1 x2 x3 s
  | .clz x1 x2 x3 => Sys2Proof.Machine.execClz x1 x2 x3 s
  | .brev x1 x2 x3 => Sys2Proof.Machine.execBrev x1 x2 x3 s
  | .bfx x1 x2 x3 x4 x5 => Sys2Proof.Machine.execBfx x1 x2 x3 x4 x5 s
  | .bfi x1 x2 x3 x4 x5 => Sys2Proof.Machine.execBfi x1 x2 x3 x4 x5 s
  | .prmt x1 x2 x3 x4 x5 => Sys2Proof.Machine.execPrmt x1 x2 x3 x4 x5 s
  | .lea x1 x2 x3 x4 x5 => Sys2Proof.Machine.execLea x1 x2 x3 x4 x5 s
  | .isel x1 x2 x3 x4 x5 x6 => Sys2Proof.Machine.execIsel x1 x2 x3 x4 x5 x6 s
  | .icmp x1 x2 x3 x4 x5 x6 => Sys2Proof.Machine.execIcmp x1 x2 x3 x4 x5 x6 s
  | .plop x1 x2 x3 x4 x5 x6 => Sys2Proof.Machine.execPlop x1 x2 x3 x4 x5 x6 s
  | .pmov x1 x2 => Sys2Proof.Machine.execPmov x1 x2 s
  | .pairedWord x1 x2 => Sys2Proof.Machine.execPairedWord x1 x2 s
  | .bra x1 x2 => Sys2Proof.Machine.execBra x1 x2 s
  | .call x1 x2 x3 => Sys2Proof.Machine.execCall x1 x2 x3 s
  | .ret x1 x2 => Sys2Proof.Machine.execRet x1 x2 s
  | .smeet x1 x2 => Sys2Proof.Machine.execSmeet x1 x2 s
  | .exit x1 => Sys2Proof.Machine.execExit x1 s
  | .yield x1 => Sys2Proof.Machine.execYield x1 s
  | .nap x1 x2 => Sys2Proof.Machine.execNap x1 x2 s
  | .bar x1 => Sys2Proof.Machine.execBar x1 s
  | .cvset x1 x2 x3 => Sys2Proof.Machine.execCvset x1 x2 x3 s
  | .cvleave x1 x2 => Sys2Proof.Machine.execCvleave x1 x2 s
  | .vote x1 x2 x3 x4 x5 => Sys2Proof.Machine.execVote x1 x2 x3 x4 x5 s
  | .shfl x1 x2 x3 x4 x5 x6 x7 => Sys2Proof.Machine.execShfl x1 x2 x3 x4 x5 x6 x7 s
  | .redux x1 x2 x3 x4 x5 => Sys2Proof.Machine.execRedux x1 x2 x3 x4 x5 s
  | .match_ x1 x2 x3 x4 x5 => Sys2Proof.Machine.execMatch x1 x2 x3 x4 x5 s
  | .islast x1 x2 => Sys2Proof.Machine.execIslast x1 x2 s
  | .trap x1 => Sys2Proof.Machine.execTrap x1 s
  | .bkpt x1 => Sys2Proof.Machine.execBkpt x1 s
  | .tret x1 x2 x3 => Sys2Proof.Machine.execTret x1 x2 x3 s
  | .csrr x1 x2 x3 => Sys2Proof.Machine.execCsrr x1 x2 x3 s
  | .csrw x1 x2 x3 => Sys2Proof.Machine.execCsrw x1 x2 x3 s
  | .lnch x1 x2 x3 x4 x5 x6 => Sys2Proof.Machine.execLnch x1 x2 x3 x4 x5 x6 s
  | .succ x1 => Sys2Proof.Machine.execSucc x1 s
  | .pwait x1 x2 => Sys2Proof.Machine.execPwait x1 x2 s
  | .fadd x1 x2 x3 x4 x5 => Sys2Proof.Machine.execFadd x1 x2 x3 x4 x5 s
  | .fmul x1 x2 x3 x4 x5 => Sys2Proof.Machine.execFmul x1 x2 x3 x4 x5 s
  | .ffma x1 x2 x3 x4 x5 x6 => Sys2Proof.Machine.execFfma x1 x2 x3 x4 x5 x6 s
  | .fmin x1 x2 x3 x4 x5 => Sys2Proof.Machine.execFmin x1 x2 x3 x4 x5 s
  | .fmax x1 x2 x3 x4 x5 => Sys2Proof.Machine.execFmax x1 x2 x3 x4 x5 s
  | .fcmp x1 x2 x3 x4 x5 x6 => Sys2Proof.Machine.execFcmp x1 x2 x3 x4 x5 x6 s
  | .fcls x1 x2 x3 => Sys2Proof.Machine.execFcls x1 x2 x3 s
  | .frnd x1 x2 x3 x4 => Sys2Proof.Machine.execFrnd x1 x2 x3 x4 s
  | .frcp x1 x2 x3 x4 => Sys2Proof.Machine.execFrcp x1 x2 x3 x4 s
  | .frsq x1 x2 x3 x4 => Sys2Proof.Machine.execFrsq x1 x2 x3 x4 s
  | .fsqrt x1 x2 x3 x4 => Sys2Proof.Machine.execFsqrt x1 x2 x3 x4 s
  | .fdiv x1 x2 x3 x4 x5 => Sys2Proof.Machine.execFdiv x1 x2 x3 x4 x5 s
  | .fex2 x1 x2 x3 x4 => Sys2Proof.Machine.execFex2 x1 x2 x3 x4 s
  | .flg2 x1 x2 x3 x4 => Sys2Proof.Machine.execFlg2 x1 x2 x3 x4 s
  | .fgumb x1 x2 x3 x4 => Sys2Proof.Machine.execFgumb x1 x2 x3 x4 s
  | .rngc x1 x2 x3 x4 => Sys2Proof.Machine.execRngc x1 x2 x3 x4 s
  | .f2i x1 x2 x3 x4 => Sys2Proof.Machine.execF2i x1 x2 x3 x4 s
  | .i2f x1 x2 x3 x4 x5 => Sys2Proof.Machine.execI2f x1 x2 x3 x4 x5 s
  | .fcvt x1 x2 x3 x4 x5 x6 x7 x8 x9 => Sys2Proof.Machine.execFcvt x1 x2 x3 x4 x5 x6 x7 x8 x9 s
  | .hadd2 x1 x2 x3 x4 x5 => Sys2Proof.Machine.execHadd2 x1 x2 x3 x4 x5 s
  | .hmul2 x1 x2 x3 x4 x5 => Sys2Proof.Machine.execHmul2 x1 x2 x3 x4 x5 s
  | .hfma2 x1 x2 x3 x4 x5 x6 => Sys2Proof.Machine.execHfma2 x1 x2 x3 x4 x5 x6 s
  | .hmnx2 x1 x2 x3 x4 x5 => Sys2Proof.Machine.execHmnx2 x1 x2 x3 x4 x5 s
  | .pk8 x1 x2 x3 x4 x5 x6 x7 x8 x9 => Sys2Proof.Machine.execPk8 x1 x2 x3 x4 x5 x6 x7 x8 x9 s
  | .upk8 x1 x2 x3 x4 x5 => Sys2Proof.Machine.execUpk8 x1 x2 x3 x4 x5 s
  | .pk4 x1 x2 x3 x4 x5 x6 x7 => Sys2Proof.Machine.execPk4 x1 x2 x3 x4 x5 x6 x7 s
  | .upk4 x1 x2 x3 x4 x5 => Sys2Proof.Machine.execUpk4 x1 x2 x3 x4 x5 s
  | .fscl x1 x2 x3 x4 x5 => Sys2Proof.Machine.execFscl x1 x2 x3 x4 x5 s
  | .ld x1 x2 x3 x4 x5 => Sys2Proof.Machine.execLd x1 x2 x3 x4 x5 s
  | .st x1 x2 x3 x4 x5 => Sys2Proof.Machine.execSt x1 x2 x3 x4 x5 s
  | .ldc x1 x2 x3 x4 x5 => Sys2Proof.Machine.execLdc x1 x2 x3 x4 x5 s
  | .ldfe x1 x2 x3 x4 x5 x6 => Sys2Proof.Machine.execLdfe x1 x2 x3 x4 x5 x6 s
  | .stfe x1 x2 x3 x4 x5 => Sys2Proof.Machine.execStfe x1 x2 x3 x4 x5 s
  | .atom x1 x2 x3 x4 x5 x6 x7 => Sys2Proof.Machine.execAtom x1 x2 x3 x4 x5 x6 x7 s
  | .acas x1 x2 x3 x4 x5 x6 x7 => Sys2Proof.Machine.execAcas x1 x2 x3 x4 x5 x6 x7 s
  | .afadd x1 x2 x3 x4 x5 x6 => Sys2Proof.Machine.execAfadd x1 x2 x3 x4 x5 x6 s
  | .ab2add x1 x2 x3 x4 x5 => Sys2Proof.Machine.execAb2add x1 x2 x3 x4 x5 s
  | .avimx x1 x2 x3 x4 x5 x6 x7 => Sys2Proof.Machine.execAvimx x1 x2 x3 x4 x5 x6 x7 s
  | .red x1 x2 x3 x4 x5 x6 => Sys2Proof.Machine.execRed x1 x2 x3 x4 x5 x6 s
  | .fence x1 x2 x3 => Sys2Proof.Machine.execFence x1 x2 x3 s
  | .pref x1 x2 x3 x4 => Sys2Proof.Machine.execPref x1 x2 x3 x4 s
  | .cctl x1 x2 x3 x4 => Sys2Proof.Machine.execCctl x1 x2 x3 x4 s
  | .lsacq x1 x2 x3 x4 x5 x6 => Sys2Proof.Machine.execLsacq x1 x2 x3 x4 x5 x6 s
  | .lsrel x1 x2 => Sys2Proof.Machine.execLsrel x1 x2 s
  | .snap x1 x2 x3 x4 => Sys2Proof.Machine.execSnap x1 x2 x3 x4 s
  | .rstr x1 x2 x3 => Sys2Proof.Machine.execRstr x1 x2 x3 s
  | .sprt x1 x2 x3 x4 x5 => Sys2Proof.Machine.execSprt x1 x2 x3 x4 x5 s
  | .drop x1 x2 => Sys2Proof.Machine.execDrop x1 x2 s
  | .hdup x1 x2 x3 => Sys2Proof.Machine.execHdup x1 x2 x3 s
  | .hspl x1 x2 x3 x4 x5 x6 => Sys2Proof.Machine.execHspl x1 x2 x3 x4 x5 x6 s
  | .hldm x1 x2 x3 x4 x5 => Sys2Proof.Machine.execHldm x1 x2 x3 x4 x5 s
  | .hinf x1 x2 x3 x4 => Sys2Proof.Machine.execHinf x1 x2 x3 x4 s
  | .xacq x1 x2 x3 => Sys2Proof.Machine.execXacq x1 x2 x3 s
  | .xrel x1 x2 => Sys2Proof.Machine.execXrel x1 x2 s
  | .spawn x1 x2 x3 x4 => Sys2Proof.Machine.execSpawn x1 x2 x3 x4 s
  | .qenq x1 x2 x3 x4 x5 => Sys2Proof.Machine.execQenq x1 x2 x3 x4 x5 s
  | .qdeq x1 x2 x3 x4 x5 => Sys2Proof.Machine.execQdeq x1 x2 x3 x4 x5 s
  | .csub x1 x2 x3 x4 x5 x6 => Sys2Proof.Machine.execCsub x1 x2 x3 x4 x5 x6 s
  | .esc x1 x2 x3 => Sys2Proof.Machine.execEsc x1 x2 x3 s
  | .cret x1 x2 => Sys2Proof.Machine.execCret x1 x2 s
  | .slrsv x1 x2 x3 x4 => Sys2Proof.Machine.execSlrsv x1 x2 x3 x4 s
  | .slrel x1 x2 => Sys2Proof.Machine.execSlrel x1 x2 s
  | .mma x1 x2 x3 x4 x5 x6 x7 => Sys2Proof.Machine.execMma x1 x2 x3 x4 x5 x6 x7 s
  | .mmag x1 x2 x3 x4 x5 x6 => Sys2Proof.Machine.execMmag x1 x2 x3 x4 x5 x6 s
  | .mzero x1 x2 x3 => Sys2Proof.Machine.execMzero x1 x2 x3 s
  | .mrd x1 x2 x3 x4 x5 x6 x7 x8 x9 => Sys2Proof.Machine.execMrd x1 x2 x3 x4 x5 x6 x7 x8 x9 s
  | .mwr x1 x2 x3 x4 x5 => Sys2Proof.Machine.execMwr x1 x2 x3 x4 x5 s
  | .mscl x1 x2 x3 => Sys2Proof.Machine.execMscl x1 x2 x3 s
  | .mchk x1 x2 x3 x4 => Sys2Proof.Machine.execMchk x1 x2 x3 x4 s
  | .slcb x1 x2 x3 x4 => Sys2Proof.Machine.execSlcb x1 x2 x3 x4 s
  | .mxcfg x1 x2 x3 x4 => Sys2Proof.Machine.execMxcfg x1 x2 x3 x4 s
  | .cpy x1 x2 x3 x4 x5 x6 => Sys2Proof.Machine.execCpy x1 x2 x3 x4 x5 x6 s
  | .cpyg x1 x2 x3 x4 x5 x6 => Sys2Proof.Machine.execCpyg x1 x2 x3 x4 x5 x6 s
  | .cpys x1 x2 x3 x4 x5 x6 => Sys2Proof.Machine.execCpys x1 x2 x3 x4 x5 x6 s
  | .carm x1 x2 x3 x4 => Sys2Proof.Machine.execCarm x1 x2 x3 x4 s
  | .cwait x1 x2 x3 x4 x5 => Sys2Proof.Machine.execCwait x1 x2 x3 x4 x5 s
  | .ctest x1 x2 x3 x4 x5 x6 => Sys2Proof.Machine.execCtest x1 x2 x3 x4 x5 x6 s
  | .mst x1 x2 x3 x4 x5 x6 x7 => Sys2Proof.Machine.execMst x1 x2 x3 x4 x5 x6 x7 s
  | .coll x1 x2 x3 x4 x5 x6 x7 => Sys2Proof.Machine.execColl x1 x2 x3 x4 x5 x6 x7 s
  | .phash x1 x2 x3 x4 => Sys2Proof.Machine.execPhash x1 x2 x3 x4 s
  | .pgpin x1 x2 x3 x4 => Sys2Proof.Machine.execPgpin x1 x2 x3 x4 s
  | .pgunpin x1 x2 x3 x4 => Sys2Proof.Machine.execPgunpin x1 x2 x3 x4 s
  | .slcommit x1 x2 x3 x4 x5 => Sys2Proof.Machine.execSlcommit x1 x2 x3 x4 x5 s
  | .slqry x1 x2 x3 x4 x5 x6 => Sys2Proof.Machine.execSlqry x1 x2 x3 x4 x5 x6 s
  | .illop x1 => Sys2Proof.Machine.execIllop x1 s
  | .threadArrives x1 x2 x3 x4 => Sys2Proof.Machine.execThreadArrives x1 x2 x3 x4 s
  | .rdvtmo x1 x2 x3 => Sys2Proof.Machine.execRdvtmo x1 x2 x3 s
  | .passedOverBound x1 x2 => Sys2Proof.Machine.execPassedOverBound x1 x2 s
  | .groupSwap x1 x2 => Sys2Proof.Machine.execGroupSwap x1 x2 s
  | .starvedPromotion x1 x2 => Sys2Proof.Machine.execStarvedPromotion x1 x2 s
  | .loadLands x1 x2 => Sys2Proof.Machine.execLoadLands x1 x2 s
  | .napEnd x1 x2 x3 => Sys2Proof.Machine.execNapEnd x1 x2 x3 s
  | .ldfeWake x1 x2 x3 => Sys2Proof.Machine.execLdfeWake x1 x2 x3 s
  | .cwaitWake x1 x2 x3 => Sys2Proof.Machine.execCwaitWake x1 x2 x3 s
  | .pwaitRelease x1 x2 => Sys2Proof.Machine.execPwaitRelease x1 x2 s
  | .xacqMap x1 x2 => Sys2Proof.Machine.execXacqMap x1 x2 s
  | .kilnfull x1 x2 => Sys2Proof.Machine.execKilnfull x1 x2 s
  | .wdog x1 x2 x3 => Sys2Proof.Machine.execWdog x1 x2 x3 s
  | .remtmo x1 x2 x3 => Sys2Proof.Machine.execRemtmo x1 x2 x3 s
  | .trapEntry x1 x2 => Sys2Proof.Machine.execTrapEntry x1 x2 s
  | .teamEnd x1 => Sys2Proof.Machine.execTeamEnd x1 s
  | .swapOut x1 => Sys2Proof.Machine.execSwapOut x1 s
  | .accessConfirmed x1 => Sys2Proof.Machine.execAccessConfirmed x1 s
  | .runAhead x1 => Sys2Proof.Machine.execRunAhead x1 s
  | .matrixUnitPerform x1 => Sys2Proof.Machine.execMatrixUnitPerform x1 s
  | .pairedStart x1 => Sys2Proof.Machine.execPairedStart x1 s
  | .pairedMmaTimeout x1 => Sys2Proof.Machine.execPairedMmaTimeout x1 s
  | .arrive x1 => Sys2Proof.Machine.execArrive x1 s
  | .fail x1 x2 => Sys2Proof.Machine.execFail x1 x2 s
  | .efault x1 => Sys2Proof.Machine.execEfault x1 s
  | .flit x1 x2 x3 x4 x5 x6 => Sys2Proof.Machine.execFlit x1 x2 x3 x4 x5 x6 s
  | .collComplete x1 => Sys2Proof.Machine.execCollComplete x1 s
  | .collTimeout x1 => Sys2Proof.Machine.execCollTimeout x1 s
  | .failureNotice x1 => Sys2Proof.Machine.execFailureNotice x1 s
  | .partialGroup x1 => Sys2Proof.Machine.execPartialGroup x1 s
  | .leaseExpiry x1 x2 => Sys2Proof.Machine.execLeaseExpiry x1 x2 s
  | .roundCommit x1 => Sys2Proof.Machine.execRoundCommit x1 s
  | .dequeue x1 => Sys2Proof.Machine.execDequeue x1 s
  | .semaphorePoll x1 x2 => Sys2Proof.Machine.execSemaphorePoll x1 x2 s
  | .admit_ x1 x2 => Sys2Proof.Machine.execAdmit x1 x2 s
  | .place x1 => Sys2Proof.Machine.execPlace x1 s
  | .urgent x1 x2 => Sys2Proof.Machine.execUrgent x1 x2 s
  | .launchEnd x1 x2 => Sys2Proof.Machine.execLaunchEnd x1 x2 s
  | .qtail x1 x2 x3 => Sys2Proof.Machine.execQtail x1 x2 x3 s
  | .preempt x1 => Sys2Proof.Machine.execPreempt x1 s
  | .resume x1 => Sys2Proof.Machine.execResume x1 s
  | .resumePlacement x1 => Sys2Proof.Machine.execResumePlacement x1 s
  | .end_ x1 => Sys2Proof.Machine.execEnd x1 s
  | .fqhead x1 x2 => Sys2Proof.Machine.execFqhead x1 x2 s
  | .eactRetry x1 x2 => Sys2Proof.Machine.execEactRetry x1 x2 s
  | .eactUnresolvable x1 x2 => Sys2Proof.Machine.execEactUnresolvable x1 x2 s
  | .mqtail x1 x2 => Sys2Proof.Machine.execMqtail x1 x2 s
  | .migrate x1 => Sys2Proof.Machine.execMigrate x1 s
  | .migdone x1 => Sys2Proof.Machine.execMigdone x1 s
  | .migabort x1 x2 => Sys2Proof.Machine.execMigabort x1 x2 s
  | .all x1 => Sys2Proof.Machine.execAll x1 s
  | .page x1 x2 => Sys2Proof.Machine.execPage x1 x2 s
  | .translationDropDone x1 => Sys2Proof.Machine.execTranslationDropDone x1 s
  | .evict x1 x2 => Sys2Proof.Machine.execEvict x1 x2 s
  | .demote x1 x2 => Sys2Proof.Machine.execDemote x1 x2 s
  | .slotWrite x1 x2 x3 x4 => Sys2Proof.Machine.execSlotWrite x1 x2 x3 x4 s
  | .registerWrite x1 x2 x3 => Sys2Proof.Machine.execRegisterWrite x1 x2 x3 s
  | .inboundPostedWrite x1 x2 x3 x4 x5 x6 => Sys2Proof.Machine.execInboundPostedWrite x1 x2 x3 x4 x5 x6 s
  | .inboundRead x1 x2 x3 x4 x5 => Sys2Proof.Machine.execInboundRead x1 x2 x3 x4 x5 s
  | .inboundAtomicop x1 x2 x3 x4 x5 x6 x7 x8 => Sys2Proof.Machine.execInboundAtomicop x1 x2 x3 x4 x5 x6 x7 x8 s
  | .outboundCompletion x1 x2 => Sys2Proof.Machine.execOutboundCompletion x1 x2 s
  | .completionTimeout x1 => Sys2Proof.Machine.execCompletionTimeout x1 s
  | .linkState x1 x2 => Sys2Proof.Machine.execLinkState x1 x2 s
  | .recoveryLimit x1 => Sys2Proof.Machine.execRecoveryLimit x1 s
  | .cxlPortDown x1 => Sys2Proof.Machine.execCxlPortDown x1 s
  | .hold x1 => Sys2Proof.Machine.execHold x1 s
  | .inrstClear x1 => Sys2Proof.Machine.execInrstClear x1 s
  | .getlimits => Sys2Proof.Machine.execGetlimits s
  | .gettelem => Sys2Proof.Machine.execGettelem s
  | .setcap => Sys2Proof.Machine.execSetcap s
  | .setwarn => Sys2Proof.Machine.execSetwarn s
  | .getageing => Sys2Proof.Machine.execGetageing s
  | .replan x1 => Sys2Proof.Machine.execReplan x1 s
  | .replanEnd x1 => Sys2Proof.Machine.execReplanEnd x1 s
  | .thermalTrip => Sys2Proof.Machine.execThermalTrip s
  | .freeze => Sys2Proof.Machine.execFreeze s
  | .frz => Sys2Proof.Machine.execFrz s
  | .readOut x1 => Sys2Proof.Machine.execReadOut x1 s
  | .moduleReset => Sys2Proof.Machine.execModuleReset s
  | .bringupStage x1 => Sys2Proof.Machine.execBringupStage x1 s
  | .reachesHome x1 => Sys2Proof.Machine.execReachesHome x1 s
  | .wctPassed x1 x2 x3 => Sys2Proof.Machine.execWctPassed x1 x2 x3 s
  | .matrixInstructionFinish x1 => Sys2Proof.Machine.execMatrixInstructionFinish x1 s
  | .fetchFault x1 x2 x3 => Sys2Proof.Machine.execFetchFault x1 x2 x3 s
  | .pgpinAnswer x1 x2 x3 => Sys2Proof.Machine.execPgpinAnswer x1 x2 x3 s
  | .powerToken x1 x2 => Sys2Proof.Machine.execPowerToken x1 x2 s
  | .firmwareThrottle x1 x2 x3 x4 => Sys2Proof.Machine.execFirmwareThrottle x1 x2 x3 x4 s
  | .fusedCeiling x1 => Sys2Proof.Machine.execFusedCeiling x1 s
  | .slackMeasurement x1 x2 => Sys2Proof.Machine.execSlackMeasurement x1 x2 s
  | .mainRailLoss => Sys2Proof.Machine.execMainRailLoss s
  | .moduleResetAssert => Sys2Proof.Machine.execModuleResetAssert s
  | .pcieLinkState x1 x2 => Sys2Proof.Machine.execPcieLinkState x1 x2 s
  | .busMasterEnable x1 x2 x3 => Sys2Proof.Machine.execBusMasterEnable x1 x2 x3 s
  | .vectorUnmask x1 x2 => Sys2Proof.Machine.execVectorUnmask x1 x2 s
  | .diepart x1 x2 => Sys2Proof.Machine.execDiepart x1 x2 s
  | .unknownCommand => Sys2Proof.Machine.execUnknownCommand s

end Sys2Proof.Machine
end

