-- ==== Sys2Proof/Machine/Cycle.lean ====
section
/-! DEFINITION. What a step does: the inputs, the events that are due, the single executions of complete rendezvous, the issue of the
sub-cores (R333), the events whose moment is free, and the end of a cycle. The order within a cycle is the model's (log entry 2). -/

namespace Sys2Proof

/-- Writes of the host to registers: they follow every posted write that arrived before them (R312). -/
def Instr.hostWrite : Instr → Bool
  | .qtail .. | .preempt .. | .resume .. | .end_ .. | .fqhead .. | .eactRetry .. | .eactUnresolvable .. | .mqtail .. | .all ..
  | .page .. | .slotWrite .. | .registerWrite .. | .hold .. | .vectorUnmask .. | .diepart .. => true
  | _ => false

/-- Events that end or replace a stopped module, or read it out (R406, R407). -/
def Instr.whileStopped : Instr → Bool
  | .moduleReset | .moduleResetAssert | .mainRailLoss | .readOut .. => true
  | _ => false

/-- Events that come from outside before stage 4 (R403, R406). -/
def Instr.early : Instr → Bool
  | .bringupStage .. | .freeze | .frz | .thermalTrip | .pcieLinkState .. | .firmwareThrottle .. | .fusedCeiling ..
  | .slackMeasurement .. => true
  | .registerWrite fn .. => fn == 0
  | .inboundRead _ _ (.bar0 fn) .. => fn == 0
  | i => i.whileStopped

/-- Events that come from outside the machine. -/
def Instr.input : Instr → Bool
  | .flit .. | .failureNotice .. | .inboundPostedWrite .. | .inboundRead .. | .inboundAtomicop .. | .outboundCompletion ..
  | .completionTimeout .. | .linkState .. | .cxlPortDown .. | .busMasterEnable .. | .replan .. | .replanEnd .. | .migabort _ none => true
  | i => i.hostWrite || i.early

/-- Words of which rotated duplicate issue compares nothing: they write no register and no predicate, set no flag, take no target and make no request
(R375). -/
def Instr.mute : Instr → Bool
  | .nop .. | .exit .. | .yield .. | .nap .. | .bar .. | .cvleave .. | .succ .. | .trap .. | .bkpt .. | .fence .. | .smeet _ none
  | .cctl _ .invall .. | .cctl _ .iinvall .. => true
  | .pairedWord x y => x.hop == .nop && y.hop == .nop
  | _ => false

/-- Words that rotated duplicate issue does not issue twice (R376). -/
def Instr.once : Instr → Bool
  | .snap .. | .rstr .. | .sprt .. | .drop .. | .hdup .. | .hspl .. | .hldm .. | .hinf .. | .xacq .. | .xrel .. | .spawn .. | .qenq ..
  | .qdeq .. | .csub .. | .esc .. | .cret .. | .slrsv .. | .slrel .. | .mma .. | .mmag .. | .mzero .. | .mrd .. | .mwr .. | .mscl ..
  | .mchk .. | .slcb .. | .mxcfg .. | .cpy .. | .cpyg .. | .cpys .. | .mst .. | .coll .. | .illop .. => true
  | _ => false

end Sys2Proof

namespace Sys2Proof.Machine

open Sys2Proof

/-! ## Inputs -/

/-- Every clock of the module stands still (R406, R407). -/
def Module.stopped (m : Module) : Bool := m.inReset || !m.rail || m.frozen

/-- An input may act now: what must come before it has been performed (R312, R389). -/
def State.inputReady (s : State) (i : Instr) : Bool :=
  match i with
  | .inboundPostedWrite port req p off bytes _ => s.writeReady port req p off bytes.length
  | .inboundRead port req (.bar2 p) _ _ => !s.reaches port p || s.inOrder port req
  | .inboundRead port req (.bar0 _) _ _ => s.inOrder port req
  | .inboundAtomicop port req p off wide _ _ _ => !s.reaches port p || s.aopReady port req p off (if wide then 8 else 4)
  | i => !i.hostWrite || s.allInOrder

/-- The next input, when its time has come. -/
def State.inputDue (s : State) : Option Instr :=
  match s.agenda with
  | [] => none
  | (t, i) :: _ => if t ≤ s.gt && s.inputReady i then some i else none

/-- The machine without the input that acts now. -/
def State.received (s : State) : State := { s with agenda := s.agenda.drop 1 }

/-- A stopped module: no time passes, so the next input acts, whatever its time. A thermal trip in the cycle of the freeze still
takes part in it (R407). -/
def State.stoppedStep (s : State) : Out :=
  match s.agenda with
  | [] => .next s
  | (t, i) :: _ =>
    if i.whileStopped || (i == .thermalTrip && s.m.frozen && decide (t ≤ s.gt)) then exec i s.received else .next s.received

/-! ## Events that are due -/

def Thread.due (s : State) (T : Team) (g l : Nat) (th : Thread) : List Instr :=
  (match th.wait with
   | .nap til => if til ≤ s.gt then [.napEnd T.id g l] else []
   | .ldfe .. => if T.full.isEmpty then [] else [.ldfeWake T.id g l]
   | .cwait _ _ off ph => if (s.bar T off).flipped ph then [.cwaitWake T.id g l] else []
   | .pwait _ => if (s.predEnded T).isSome then [.pwaitRelease T.id g] else []
   | .xacq .. => [.xacqMap T.id g]
   | _ => []) ++
  (if s.fenceDone T g l then [.wctPassed T.id g l] else []) ++
  (if T.rowsOverdue th then [.kilnfull T.id g] else []) ++
  (if T.overdue th then [.wdog T.id g l] else []) ++
  (if T.rdvwd != 0#32 && (s.remoteLate T g l).isSome then [.remtmo T.id g l] else [])

/-- The timer has reached RDVWD. -/
def Team.timedOut (T : Team) (timer : Option Nat) : Bool :=
  match timer with
  | none => false
  | some n => T.rdvwd != 0#32 && decide (T.rdvwd.toNat ≤ n)

def Group.due (s : State) (T : Team) (g : Nat) (G : Group) : List Instr :=
  ((lanesOf G.live).map fun l => (G.thread l).due s T g l).flatten ++
  (match G.trap with
   | none => []
   | some r => if s.trapReady T.id g then [.trapEntry T.id g] else if T.timedOut (some r.waited) then [.kilnfull T.id g] else []) ++
  (if G.passed.any fun (_, n) => Config.passBound ≤ n then [.passedOverBound T.id g] else []) ++
  (if G.readySince != 0 && !G.active && G.readySince + Config.starveBound ≤ s.gt then [.starvedPromotion T.id g] else [])

/-- The rendezvous of a team whose timers have run out (R134). -/
def Team.dueTimers (T : Team) : List Instr :=
  (T.numbered.filter fun (_, G) => T.timedOut G.timer || T.timedOut (G.handler.bind (·.timer))).map (fun (g, _) => .rdvtmo T.id g none) ++
    (List.range 16).filterMap fun n =>
      if T.timedOut (vget T.cvs n cvReset).timer then some (.rdvtmo T.id 0 (some (BitVec.ofNat 4 n))) else none

/-- What is due in a team: all of it while the team runs; while it drains, the end of its fences and its traps (R367); and the
timers of its rendezvous for as long as it is resident (R134). -/
def Team.due (s : State) (T : Team) : List Instr :=
  match T.st with
  | .run => (T.numbered.map fun (g, G) => G.due s T g).flatten ++ T.dueTimers
  | .stopping _ =>
    (T.numbered.map fun (g, G) =>
      ((lanesOf G.live).filter (s.fenceDone T g)).map (fun l => .wctPassed T.id g l) ++
        (if G.trap.isSome && s.trapReady T.id g then [.trapEntry T.id g] else [])).flatten ++ T.dueTimers
  | .inPlace => T.dueTimers
  | _ => []

/-- The events that are due, in the order in which they act. -/
def State.dueEvents (s : State) : List Instr :=
  ((List.range 16).filter s.recoveryOver).map (.recoveryLimit ·) ++
  ((s.m.replan.map (·.1)).filter s.replanOver).map (.replanEnd ·) ++
  ((List.range 8).map fun p => ((s.part p).leases.filter fun e => e.ends ≤ s.gt).map fun e => .leaseExpiry p e.entry).flatten ++
  (s.mx.filterMap fun (c, m) => if m.busy.any fun x => x.1 ≤ s.gt then some (.matrixInstructionFinish c) else none) ++
  (s.mx.filterMap fun (c, m) => if m.queue.isEmpty then none else some (.matrixUnitPerform c)) ++
  (s.mx.filterMap fun (c, m) => if c % 2 = 0 ∧ (m.pairAt.isSome ∨ m.queue.any (·.work.isPair)) then some (.pairedStart c) else none) ++
  (s.teams.map fun T => T.due s).flatten ++
  (s.mx.filterMap fun (c, m) => if m.queue.any (·.work.isPair) then some (.pairedMmaTimeout c) else none) ++
  (s.cmds.map fun c => (if s.collLate c then [.collTimeout c.id] else []) ++ (if c.page.isSome then [.efault c.id] else [])).flatten ++
  (s.packers.zipIdx.filter fun (k, _) => s.partialDue k).map (fun (_, j) => .partialGroup j) ++
  ((s.launches.filter fun L => !L.urgent && s.overdue L).map fun L => .urgent L.part L.lnum)

/-- The event changes the machine. -/
def State.changedBy (s : State) (i : Instr) : Bool :=
  match exec i s with
  | .next s' => s' != s
  | _ => true

/-- The errors whose time has come (R375 to R380). -/
def State.upsetsDue (s : State) : List (Nat × Upset) := s.upsets.filter fun (t, u) => decide (t ≤ s.gt) && !u.waits

/-! ## Issue (R333) -/

/-- The number of a sub-core. -/
def subNo (core sub : Nat) : Nat := core * 4 + sub

/-- The sub-core has an issue cycle left in this cycle, which no fused ceiling takes from it (R402). -/
def State.slotFree (s : State) (core sub : Nat) : Bool :=
  !s.issued.contains (subNo core sub) && !(vget s.m.dies (core / Config.coresPerDie) dieDefault).forced

/-- Sub-cores that hold groups, ascending. -/
def State.subcores (s : State) : List Nat :=
  (s.teams.map fun (T : Team) => T.groups.map fun G => subNo T.core G.sub).flatten.foldl insertNat []

/-- The launch asks for rotated duplicate issue, and the word is one that is issued twice (R375, R376). -/
def State.rotates (s : State) (T : Team) (i : Instr) : Bool := ((s.launchOf T).map (·.r.rdi)).getD false && !i.once

/-- The lanes whose two results differ: lane l is computed on datapath l, and then on datapath l + 1 (R375). A datapath that is wrong in the first issue
alone makes its own lane differ, and a lasting defect that of the lane before it too (R377). -/
def struckLanes (paths : BitVec 32) (lasting : Bool) : BitVec 32 := if lasting then paths ||| paths.rotateRight 1 else paths

/-- The lanes of each member group in which a word at the cursor executes. -/
def State.executing (s : State) (T : Team) (i : Instr) : List (Nat × Word) :=
  let lns := match i.iss with | some x => s.actors T x | none => s.members T
  s.cur.members.map fun (g, _) => (g, lanesIn g lns)

/-- The disagreement of the word that a sub-core issues now, and the lanes in which its results differ, by group (R377): the results of a lane that
does not execute are not compared, nor is anything of a word without results (R375). -/
def State.disagrees (s : State) (T : Team) (sub : Nat) (i : Instr) : Option ((Nat × Upset) × List (Nat × Word) × Bool) :=
  if i.mute then none
  else
    s.upsets.findSome? fun x => match x with
      | (t, .rdi c b paths twice) =>
        let hit := ((s.executing T i).map fun (g, m) => (g, m &&& struckLanes paths twice)).filter fun (_, m) => m != 0#32
        if t ≤ s.gt && c == T.core && b == sub && !hit.isEmpty then some (x, hit, twice) else none
      | _ => none

/-- Cycles of its sub-core that a word takes: two when it is issued twice, four when it is issued again (R375, R377). -/
def wordCycles (rotates again : Bool) : Nat := if rotates then (if again then 4 else 2) else 1

/-- A word at the cursor executed by the sub-core that issues it: once, or twice with its two results compared (R375 to R377). -/
def State.perform (s : State) (T : Team) (sub : Nat) (i : Instr) : Out :=
  let bad := if s.rotates T i then s.disagrees T sub i else none
  let s := { s with issued := s.issued ++ List.replicate (wordCycles (s.rotates T i) bad.isSome) (subNo T.core sub) }
  match bad with
  | none => exec i s
  | some (x, hit, twice) =>
    if twice then
      -- a lasting defect stays
      let (dst, width) := fltOf i
      let ms := s.cur.members.map (·.1)
      let (g, lanes) := (hit.head?).getD (0, 0#32)
      .next (s.raisingIn T.id ms (s.raise { code := .rdimis, t := T.id, g, lanes, pc := s.cur.pc, dst, width, arr := s.cur.arr, members := ms,
                                            va := s.eaOf T ((lanesOf lanes).map (T.ln g)) (addressOf i) }))
    else exec i ({ s with upsets := s.upsets.erase x }.modPart T.part (·.bump 0xF90))

/-- In run-ahead a word counts, and the 1,024th ends it; a word that R362 holds back ends it at once (R364). -/
def State.countAhead (s : State) (t g : Nat) : State :=
  if s.inRunAhead t g then
    s.modGroup t g fun G => { G with spec := G.spec.map fun sp => { sp with words := sp.words + 1 } }
  else s

def State.endAhead (s : State) (t g : Nat) : State :=
  match (s.group? t g).bind (·.spec) with
  | some sp => if sp.runAhead && 1024 ≤ sp.words then s.endRunAhead t g else s
  | none => s

/-- The sub-core that gives a single execution its issue cycle. -/
def Team.leadSub (T : Team) (d : Due) : Nat := ((T.group? d.lead).map (·.sub)).getD 0

/-- The cycle since which the set of a group at a PC has been ready (R333). -/
def State.readyTime (s : State) (G : Group) (pc : Word) : Nat := (G.readyAt.lookup pc).getD (s.gt + 1)

/-- What a group of the active set may issue. -/
inductive Choice where
  | set (x : Seat) (rs : List Ready)
  | due (x : Seat) (d : Due)
  deriving DecidableEq, Repr

def Choice.seat : Choice → Seat
  | .set x _ => x
  | .due x _ => x

/-- The PC of the word that an offer issues. -/
def Choice.pc : Choice → Word
  | .set x rs => ((pick x.G rs).map (·.pc)).getD 0#32
  | .due _ d => d.cur.pc

/-- The instruction starts engine commands. -/
def startsCommands (i : Instr) : Bool :=
  match i with
  | .cpy .. | .cpyg .. | .cpys .. | .mst .. | .coll .. => true
  | _ => false

/-- A single execution may begin. One that starts engine commands does not while it would have nothing happen or pass the limit of the core
(R247), and a matrix instruction not in a cycle in which one on a higher cv has been executed on its core (R223). -/
def State.mayRun (s : State) (d : Due) : Bool :=
  let core := ((s.team? d.cur.team).map (·.core)).getD Config.cores
  let cv (a : Arr) : Nat := (a.cv?.map (·.toNat)).getD 0
  !(d.i.matrix && (s.mxOf core).queue.any fun o => o.time == s.gt && cv d.cur.arr < cv o.arr) &&
    (!startsCommands d.i ||
      let s := { s with cur := d.cur }
      match exec d.i s with
      | .next u => u != s && decide (u.cmdCount core ≤ max Config.cmdMax (s.cmdCount core))
      | _ => true)

/-- What the active groups of a sub-core may issue: each the set that its grouping stage picks, or the single execution of its own
rendezvous. -/
def State.offersOf (s : State) (core sub : Nat) : List Choice :=
  ((s.seats core sub).filter fun x => x.G.active && !x.out).filterMap fun x =>
    match s.groupDue x.T x.g x.G with
    | some d => if s.mayRun d then some (.due x d) else none
    | none =>
      match s.readySets x.T x.g x.G with
      | [] => none
      | rs => some (.set x rs)

/-- The group whose current ready set has been ready longest, and of equal ones the lowest slot (R333). -/
def State.older (s : State) (x y : Choice) : Bool :=
  let key (z : Choice) : List Nat := [s.readyTime z.seat.G z.pc, z.seat.G.slot]
  decide (key x < key y)

/-- What a sub-core issues next. -/
def State.choice (s : State) (core sub : Nat) : Option Choice :=
  (s.offersOf core sub).foldl (fun (best : Option Choice) x => match best with
    | some b => if s.older x b then some x else some b
    | none => some x) none

/-- The issue cycles that a single execution takes of its sub-core. -/
def State.cyclesOf (s : State) (T : Team) (d : Due) : Nat :=
  let s := { s with cur := d.cur }
  wordCycles (s.rotates T d.i) (s.disagrees T (T.leadSub d) d.i).isSome

/-- The group ready longest on a sub-core would let more than 7 issue cycles pass if a word took so many of them now: the next one is its own
(R333). -/
def State.mustYield (s : State) (core sub cycles : Nat) : Bool :=
  match s.choice core sub with
  | some x => 7 < x.seat.G.passedBy + cycles
  | none => false

/-- A single execution would have the group ready longest wait too long. -/
def State.crowds (s : State) (T : Team) (d : Due) : Bool := s.mustYield T.core (T.leadSub d) (s.cyclesOf T d)

/-- The single executions that act now: those that R135 and R139 put in this cycle, and of S and T scope those whose sub-core has an
issue cycle for them (R333). -/
def State.wides (s : State) : List (Team × Due) :=
  (s.teams.map fun T =>
    ((s.duesOf T).filter fun d => s.mayRun d && (s.prompt.contains d.key ||
      (d.cur.arr != .group && s.slotFree T.core (T.leadSub d) && !s.crowds T d))).map fun d => (T, d)).flatten

/-- The word that an offer issues. -/
def Choice.word : Choice → Option Instr
  | .set x rs => (pick x.G rs).map (·.i)
  | .due _ d => some d.i

/-- The items of a list by ascending key, those of equal key in their order. -/
def byKey {α : Type} (key : α → List Nat) (l : List α) : List α :=
  l.foldl (fun ys x => ys.takeWhile (fun y => decide (key y ≤ key x)) ++ x :: ys.dropWhile fun y => decide (key y ≤ key x)) []

/-- What the sub-cores issue: stores that act on full-empty bits come first (R175), and the others by group (log entry 2). -/
def State.issues (s : State) : List Choice :=
  let stores (x : Choice) : Bool := match x.word with | some (.stfe ..) => true | _ => false
  byKey (fun x => [if stores x then 0 else 1, x.seat.g])
    (s.subcores.filterMap fun n => if s.slotFree (n / 4) (n % 4) then s.choice (n / 4) (n % 4) else none)

/-- A single execution takes an issue cycle of its sub-core: the group that would have issued has let it pass (R333). -/
def State.passBy (s : State) (core sub : Nat) (d : Due) (cycles : Nat) : State :=
  match s.choice core sub with
  | none => s
  | some x =>
    if x.seat.T.id == d.cur.team && d.cur.members.any fun (g, _) => g == x.seat.g then s
    else s.modGroup x.seat.T.id x.seat.g fun G => { G with passedBy := G.passedBy + cycles }

/-- The machine as a single execution begins: the cursor at it, its word in the instruction cache, and its groups have issued (R123,
R332, R333). -/
def State.began (s : State) (T : Team) (d : Due) : State :=
  let s := s.passBy T.core (T.leadSub d) d (s.cyclesOf T d)
  let s := d.cur.members.foldl (fun s (g, _) => s.modGroup T.id g fun G => (G.chosen d.cur.pc).issuedAt d.cur.pc s.gt) s
  { s with cur := d.cur, prompt := s.prompt.filter (· != d.key) }.fill T d.cur.pc

/-- The single execution of a complete rendezvous (R131). -/
def State.runWide (s : State) (T : Team) (d : Due) : Out :=
  let sub := T.leadSub d
  let ahead := (d.cur.members.map (·.1)).filter (s.inRunAhead T.id)
  match ahead with
  | a :: _ =>
    if d.i.heldBack then .next (s.endRunAhead T.id a)
    else
      ((s.began T d).countAhead T.id a).perform T sub d.i |>.then (·.endAhead T.id a)
  | [] => (s.began T d).perform T sub d.i

/-- A thread set issues its word; threads that reach a wide word arrive at it, and take no issue cycle (R131, R333). -/
def State.issueSet (s : State) (x : Seat) (rs : List Ready) (r : Ready) : Out :=
  let t := x.T.id
  let word : Option Instr := match s.wordAt x.T x.g x.G r.lanes r.pc with
    | .ok w => some (instrOf w)
    | .error _ => none
  if s.inRunAhead t x.g && (word.map (·.heldBack)).getD false then .next (s.endRunAhead t x.g)
  else
    match r.i with
    | .threadArrives .. => exec r.i ((s.modGroup t x.g (·.chosen r.pc)).fill x.T r.pc)
    | .fetchFault .. => exec r.i s
    | i =>
      let s := s.fill x.T r.pc
      let s := s.modGroup t x.g fun G => (G.countPassed r.pc (rs.map (·.pc))).issuedAt r.pc s.gt
      let s := { s with cur := { team := t, pc := r.pc, members := [(x.g, maskOf r.lanes)], arr := .no } }
      ((s.countAhead t x.g).perform x.T x.G.sub i).then (·.endAhead t x.g)

/-- A sub-core issues (R122, R333). -/
def State.issue (s : State) (x : Seat) (rs : List Ready) : Out :=
  match pick x.G rs with
  | some r => s.issueSet x rs r
  | none => .next s

/-- A sub-core issues what it has chosen. -/
def State.take (s : State) : Choice → Out
  | .set x rs => s.issue x rs
  | .due x d => s.runWide x.T d

/-! ## One fault of a team in a cycle (R354) -/

/-- What may act in a cycle: an error that strikes, an event that is due, a rendezvous that can no longer complete, a single execution, the issue of a
sub-core. -/
inductive Turn where
  | upset (x : Nat × Upset)
  | event (i : Instr)
  | mismatch (r : Raise)
  | wide (T : Team) (d : Due)
  | issue (x : Choice)
  deriving DecidableEq, Repr

/-- A turn taken. -/
def State.act (s : State) : Turn → Out
  | .upset x => .next ({ s with upsets := s.upsets.erase x }.strike x.2)
  | .event i => exec i s
  | .mismatch r => .next (s.raiseWait r)
  | .wide T d => s.runWide T d
  | .issue x => s.take x

/-- The threads of an offer arrive at a wide word, which takes no issue cycle (R131). -/
def Choice.arrives : Choice → Bool
  | .set x rs => match pick x.G rs with
    | some r => match r.i with | .threadArrives .. => true | _ => false
    | none => false
  | .due .. => false

/-- The group of a load that acts on a full-empty bit, where the turn performs one (R175). -/
def Turn.fullLoad : Turn → Option Nat
  | .event (.ldfeWake _ g _) => some g
  | .wide _ d => match d.i with | .ldfe .. => some d.lead | _ => none
  | .issue x => match x.word with | some (.ldfe ..) => some x.seat.g | _ => none
  | _ => none

/-- What may act now, in the order of the model (log entry 2). Loads that act on full-empty bits come after the stores that do, by group (R175). A
single execution that R135 or R139 puts in this cycle comes after the issue of a group that has waited for as long as it may (R333). The single
executions of matrix instructions come last, in ascending cv, so that one which is completed in this cycle takes its place by its cv (R223); the
issue cycles that they take are kept for them. -/
def State.turns (s : State) : List Turn :=
  let (late, now) := s.wides.partition fun (T, d) => s.crowds T d
  let (mx, ws) := now.partition fun (_, d) => d.i.matrix
  let kept (x : Choice) : Bool := !x.arrives && mx.any fun (T, d) => subNo T.core (T.leadSub d) == subNo x.seat.T.core x.seat.G.sub
  let acts := (s.dueEvents.filter s.changedBy).map Turn.event ++
    ((s.teams.filterMap (·.rdvmis?) ++ (s.teams.map s.lostWords).flatten).filter fun r => s.raiseWait r != s).map .mismatch ++
    ws.map (fun (T, d) => .wide T d) ++ (s.issues.filter (!kept ·)).map .issue
  s.upsetsDue.map .upset ++ acts.filter (·.fullLoad.isNone) ++ byKey (fun x => x.fullLoad.toList) (acts.filter (·.fullLoad.isSome)) ++
    (late ++ mx).map fun (T, d) => .wide T d

/-- A fault that a turn would deliver: its team, its rank by class (team, system, user), and its group. -/
structure Strike where
  team : Team
  rank : Nat
  group : Nat
  deriving DecidableEq, Repr

/-- The fault that has been delivered in a team by the time of a state. -/
def State.strikeIn (u : State) (T : Team) : Option Strike :=
  match T.st, u.team? T.id with
  | .run, some U =>
    match U.st with
    | .ending true => some { team := T, rank := 0, group := ((u.part T.part).faults.getLast?.map (·.group)).getD 0 }
    | .stopping r => some { team := T, rank := 1, group := r.group }
    | _ =>
      (T.numbered.find? fun (g, G) => G.handler.isNone && G.trap.isNone &&
        (match U.group? g with | some H => H.handler.isSome || H.trap.isSome | none => false)).map fun (g, _) =>
          { team := T, rank := 2, group := g }
  | _, _ => none

/-- The fault that a turn would deliver. -/
def State.strikeOf (s : State) (x : Turn) : Option Strike :=
  match s.act x with
  | .next u => s.teams.findSome? u.strikeIn
  | _ => none

/-- The one delivered first: of lower rank, then of lower group (R354). -/
def Strike.before (a b : Strike) : Bool := a.rank < b.rank || (a.rank == b.rank && a.group < b.group)

/-- The turn taken next: first every one that delivers no fault. Of the others the one whose fault R354 chooses; the team of a system
or team fault is stopped then, and in the team of a user trap the faults of the other groups are dropped in this cycle. -/
def State.nextTurn (s : State) : Option Turn :=
  let ts := s.turns
  (ts.find? fun x => (s.strikeOf x).isNone).or
    ((ts.foldl (fun (best : Option (Strike × Turn)) x =>
      match s.strikeOf x with
      | none => best
      | some k =>
        if k.team.struck = s.gt + 1 then best
        else match best with
          | some (k', _) => if k.before k' then some (k, x) else best
          | none => some (k, x)) none).map (·.2))

/-! ## Events whose moment is free -/

/-- What may happen to the accesses in flight. -/
def State.flightEvents (s : State) : List Instr :=
  (s.flights.map fun f =>
    (if s.homeReady f then [.reachesHome f.id] else []) ++
    ((f.lanes.filter (s.landReady f)).map fun a => .loadLands f.id a.lane) ++
    (if f.confirmed then []
     else if f.lanes.all fun a => s.found (s.partOf f) a.ia then [.accessConfirmed f.id] else [.runAhead f.id])).flatten

/-- What may happen in the engines, and to the power tokens. -/
def State.unitEvents (s : State) : List Instr :=
  (s.cmds.filterMap fun c =>
    if s.cmdDone c then some (.arrive c.id)
    else match c.err with
      | some code => if s.cmdQuiet c then some (.fail c.id code) else none
      | none => if c.gathered.isSome then some (.collComplete c.id) else none) ++
  (s.teams.filter fun T => s.isMtx T && !s.hasToken T).map fun T => .powerToken (T.core / Config.coresPerDie) T.cid

/-- What may happen to teams: swap-outs, ends, answers about pins. -/
def State.teamEvents (s : State) : List Instr :=
  (s.teams.map fun T =>
    (match T.st with | .stopping _ => [.swapOut T.id] | _ => []) ++ (if s.teamOver T then [.teamEnd T.id] else []) ++
    (T.numbered.map fun (g, G) => ((lanesOf G.live).filter fun l => match (G.thread l).wait with | .pin .. => true | _ => false).map
      fun l => .pgpinAnswer T.id g l).flatten).flatten ++
  (s.saved.filter fun v => (s.endedOut v.team.id).isSome).map fun v => .teamEnd v.team.id

/-- What the launch queue engine may do. -/
def State.launchEvents (s : State) : List Instr :=
  ((List.range 8).map fun p =>
    (if s.dequeueReady p then [.dequeue p] else []) ++ (if (s.nextPlaced p).isSome then [.place p] else []) ++
      (if s.commitReady p then [.roundCommit p] else []) ++ (if s.resumeReady p then [.resumePlacement p] else [])).flatten ++
  (s.launches.map fun L =>
    match L.st with
    | .sema => [.semaphorePoll L.part L.queue]
    | .waiting => if s.mayAdmit L then [.admit_ L.part L.lnum] else []
    | .admitted => if s.allEnded L then [.launchEnd L.part L.lnum] else []
    | .finishing _ => if L.wct ≤ s.gt && L.page.isNone && L.req.isNone && !s.writesUnderWay L then [.launchEnd L.part L.lnum] else []
    | .reading => []).flatten

/-- What the memory side of the partitions may do. -/
def State.memoryEvents (s : State) : List Instr :=
  ((List.range 8).map fun p =>
    let pt := s.part p
    (if s.migrateReady p then [.migrate p] else []) ++
    (match pt.mig with
     | none => []
     | some g => match s.migPoison g with | some n => [.migabort p (some n)] | none => [if s.cxlDown g.dst then .migabort p none else .migdone p]) ++
    (if pt.drops.isEmpty then [] else [.translationDropDone p]) ++
    (((List.range 64).filter fun h => pt.handleAct h == 1).map fun h => .evict p h) ++
    (((List.range 64).filter fun h => pt.handleAct h == 2).map fun h => .demote p h) ++
    (if s.inrstReady p then [.inrstClear p] else [])).flatten

/-- The mailbox command that the controller has before it (R404). -/
def Module.command (m : Module) : List Instr :=
  if !m.mbdb then []
  else match m.mbcmd.toNat with
    | 1 => [.getlimits]
    | 2 => [.gettelem]
    | 3 => [.setcap]
    | 4 => [.setwarn]
    | 5 => [.getageing]
    | _ => [.unknownCommand]

/-- The accesses' events without those that would deliver a fault where R354 chooses another of the same team: one that has been delivered in
this cycle, or one of those that may come now. -/
def State.chosenEvents (s : State) : List Instr :=
  let es := s.flightEvents.map fun i => (i, match i with
    | .runAhead _ | .reachesHome _ => s.strikeOf (.event i)
    | _ => none)
  es.filterMap fun (i, k) => match k with
    | none => some i
    | some k =>
      if k.team.struck = s.gt + 1 || es.any fun (_, j) => j.any fun j => j.team.id == k.team.id && j.before k then none else some i

/-- Every event that may happen now, and whose moment the spec leaves open. -/
def State.latent (s : State) : List Instr :=
  s.chosenEvents ++ s.unitEvents ++ s.teamEvents ++ s.launchEvents ++ s.memoryEvents ++ s.m.command

/-! ## The end of a cycle -/

/-- A Dexgal Link port is in recovery. -/
def State.replaying (s : State) (port : Nat) : Bool := (vget s.m.links port linkDefault).st == .recovery

/-- The link or port of an outbound request is in recovery (R366). -/
def State.replays (s : State) (r : OutReq) : Bool := if r.path = 2 then s.replaying r.link else vget s.m.pcie r.path .down == .recovery

/-- Some link or port is in recovery. -/
def Module.recovers (m : Module) : Bool := m.links.any (·.st == .recovery) || m.pcie.any (· == .recovery)

/-- A thread has an operation outstanding over a link or port in recovery (R366). -/
def State.recovering (s : State) (T : Team) (g l : Nat) : Bool :=
  let issued (c : Cmd) : Bool := c.team == T.id && c.issuers.any fun (j, m) => j == g && m.getLsbD l
  (s.outbox.any fun r => s.replays r &&
    ((match r.flight with
      | some (id, k) => k == l && s.flights.any fun f => f.id == id && f.team == T.id && f.group == g
      | none => false) ||
     (match r.cmd with
      | some id => s.cmds.any fun c => c.id == id && issued c
      | none => false))) ||
  s.cmds.any fun c => issued c && match c.exchanging with
    | some x => x.peers.any fun p => x.awaits p && s.replaying p.port
    | none => false

/-- Some live thread of the groups has. -/
def State.anyRecovering (s : State) (T : Team) (gs : List Nat) : Bool :=
  s.m.recovers && gs.any fun g => match T.group? g with
    | some G => (lanesOf G.live).any (s.recovering T g)
    | none => false

/-- A count of cycles, or of cycles skipped while there are fewer than WDREM of those (R366). -/
def countCycle (T : Team) (rec : Bool) (n skipped : Nat) : Nat × Nat :=
  if rec && skipped < T.wdrem.toNat then (n, skipped + 1) else (n + 1, skipped)

/-- A thread after a cycle of its team. -/
def State.tickThread (s : State) (T : Team) (g : Nat) (G : Group) (l : Nat) (th : Thread) : Thread :=
  if !th.live || th.born then { th with born := false }
  else
    let th := if th.arr != .no && !T.complete G l th.arr then { th with rdv := th.rdv + 1 } else th
    if th.wait == .none && !th.closed then th
    else
      let (n, k) := countCycle T (s.recovering T g l) th.waited th.skipped
      { th with waited := n, skipped := k }

/-- A group after a cycle of its team. -/
def State.tickGroup (s : State) (T : Team) (g : Nat) (G : Group) : Group :=
  let count (timer : Option Nat) (skip : Nat) : Option Nat × Nat := match timer with
    | none => (none, skip)
    | some n => let (n, k) := countCycle T (s.anyRecovering T [g]) n skip; (some n, k)
  let (timer, tskip) := if G.met?.isSome then (G.timer, G.tskip) else count G.timer G.tskip
  { G with
    threads := Vector.ofFn fun l => s.tickThread T g G l.val (G.thread l.val), timer, tskip,
    handler := G.handler.map fun h => let (n, k) := count h.timer h.tskip; { h with timer := n, tskip := k },
    trap := G.trap.map fun r =>
      match s.enterHandler (r.raise T.id g) with
      | .error .row => let (n, k) := countCycle T (s.anyRecovering T [g]) r.waited r.skipped; { r with waited := n, skipped := k }
      | _ => r,
    readySince := if s.groupReady T g G then (if G.readySince = 0 then s.gt + 1 else G.readySince) else 0,
    readyAt := (s.readyPcs T g G).map fun p => (p, s.readyTime G p),
    -- cycles that a word of several already takes count for a group that comes to wait behind it (R333)
    passedBy := if s.groupReady T g G then max G.passedBy (s.issued.count (subNo T.core G.sub) - 1) else 0 }

/-- The groups whose threads a rendezvous on cv `n` waits for: all of them where it is of team scope (R131, R366). -/
def Team.waitsFor (T : Team) (n : Nat) (c : Cv) : List Nat :=
  let whole := T.groups.any fun G => (lanesOf G.live).any fun l => match (G.thread l).arr with | .team cv => cv.toNat == n | _ => false
  (List.range T.groups.length).filter fun g => whole || c.mask.getLsbD g

/-- A convergence register after a cycle of its team. -/
def State.tickCv (s : State) (T : Team) (n : Nat) (c : Cv) : Cv :=
  match c.timer with
  | none => c
  | some k =>
    if (T.signedAll? n).isSome || T.handled n then c
    else
      let (k, j) := countCycle T (s.anyRecovering T (T.waitsFor n c)) k c.tskip
      { c with timer := some k, tskip := j }

/-- A team after a cycle. Siblings that have been started in it count from now on (R372), so that signatures are withdrawn (R135) and a
meeting that they complete is over (R124). -/
def State.tickTeam (s : State) (T : Team) : Team :=
  if !T.resident then T
  else
    let expecting := T.groups.any (·.expecting)
    let T := { T with groups := T.numbered.map fun (g, G) =>
                        let H := s.tickGroup T g G
                        if G.expecting then H.settled (s.isDet T) else H,
                      cvs := Vector.ofFn fun n => s.tickCv T n.val (vget T.cvs n.val cvReset) }
    if expecting then T.refresh else T

/-- Accesses and paired MMAs of running teams have been outstanding for a cycle more; what is counted against RDVWD is counted for each
thread that waits (R233, R366). -/
def State.tickAges (s : State) : State :=
  let flight (f : Flight) : Flight :=
    match s.team? f.team with
    | some T =>
      let lane (a : LaneAcc) : LaneAcc :=
        let (n, k) := countCycle T (s.m.recovers && s.recovering T f.group a.lane) a.waited a.skipped
        { a with waited := n, skipped := k }
      if T.st != .run then f else { f with age := f.age + 1, lanes := f.lanes.map lane }
    | none => f
  let op (o : MxOp) : MxOp :=
    match s.team? o.team with
    | some T =>
      if T.st != .run || !o.work.isPair || s.pairOver T.core then o
      else let (n, k) := countCycle T (s.anyRecovering T (o.members.map (·.1))) o.waited o.skipped; { o with waited := n, skipped := k }
    | none => o
  { s with flights := s.flights.map flight, mx := s.mx.map fun (c, m) => (c, { m with queue := m.queue.map op }) }

/-- A cycle in which a start of a cluster waits for a power token counts in its PWRTOK (R32, R235). -/
def State.tickPower (s : State) : State :=
  ((s.mx.filterMap fun (c, _) => (s.waitsToken c).map (·.cid)).eraseDups).foldl (fun s n =>
    let x := Sparse.get 0#32 s.pwrtok n
    { s with pwrtok := Sparse.set 0#32 s.pwrtok n (if x = allOnes then x else x + 1#32) }) s

/-- A page unit may lose a cached translation, chosen freely (R288; log entry 1). -/
def State.evictions (s : State) : State :=
  let (a, s) := s.oneOf s.tlb.length
  match a with | some j => { s with tlb := s.tlb.eraseIdx j } | none => s

/-- Links in recovery have been so for a cycle more (R394); a fused ceiling holds for its cycle (R402). -/
def Module.tick (m : Module) : Module :=
  { m with links := m.links.map fun l => if l.st == .recovery then { l with time := l.time + 1 } else l,
           dies := m.dies.map fun d => { d with forced := false } }

/-- Issue cycles that words still take, and those that firmware keeps from the sub-cores of a die: which they are is free (R401). -/
def State.tickIssue (s : State) : State :=
  let left := (s.issued.eraseDups).foldl (fun (l : List Nat) n => l.erase n) s.issued
  s.subcores.foldl (fun s n =>
    let share := (vget s.m.dies (n / 4 / Config.coresPerDie) dieDefault).share
    if 256 ≤ share then s
    else
      let (x, s) := s.draw
      if x % 256 < share then s else { s with issued := s.issued ++ [n] }) { s with issued := left }

/-- Time passes for launches that have no unit of a kind to place (R328). -/
def State.tickLaunches (s : State) : State :=
  { s with launches := s.launches.map fun L =>
      { L with sinceTask := if (s.nextTask L).isSome then L.sinceTask else s.gt + 1,
               sinceRung := if (s.nextRung L).isSome then L.sinceRung else s.gt + 1,
               sinceCluster := if L.st == .admitted && L.nextCluster < L.clusters then L.sinceCluster else s.gt + 1 } }

/-- The words at which threads of a team stall for Kiln rows, with those that stall there: those of one group and PC together, and those of
one single execution (R18, R121). -/
def Team.stalls (T : Team) : List Cursor :=
  let here (g : Nat) (G : Group) : List (Nat × Nat × Thread) :=
    ((lanesOf G.live).filter fun l => (G.thread l).wait == .kiln).map fun l => (g, l, G.thread l)
  let all := (T.numbered.map fun (g, G) => here g G).flatten
  (all.map fun (g, _, th) =>
    let ms := T.membership th.arr g
    ({ team := T.id, pc := th.pc, arr := th.arr,
       members := ms.map fun j => (j, maskOf ((all.filter fun (k, _, u) => k == j && u.pc == th.pc && u.arr == th.arr).map fun (_, l, _) => l)) } :
      Cursor)).eraseDups

/-- The threads at a cursor stall no longer. -/
def State.unstall (s : State) (c : Cursor) : State :=
  c.members.foldl (fun s (g, m) => (lanesOf m).foldl (fun s l => s.modThread c.team g l fun th =>
    if th.wait == .kiln then { th with wait := .none } else th) s) s

/-- The word at a cursor, executed now, would stall for rows again (R18). -/
def State.stallsAgain (s : State) (T : Team) (c : Cursor) : Bool :=
  match c.members.find? fun (_, m) => m != 0#32 with
  | none => false
  | some (g, m) =>
    match T.group? g with
    | none => false
    | some G =>
      match s.wordAt T g G (lanesOf m) c.pc with
      | .error _ => false
      | .ok w =>
        match exec (instrOf w) { s.unstall c with cur := c } with
        | .next u => c.members.any fun (g, m) => (lanesOf m).any fun l => (u.thread T.id g l).wait == .kiln
        | _ => false

/-- Stalled threads whose word finds its rows now leave the stall (R18). -/
def State.wakeKiln (s : State) (t : Nat) : State :=
  match s.team? t with
  | none => s
  | some T => (T.stalls.filter fun c => !s.stallsAgain T c).foldl State.unstall s

/-- The end of a cycle: GT advances (R8). -/
def State.tick (s : State) : State :=
  let s := s.launchFull
  let s := { s.throttle with teams := s.teams.map s.tickTeam }
  let s := (s.subcores.foldl (fun s n => s.groupSwap (n / 4) (n % 4)) s)
  let s := (s.teams.map (·.id)).foldl State.wakeKiln s
  let s := ((s.tickAges.tickPower.enginesTick.evictions.failOut s.pathDown).tickLaunches).modModule Module.tick
  { s.tickIssue with gt := s.gt + 1, prompt := [], parts := s.tickIssue.parts.map fun pt => { pt with pinned := [] } }

/-! ## One step -/

/-- A free choice among the events that may happen now and the end of the cycle (log entries 1 and 3). -/
def State.freeStep (s : State) : Out :=
  match s.latent with
  | [] => .next s.tick
  | es =>
    let (n, s) := s.draw
    match es[n % (es.length + 1)]? with
    | some i => exec i s
    | none => .next s.tick

/-- Before stage 4 the module takes inputs and mailbox commands, and time passes (R404, R406). -/
def State.bringupStep (s : State) : Out :=
  match s.inputDue with
  | some i => if i.early then exec i s.received else .next s.received
  | none =>
    let later (s : State) : State := { s.modModule Module.tick with gt := s.gt + 1 }
    match s.m.command with
    | [] => .next (later s)
    | i :: _ =>
      let (n, s) := s.draw
      if n % 2 = 0 then .next (later s) else exec i s

/-- A running module: inputs, then errors, events that are due, single executions and issue, and then what is free. -/
def State.runStep (s : State) : Out :=
  match s.inputDue with
  | some i => if i.input then exec i s.received else .next s.received
  | none =>
    match s.nextTurn with
    | some x => s.act x
    | none => s.freeStep

/-- Pages that an access still waits for: one that stops waiting without an answer leaves the page to be reported anew (R296). -/
def State.dropEfaults (s : State) : State :=
  if s.parts.toList.all (·.efaults.isEmpty) then s
  else
    let waits (p : Nat) : Bool := s.cmds.any (·.page == some p) || s.launches.any (·.page == some p)
    { s with parts := s.parts.map fun pt => { pt with efaults := pt.efaults.filter fun (p, _) => waits p } }

/-- The reads of a word through the aperture go when their thread has left it; threads that wait for such reads go on once all of the group
at the word have come (R391). -/
def State.wakeObjects (s : State) : State :=
  if s.flights.all fun f => !f.object then s
  else
    let s := s.dropFlights fun f => f.object && !s.rereads f && f.lanes.all fun a => let th := s.thread f.team f.group a.lane; !th.live || th.pc != f.pc
    let come (t g : Nat) (pc : Word) : Bool :=
      s.flights.all fun f => !f.object || f.team != t || f.group != g || f.pc != pc || f.lanes.all (·.val.isSome)
    let wake (t g : Nat) (th : Thread) : Thread := if th.wait == .object && come t g th.pc then { th with wait := .none, waited := 0, skipped := 0 } else th
    { s with teams := s.teams.map fun T =>
        if T.groups.any fun G => G.threads.any (·.wait == .object) then
          { T with groups := T.numbered.map fun (g, G) => { G with threads := G.threads.map (wake T.id g) } }
        else T }

/-- Queues are known whose groups may be held (R214). -/
def State.releaseQueues (s : State) : State := if s.parts.toList.all (·.queues.isEmpty) then s else s.dropQueues.queueRelease

/-- What every step ends with: latches that no longer hold, pages that are waited for no longer, ended teams without accesses, reads that have
come, queues that are over their mark no longer, LOST counts that had to wait, fault records to be posted (R178, R214, R232, R296, R360, R391). -/
def State.afterStep (s : State) : State := (List.range 8).foldl State.post s.checkLatch.dropEfaults.dropGone.retables.wakeObjects.releaseQueues.payOwed

end Sys2Proof.Machine
end

