-- ==== Sys2Proof/Machine/Bench.lean ====
section
/-! DEFINITION. A machine in which one thread of one team stands at a word, for `State.withFetchWord`: what bring-up, the driver, a
launch and its placement leave behind (log entry 4). -/

namespace Sys2Proof.Machine

open Sys2Proof

/-- The page table of the bench: its root at 0x1000 of HBM5, and one 2 MiB page of the window of partition 0, at 0x200000 (R288,
R289). -/
def State.benchTables (s : State) : State :=
  ((s.setBytes (physKey 0 0x1000) 8 0x2001).setBytes (physKey 0 0x2000) 8 0x3001).setBytes (physKey 0 0x3000) 8 0x200003

/-- Partition 0 of the bench: the root table, and range register 0 of context 0, which maps the virtual addresses of the page to
its window with every permission (R280, R290). -/
def benchPart : Part :=
  { partReset with
    regs := [(0x000, 0x1000#64), (0x8008, 0x1F0000#64), (0x8018, 0xF#64)], nextLnum := 2#32, lastLnum := [(0, 1#32)] }

/-- The record of the bench's launch: one team of one group, with matrix use; code at virtual address 0. -/
def benchRec : LaunchRec :=
  { ok := true, prio := 0, det := false, rdi := false, fuse := false, mtx := true, entry := 0#32, code := 0#64, codeLen := 0x10000#32,
    teamG := 1, resv := 0, xblk := 3, snrows := 64, basin := 4096, clw := 1, clh := 1, lease := 256, ctx := 0, rdvwd := 0#32,
    wdrem := 0#32, ext := [1, 1, 1], ind := 0#3, datak := 0xFF, nbnd := 0, predm := 0, sema := 0#64, semv := 0#32, predn := 0#32,
    data := 0#64, cmpl := 0#64, msiv := 0, msie := false, gxaddr := [], cvmask := [], kidx := [], baddr := [], ktab := [] }

/-- The launch, admitted and placed. -/
def benchLaunch : Launch :=
  { part := 0, lnum := 1#32, queue := 0, r := benchRec, st := .admitted, pred := none, ext := [1, 1, 1], kv := [], nextCluster := 1,
    counter := 1, succs := 0, succRan := false, ended := 0, faulted := false, wct := 0, sinceTask := 0, sinceRung := 0, sinceCluster := 0, urgent := false, page := none, got := [],
    req := none, noCmpl := false, det := none }

/-- The thread at the word: its base rows are the first eight of its bank; it has arrived where the word is a wide one. -/
def benchThread (a : Arr) : Thread :=
  { threadIdle with live := true, rows := Vector.ofFn fun i => if i.val < 8 then some i.val else none, arr := a }

/-- The group: lane 0 is live. -/
def benchGroup (a : Arr) : Group :=
  { groupStart 0 0 false with threads := vset (.replicate 32 threadIdle) 0 (benchThread a), active := true, readySince := 1 }

/-- The team: every cv names its one group. -/
def benchTeam (id : Nat) (a : Arr) : Team :=
  Team.refresh
    { id, part := 0, lnum := 1#32, index := 0, grid := true, task := false, depth := 0, core := 0, s0 := 0, cluster := 0, rank := 0, cid := id,
      cores := [0], st := .run, k := .replicate 64 0#32, cvs := .replicate 16 { cvReset with mask := 1#64 }, groups := [benchGroup a],
      basinBase := 0, basinLen := 4096, xblk := 3, snaprows := 64, trapvec := 0#32, fpen := 0#32, rdvwd := 0#32, wdrem := 0#32,
      gscale := 0x3F800000#32, burstcap := 0#32, succ := false, tbc := 0#16, shadows := [], full := [], broken := false, late := [], struck := 0, wdSet := 0, engFull := [], since := 0 }

/-- The base rows of the thread, zero. -/
def benchRows (id : Nat) : SMap Row :=
  (List.range 8).map fun j =>
    (j, { regs := .replicate 8 0#32, pend := 0#8, poison := 0#8, count := 1, owner := id, pool := .base 0 })

/-- The scope at which the instruction of a word executes. -/
def arrOf (w : Dword) : Arr := (instrOf w).arr

/-- The machine with a word placed where the next step issues it: memory keeps its other bytes, and nothing else is under way. -/
def State.bench (s : State) (w : Dword) : State :=
  let id := s.nextId
  { State.reset with
    gt := s.gt, fresh := s.fresh, nextId := s.nextId + 1, mem := (s.benchTables.setBytes (physKey 0 0x200000) 8 w.toNat).mem,
    kiln := benchRows id, teams := [benchTeam id (arrOf w)], launches := [benchLaunch],
    parts := vset (.replicate 8 partReset) 0 benchPart,
    m := { moduleInit with stage := 4 } }

end Sys2Proof.Machine
end

