-- ==== Sys2Proof/Machine/Step.lean ====
section
/-! DEFINITION. One step of the machine, and a word placed where the next step issues it. -/

namespace Sys2Proof.Machine

open Sys2Proof

/-- One step: of a stopped module, of a module in bring-up, or of a running one. -/
def step (s : State) : Host.Outcome State Fault Refusal :=
  if s.m.stopped then s.stoppedStep
  else if s.m.stage < 4 then s.bringupStep
  else s.runStep.then State.afterStep

/-- The machine with an instruction of `nbits` bits placed where the next step issues it (log entry 4): an instruction is one
64-bit word, and its bits from `nbits` on are 0. -/
def State.withFetchWord (s : State) (nbits w : Nat) : State := s.bench (BitVec.ofNat 64 (w % 2 ^ nbits))

end Sys2Proof.Machine
end

