-- ==== Sys2Proof/Safety.lean ====
section
/-! DEFINITION. What the claims speak of: a run that goes on, where an instruction stands, which registers a lane may use, and what
an instruction that writes registers comes to. -/

namespace Sys2Proof.Machine

open Sys2Proof

/-! ## Runs -/

/-- The answer is a next state of which a property holds. -/
def GoesTo (o : Out) (P : State → Prop) : Prop := ∃ t, o = .next t ∧ P t

/-- A run is safe as long as it goes on: no step of it ends in a fault or a refusal of the model. -/
def SafeFor (n : Nat) (s : State) : Prop := GoesTo (Sys2Proof.core.run n s) fun _ => True

/-! ## What a lane holds -/

/-- The row of the Kiln behind a row pointer of a lane. -/
def State.rowAt (s : State) (t g l i : Nat) : Option Nat :=
  match s.team? t with
  | none => none
  | some T => (vget (T.ln g l).th.rows i none).map fun x => rowKey T.core (T.ln g l).sub l x

/-- A v register of a lane of a team. -/
def State.reg (s : State) (t g l n : Nat) : Reg :=
  match s.team? t with
  | none => { val := 0#32, taint := false, poison := false, pend := false, unk := false }
  | some T => s.rd (T.ln g l) n

/-- The row behind a row pointer belongs to that pointer alone: it is held once, and no other pointer of a resident team names it
(R16, R18). -/
def State.owns (s : State) (t g l i : Nat) : Prop :=
  ∃ k, s.rowAt t g l i = some k ∧ (s.row k).count = 1 ∧
    ∀ t' g' l' i', s.rowAt t' g' l' i' = some k → t' = t ∧ g' = g ∧ l' = l ∧ i' = i

/-- A lane of a team may carry out an instruction: every source is allotted and sound (R14, R105), every destination lies in a
row of its own (R18). -/
structure State.Ready (s : State) (t : Nat) (ln : Ln) (n : Names) : Prop where
  allotted : ∀ r ∈ n.src ++ n.dst ++ n.also, (ln.key? r).isSome = true
  sound : ∀ r ∈ n.src, (s.rd ln r).poison = false
  owned : ∀ r ∈ n.dst, s.owns t ln.g ln.l (r / 8)

/-! ## Where an instruction stands -/

/-- The cursor stands at a word of L or G scope in some lanes of one group of a resident team: at L scope in a set of threads, at
G scope in those that have met (R93, R122, R131). -/
structure State.AtLane (s : State) (T : Team) (g : Nat) (m : BitVec 32) : Prop where
  team : s.team? s.cur.team = some T
  group : (T.group? g).isSome = true
  here : s.cur.members = [(g, m)]
  scope : s.cur.arr.cv? = none

/-- The cursor stands at a single execution of a resident team, over member groups that exist (R131). -/
structure State.AtWide (s : State) (T : Team) : Prop where
  team : s.team? s.cur.team = some T
  groups : ∀ x ∈ s.cur.members, (T.group? x.1).isSome = true
  once : (s.cur.members.map (·.1)).Nodup

/-! ## What an instruction that writes registers comes to -/

/-- A lane of the cursor. -/
def Cursor.has (c : Cursor) (g l : Nat) : Bool := c.members.any fun x => x.1 == g && l < 32 && x.2.getLsbD l

/-- The state in which a global access of some lanes goes out: its group has taken a speculation entry for it, where there is one to be
had (R362). -/
def State.issuing (s : State) (T : Team) (g : Nat) (lns : List Ln) (dst : List Nat) : State :=
  if lns.isEmpty then s else s.speculateFor T.id g lns dst

/-- What some lanes read as loads of their threads is there at once: nothing of it lies behind the external aperture, and no earlier atomic
of the thread on it is under way (R174, R391). -/
def State.readsNow (s : State) (T : Team) (lns : List Ln) (reads : Ln → List (Nat × Nat)) : Prop :=
  ∀ ln ∈ lns, ∀ x ∈ chunksOf (reads ln), s.wants T ln.g ln.l x.1 x.2 = { pieces := [], own := false }

/-- What a lane makes of the instruction, if it is one of those that carry it out. -/
def made (acts : List Ln) (f : Ln → Res) (g l : Nat) : Option Res := (acts.find? fun ln => ln.g == g && ln.l == l).map f

/-- TSW after a result (R107, R111, R147). -/
def Res.tswOf (r : Res) (x : Word) : Word :=
  let x := x ||| r.flags.setWidth 32
  let x := if r.idz then x ||| tswIDZ else x
  if r.clear then x &&& ~~~0x7F#32 else x

/-- A register after a result: the value written is sound, and tainted as its sources were unless the result says otherwise
(R20, R104). -/
def Res.regOf (r : Res) (taint : Bool) (n : Nat) (old : Reg) : Reg :=
  match r.v.lookup n with
  | some x => { old with val := x, taint := r.taint.getD taint, poison := false }
  | none => old

/-- A thread with the registers, predicates, PC, marks and waiting state of another. -/
def Thread.working (th w : Thread) : Thread :=
  { th with pc := w.pc, preds := w.preds, taint := w.taint, tsw := w.tsw, clkLatch := w.clkLatch, gtLatch := w.gtLatch,
            arr := w.arr, wait := w.wait, waited := w.waited, skipped := w.skipped, unkV := w.unkV, unkQ := w.unkQ,
            closed := w.closed }

/-- A thread apart from its meeting points, and from whether it has closed the round of a deterministic launch. -/
def Thread.seen (th : Thread) : Thread := { th with mr := 0#32, stack := [], closed := false }

/-- The state `t` after an instruction at the cursor of `s` whose lanes `acts` made the results `f` of it: they are written, the
lanes of the cursor go on, meetings may be released, the rendezvous is over; nothing else has changed. -/
structure Wrote (s : State) (T : Team) (n : Names) (acts : List Ln) (f : Ln → Res) (t : State) : Prop where
  /-- Memory, the other cores' units, launches and every other part of the machine are as they were. -/
  only : t = { s with teams := t.teams, kiln := t.kiln }
  /-- Other teams are as they were. -/
  others : ∀ t', t' ≠ T.id → t.team? t' = s.team? t'
  /-- K registers, CSRs and whatever else the team has are as they were; cvs change at the end of a wide rendezvous only. -/
  team : ∃ T', t.team? T.id = some T' ∧ T' = { T with groups := T'.groups, cvs := T'.cvs } ∧
    (s.cur.arr.cv? = none → T'.cvs = T.cvs)
  /-- Tokens, fault registers and handler state of every group are as they were. -/
  group : ∀ g G', t.group? T.id g = some G' →
    ∃ G, T.group? g = some G ∧ G' = { G with threads := G'.threads, timer := G'.timer, tskip := G'.tskip }
  /-- What a thread holds beside registers, predicates and TSW is as it was; MR and its stack change by pops only (R124). -/
  thread : ∀ g l, ∃ k, t.thread T.id g l = (Nat.repeat Thread.pop k (s.thread T.id g l)).working (t.thread T.id g l)
  /-- The lanes of the cursor go on at the following word, or where the instruction sends them; no other thread moves. -/
  pc : ∀ g l, (t.thread T.id g l).pc =
    if s.cur.has g l then ((made acts f g l).bind (·.goto)).getD ((s.thread T.id g l).pc + 8#32) else (s.thread T.id g l).pc
  /-- A thread that is not on the cursor does nothing but take its next meeting point, where its meeting is complete. -/
  still : ∀ g l, s.cur.has g l = false → (t.thread T.id g l).seen = (s.thread T.id g l).seen
  /-- A thread of the cursor waits for nothing. -/
  moved : ∀ g l, s.cur.has g l = true → (t.thread T.id g l).arr = .no ∧ (t.thread T.id g l).wait = .none
  /-- The counters' latched halves change as the instruction reads the counters (R31). -/
  latch : ∀ g l, (t.thread T.id g l).clkLatch =
      ((made acts f g l).map fun r => (r.latch (s.thread T.id g l)).clkLatch).getD (s.thread T.id g l).clkLatch ∧
    (t.thread T.id g l).gtLatch =
      ((made acts f g l).map fun r => (r.latch (s.thread T.id g l)).gtLatch).getD (s.thread T.id g l).gtLatch
  preds : ∀ g l p, p < 7 → (t.thread T.id g l).preds.getLsbD p =
    (((made acts f g l).bind fun r => r.q.lookup (BitVec.ofNat 3 p)).getD ((s.thread T.id g l).preds.getLsbD p))
  tsw : ∀ g l, (t.thread T.id g l).tsw =
    match made acts f g l with
    | some r => r.tswOf (s.thread T.id g l).tsw
    | none => (s.thread T.id g l).tsw
  /-- Registers of other lanes, and registers that are no destination, read as before. -/
  reg : ∀ t' g l r, { t.reg t' g l r with unk := false } =
    { (match (if t' = T.id then made acts f g l else none) with
       | some x => x.regOf (s.tainted (T.ln g l) n) r (s.reg t' g l r)
       | none => s.reg t' g l r) with unk := false }

/-- The state `t` after the lanes of the cursor of `s` go on at the following word, and nothing else happens. -/
def WentOn (s t : State) : Prop := ∃ T, s.AtWide T ∧ Wrote s T {} [] (fun _ => {}) t

/-- The scalar operands of a single execution can be read in the lane that supplies them (R108). -/
def State.Supplies (s : State) (T : Team) (src : List Nat) : Prop :=
  ∀ ln ∈ s.leader T, ∀ r ∈ src, (ln.key? r).isSome = true ∧ (s.rd ln r).poison = false

/-! ## Where an instruction is carried out -/

/-- At L and G scope the instruction is carried out: where every lane of the cursor that executes it may carry it out (`Ready`), `ok`
holds there and no FP flag is raised that FPEN enables (R147), each executing lane writes what `f` says. -/
def RunsLanes (ins : Instr) (i : Iss) (n : Names) (ok : State → Team → Ln → Prop) (f : State → Team → Ln → Res) : Prop :=
  ∀ (s : State) (T : Team) (g : Nat) (m : BitVec 32), s.AtLane T g m →
    (∀ ln ∈ s.actors T i, s.Ready T.id ln n ∧ ok s T ln ∧ trapsFpx T.fpen (f s T ln).flags = false) →
    GoesTo (exec ins s) (Wrote s T n (s.actors T i) (f s T))

/-- A single execution over its members is carried out: where every member lane may carry it out and `ok` holds, each member lane
gets what `f` says. -/
def RunsOnce (ins : Instr) (n : Names) (ok : State → Team → Prop) (f : State → Team → Ln → Res) : Prop :=
  ∀ (s : State) (T : Team), s.AtWide T → (∀ ln ∈ s.members T, s.Ready T.id ln n) → ok s T →
    GoesTo (exec ins s) (Wrote s T n (s.members T) (f s T))

/-- C can be read: it is no special register that does not exist (R31, R101). -/
def CanRead (e : Ext) (c : COp) (s : State) (T : Team) (ln : Ln) : Prop := (s.cval T ln e c).isSome = true

/-- C as a lane reads it. -/
def State.cword (s : State) (T : Team) (ln : Ln) (e : Ext) (c : COp) : Word := (s.cval T ln e c).getD 0#32

/-- C as a lane reads it in FP32 arithmetic (R145). -/
def State.cfword (s : State) (T : Team) (ln : Ln) (c : COp) : Word := (s.cfloat T ln c).getD 0#32

/-- A result whose instruction also reads C, which may latch a counter (R31). -/
def Res.reading (r : Res) (s : State) (T : Team) (c : COp) : Res := { r with latch := s.clatch T c }

/-- A v register of a lane. -/
def State.v (s : State) (ln : Ln) (r : VReg) : Word := (s.rd ln r.toNat).val

/-- Anything goes. -/
def Always (_s : State) (_T : Team) (_ln : Ln) : Prop := True

/-! ## What the matrix unit leaves -/

/-- A slot of a core's matrix unit. -/
def State.slot (s : State) (core : Nat) (a : SlotN) : Acc := vget (s.mxOf core).slots a.toNat accReset

/-- A chunk product on a slot (R66, R67, R231): in the rows of A and the columns of the blocks of B, the entry and the exact chunk sum, times
the tensor scale, rounded once to A40, or clamped as I40; every other entry as before. -/
def Multiplied (old new : Acc) (tables : Vector (SMap Word) 4) (rows : List Nat) (b : BRead) : Prop :=
  let f := recBfmt b.img
  ∀ i n, n < 384 → new.cell i n =
    if i < rows.length ∧ n < 32 * b.panels.length then
      let panel := b.panels.getD (n / 32) (0, 0)
      let sum := sumVals ((List.range (chunkLen f)).map fun k =>
        (Val.mul (aElem (recAfmt b.img) (rows.getD i 0) k)
          (bElem b.img (vget tables (recCbt b.img) []) panel.1 panel.2 (n % 32) k)).1)
      if f = 4 then BitVec.ofInt 40 (max (-(2 ^ 39 : Int)) (min ((old.cell i n).toInt + sum.toInt) (2 ^ 39 - 1)))
      else BitVec.ofNat 40 (a40.round rne false false
        (Val.add rne (a40.value (old.cell i n).toNat) (Val.mul sum (fp32.value (recTscale b.img).toNat)).1).1).1
    else old.cell i n

/-- The lanes of a matrix instruction that a register of each is written for have rows of their own. -/
def State.OwnRows (s : State) (o : MxOp) (d : VReg) : Prop :=
  (∀ x ∈ s.opLanes o, ∃ k, x.1.key? d.toNat = some k) ∧ (s.opLanes o).Nodup ∧
    ∀ x ∈ s.opLanes o, ∀ y ∈ s.opLanes o, x.1.key? d.toNat = y.1.key? d.toNat → x = y

/-- A register of a lane of a matrix instruction. -/
def State.opReg (s : State) (ln : Ln) (n : Nat) : Option Word := (ln.key? n).map fun k => vget (s.row k).regs (n % 8) 0#32

/-- What the unit leaves of an instruction of its queue that meets no error of the data (R66, R67, R231, R236, R240 to R243). -/
def UnitLeaves (s : State) (core : Nat) (o : MxOp) : Prop :=
  let m := s.mxOf core
  let u := s.finishWork core o
  let sound (b : BRead) : Prop := b.bad = false ∧ m.cbBad b = false ∧ (∀ c, s.badProduct c = none) ∧ b.panels.length ≤ 12
  (∀ d rows b, (o.work = .mma d rows b ∨ ∃ r mod pos, o.work = .pair d rows r mod pos b) → sound b →
    Multiplied (s.slot core d) (u.slot core d) m.cbs rows b ∧ ∀ a, a ≠ d → u.slot core a = s.slot core a) ∧
  (∀ d rc ru liveC liveU b, o.work = .mmag d rc ru liveC liveU b → sound b →
    let half (live : Bool) (a : SlotN) (rows : List Nat) : Prop :=
      if live = true then Multiplied (s.slot core a) (u.slot core a) m.cbs rows b
      else u.slot core a = { s.slot core a with miss := true }
    half liveC d rc ∧ half liveU (d + 1#2) ru ∧ ∀ a, a ≠ d → a ≠ d + 1#2 → u.slot core a = s.slot core a) ∧
  (∀ d i32 col0 vals, o.work = .mwr d i32 col0 vals → (vals.map (·.1)).Nodup → (∀ x ∈ vals, x.2.length = 8) → col0 + 8 ≤ 384 →
    (∀ row ws j, (row, ws) ∈ vals → j < 8 → (u.slot core d).cell row (col0 + j) =
      if i32 = true then (ws.getD j 0#32).signExtend 40
      else BitVec.ofNat 40 (a40.round rne false false (fp32.value (ws.getD j 0#32).toNat)).1) ∧
    (∀ row c, c < 384 → (row ∉ vals.map (·.1) ∨ c < col0 ∨ col0 + 8 ≤ c) → (u.slot core d).cell row c = (s.slot core d).cell row c) ∧
    ∀ a, a ≠ d → u.slot core a = s.slot core a) ∧
  (∀ d vals, o.work = .mscl d vals → (vals.map (·.1)).Nodup → (s.slot core d).i40 = false →
    (∀ row x c, (row, x) ∈ vals → c < 384 → (u.slot core d).cell row c = BitVec.ofNat 40 (a40.round rne false false
      (Val.mul (a40.value ((s.slot core d).cell row c).toNat) (fp32.value x.toNat)).1).1) ∧
    (∀ row c, c < 384 → row ∉ vals.map (·.1) → (u.slot core d).cell row c = (s.slot core d).cell row c) ∧
    ∀ a, a ≠ d → u.slot core a = s.slot core a) ∧
  (∀ v a fmt e5 scl guid row0 col0, o.work = .mrd v a fmt e5 scl guid row0 col0 → v.toNat % 8 = 0 → s.OwnRows o v →
    let fpen := ((s.team? o.team).map (·.fpen)).getD 0#32
    let lane (e : Nat) := m.mrdLane a fmt e5 scl guid (row0 + e) col0
    (∀ ln e, (ln, e) ∈ s.opLanes o → trapsFpx fpen (lane e).2 = false) →
    (∀ a, u.slot core a = s.slot core a) ∧
    ∀ ln e, (ln, e) ∈ s.opLanes o →
      (u.thread ln.t ln.g ln.l).tsw =
        (if guid.isSome = true ∧ m.oneStream a = true then (ln.th.tsw ||| (lane e).2.setWidth 32) ||| tswGDEG
         else ln.th.tsw ||| (lane e).2.setWidth 32) ∧
      ∀ j, j < 8 → u.opReg ln (v.toNat + j) = some ((lane e).1.getD j 0#32)) ∧
  (∀ a fmt e5 scl guid row col0 j, j < 8 → (m.mrdLane a fmt e5 scl guid row col0).1.getD j 0#32 =
    BitVec.ofNat 32 (((List.range (mrdCols fmt)).foldr (fun w x =>
      ((mrdFmt fmt e5).round rne false false (m.mrdElem a scl guid row (col0 + w))).1 + 2 ^ (mrdFmt fmt e5).width * x) 0) / 2 ^ (32 * j))) ∧
  (∀ a g k row col, let c := (s.slot core a).val row col
    let y := (s.slot core (a + 1#2)).val row col
    m.mrdElem a none none row col = c ∧
    (∀ guid, m.mrdElem a (some k) guid row col = in40 (Val.mul (m.mrdElem a none guid row col) (fp32.value k.toNat)).1) ∧
    m.mrdElem a none (some g) row col =
      match (s.slot core a).miss, (s.slot core (a + 1#2)).miss with
      | true, false => y
      | false, true => c
      | _, _ => in40 (Val.add rne y (in40 (Val.mul (fp32.value g.toNat) (in40 (Val.add rne c y.neg).1)).1)).1) ∧
  (∀ v a clr, o.work = .mchk v a clr → s.OwnRows o v →
    let x := (s.slot core a).status
    (∀ ln e, (ln, e) ∈ s.opLanes o → u.opReg ln v.toNat = some x) ∧
    (x.extractLsb' 0 16 = BitVec.ofNat 16 (s.slot core a).rerun ∧ x.getLsbD 16 = (s.slot core a).fail ∧ x.getLsbD 17 = (s.slot core a).sat ∧
      x.getLsbD 18 = (s.slot core a).i40 ∧ x.getLsbD 19 = (s.slot core a).miss ∧ x.extractLsb' 20 12 = 0#12) ∧
    u.slot core a = (if clr = true then { s.slot core a with rerun := 0, fail := false } else s.slot core a) ∧
    ∀ b, b ≠ a → u.slot core b = s.slot core b)

/-! ## What an engine command moves -/

/-- The bytes that a command moves (R252 to R255, R260, R307, R348): the granules of its rows when it starts, what a granule reads as, and where
it is written. -/
def EngineMoves (s : State) (T : Team) (c : Cmd) : Prop :=
  let starts (ms : List Move) : Prop := s.startCopy T c = s.modCmd c.id fun k => { k with started := true, moves := ms }
  let index (idx r : Nat) : Nat := s.gather (T.basinKeys 0 (idx + 4 * r) 4)
  let indexed (idx nr : Nat) : Prop := idx + 4 * nr ≤ T.basinLen ∧ ∀ k ∈ T.basinKeys 0 idx (4 * nr), s.poisonedAt k = false
  let granule (src dst : Loc) (q : Nat) : Move := { src := .inl (src.plus (16 * q)), dst := dst.plus (16 * q), req := none }
  let row (src dst : Loc) (len : Nat) : List Move := (List.range (len / 16)).map (granule src dst)
  let quiet : Prop := ∀ p, (s.part p).fld 0x018 16 1 = 0
  (∀ src dst len, c.plan = .rows src dst len → s.slipOk T src len = true → s.slipOk T dst len = true → starts (row src dst len)) ∧
  (∀ src dst rb nr idx, c.plan = .gather src dst rb nr idx → indexed idx nr →
    starts ((List.range nr).map fun r => row (src.plus (index idx r * rb)) (dst.plus (r * rb)) rb).flatten) ∧
  (∀ src a rb nr idx, c.plan = .scatter src (.va a) rb nr idx → indexed idx nr → rb % 16 = 0 → 16 ≤ rb →
    ∃ ms, starts ms ∧ ms.length = nr * (rb / 16) ∧ ∀ r q, r < nr → q < rb / 16 →
      ms[r * (rb / 16) + q]? = some { granule (src.plus (r * rb)) (.va (a + index idx r * rb)) q with
        dst := if (List.range nr).any (fun r' => decide (r < r') && index idx r' == index idx r) then .buf 0
               else .va (a + index idx r * rb + 16 * q) }) ∧
  (∀ a ia k, s.engineIa T a needR = .ok (ia, k) → s.poisonedIn k 16 = false → s.cxlDown k = false →
    ((c.opening = none ∨ s.detClass T ia ≠ .shared ∨ c.late = true) → s.issuerPending c ia = false →
      s.engineRead T c (.va a) = .val (BitVec.ofNat 128 (s.bytes k 16))) ∧
    (∀ o, c.opening = some o → s.detClass T ia = .shared → c.late = false → s.engineRead T c (.va a) =
      .val (BitVec.ofNat 128 ((List.range 16).foldr (fun j x => (Sparse.get unwritten o (k + j)).toNat + 256 * x) 0)))) ∧
  (∀ t off swz U keys, s.basinGranule t off swz = some (U, keys) → s.issuerHolds c keys = false → (∀ k ∈ keys, s.poisonedAt k = false) →
    s.engineRead T c (.basin t off swz) = .val (BitVec.ofNat 128 (s.gather keys))) ∧
  (∀ off, s.inSlip T off 16 = true → s.issuerHolds c ((List.range 16).map (slipKey T.core off + ·)) = false →
    s.poisonedIn (slipKey T.core off) 16 = false →
    s.engineRead T c (.slip off) = .val (BitVec.ofNat 128 (s.bytes (slipKey T.core off) 16))) ∧
  (∀ m rest x, c.moves = m :: rest → m.req = none → (m.src = .inr x ∨ ∃ l, m.src = .inl l ∧ s.engineRead T c l = .val x) →
    (∀ i, m.dst ≠ .buf i ∧ m.dst ≠ .tab i) → ∃ w : State, (quiet → w.mem = s.mem ∧ w.poison = s.poison) ∧
      ∀ v wct, w.engineWrite T (ctlHint c.ctl.toNat) x m.dst = .done v wct →
        s.moveOne T c = v.modCmd c.id fun k => { k with moves := rest, wct := max k.wct wct, written := true }) ∧
  (∀ pos x a ia k, s.engineIa T a needW = .ok (ia, k) → s.locked ia 16 = false → s.cxlDown k = false → quiet →
    ∃ v wct, s.engineWrite T pos x (.va a) = .done v wct ∧ v.bytes k 16 = x.toNat ∧
      ∀ j, (j < k ∨ k + 16 ≤ j) → v.byte j = s.byte j) ∧
  (∀ pos x t off swz U keys, s.basinGranule t off swz = some (U, keys) → keys.Nodup →
    ∃ v, s.engineWrite T pos x (.basin t off swz) = .done v 0 ∧ v.gather keys = x.toNat ∧ ∀ j, j ∉ keys → v.byte j = s.byte j) ∧
  (∀ pos x off, s.inSlip T off 16 = true → let k := slipKey T.core off
    ∃ v, s.engineWrite T pos x (.slip off) = .done v 0 ∧ v.bytes k 16 = x.toNat ∧ ∀ j, (j < k ∨ k + 16 ≤ j) → v.byte j = s.byte j) ∧
  (∀ dst (a : Acc) fmt e5 cb nb rows stride, c.plan = .tile dst → a.poison = [] →
    let line (r : Nat) : Nat := (List.range (32 * nb)).foldr (fun j x => a.stored fmt e5 r (32 * cb + j) + 2 ^ (8 * mstBytes fmt) * x) 0
    c.tiled a fmt e5 cb nb rows stride = { c with started := true, moves :=
      ((List.range rows).map fun r => (List.range (32 * nb * mstBytes fmt / 16)).map fun j =>
        ({ src := .inr (BitVec.ofNat 128 (line r / 2 ^ (128 * j))), dst := dst.plus (r * stride + 16 * j), req := none } : Move)).flatten }) ∧
  (∀ (a : Acc) e5 r n, let x := a40.value (a.cell r n).toNat
    a.stored .f32 e5 r n = (fp32.round rne false false x).1 ∧ a.stored .bf16 e5 r n = (bf16.round rne false false x).1 ∧
    a.stored .f16 e5 r n = (fp16.round rne false false x).1 ∧ a.stored .fp8 true r n = (Machine.e5m2.round rne false false x).1 ∧
    a.stored .fp8 false r n = (e4m3.round rne false false x).1 ∧
    a.stored .i32 e5 r n = (BitVec.ofInt 32 (max (-(2 ^ 31 : Int)) (min (a.cell r n).toInt (2 ^ 31 - 1)))).toNat)

end Sys2Proof.Machine
end

