-- ==== Sys2Proof/Certificates/Slice0/Obligations.lean ====
section
/-! DEFINITION. The statements for the provers, from the numbered rules of the spec. -/

open Sys2Proof Sys2Proof.Machine


/-! ## Lane by lane -/

/-- Add, subtract, multiply, minimum, maximum and absolute value (R109, R110): the exact result of the operands read signed or
unsigned, wrapped or clamped; the destination only is written. -/
def Obligations.IntegerArithmetic : Prop :=
  ∀ (i : Iss) (d a b c' : VReg) (c : COp) (sgn sat : Bool),
    RunsLanes (.iadd i d a c sgn sat) i (.toV (a.toNat :: c.regs) d) (CanRead .sign c) (fun s T ln =>
      (Res.reg d (fit sgn sat (readInt sgn (s.v ln a) + readInt sgn (s.cword T ln .sign c)))).reading s T c) ∧
    RunsLanes (.isub i d a c sgn sat) i (.toV (a.toNat :: c.regs) d) (CanRead .sign c) (fun s T ln =>
      (Res.reg d (fit sgn sat (readInt sgn (s.v ln a) - readInt sgn (s.cword T ln .sign c)))).reading s T c) ∧
    RunsLanes (.imul i d a c sgn sat) i (.toV (a.toNat :: c.regs) d) (CanRead .sign c) (fun s T ln =>
      (Res.reg d (fit sgn sat (readInt sgn (s.v ln a) * readInt sgn (s.cword T ln .sign c)))).reading s T c) ∧
    RunsLanes (.imulh i d a c sgn) i (.toV (a.toNat :: c.regs) d) (CanRead .sign c) (fun s T ln =>
      (Res.reg d (((BitVec.ofInt 64 (readInt sgn (s.v ln a) * readInt sgn (s.cword T ln .sign c))) >>> 32).setWidth 32)).reading
        s T c) ∧
    RunsLanes (.imad i d a b c sgn sat) i (.toV (a.toNat :: b.toNat :: c.regs) d) (CanRead .sign c) (fun s T ln =>
      (Res.reg d (fit sgn sat (readInt sgn (s.v ln a) * readInt sgn (s.v ln b) + readInt sgn (s.cword T ln .sign c)))).reading
        s T c) ∧
    RunsLanes (.imadw i d a b c' sgn) i (.toPair [a.toNat, b.toNat, c'.toNat, c'.toNat + 1] d) Always (fun s _ ln =>
      .pair d (BitVec.ofInt 64 (readInt sgn (s.v ln a) * readInt sgn (s.v ln b)) + BitVec.ofNat 64 (s.rdPair ln c'.toNat))) ∧
    RunsLanes (.iaddw i d a c sgn sat) i (.toPair (a.toNat :: (a.toNat + 1) :: c.pairRegs) d)
      (fun s T ln => (s.cval64 T ln sgn c).isSome = true) (fun s T ln =>
        let x := s.rdPair ln a.toNat
        (Res.pair d (fit64 sgn sat ((if sgn then (BitVec.ofNat 64 x).toInt else x) + (s.cval64 T ln sgn c).getD 0))).reading s T c) ∧
    RunsLanes (.imin i d a c sgn) i (.toV (a.toNat :: c.regs) d) (CanRead .sign c) (fun s T ln =>
      (Res.reg d (BitVec.ofInt 32 (min (readInt sgn (s.v ln a)) (readInt sgn (s.cword T ln .sign c))))).reading s T c) ∧
    RunsLanes (.imax i d a c sgn) i (.toV (a.toNat :: c.regs) d) (CanRead .sign c) (fun s T ln =>
      (Res.reg d (BitVec.ofInt 32 (max (readInt sgn (s.v ln a)) (readInt sgn (s.cword T ln .sign c))))).reading s T c) ∧
    RunsLanes (.iabs i d c sat) i (.toV c.regs d) (CanRead .sign c) (fun s T ln =>
      (Res.reg d (fit true sat (s.cword T ln .sign c).toInt.natAbs)).reading s T c)

/-- Quotient and remainder truncated toward zero; a zero divisor gives quotient 0 and the dividend as remainder and sets
TSW.IDZ, and nothing traps (R111). -/
def Obligations.IntegerDivision : Prop :=
  ∀ (i : Iss) (d a : VReg) (c : COp) (sgn : Bool),
    RunsLanes (.idiv i d a c sgn) i (.toV (a.toNat :: c.regs) d) (CanRead .sign c) (fun s T ln =>
      let x := readInt sgn (s.v ln a)
      let y := readInt sgn (s.cword T ln .sign c)
      { (Res.reg d (if y = 0 then 0#32 else BitVec.ofInt 32 (x.tdiv y))).reading s T c with idz := decide (y = 0) }) ∧
    RunsLanes (.irem i d a c sgn) i (.toV (a.toNat :: c.regs) d) (CanRead .sign c) (fun s T ln =>
      let x := readInt sgn (s.v ln a)
      let y := readInt sgn (s.cword T ln .sign c)
      { (Res.reg d (if y = 0 then s.v ln a else BitVec.ofInt 32 (x.tmod y))).reading s T c with idz := decide (y = 0) })

/-- Moves, logic and shifts (R107, R112, R115, R116): a shift amount is C[7:0], and 32 or more shifts everything out. Counts, reversal, bit fields and byte permutation (R112 to R114). -/
def Obligations.LogicAndBits : Prop :=
  (∀ (i : Iss) (d a b : VReg) (c : COp) (sh : BitVec 3) (p : PReg) (neg : Bool),
    RunsLanes (.mov i d c) i (.toV c.regs d) (CanRead .sign c) (fun s T ln =>
      (Res.reg d (s.cword T ln .sign c)).reading s T c) ∧
    RunsLanes (.and i d a c) i (.toV (a.toNat :: c.regs) d) (CanRead .sign c) (fun s T ln =>
      (Res.reg d (s.v ln a &&& s.cword T ln .sign c)).reading s T c) ∧
    RunsLanes (.or i d a c) i (.toV (a.toNat :: c.regs) d) (CanRead .sign c) (fun s T ln =>
      (Res.reg d (s.v ln a ||| s.cword T ln .sign c)).reading s T c) ∧
    RunsLanes (.xor i d a c) i (.toV (a.toNat :: c.regs) d) (CanRead .sign c) (fun s T ln =>
      (Res.reg d (s.v ln a ^^^ s.cword T ln .sign c)).reading s T c) ∧
    RunsLanes (.andn i d a c) i (.toV (a.toNat :: c.regs) d) (CanRead .sign c) (fun s T ln =>
      (Res.reg d (s.v ln a &&& ~~~(s.cword T ln .sign c))).reading s T c) ∧
    RunsLanes (.shl i d a c) i (.toV (a.toNat :: c.regs) d) (CanRead .zero c) (fun s T ln =>
      (Res.reg d (s.v ln a <<< min ((s.cword T ln .zero c).toNat % 256) 32)).reading s T c) ∧
    RunsLanes (.shr i d a c) i (.toV (a.toNat :: c.regs) d) (CanRead .zero c) (fun s T ln =>
      (Res.reg d (s.v ln a >>> min ((s.cword T ln .zero c).toNat % 256) 32)).reading s T c) ∧
    RunsLanes (.sar i d a c) i (.toV (a.toNat :: c.regs) d) (CanRead .zero c) (fun s T ln =>
      (Res.reg d ((s.v ln a).sshiftRight (min ((s.cword T ln .zero c).toNat % 256) 32))).reading s T c) ∧
    RunsLanes (.rot i d a c) i (.toV (a.toNat :: c.regs) d) (CanRead .zero c) (fun s T ln =>
      (Res.reg d ((s.v ln a).rotateLeft ((s.cword T ln .zero c).toNat % 32))).reading s T c) ∧
    RunsLanes (.shf i d a b c) i (.toV (a.toNat :: b.toNat :: c.regs) d) (CanRead .zero c) (fun s T ln =>
      (Res.reg d (((s.v ln b ++ s.v ln a : Dword) >>> ((s.cword T ln .zero c).toNat % 64)).setWidth 32)).reading s T c) ∧
    RunsLanes (.lea i d a c sh) i (.toV (a.toNat :: c.regs) d) (CanRead .sign c) (fun s T ln =>
      (Res.reg d (s.v ln a <<< sh.toNat + s.cword T ln .sign c)).reading s T c) ∧
    RunsLanes (.isel i d a c p neg) i { Names.toV (a.toNat :: c.regs) d with qsrc := [p] } (CanRead .sign c) (fun s T ln =>
      (Res.reg d (if ln.th.q p = neg then s.cword T ln .sign c else s.v ln a)).reading s T c)) ∧
  (∀ (i : Iss) (d a b : VReg) (c : COp) (sgn : Bool),
    RunsLanes (.popc i d c) i (.toV c.regs d) (CanRead .sign c) (fun s T ln =>
      (Res.reg d (BitVec.ofNat 32 ((List.range 32).countP fun j => (s.cword T ln .sign c).getLsbD j))).reading s T c) ∧
    RunsLanes (.clz i d c) i (.toV c.regs d) (CanRead .sign c) (fun s T ln =>
      (Res.reg d (leadingZeros (s.cword T ln .sign c))).reading s T c) ∧
    RunsLanes (.brev i d c) i (.toV c.regs d) (CanRead .sign c) (fun s T ln =>
      (Res.reg d (s.cword T ln .sign c).reverse).reading s T c) ∧
    RunsLanes (.bfx i d a c sgn) i (.toV (a.toNat :: c.regs) d) (CanRead .zero c) (fun s T ln =>
      (Res.reg d (bfxOp sgn (s.v ln a) (s.cword T ln .zero c))).reading s T c) ∧
    RunsLanes (.bfi i d a b c) i (.toV (a.toNat :: b.toNat :: c.regs) d) (CanRead .zero c) (fun s T ln =>
      (Res.reg d (bfiOp (s.v ln a) (s.v ln b) (s.cword T ln .zero c))).reading s T c) ∧
    RunsLanes (.prmt i d a b c) i (.toV (a.toNat :: b.toNat :: c.regs) d) (CanRead .zero c) (fun s T ln =>
      (Res.reg d (prmtOp (s.v ln a) (s.v ln b) (s.cword T ln .zero c))).reading s T c))

/-- Comparisons, predicate logic and moves between predicates and registers (R117 to R119); no v register but the destination of
PMOV.get and no flag is written. -/
def Obligations.Predicates : Prop :=
  ∀ (i : Iss) (d a : VReg) (p q x y : PReg) (c : COp) (cond : ICond) (sgn : Bool) (lut : BitVec 8) (mask : BitVec 7),
    RunsLanes (.icmp i p a c cond sgn) i (.toQ (a.toNat :: c.regs) p) (CanRead .sign c) (fun s T ln =>
      let l := readInt sgn (s.v ln a)
      let r := readInt sgn (s.cword T ln .sign c)
      (Res.pred p (match cond with
        | .eq => decide (l = r) | .ne => decide (l ≠ r) | .lt => decide (l < r)
        | .le => decide (l ≤ r) | .gt => decide (r < l) | .ge => decide (r ≤ l))).reading s T c) ∧
    RunsLanes (.plop i p q x y lut) i { Names.toQ [] p with qsrc := [q, x, y] } Always (fun _ _ ln =>
      .pred p (lut.getLsbD ((ln.th.q q).toNat * 4 + (ln.th.q x).toNat * 2 + (ln.th.q y).toNat))) ∧
    RunsLanes (.pmov i (.get d)) i { Names.toV [] d with qsrc := (List.range 7).map fun k => BitVec.ofNat 3 k } Always
      (fun _ _ ln => .reg d (ln.th.preds.setWidth 32)) ∧
    RunsLanes (.pmov i (.put mask c)) i { src := c.regs } (CanRead .zero c) (fun s T ln =>
      ({ q := ((List.range 7).filter fun k => mask.getLsbD k).map fun k =>
          (BitVec.ofNat 3 k, (s.cword T ln .zero c).getLsbD k) } : Res).reading s T c)

/-- FP32 arithmetic (R149, R151, R153): the exact result of the prepared operands, rounded once; the flags raised are OR-ed into
TSW. That FEX2 and FLG2 round the exact value is the model's reading (log entry 11). -/
def Obligations.FloatArithmetic : Prop :=
  ∀ (i : Iss) (d a b : VReg) (c : COp) (m : FpMod),
    let two (ins : Instr) (op : Val → Val → Val × BitVec 5) : Prop :=
      RunsLanes ins i (.toV (a.toNat :: c.regs) d) (fun s T ln => (s.cfloat T ln c).isSome = true) (fun s T ln =>
        let r := op (prepA fp32 m true (s.v ln a).toNat) (prepC fp32 m (s.cfword T ln c).toNat)
        let x := fp32.round m.rm m.ftz false r.1
        { (Res.reg d (BitVec.ofNat 32 x.1)).reading s T c with flags := x.2 ||| r.2 })
    let one (ins : Instr) (op : Val → Val × BitVec 5) : Prop :=
      RunsLanes ins i (.toV [a.toNat] d) Always (fun s _ ln =>
        let r := op (prepA fp32 m true (s.v ln a).toNat)
        let x := fp32.round m.rm m.ftz false r.1
        { Res.reg d (BitVec.ofNat 32 x.1) with flags := x.2 ||| r.2 })
    two (.fadd i d a c m) (Val.add m.rm) ∧ two (.fmul i d a c m) Val.mul ∧ two (.fdiv i d a c m) Val.div ∧
    RunsLanes (.ffma i d a b c m) i (.toV (a.toNat :: b.toNat :: c.regs) d) (fun s T ln => (s.cfloat T ln c).isSome = true)
      (fun s T ln =>
        let r := Val.fma m.rm (prepA fp32 m true (s.v ln a).toNat) (fp32.read m.ftz (s.v ln b).toNat)
          (prepC fp32 m (s.cfword T ln c).toNat)
        let x := fp32.round m.rm m.ftz false r.1
        { (Res.reg d (BitVec.ofNat 32 x.1)).reading s T c with flags := x.2 ||| r.2 }) ∧
    one (.frcp i d a m) (Val.div (Val.ofInt 1)) ∧ one (.frsq i d a m) Val.rsqrt ∧ one (.fsqrt i d a m) Val.sqrt ∧
    one (.fex2 i d a m) (fun x => (x.exp2, 0#5)) ∧ one (.flg2 i d a m) Val.log2 ∧
    RunsLanes (.fscl i d a c m) i (.toV (a.toNat :: c.regs) d) (CanRead .sign c) (fun s T ln =>
      match fsclAmount m.nc (s.cword T ln .sign c) with
      | none => (Res.reg d (BitVec.ofNat 32 fp32.nan)).reading s T c
      | some n =>
        let x := fp32.round m.rm m.ftz false (fsclOp (prepA fp32 m true (s.v ln a).toNat) n)
        { (Res.reg d (BitVec.ofNat 32 x.1)).reading s T c with flags := x.2 })

/-- FP32 selection, comparison, classification, conversion and random numbers (R150, R152, R154 to R158, R164, R165): only the
conversions raise flags. -/
def Obligations.FloatOther : Prop :=
  ∀ (i : Iss) (d a : VReg) (p : PReg) (c : COp) (m : FpMod) (cond : FCond) (ftz sgn na nsat : Bool) (dst src : CvtFmt)
      (rm : BitVec 2),
    let pick (ins : Instr) (greater : Bool) : Prop :=
      RunsLanes ins i (.toV (a.toNat :: c.regs) d) (fun s T ln => (s.cfloat T ln c).isSome = true) (fun s T ln =>
        (Res.reg d (BitVec.ofNat 32 (rnd32 (Val.minmax greater (prepA fp32 m true (s.v ln a).toNat)
          (prepC fp32 m (s.cfword T ln c).toNat))))).reading s T c)
    pick (.fmin i d a c m) false ∧ pick (.fmax i d a c m) true ∧
    RunsLanes (.fcmp i p a c cond ftz) i (.toQ (a.toNat :: c.regs) p) (fun s T ln => (s.cfloat T ln c).isSome = true)
      (fun s T ln =>
        let o := Val.cmp (fp32.read ftz (s.v ln a).toNat) (fp32.read ftz (s.cfword T ln c).toNat)
        (Res.pred p (match cond with
          | .eq => o == some .eq | .ne => o != some .eq | .lt => o == some .lt | .le => o == some .lt || o == some .eq
          | .gt => o == some .gt | .ge => o == some .gt || o == some .eq | .un => o == none | .ord => o != none)).reading s T c) ∧
    RunsLanes (.fcls i d a) i (.toV [a.toNat] d) Always (fun s _ ln => .reg d (fclsOp (s.v ln a))) ∧
    RunsLanes (.frnd i d a m) i (.toV [a.toNat] d) Always (fun s _ ln =>
      .reg d (BitVec.ofNat 32 (rnd32 (frndOp m.rm (prepA fp32 m true (s.v ln a).toNat))))) ∧
    RunsLanes (.f2i i d a m) i (.toV [a.toNat] d) Always (fun s _ ln =>
      let r := f2iOp m.rm m.nc (prepA fp32 m true (s.v ln a).toNat)
      { Res.reg d (BitVec.ofInt 32 r.1) with flags := r.2 }) ∧
    RunsLanes (.i2f i d a rm sgn) i (.toV [a.toNat] d) Always (fun s _ ln =>
      let x := fp32.round rm false false (Val.ofInt (readInt sgn (s.v ln a)))
      { Res.reg d (BitVec.ofNat 32 x.1) with flags := x.2 }) ∧
    RunsLanes (.fcvt i d a dst src rm ftz na nsat) i (.toV [a.toNat] d) Always (fun s _ ln =>
      let x := fcvtOp dst src rm ftz na nsat (s.v ln a)
      { Res.reg d (BitVec.ofNat 32 x.1) with flags := x.2 }) ∧
    RunsLanes (.rngc i d a c) i (.toV (a.toNat :: c.regs) d) (CanRead .zero c) (fun s T ln =>
      (Res.reg d (rngcOp (s.v ln a) (s.cword T ln .zero c))).reading s T c) ∧
    RunsLanes (.fgumb i d a c) i (.toV (a.toNat :: c.regs) d) (CanRead .zero c) (fun s T ln =>
      (Res.reg d (fgumbOp (s.v ln a) (s.cword T ln .zero c))).reading s T c)

/-- Packed pairs and the packing of FP8 and E2M1 (R159 to R163): each element is computed for itself and the flags of all are
OR-ed; the bytes of D that PK8 and PK4 do not name keep their values. -/
def Obligations.FloatPacked : Prop :=
  ∀ (i : Iss) (d a b : VReg) (c : COp) (m : FpMod) (hi e5 ftz nsat : Bool) (rm n : BitVec 2) (k : BitVec 3),
    let fm := packedFmt m
    let pair (s : State) (T : Team) (op : Nat → Val × BitVec 5) : Res :=
      let e (k : Nat) := fm.round m.rm m.ftz false (op k).1
      { (Res.reg d (BitVec.ofNat 32 ((e 0).1 + 2 ^ 16 * (e 1).1))).reading s T c with
        flags := ((e 0).2 ||| (op 0).2) ||| ((e 1).2 ||| (op 1).2) }
    let two (ins : Instr) (op : Val → Val → Val × BitVec 5) : Prop :=
      RunsLanes ins i (.toV (a.toNat :: c.regs) d) (fun s T ln => (s.cpacked T ln fm c).isSome = true) (fun s T ln =>
        let y := (s.cpacked T ln fm c).getD 0#32
        pair s T fun k => op (prepA fm m false (half (s.v ln a) k)) (prepC fm m (half y k)))
    two (.hadd2 i d a c m) (Val.add m.rm) ∧ two (.hmul2 i d a c m) Val.mul ∧
    RunsLanes (.hfma2 i d a b c m) i (.toV (a.toNat :: b.toNat :: c.regs) d)
      (fun s T ln => (s.cpacked T ln fm c).isSome = true) (fun s T ln =>
        let y := (s.cpacked T ln fm c).getD 0#32
        pair s T fun k => Val.fma m.rm (prepA fm m false (half (s.v ln a) k)) (fm.read m.ftz (half (s.v ln b) k))
          (prepC fm m (half y k))) ∧
    RunsLanes (.hmnx2 i d a c m) i (.toV (a.toNat :: c.regs) d) (fun s T ln => (s.cpacked T ln fm c).isSome = true)
      (fun s T ln =>
        let y := (s.cpacked T ln fm c).getD 0#32
        let e (k : Nat) := (fm.round rne false false (Val.minmax (m.rm.getLsbD 0) (prepA fm m false (half (s.v ln a) k))
          (prepC fm m (half y k)))).1
        (Res.reg d (BitVec.ofNat 32 (e 0 + 2 ^ 16 * e 1))).reading s T c) ∧
    RunsLanes (.pk8 i d a c hi e5 ftz rm nsat) i (.toV (d.toNat :: a.toNat :: c.regs) d)
      (fun s T ln => (s.cfloat T ln c).isSome = true) (fun s T ln =>
        let f8 := if e5 then e5m2 else e4m3
        let x := f8.round rm ftz nsat (fp32.read ftz (s.v ln a).toNat)
        let y := f8.round rm ftz nsat (fp32.read ftz (s.cfword T ln c).toNat)
        { (Res.reg d (insertBits (s.v ln d) (if hi then 16 else 0) 16 (x.1 + 256 * y.1))).reading s T c with
          flags := x.2 ||| y.2 }) ∧
    RunsLanes (.upk8 i d a n e5) i (.toV [a.toNat] d) Always (fun s _ ln =>
      let f8 := if e5 then e5m2 else e4m3
      .reg d (BitVec.ofNat 32 (rnd32 (f8.value ((s.v ln a).toNat / 2 ^ (8 * n.toNat) % 256))))) ∧
    RunsLanes (.pk4 i d a c n ftz rm) i (.toV (d.toNat :: a.toNat :: c.regs) d)
      (fun s T ln => (s.cfloat T ln c).isSome = true) (fun s T ln =>
        let x := e2m1.round rm ftz false (fp32.read ftz (s.v ln a).toNat)
        let y := e2m1.round rm ftz false (fp32.read ftz (s.cfword T ln c).toNat)
        { (Res.reg d (insertBits (s.v ln d) (8 * n.toNat) 8 (x.1 + 16 * y.1))).reading s T c with flags := x.2 ||| y.2 }) ∧
    RunsLanes (.upk4 i d a c k) i (.toV (a.toNat :: c.regs) d) (CanRead .zero c) (fun s T ln =>
      let e := (s.v ln a).toNat / 2 ^ (4 * k.toNat) % 16
      let v := if e = 8 then bf16.value ((s.cword T ln .zero c).toNat % 2 ^ 16) else e2m1.value e
      (Res.reg d (BitVec.ofNat 32 (rnd32 v))).reading s T c)

/-- Reading special registers and CSRs, and NOP (R31, R32, R106, R107, R277), and what each of the registers reads as. -/
def Obligations.SpecialReads : Prop :=
  (∀ (i : Iss) (d : VReg) (n : BitVec 8) (clr : Bool),
    RunsLanes (.nop i) i {} Always (fun _ _ _ => {}) ∧
    RunsLanes (.movs i d n clr) i (.toV [] d) (fun s T ln => (s.special T ln n).isSome = true) (fun s T ln =>
      { Res.reg d ((s.special T ln n).getD 0#32) with latch := s.latch T n, clear := clr }) ∧
    RunsLanes (.csrr i d n) i (.toV [] d) (fun s T ln => (s.csr T ln.sub n).isSome = true) (fun s T ln =>
      { Res.reg d ((s.csr T ln.sub n).getD 0#32) with taint := some false })) ∧
  (∀ (s : State) (T : Team) (ln : Ln) (G : Group) (th : Thread), T.group? ln.g = some G →
    let reads (n v : Nat) : Prop := s.special T ln (BitVec.ofNat 8 n) = some (BitVec.ofNat 32 v)
    let holds (n : Nat) (w : Word) : Prop := s.special T ln (BitVec.ofNat 8 n) = some w
    let nx := (s.extents T).1
    let ny := (s.extents T).2.1
    let clock := s.gt - Sparse.get 0 s.clock0 T.part
    let hi (x : Nat) : Word := BitVec.ofNat 32 (x / 2 ^ 32)
    reads 0 ln.l ∧ reads 1 (32 * ln.g + ln.l) ∧ reads 2 ln.g ∧ reads 6 nx ∧ reads 7 T.core ∧ reads 9 (T.core / Config.coresPerDie) ∧
    (T.grid = true → reads 3 (T.index % nx) ∧ reads 4 (T.index / nx % ny) ∧ reads 5 (T.index / (nx * ny)) ∧ reads 8 T.cluster) ∧
    (T.grid = false → ∀ n, n = 3 ∨ n = 4 ∨ n = 5 ∨ n = 8 → reads n 0xFFFFFFFF) ∧
    reads 10 (clock % 2 ^ 32) ∧ holds 11 (ln.th.clkLatch.getD (hi clock)) ∧ reads 12 (s.gt % 2 ^ 32) ∧
    holds 13 (ln.th.gtLatch.getD (hi s.gt)) ∧
    holds 14 G.fltmask ∧ holds 15 G.fltpc ∧ holds 16 G.fltcode ∧ holds 17 G.fltdst ∧ holds 18 ln.th.tsw ∧ reads 19 ln.th.rdv ∧
    (∀ n, 20 ≤ n → n < 64 → reads n 0) ∧ (∀ n, 64 ≤ n → n < 256 → s.special T ln (BitVec.ofNat 8 n) = none) ∧
    s.latch T 10#8 th = { th with clkLatch := some (hi clock) } ∧ s.latch T 12#8 th = { th with gtLatch := some (hi s.gt) } ∧
    ∀ n, n ≠ 10#8 → n ≠ 12#8 → s.latch T n th = th) ∧
  (∀ (s : State) (T : Team) (sub : Nat),
    let holds (n : Nat) (w : Word) : Prop := s.csr T sub (BitVec.ofNat 8 n) = some w
    holds 0 T.trapvec ∧ holds 1 T.fpen ∧ holds 2 T.rdvwd ∧ holds 3 T.wdrem ∧ holds 6 T.gscale ∧ holds 7 T.burstcap ∧
    (∀ L, s.launchOf T = some L → holds 4 (if L.r.det then 1#32 else 0#32) ∧ holds 5 (if L.r.rdi then 1#32 else 0#32)) ∧
    holds 8 (Sparse.get 0#32 s.pwrtok T.cid) ∧ holds 9 ((Sparse.get 0#16 s.lbinv (T.core * 4 + sub)).setWidth 32) ∧
    ∀ n, 10 ≤ n → n < 256 → s.csr T sub (BitVec.ofNat 8 n) = none)

/-- The halves of a paired word read before either writes; a half whose guard fails writes nothing (R80, R120). What each half makes of its
operands, V[D] and the register or immediate A (R80, R82, R120, R166): its result in V[D], or of ICMP in the predicate, its flags, its taint,
and whether it traps. -/
def Obligations.PairedHalves : Prop :=
  (∀ (x y : Half) (s : State) (T : Team) (g : Nat) (m : BitVec 32),
    let n : Names := { src := halfSrc x ++ halfSrc y, dst := halfDst x ++ halfDst y }
    let res (ln : Ln) : List (HalfRes) := [s.halfRes T ln x, s.halfRes T ln y]
    (Instr.pairedWord x y).check = none → s.AtLane T g m → (∀ ln ∈ s.members T, s.Ready T.id ln n ∧ ∀ h ∈ res ln, h.fpx = false) →
    GoesTo (exec (.pairedWord x y) s) fun t =>
      t = { s with teams := t.teams, kiln := t.kiln } ∧
      ∀ ln ∈ s.members T, ∀ r,
        { t.reg T.id g ln.l r with unk := false } =
          { (match ((res ln).map (·.v)).flatten.lookup r with
             | some (v, taint) => { s.reg T.id g ln.l r with val := v, taint, poison := false }
             | none => s.reg T.id g ln.l r) with unk := false } ∧
        (t.thread T.id g ln.l).pc = ln.th.pc + 8#32 ∧
        (t.thread T.id g ln.l).tsw = (res ln).foldl (fun w h => w ||| h.flags.setWidth 32) ln.th.tsw ∧
        ∀ p, p < 7 → (t.thread T.id g ln.l).preds.getLsbD p =
          ((((res ln).map (·.q)).flatten.lookup (BitVec.ofNat 3 p)).getD (ln.th.preds.getLsbD p))) ∧
  (∀ (s : State) (T : Team) (ln : Ln) (h : Half),
    let r := s.halfRes T ln h
    let quiet : Prop := r.v = [] ∧ r.q = [] ∧ r.flags = 0#5 ∧ r.fpx = false
    (ln.th.q h.pg = h.pn ∨ h.hop = .nop → quiet) ∧
    (ln.th.q h.pg ≠ h.pn → h.pg = 7#3 ∨ ln.th.unkQ.getLsbD h.pg.toNat = false →
      let x : Word := (s.rd ln h.d.toNat).val
      let reg : Word := (s.rd ln h.a.toNat).val
      let sx : Word := if h.ak then h.a.signExtend 32 else reg
      let zx : Word := if h.ak then h.a.setWidth 32 else reg
      let fx : Word := if h.ak then BitVec.ofNat 32 (fp32.round rne false false (Val.ofInt h.a.toInt)).1 else reg
      let bx : Word := if h.ak then
          (let e := (bf16.round rne false false (Val.ofInt h.a.toInt)).1; BitVec.ofNat 32 (e + 2 ^ 16 * e)) else reg
      let by_ : Nat := min (zx.toNat % 256) 32
      let sgn := h.hmod.getLsbD 0
      let rm : BitVec 2 := h.hmod.setWidth 2
      let ftz := h.hmod.getLsbD 2
      let taintA : Bool := !h.ak && (s.rd ln h.a.toNat).taint
      let gives (v : Word) (fl : BitVec 5) (taint : Bool) : Prop :=
        r.v = [(h.d.toNat, v, taint)] ∧ r.q = [] ∧ r.flags = fl ∧ r.fpx = trapsFpx T.fpen fl
      let two (v : Word) (fl : BitVec 5) : Prop := gives v fl ((s.rd ln h.d.toNat).taint || taintA)
      let one (v : Word) (fl : BitVec 5) : Prop := gives v fl taintA
      let fp (op : Val → Val → Val × BitVec 5) : Prop :=
        let w := op (fp32.read ftz x.toNat) (fp32.read ftz fx.toNat)
        let z := fp32.round rm ftz false w.1
        two (BitVec.ofNat 32 z.1) (z.2 ||| w.2)
      let packed (op : Val → Val → Val × BitVec 5) : Prop :=
        let w (k : Nat) := op (bf16.read ftz (half x k)) (bf16.read ftz (half bx k))
        let z (k : Nat) := bf16.round rm ftz false (w k).1
        two (BitVec.ofNat 32 ((z 0).1 + 2 ^ 16 * (z 1).1)) (((z 0).2 ||| (w 0).2) ||| ((z 1).2 ||| (w 1).2))
      let pick (greater : Bool) : Prop :=
        two (BitVec.ofNat 32 (rnd32 (Val.minmax greater (fp32.read ftz x.toNat) (fp32.read ftz fx.toNat)))) 0#5
      (h.hop = .mov → one sx 0#5) ∧ (h.hop = .iadd → two (x + sx) 0#5) ∧ (h.hop = .isub → two (x - sx) 0#5) ∧
      (h.hop = .imul → two (x * sx) 0#5) ∧ (h.hop = .and → two (x &&& sx) 0#5) ∧ (h.hop = .or → two (x ||| sx) 0#5) ∧
      (h.hop = .xor → two (x ^^^ sx) 0#5) ∧ (h.hop = .shl → two (x <<< by_) 0#5) ∧ (h.hop = .shr → two (x >>> by_) 0#5) ∧
      (h.hop = .sar → two (x.sshiftRight by_) 0#5) ∧
      (h.hop = .imin → two (BitVec.ofInt 32 (min (readInt sgn x) (readInt sgn sx))) 0#5) ∧
      (h.hop = .imax → two (BitVec.ofInt 32 (max (readInt sgn x) (readInt sgn sx))) 0#5) ∧
      (h.hop = .fadd → fp (Val.add rm)) ∧ (h.hop = .fmul → fp Val.mul) ∧ (h.hop = .fmin → pick false) ∧ (h.hop = .fmax → pick true) ∧
      (h.hop = .hadd2 → packed (Val.add rm)) ∧ (h.hop = .hmul2 → packed Val.mul) ∧
      (h.hop = .f2i → one (BitVec.ofInt 32 (f2iOp rm true (fp32.read ftz fx.toNat)).1) (f2iOp rm true (fp32.read ftz fx.toNat)).2) ∧
      (h.hop = .i2f →
        let z := fp32.round rne false false (Val.ofInt (readInt sgn sx))
        one (BitVec.ofNat 32 z.1) z.2) ∧
      (h.hop = .popc → one (BitVec.ofNat 32 ((List.range 32).countP fun j => sx.getLsbD j)) 0#5) ∧
      (h.hop = .clz → one (leadingZeros sx) 0#5) ∧
      (h.hop = .icmp →
        let l := (s.rd ln (h.d.toNat % 8)).val.toInt
        let c := sx.toInt
        r.v = [] ∧ r.flags = 0#5 ∧ r.fpx = false ∧ (h.hmod.toNat < 6 → r.q = [(h.d.setWidth 3, match h.hmod.toNat with
          | 0 => decide (l = c) | 1 => decide (l ≠ c) | 2 => decide (l < c) | 3 => decide (l ≤ c) | 4 => decide (c < l)
          | _ => decide (c ≤ l))]))))

/-- Branches, calls and returns (R126, R127): the executing lanes go on at the target, and the others at the following word; CALL
writes the address of the following word, untainted. Nothing but the loop buffers changes besides. -/
def Obligations.Branches : Prop :=
  ∀ (i : Iss) (d a : VReg) (c : COp) (s : State) (T : Team) (g : Nat) (m : BitVec 32), s.AtLane T g m →
    let jumps (ins : Instr) (n : Names) (bra : Bool) (dest : Ln → Word) (r : Res) : Prop :=
      (∀ ln ∈ s.actors T i, s.Ready T.id ln n ∧ s.unknown ln { src := n.src } = false) →
      GoesTo (exec ins s) fun t => ∃ u, Wrote s T n (s.actors T i) (fun ln => { r with goto := some (dest ln) }) u ∧
        t = u.branched T g (T.ln g 0).sub s.cur.pc bra ((s.actors T i).map fun ln => (ln.l, dest ln))
    jumps (.bra i c) { src := c.regs } true (fun ln => s.target T ln s.cur.pc c) {} ∧
    jumps (.call i d c) (.toV c.regs d) false (fun ln => s.target T ln s.cur.pc c)
      { Res.reg d (s.cur.pc + 8#32) with taint := some false } ∧
    jumps (.ret i a) { src := [a.toNat] } false (fun ln => s.v ln a &&& ~~~7#32) {}

/-- SMEET pushes MR and loads it with the target, or pops it (R12, R125); NAP with 0 goes on, and else waits until GT reaches the
time of issue plus n, at L scope each lane with its own n, and at G scope with one for all, at no rendezvous (R130). EXIT ends the executing
lanes (R128): none of them lives on, lanes whose guard fails go on, and a rendezvous that waited for them alone executes in this cycle (R135).
YIELD only asks for the group to be passed over, or sends it to the pending set while a pending group is ready (R129). -/
def Obligations.ThreadControl : Prop :=
  (∀ (i : Iss) (c : COp) (s : State) (T : Team) (g : Nat) (m : BitVec 32), s.AtLane T g m →
    ((∀ ln ∈ s.actors T i, s.Ready T.id ln { src := c.regs } ∧ ln.th.stack.length ≠ 8) →
      exec (.smeet i (some c)) s = .next (((s.actors T i).foldl (fun u ln => u.modThread T.id ln.g ln.l fun th =>
        { th with mr := s.target T ln s.cur.pc c, stack := th.mr :: th.stack }) s).retire [])) ∧
    exec (.smeet i none) s = .next (((s.actors T i).foldl (fun u ln => u.modThread T.id ln.g ln.l Thread.pop) s).retire []) ∧
    ((∃ pg pn, i.scope = .lane pg pn) →
      (∀ ln ∈ s.actors T i, s.Ready T.id ln { src := c.regs } ∧ CanRead .zero c s T ln) →
      let naps := (s.actors T i).filter fun ln => s.cword T ln .zero c != 0#32
      exec (.nap i c) s = .next ((naps.foldl (fun u ln => u.modThread T.id ln.g ln.l fun th =>
        { th with wait := .nap (s.gt + (s.cword T ln .zero c).toNat) }) s).retire (naps.map fun ln => (ln.g, ln.l)))) ∧
    (i.scope = .group → s.Supplies T c.regs →
      (s.scalar T .zero c = 0#32 → exec (.nap i c) s = .next (s.retire [])) ∧
      (s.scalar T .zero c ≠ 0#32 →
        let w : Wait := .nap (s.gt + (s.scalar T .zero c).toNat)
        exec (.nap i c) s = .next (s.nap w) ∧
        ∀ l, (s.nap w).thread T.id g l =
          if l < 32 ∧ m.getLsbD l = true then { s.thread T.id g l with wait := w, arr := .no } else s.thread T.id g l))) ∧
  (∀ (i : Iss) (s : State) (T : Team) (g : Nat) (m : BitVec 32), s.AtLane T g m →
    (GoesTo (exec (.exit i) s) fun t =>
      t = s.prompted ((s.retire ((s.actors T i).map fun ln => (ln.g, ln.l))).exitLanes T.id g ((s.actors T i).map (·.l)) true) T.id ∧
      ∀ ln ∈ s.actors T i, ln.th.live = true → t.thread T.id g ln.l = threadIdle) ∧
    ((∃ pg pn, i.scope = .lane pg pn) → GoesTo (exec (.yield i) s) fun t => ∃ u, WentOn s u ∧
      t = if (s.actors T i).isEmpty then u else u.modGroup T.id g fun G => { G with yielded := some (s.cur.pc + 8#32) }) ∧
    (i.scope = .group → GoesTo (exec (.yield i) s) fun t => ∃ u, WentOn s u ∧
      t = if s.pendingReady T.core (T.ln g 0).sub then u.modGroup T.id g fun G => { G with active := false } else u))

/-- VOTE, SHFL, REDUX, MATCH and ISLAST: every member lane gets what the membership says (R140 to R144). -/
def Obligations.GroupOperations : Prop :=
  ∀ (i : Iss) (d a : VReg) (p q : PReg) (neg pref b64 : Bool) (c : COp) (w : BitVec 2) (op : ReduxOp),
    let yes (s : State) (T : Team) : List Ln := (s.members T).filter fun ln => ln.th.q p != neg
    let elem (s : State) (ln : Ln) : Nat := elementOf (s.cur.members.map (·.1)) ln
    let any (_ : State) (_ : Team) : Prop := True
    let src : List Nat := if b64 then [a.toNat, a.toNat + 1] else [a.toNat]
    let key (s : State) (ln : Ln) : Nat := if b64 then s.rdPair ln a.toNat else (s.v ln a).toNat
    let word (x : Nat) : Res := { Res.reg d (BitVec.ofNat 32 x) with taint := some false }
    let votes (mode : VoteMode) (f : State → Team → Ln → Res) : Prop :=
      RunsOnce (.vote i d p neg mode) (if mode.toPred then .toQ [] (d.setWidth 3) else .toV [] d) any f
    votes .every (fun s T _ => .pred (d.setWidth 3) ((s.members T).all fun ln => ln.th.q p != neg)) ∧
    votes .some (fun s T _ => .pred (d.setWidth 3) ((s.members T).any fun ln => ln.th.q p != neg)) ∧
    votes .same (fun s T _ => .pred (d.setWidth 3)
      (!((s.members T).any fun ln => ln.th.q p != neg) || (s.members T).all fun ln => ln.th.q p != neg)) ∧
    votes .lanes (fun s T ln =>
      { Res.reg d (maskOf (((yes s T).filter fun x => x.g == ln.g).map (·.l))) with taint := some false }) ∧
    votes .count (fun s T _ => word (yes s T).length) ∧
    votes .first (fun s T _ => match yes s T with
      | [] => { Res.reg d allOnes with taint := some false }
      | ln :: _ => word (elem s ln)) ∧
    votes .rank (fun s T ln => word ((yes s T).countP fun x => elem s x < elem s ln)) ∧
    (∀ mode, RunsOnce (.shfl i d a q c mode w)
      { src := c.regs, dst := [d.toNat], also := [a.toNat], flt := dstV d.toNat }
      (fun s T => ∀ ln ∈ s.members T, (s.rd ln a.toNat).poison = false) (fun s T ln =>
        let src := (shflSource mode (32 >>> w.toNat) ln.l (s.cword T ln .sign c)).bind fun l =>
          (s.members T).find? fun x => x.g == ln.g && x.l == l
        let v := s.rd (src.getD ln) a.toNat
        { v := [(d.toNat, v.val)], q := [(q, src.isSome)], taint := some (v.taint || s.tainted ln { src := c.regs }) })) ∧
    RunsOnce (.redux i d a op pref) (.toV [a.toNat] d) any (fun s T ln =>
      let from_ := (s.members T).filter fun x => !pref || elem s x ≤ elem s ln
      { Res.reg d (combine op (from_.map fun x => s.v x a)) with taint := some (from_.any fun x => (s.rd x a.toNat).taint) }) ∧
    (∀ mode, RunsOnce (.match_ i d a mode b64) (.toV src d) any (fun s T ln =>
      let peers := ((s.members T).filter fun x => key s x == key s ln).map (·.l)
      { Res.reg d (match mode with
          | .peers => maskOf peers
          | .head => BitVec.ofNat 32 (peers.head?.getD 0)
          | .nclass => BitVec.ofNat 32 (((s.members T).map (key s)).eraseDups).length
          | .order => BitVec.ofNat 32 (peers.countP (· < ln.l))) with
        taint := some ((s.members T).any fun x => s.tainted x { src }) })) ∧
    RunsOnce (.islast i p) (.toQ [] p) any (fun s T ln => .pred p ((s.members T).all fun x => x.g ≤ ln.g))

/-- Single executions over the state of the team (R32, R108, R137 to R139, R273, R274, R277): the one thing each changes, and the members
go on. A wait that CVLEAVE completes executes in the same cycle (R139). -/
def Obligations.TeamInstructions : Prop :=
  ∀ (i : Iss) (d : KReg) (n : CvN) (c : COp) (csr : BitVec 8) (a : VReg) (p : PReg) (s : State) (T : Team), s.AtWide T →
    (s.Supplies T c.scalarRegs → GoesTo (exec (.kset i d c) s)
      (WentOn (s.modTeam T.id fun T => { T with k := vset T.k d.toNat (s.scalar T .sign c) }))) ∧
    (s.Supplies T [a.toNat] → csr.toNat < 10 → GoesTo (exec (.csrw i csr a) s)
      (WentOn (s.modTeam T.id fun T => T.writeCsr csr (s.scalar T .zero (.v a)) s.gt))) ∧
    GoesTo (exec (.bar i) s) (WentOn (s.atBar T)) ∧
    (∀ r : VReg, s.Supplies T [r.toNat, r.toNat + 1] → GoesTo (exec (.cvset i n (.v r)) s) (WentOn ((s.modTeam T.id fun U =>
      { U with cvs := vset U.cvs n.toNat { vget U.cvs n.toNat cvReset with
          mask := BitVec.ofNat 64 (((s.leader T).map fun ln => s.rdPair ln r.toNat).getD 0) &&& U.allMask, arr := 0, mism := false,
          gdeg := false } }).dropLatch T.core n))) ∧
    (∀ x : BitVec 8, GoesTo (exec (.cvset i n (.imm x)) s) (WentOn ((s.modTeam T.id fun U =>
      { U with cvs := vset U.cvs n.toNat { vget U.cvs n.toNat cvReset with
          mask := x.setWidth 64 &&& U.allMask, arr := 0, mism := false, gdeg := false } }).dropLatch T.core n))) ∧
    (∀ k : KReg, GoesTo (exec (.cvset i n (.k k)) s) (WentOn ((s.modTeam T.id fun U =>
      { U with cvs := vset U.cvs n.toNat { vget U.cvs n.toNat cvReset with
          mask := (T.kreg (k.toNat + 1) ++ T.kreg k.toNat : Dword) &&& U.allMask, arr := 0, mism := false,
          gdeg := false } }).dropLatch T.core n))) ∧
    GoesTo (exec (.cvleave i n) s) (fun t => ∃ u, WentOn ((s.modTeam T.id fun U => Team.refresh
      { U with cvs := vset U.cvs n.toNat { vget U.cvs n.toNat cvReset with
          mask := (vget U.cvs n.toNat cvReset).mask &&& ~~~groupMask (s.cur.members.map (·.1)) } }).dropLatch T.core n) u ∧
      t = s.prompted u T.id) ∧
    GoesTo (exec (.succ i) s) (WentOn (if T.succ || !T.grid then s else
      (s.modTeam T.id fun T => { T with succ := true }).modLaunch T.part T.lnum fun L => { L with succs := L.succs + 1, succRan := true })) ∧
    (∀ ok, s.predEnded T = some ok → exec (.pwait i p) s = .next (s.passPwait T p ok)) ∧
    (s.predEnded T = none → exec (.pwait i p) s = .next (s.park (.pwait p)))

/-! ## Traps, handlers and faults -/

/-- TRAP, BKPT and a word that is not an instruction raise their user traps (R99, R275): outside a handler, with a handler set and an
entry to be had, the group enters the handler. -/
def Obligations.SoftwareTraps : Prop :=
  ∀ (i : Iss) (w : Dword) (s : State) (T : Team) (g : Nat) (m : BitVec 32) (G : Group), s.AtLane T g m → T.group? g = some G →
    T.st = .run → T.trapvec ≠ 0#32 → G.handler = none → G.trap = none → G.spec = none →
    let acts := s.actors T i
    let passed := s.retire (acts.map fun ln => (ln.g, ln.l))
    let fault (code : Code) (lns : List Ln) : Raise :=
      { code, t := T.id, g, lanes := lanesIn g lns, pc := s.cur.pc, arr := s.cur.arr, members := [g] }
    (∀ t, acts ≠ [] → m ≠ 0#32 → passed.enterHandler (fault .swtrap acts) = .ok t → exec (.trap i) s = .next t) ∧
    (∀ t, acts ≠ [] → m ≠ 0#32 → passed.enterHandler (fault .bkpt acts) = .ok t → exec (.bkpt i) s = .next t) ∧
    (∀ t, m ≠ 0#32 → s.enterHandler (fault .illop (s.members T)) = .ok t → exec (.illop w) s = .next t)

/-- What entering a handler does (R355, R356, R357): the fault registers hold the trap; every thread of the handler set, which is each
faulting thread and each other live one that does not wait, stands at TRAPVEC with MR at its empty value, no stacked meeting point and no
arrival, its predicates, handles, marks and TSW as they were; what was captured of it is kept with the group; no value in a row in use, no
other thread that is not held, other team or byte of memory changes. Of what was under way only the answers and values that these threads
waited for at their words come to nothing (DEDUCED, log entry 55), and they leave their loop buffers. -/
def Obligations.HandlerEntry : Prop :=
  ∀ (s t : State) (r : Raise) (T : Team) (G : Group), s.team? r.t = some T → T.group? r.g = some G → s.enterHandler r = .ok t →
    let set := G.handlerSet r.arr r.lanes
    (∃ G' h, t.group? r.t r.g = some G' ∧ G'.handler = some h ∧ h.caps.map (·.1) = set ∧
      (∀ x ∈ h.caps, x.2 = { (G.thread x.1).capture with rows := x.2.rows }) ∧
      G'.fltmask = r.lanes ∧ G'.fltpc = r.pc ∧ G'.fltcode = BitVec.ofNat 32 r.code.num ∧ G'.fltdst = r.dst ∧
      (∀ l ∈ set, (G'.thread l).pc = T.trapvec ∧ (G'.thread l).mr = allOnes ∧ (G'.thread l).stack = [] ∧ (G'.thread l).arr = .no ∧
        (G'.thread l).live = (G.thread l).live ∧ (G'.thread l).preds = (G.thread l).preds ∧ (G'.thread l).h = (G.thread l).h ∧
        (G'.thread l).taint = (G.thread l).taint ∧ (G'.thread l).tsw = (G.thread l).tsw ∧
        (G'.thread l).wait = (G.thread l).wait.inHandler) ∧
      (∀ l, l < 32 → l ∉ set → (G.thread l).held? = false → G'.thread l = G.thread l)) ∧
    (∀ t', t' ≠ r.t → t.team? t' = s.team? t') ∧
    t = { s with teams := t.teams, kiln := t.kiln, entries := t.entries, flights := t.flights, loops := t.loops } ∧
    (∀ f ∈ t.flights, f ∈ s.flights) ∧
    (∀ k, (s.row k).count ≠ 0 → (t.row k).regs = (s.row k).regs ∧ (t.row k).poison = (s.row k).poison)

/-- TRET ends the handler (R276): its threads take back what was captured of them; `.retry` leaves them at the trapping word, `.next` and
`.subst` send the faulting lanes on (all members of the word, where the trap came from a word of S or T scope), and `.subst` first
writes the substitute into the destination of the trap; every thread of the handler reads the substitute (R276, R373). Where the trap came
from a paired MMA whose members had gone on, the instruction of the queue is taken again or dropped instead (log entry 43). TRET outside a
handler is ILLOP (R276). -/
def Obligations.TrapReturn : Prop :=
  (∀ (i : Iss) (b : VReg) (s : State) (T : Team) (g : Nat) (m : BitVec 32) (G : Group) (h : Handler), s.AtLane T g m →
    T.group? g = some G → G.handler = some h →
    let back := s.takeBackAll T g h
    let timed (u : State) : State := u.modGroup T.id g fun G => { G with timer := h.timer, tskip := h.tskip }
    let hit := (s.members T).filter fun ln => G.fltmask.getLsbD ln.l
    let onward (u : State) : State :=
      if h.arr.cv?.isSome = true then (h.members.foldl (fun u j => match u.group? T.id j with
        | some H => u.nextLanes T.id j ((lanesOf H.live).filter fun l =>
            if j == g then h.lanes.contains l else (H.thread l).arr == h.arr)
        | none => u) u).release T.id h.arr h.members
      else if h.late.cv?.isSome = true then (u.settle T.id g).lateReturn T h false
      else u.nextLanes T.id g (hit.map (·.l))
    let regs := substRegs h G.fltdst b
    exec (.tret i .retry b) s = .next (if h.arr.cv?.isSome = true then
        ((timed back).modGroup T.id g fun G => (((s.members T).map (·.l)).filter fun l => (back.thread T.id g l).live).foldl
          (fun G l => G.modThread l fun th => { th with arr := h.arr }) G).modTeam T.id Team.refresh
      else ((timed back).settle T.id g).lateReturn T h true) ∧
    exec (.tret i .next b) s = .next (onward (timed back)) ∧
    (G.fltdst = allOnes → b.toNat % h.width = 0 →
      (∀ ln ∈ s.members T, (ln.key? b.toNat).isSome = true ∧ (s.rd ln b.toNat).poison = false) → exec (.tret i .subst b) s = .next (onward (timed back))) ∧
    (∀ u, b.toNat % h.width = 0 → G.fltdst.toNat < 256 →
      (∀ ln ∈ s.members T, ∀ x ∈ regs, (ln.key? x.1).isSome = true ∧ (s.rd ln x.1).poison = false) →
      (∀ ln ∈ hit, ∀ x ∈ regs, (back.rd { ln with th := back.thread T.id g ln.l } x.2).pend = false) →
      back.cowAll T.id (rowsOf hit (regs.map (·.2))) = .ok u →
      exec (.tret i .subst b) s = .next (onward (timed (hit.foldl (fun u ln =>
        regs.foldl (fun u x => u.wr T.id g ln.l x.2 (s.rd ln x.1).val (s.rd ln x.1).taint) u) u)))) ∧
    (G.fltdst.toNat ≥ 256 → G.fltdst ≠ allOnes → b.toNat % h.width = 0 →
      (∀ ln ∈ s.members T, (ln.key? b.toNat).isSome = true ∧ (s.rd ln b.toNat).poison = false) →
      exec (.tret i .subst b) s = .next (onward (timed (hit.foldl (fun u ln => u.modThread T.id g ln.l fun th =>
        th.setQ (BitVec.ofNat 3 (G.fltdst.toNat - 256)) ((s.rd ln b.toNat).val.getLsbD 0)) back))))) ∧
  (∀ (i : Iss) (mode : TretMode) (b : VReg) (s : State) (T : Team) (g : Nat) (m : BitVec 32) (G : Group), s.AtLane T g m →
    T.group? g = some G → G.handler = none → G.spec = none → m ≠ 0#32 →
    exec (.tret i mode b) s = .next (s.raise
      { code := .illop, t := T.id, g, lanes := lanesIn g (s.members T), pc := s.cur.pc, arr := s.cur.arr, members := [g] }))

/-- Operands that may not be used (R14, R105): a null row pointer is UNALLOT and a poisoned source DATAERR, in the lanes that have
them, before anything is written. Where a fault goes (R353 to R355): a team fault ends the team and leaves a record; a system fault stops its issue and keeps it for
its swap-out; a user trap with no handler set, or in a handler, ends the team like a team fault; an ended team takes no fault. -/
def Obligations.Faults : Prop :=
  (∀ (i : Iss) (d a : VReg) (c : COp) (s : State) (T : Team) (g : Nat) (m : BitVec 32), s.AtLane T g m →
    (∀ G, T.group? g = some G → G.spec = none) →
    let acts := s.actors T i
    let fault (code : Code) (lns : List Ln) : Raise :=
      { code, t := T.id, g, lanes := lanesIn g lns, pc := s.cur.pc, dst := dstV d.toNat, arr := s.cur.arr, members := [g] }
    let named : List Nat := a.toNat :: c.regs ++ [d.toNat]
    let null := acts.filter fun ln => named.any fun n => (ln.key? n).isNone
    let bad := acts.filter fun ln => (a.toNat :: c.regs).any fun n => (s.rd ln n).poison
    (null ≠ [] → exec (.and i d a c) s = .next (s.raise (fault .unallot null))) ∧
    (null = [] → bad ≠ [] → bad = acts →
      exec (.and i d a c) s = .next ((s.retire (acts.map fun ln => (ln.g, ln.l))).raise (fault .dataerr bad)))) ∧
  (∀ (s : State) (r : Raise) (T : Team), s.team? r.t = some T →
    let ended (t : State) : Prop :=
      (∃ T', t.team? r.t = some T' ∧ T'.st = .ending true ∧ T'.k = T.k ∧
        ∀ G, T.group? r.g = some G → ∃ G', T'.group? r.g = some G' ∧ G'.threads = G.threads ∧
          G'.fltmask = r.lanes ∧ G'.fltpc = r.pc ∧ G'.fltcode = BitVec.ofNat 32 r.code.num ∧ G'.fltdst = r.dst) ∧
      (∀ p, t.part p = if p = T.part ∧ p < 8 then { s.part p with faults := (s.part p).faults ++ [s.record r 0#2] } else s.part p) ∧
      t.mem = s.mem ∧ ∀ t', t' ≠ r.t → t.team? t' = s.team? t'
    (T.st = .run → r.code.cls = .team → ended (s.raise r)) ∧
    (T.st = .run → r.code.cls = .system → s.raise r = (s.setFlt r).modTeam r.t fun T => { T with st := .stopping (s.record r 1#2) }) ∧
    (T.st = .run → r.code.cls = .user → ∀ G, T.group? r.g = some G → (T.trapvec = 0#32 ∨ G.handler.isSome = true) →
      ended (s.raise r)) ∧
    (∀ f, T.st = .ending f → s.raise r = s))

/-! ## A step -/

/-- The order in which things act within a cycle is the model's (log entry 2). When the issue of a thread set by a sub-core comes next, the step is the meaning of the instruction that the word at its PC decodes
to, with the set at the cursor; then come what ends every step (R122, R133, R333, R364). When a rendezvous is complete and comes next, the step is the meaning of the instruction at it, with the members at the
cursor (R131). -/
def Obligations.StepRuns : Prop :=
  (∀ (s : State) (x : Seat) (rs : List Ready) (r : Ready) (w : Dword) (i : Instr),
    s.m.stopped = false → 4 ≤ s.m.stage → s.inputDue = none → s.nextTurn = some (.issue (.set x rs)) →
    pick x.G rs = some r → s.wordAt x.T x.g x.G r.lanes r.pc = .ok w → decode w = .ok i →
    i.arr = .no → s.inRunAhead x.T.id x.g = false → s.rotates x.T i = false →
    let u := (s.fill x.T r.pc).modGroup x.T.id x.g fun G => (G.countPassed r.pc (rs.map (·.pc))).issuedAt r.pc s.gt
    let cur : Cursor := { team := x.T.id, pc := r.pc, members := [(x.g, maskOf r.lanes)], arr := .no }
    step s = Out.then (Out.then (exec i { u with cur := cur, issued := s.issued ++ [subNo x.T.core x.G.sub] })
      (·.endAhead x.T.id x.g)) State.afterStep) ∧
  (∀ (s : State) (T : Team) (d : Due) (g : Nat) (G : Group) (w : Dword) (i : Instr),
    s.m.stopped = false → 4 ≤ s.m.stage → s.inputDue = none →
    (s.nextTurn = some (.wide T d) ∨ ∃ x : Seat, x.T = T ∧ s.nextTurn = some (.issue (.due x d))) →
    (d.cur.members.map (·.1)).filter (s.inRunAhead T.id) = [] →
    ((d.cur.members.map (·.1)).find? fun g => ((T.group? g).map (·.live)).getD 0#32 != 0#32) = some g → T.group? g = some G →
    s.wordAt T g G G.party d.cur.pc = .ok w → decode w = .ok i → s.rotates T i = false →
    step s = Out.then (exec i { s.began T d with issued := s.issued ++ [subNo T.core (T.leadSub d)] }) State.afterStep)

/-! ## Memory -/

/-- Memory, as every access sees it: a byte written is read back, and every other byte is as it was; wider accesses are
little-endian (R5). -/
def Obligations.MemoryReadsBack : Prop :=
  ∀ (s : State) (k : Nat) (b : Byte) (n v : Nat),
    (∀ j, (s.setByte k b).byte j = if j = k then b else s.byte j) ∧
    (s.setBytes k n v).bytes k n = v % 2 ^ (8 * n) ∧
    (∀ j, j < k ∨ k + n ≤ j → (s.setBytes k n v).byte j = s.byte j) ∧
    (∀ j, j < n → (s.setBytes k n v).byte (k + j) = BitVec.ofNat 8 (v / 2 ^ (8 * j))) ∧
    (Memory.wf s.mem = true → Memory.wf (s.setBytes k n v).mem = true)

/-- The order in which a lane's address is tested (R167, R168, R176): alignment before everything, then whether the space holds it. That the
address of a swizzled Basin access is tested before its bytes are placed is log entry 35. -/
def Obligations.AddressChecks : Prop :=
  ∀ (s : State) (T : Team) (sp : Space) (swz ea size : Nat) (need : Need),
    (ea % size ≠ 0 → s.locate T sp swz ea size need = .error .misalign) ∧
    (ea % size = 0 → sp.wide = true → s.translate T.part (s.ctxOf T) ea need = none →
      s.locate T sp swz ea size need = .error .perm) ∧
    (ea % size = 0 → sp = .basin → s.locate T sp swz ea size need =
      if T.basinLen < ea + size then .error .perm else .ok { ea, ia := 0, keys := T.basinKeys swz ea size }) ∧
    (ea % size = 0 → sp = .slip → s.inSlip T ea size = false → s.locate T sp swz ea size need = .error .perm)

/-- LD and LDC (R171): the destination registers become pending, untainted for LD and tainted for LDC; a local load has its value at
issue, a global one leaves the core, its group with a speculation entry where one is to be had (R362); each lane's address is the one that
the operand gives. A local load of bytes that a store of its own thread holds at the core waits for that store (R174; log entry 65). -/
def Obligations.Loads : Prop :=
  ∀ (i : Iss) (d a : VReg) (off : COp) (m : MemMod) (s : State) (T : Team) (g : Nat) (mask : BitVec 32) (accs : List (Ln × Place)),
    s.AtLane T g mask →
    let addr := baseRegs m.space a ++ off.regs
    let n : Names := { src := addr, dst := span d m.size.regs, flt := dstV d.toNat, width := m.size.regs }
    (∀ ln ∈ s.actors T i, s.Ready T.id ln n ∧ s.unknown ln { src := addr } = false) →
    (s.actors T i).map (fun ln => (ln, (s.at_ m.space m.swz.toNat m.size.bytes needR a off T ln).2)) =
      accs.map (fun x => (x.1, .ok x.2)) →
    s.racers T m.space accs = [] →
    let behind : Bool := !m.space.wide && s.behindHeld T.id g (accs.map fun x => (x.1.l, x.2.keys))
    let sent (taint : Bool) : State :=
      let w := if m.space.wide then s.issuing T g (accs.map (·.1)) (span d m.size.regs) else s
      let u := accs.foldl (fun u x => u.expect T.id x.1.g x.1.l d.toNat m.size.regs taint) (w.passAcq T.id g (accs.map fun x => x.1.l))
      u.send T g { flightOf s T g (.load m.size.signed) m.size.bytes m.size.regs
        (accs.map fun x => u.loadLane T (!m.space.wide) d m x.1 x.2) with
          remote := m.space.wide, cistern := m.space == .cistern, confirmed := !m.space.wide, pos := posOf i m, taint }
    (behind = false → exec (.ld i d a off m) s = .next (sent false) ∧ exec (.ldc i d a off m) s = .next (sent true)) ∧
    (behind = true → exec (.ld i d a off m) s = .next s ∧ exec (.ldc i d a off m) s = .next s)

/-- ST and STFE (R171, R172, R175): outside speculation a local store is performed at once, lanes in ascending order, and else it is held
(R362); a global store leaves the core with the data of each lane. A local store changes the bytes it stores to, and no other: they hold the data little-endian (R5, R172). -/
def Obligations.Stores : Prop :=
  (∀ (i : Iss) (d a : VReg) (off : COp) (m : MemMod) (s : State) (T : Team) (g : Nat) (mask : BitVec 32) (accs : List (Ln × Place)),
    s.AtLane T g mask →
    let addr := baseRegs m.space a ++ off.regs
    (∀ ln ∈ s.actors T i, s.Ready T.id ln { src := addr ++ span d m.size.regs } ∧ s.unknown ln { src := addr } = false) →
    (s.actors T i).map (fun ln => (ln, (s.at_ m.space m.swz.toNat m.size.bytes needW a off T ln).2)) =
      accs.map (fun x => (x.1, .ok x.2)) →
    let shaded (fe : Bool) : State := if m.space = .basin ∧ s.isDet T = true then s.shadow T fe accs else s
    let stored (fe : Bool) : State :=
      accs.foldl (fun u x => u.storeLocal T fe x.2.keys (s.data x.1 d m.size.regs).toNat) (shaded fe)
    let flight (fe : Bool) : Flight := { flightOf s T g (.store fe) m.size.bytes 0 (accs.map fun x =>
        { lane := x.1.l, va := BitVec.ofNat 64 x.2.ea, ia := x.2.ia, keys := x.2.keys, data := s.data x.1 d m.size.regs,
          dst := none, val := none, todo := true }) with
      remote := m.space.wide, cistern := m.space == .cistern, confirmed := !m.space.wide, pos := posOf i m }
    (m.space.wide = false → s.racers T m.space accs = [] → exec (.st i d a off m) s =
      .next (if s.holdsLocal T.id g then (shaded false).sendWrite T g (flight false) else (stored false).retire [])) ∧
    (m.space.wide = false → exec (.stfe i d a off m) s =
      .next (if s.holdsLocal T.id g then (shaded true).sendWrite T g (flight true) else (stored true).retire [])) ∧
    (m.space.wide = true → s.detOf T = none → exec (.st i d a off m) s = .next ((s.issuing T g (accs.map (·.1)) []).send T g (flight false)))) ∧
  (∀ (s : State) (T : Team) (fe : Bool) (keys : List Nat) (data : Nat), keys.Nodup →
    let t := s.storeLocal T fe keys data
    (∀ j, j < keys.length → ∀ k, keys[j]? = some k → t.byte k = BitVec.ofNat 8 (data / 2 ^ (8 * j))) ∧
    (∀ k, k ∉ keys → t.byte k = s.byte k) ∧ t.kiln = s.kiln ∧ t.flights = s.flights ∧
    (∀ t', t' ≠ T.id → t.team? t' = s.team? t') ∧
    (∀ U, s.team? T.id = some U → ∃ U', t.team? T.id = some U' ∧ U' = { U with full := U'.full, engFull := U'.engFull }))

/-- Atomics leave the core with each lane's operand, their group with a speculation entry where one is to be had (R362), and their
destinations become pending (R178 to R183). -/
def Obligations.Atomics : Prop :=
  ∀ (i : Iss) (d a b : VReg) (off : COp) (op : AtomOp) (b64 : Bool) (sg : SGroup) (s : State) (T : Team) (g : Nat)
      (mask : BitVec 32) (accs : List (Ln × Place)), s.AtLane T g mask → s.detOf T = none →
    let addr := baseRegs .global a ++ off.regs
    let leaves (ins : Instr) (op : AccOp) (dst : Option (VReg × Nat)) (size nb : Nat) : Prop :=
      let ds := match dst with | some (d, n) => span d n | none => []
      (∀ ln ∈ s.actors T i, s.Ready T.id ln { src := addr ++ span b nb, dst := ds } ∧ s.unknown ln { src := addr } = false) →
      (s.actors T i).map (fun ln => (ln, (s.atomAt op dst.isSome size a off (s.actors T i) T ln).2)) =
        accs.map (fun x => (x.1, .ok x.2)) →
      let w := s.issuing T g (accs.map (·.1)) ds
      let u : State := match dst with
        | some (d, n) => accs.foldl (fun u x => u.expect T.id x.1.g x.1.l d.toNat n false) w
        | none => w
      exec ins s = .next (u.send T g { flightOf s T g op size ((dst.map (·.2)).getD 0) (accs.map fun x =>
        { lane := x.1.l, va := BitVec.ofNat 64 x.2.ea, ia := x.2.ia, keys := [], data := s.data x.1 b nb,
          dst := dst.bind fun y => u.landing T.id x.1.g x.1.l y.1.toNat, val := none, todo := true }) with sg })
    let w := if op.wide then 2 else 1
    let w' := if b64 then 2 else 1
    leaves (.atom i d a off b op sg) (.atom op) (some (d, w)) (4 * w) w ∧
    leaves (.acas i d a off b b64 sg) .cas (some (d, w')) (4 * w') (2 * w') ∧
    leaves (.afadd i d a off b sg) .fadd (some (d, 1)) 4 1 ∧
    leaves (.ab2add i a off b sg) .b2add none 4 1 ∧
    leaves (.avimx i d a off b false sg) .vimx (some (d, 2)) 8 2 ∧
    leaves (.avimx i d a off b true sg) .vimx none 8 2 ∧
    leaves (.red i a off b op sg) (if op = .fadd then .fadd else .atom op) none (4 * w) w

/-- What an atomic stores, from the old value and its operand: ATOM and RED (R179), ACAS of both widths (R180), AFADD and RED.fadd (R181),
AB2ADD once both its halves are added (R182), and AVIMX, whose packed word puts a NaN below every number and the lower index first (R183). -/
def Obligations.AtomicValues : Prop :=
  ∀ (old b : Word) (x y : Dword) (c : BitVec 512) (cmp new : Dword) (v j : Word),
    let new32 (op : AtomOp) : Word := BitVec.ofNat 32 (AccOp.newValue (.atom op) 4 old.toNat (b.setWidth 512))
    let new64 (op : AtomOp) : Dword := BitVec.ofNat 64 (AccOp.newValue (.atom op) 8 x.toNat (y.setWidth 512))
    new32 .add = old + b ∧ new32 .and = old &&& b ∧ new32 .or = old ||| b ∧ new32 .xor = old ^^^ b ∧
    new32 .minu = (if old.ult b then old else b) ∧ new32 .maxu = (if old.ult b then b else old) ∧
    new32 .mins = (if old.slt b then old else b) ∧ new32 .maxs = (if old.slt b then b else old) ∧
    new32 .exch = b ∧ new32 .inc = (if b.ule old then 0#32 else old + 1#32) ∧
    new32 .dec = (if old = 0#32 ∨ b.ult old then b else old - 1#32) ∧
    new64 .add64 = x + y ∧ new64 .exch64 = y ∧ new64 .or64 = x ||| y ∧ new64 .and64 = x &&& y ∧
    AccOp.newValue .cas 4 old.toNat c =
      (if old = c.setWidth 32 then ((c >>> 32).setWidth 32 : Word) else old).toNat ∧
    AccOp.newValue .cas 8 x.toNat ((new ++ cmp : BitVec 128).setWidth 512) = (if x = cmp then new else x).toNat ∧
    AccOp.newValue .fadd 4 old.toNat (b.setWidth 512) =
      (fp32.round rne false false (Val.add rne (fp32.value old.toNat) (fp32.value b.toNat)).1).1 ∧
    (let sum (k : Nat) : Nat := (bf16.round rne false false (Val.add rne (bf16.value (half old k)) (bf16.value (half b k))).1).1
     AccOp.newValue .b2add 4 old.toNat (b.setWidth 512) = sum 0 + 2 ^ 16 * sum 1) ∧
    (let w : Word := if 0x7F800000 < v.toNat % 2 ^ 31 then 0xFF800000#32 else v
     let key : Word := if w.getLsbD 31 = false then w ||| 0x80000000#32 else ~~~w
     AccOp.newValue .vimx 8 x.toNat ((j ++ v : Dword).setWidth 512) = max x.toNat (key.toNat * 2 ^ 32 + (2 ^ 32 - 1 - j.toNat)))

/-- Performing at the home (R172, R178 to R183, R300): a store that is confirmed and whose earlier accesses are performed writes, place by
place, the bytes of its lanes, little-endian, and no other byte of memory; where hotness is tracked a counter in memory may change besides
(R291), so the bytes are stated for a partition that does not track it. An atomic leaves the value that its operation makes of the old one,
and a lane with a destination holds the old one; AB2ADD adds one half at a time. Which place comes first is the model's free choice (log
entry 1). What leaving
the core does (R362): the access is under way, and nothing else of the machine changes but that its threads go on or wait at the word; a
group that takes a speculation entry holds what it captures, and no value of a row in use changes. -/
def Obligations.GlobalAccesses : Prop :=
  (∀ (s : State) (id : Nat) (f : Flight) (T : Team) (fe : Bool), s.flight? id = some f → s.owner? f.team = some T →
    s.mayGo f = true → f.op = .store fe → f.remote = true → (∀ a ∈ f.lanes, apertureOf a.ia = none) →
    ((f.heads.filter (s.laneReady f)) ≠ [] → ∃ a u, a ∈ f.heads ∧ s.laneReady f a = true ∧ u = { s with fresh := u.fresh } ∧
      exec (.reachesHome id) s = .next ((f.at_ a).foldl (fun u b => (u.storeAt T f b).endLane f.id b.lane) u)) ∧
    (∀ a, f.lanes.filter (·.todo) = [a] → s.laneReady f a = true → s.windowReset T.part a.ia = false →
      (s.part (a.ia / 2 ^ 48)).fld 0x018 16 1 = 0 → s.cxlDown (s.accKey a) = false →
      ∃ t, exec (.reachesHome id) s = .next t ∧
        (∀ j, j < f.size → t.byte (s.accKey a + j) = BitVec.ofNat 8 (a.data.toNat / 2 ^ (8 * j))) ∧
        (∀ k, k < s.accKey a ∨ s.accKey a + f.size ≤ k → t.byte k = s.byte k) ∧ t.kiln = s.kiln)) ∧
  (∀ (s : State) (id : Nat) (f : Flight) (T : Team) (a : LaneAcc) (k : Nat), s.flight? id = some f → s.owner? f.team = some T →
    s.mayGo f = true → f.remote = true → f.heads.filter (s.laneReady f) = [a] → apertureOf a.ia = none → s.accKey a = k →
    ((f.op = .cas ∨ f.op = .fadd ∨ f.op = .vimx ∨ ∃ o, f.op = .atom o) → s.windowReset T.part a.ia = false →
      s.poisonedIn k f.size = false → s.cxlDown k = false → (s.part (a.ia / 2 ^ 48)).fld 0x018 16 1 = 0 →
      let old := s.bytes k f.size
      ∃ t, exec (.reachesHome id) s = .next t ∧ t.bytes k f.size = f.op.newValue f.size old a.data % 2 ^ (8 * f.size) ∧
        (∀ j, j < k ∨ k + f.size ≤ j → t.byte j = s.byte j) ∧ t.kiln = s.kiln ∧
        (a.dst.isSome = true → ((t.flight? id).bind (·.lane? a.lane)).bind (·.val) = some (BitVec.ofNat 128 old, false))) ∧
    (∀ h, f.op = .b2add → h = (if a.half then 1 else 0) → s.windowReset T.part (a.ia + 2 * h) = false →
      s.poisonedIn (k + 2 * h) 2 = false → s.cxlDown (k + 2 * h) = false → (s.part ((a.ia + 2 * h) / 2 ^ 48)).fld 0x018 16 1 = 0 →
      ∃ t, exec (.reachesHome id) s = .next t ∧ t.bytes (k + 2 * h) 2 = (bf16.round rne false false
          (Val.add rne (bf16.value (s.bytes (k + 2 * h) 2)) (bf16.value (a.data.toNat / 2 ^ (16 * h) % 2 ^ 16))).1).1 % 2 ^ 16 ∧
        (∀ j, j < k + 2 * h ∨ k + 2 * h + 2 ≤ j → t.byte j = s.byte j) ∧ t.kiln = s.kiln ∧
        (a.half = false → ((t.flight? id).bind (·.lane? a.lane)).map (·.half) = some true))) ∧
  (∀ (s : State) (T : Team) (g : Nat) (f : Flight), f.lanes ≠ [] →
    let t := s.send T g f
    t = { s with teams := t.teams, flights := s.flights ++ [f], nextId := s.nextId + 1 }) ∧
  (∀ (s u : State) (t g start : Nat) (G : Group), s.group? t g = some G → s.speculate t g start = some u →
    u = { s with teams := u.teams, kiln := u.kiln, entries := u.entries } ∧
    (∃ G', u.group? t g = some G' ∧ G'.threads = G.threads ∧ G'.spec.isSome = true) ∧ (∀ t', t' ≠ t → u.team? t' = s.team? t') ∧
    (∀ k, (s.row k).count ≠ 0 → (u.row k).regs = (s.row k).regs ∧ (u.row k).poison = (s.row k).poison ∧
      (u.row k).pend = (s.row k).pend))

/-- A load lands (R171, R177): the registers of the lane hold the value and are pending no longer; a poisoned line leaves them marked;
memory does not change. A global load of a lane alone at its line, with no access of its own thread to be seen through, has the bytes of an L1
copy that it may hit, little-endian, and else those of the home (R5, R169, R284, R300). -/
def Obligations.LoadLands : Prop :=
  (∀ (s : State) (id l : Nat) (f : Flight) (a : LaneAcc) (v : BitVec 128) (p : Bool) (k pos : Nat), s.flight? id = some f →
    f.lane? l = some a → a.val = some (v, p) → f.object = false → a.dst = some (k, pos) → pos + f.nreg ≤ 8 → (s.row k).count ≠ 0 →
    ∃ t, exec (.loadLands id l) s = .next t ∧ t.mem = s.mem ∧
      (∀ j, j < f.nreg → vget (t.row k).regs (pos + j) 0#32 = (v >>> (32 * j)).setWidth 32 ∧
        (t.row k).pend.getLsbD (pos + j) = false ∧ (t.row k).poison.getLsbD (pos + j) = p) ∧
      (∀ j, j < 8 → j < pos ∨ pos + f.nreg ≤ j → vget (t.row k).regs j 0#32 = vget (s.row k).regs j 0#32) ∧
      (∀ k', k' ≠ k → t.row k' = s.row k') ∧
      (∀ x ∈ t.flights, x.id = id → x.lane? l = none)) ∧
  (∀ (s : State) (id l : Nat) (f : Flight) (a : LaneAcc) (T : Team) (sgn : Bool) (k pos : Nat), s.flight? id = some f →
    f.lane? l = some a → s.owner? f.team = some T → f.op = .load sgn → f.remote = true → f.object = false → a.val = none →
    a.todo = true → apertureOf a.ia = none → s.loadReady f a = true → f.lineOf a = [a] → s.detOf T = none →
    s.windowReset T.part a.ia = false → a.dst = some (k, pos) → pos + f.nreg ≤ 8 → (s.row k).count ≠ 0 →
    (∀ x ∈ s.flights, x.team = f.team → x.group = f.group → x.id < f.id → x.remote = true → x.staged = false ∧ s.ahead x = false) →
    let home := s.accKey a
    let atHome : Bool := f.cistern && s.leased T.part a.ia
    let copy := s.l1Hit (s.l1Holder T a.ia) (a.ia / 128) (max T.since (s.thread T.id f.group l).acqTime)
    let lands (v : Nat) (p : Bool) : Prop := ∃ t, exec (.loadLands id l) s = .next t ∧ ∀ j, j < f.nreg →
      vget (t.row k).regs (pos + j) 0#32 = (extendLoad f.size sgn v >>> (32 * j)).setWidth 32 ∧
        (t.row k).pend.getLsbD (pos + j) = false ∧ (t.row k).poison.getLsbD (pos + j) = p
    (atHome = true ∨ copy = none → a.ia % 16 ≤ home → lands (s.bytes home f.size) (s.poisonedIn home f.size || s.cxlDown home)) ∧
    (∀ c, atHome = false → copy = some c → lands ((c.data >>> (8 * (a.ia % 128))).toNat % 2 ^ (8 * f.size)) c.poison))

/-- The order of memory (R175, R186 to R188, R191, R306, R362): fences set the waits of their threads and go on; the waits end when what
they wait for is done; a prefetch brings the lines of its lanes to the caches, and a value nowhere; a confirmed access goes on; cache control
drops the copies it names; leases end. -/
def Obligations.MemoryEvents : Prop :=
  ∀ (i : Iss) (sc : FScope) (kind : FKind) (a : VReg) (off : COp) (m : MemMod) (s : State) (T : Team) (g : Nat) (mask : BitVec 32)
      (t0 l id p e : Nat), s.AtWide T →
    let addr (o : CctlOp) : List Nat := if o = .inv then baseRegs .global a ++ off.regs else a.toNat :: off.regs
    let dropped (o : CctlOp) (lns : List Ln) (u : State) : Prop := ∃ v, WentOn v u ∧
      v = { s with l1 := v.l1, icache := v.icache, lbinv := v.lbinv } ∧ (∀ c ∈ v.l1, c ∈ s.l1) ∧ (∀ c ∈ v.icache, c ∈ s.icache) ∧
      (o = .inv → v.icache = s.icache ∧ ∀ ln ∈ lns, ∀ ia, s.translate T.part (s.ctxOf T) (s.ea T ln .global a off)
        { r := false, w := false, x := false } = some ia → ∀ c ∈ v.l1, c.holder ≠ s.l1Holder T ia ∨ c.line ≠ ia / 128) ∧
      (o = .iinv → v.l1 = s.l1 ∧ ∀ ln ∈ lns, ∀ ia, s.codeIa T (BitVec.ofNat 32 (wrapTo 32 ((s.v ln a).toNat + s.offset T ln off))) =
        some ia → ∀ c ∈ v.icache, c.core ≠ T.core ∨ c.line ≠ ia / 128)
    (s.AtLane T g mask → s.isDet T = false → exec (.fence i sc kind) s =
      .next (((s.actors T i).foldl (fun u ln => u.modThread T.id ln.g ln.l (·.fence s.nextId (match i.scope with
        | .lane .. => maskOf [ln.l]
        | _ => maskOf ((s.actors T i).map (·.l))) sc kind)) s).retire [])) ∧
    (s.AtLane T g mask → (∀ ln ∈ s.actors T i, s.Ready T.id ln { src := baseRegs m.space a ++ off.regs } ∧
        s.unknown ln { src := baseRegs m.space a ++ off.regs } = false) →
      let u := (s.actors T i).foldl (fun u ln => u.prefetch T i m (s.ea T ln m.space a off)) s
      exec (.pref i a off m) s = .next (u.retire []) ∧ u.kiln = s.kiln ∧ u.teams = s.teams ∧
        ((∀ p, (s.part p).fld 0x018 16 1 = 0) → u.mem = s.mem)) ∧
    (∀ U, s.team? t0 = some U → s.fenceDone U g l = true →
      exec (.wctPassed t0 g l) s = .next (s.modThread t0 g l fun th => { th with rel := none })) ∧
    (∀ G til, s.group? t0 g = some G → (G.thread l).wait = .nap til → til ≤ s.gt → (G.thread l).live = true →
      exec (.napEnd t0 g l) s = .next (s.nextLanes t0 g (allLanes.filter fun j =>
        (G.thread j).live && (G.thread j).wait == .nap til && (G.thread j).pc == (G.thread l).pc))) ∧
    (∀ cv, i.scope = .team cv →
      GoesTo (exec (.cctl i .invall a off) s) (WentOn { s with l1 := s.l1.filter fun c => c.holder != s.l1Of T T.rank }) ∧
      GoesTo (exec (.cctl i .iinvall a off) s)
        (WentOn (({ s with icache := s.icache.filter fun c => c.core != T.core } : State).bumpLbinv T.core)) ∧
      (∀ o, o = .inv ∨ o = .iinv → s.Supplies T (addr o) → GoesTo (exec (.cctl i o a off) s) (dropped o (s.members T).head?.toList))) ∧
    (∀ o, o = .inv ∨ o = .iinv → s.AtLane T g mask → ((∃ pg pn, i.scope = .lane pg pn) ∨ i.scope = .group) →
      (∀ ln ∈ s.actors T i, s.Ready T.id ln { src := addr o }) → GoesTo (exec (.cctl i o a off) s) (dropped o (s.actors T i))) ∧
    exec (.leaseExpiry p e) s = .next (s.modPart p fun pt =>
      { pt with leases := pt.leases.filter fun x => x.entry ≠ e ∨ s.gt < x.ends }) ∧
    (∀ f, s.flight? id = some f → f.confirmed = false → f.lanes.all (fun b => s.found (s.partOf f) b.ia) = true →
      ∃ t, exec (.accessConfirmed id) s = .next t ∧ t.mem = s.mem ∧ ∀ x ∈ t.flights, x.id = id → x.confirmed = true)

/-- LSACQ and LSREL (R190, R191): arguments that are zero or misaligned, a slice without room and a full table of 64 leases are refused with
Q[P] false and 0; a range that no one range register covers with read and write is PERM of the lowest lane; else the lease is made, in the
lowest free entry (log entry 38, the model's choice). A release ends the lease that the identifier names, and no other. -/
def Obligations.CisternLeases : Prop :=
  ∀ (i : Iss) (p : PReg) (d a b : VReg) (c : COp) (s : State) (T : Team), s.AtWide T → s.members T ≠ [] →
    (∀ ln ∈ s.members T, s.Ready T.id ln { src := [a.toNat, a.toNat + 1, b.toNat] ++ c.regs, dst := [d.toNat] }) →
    let base := ((s.leader T).map fun ln => s.rdPair ln a.toNat).getD 0
    let len := (s.scalar T .zero (.v b)).toNat
    let dur := (s.scalar T .zero c).toNat
    let answer (u : State) (x : Word) (ok : Bool) : State := (s.members T).foldl (fun u ln =>
      (u.wr T.id ln.g ln.l d.toNat x false).modThread T.id ln.g ln.l (·.setQ p ok)) u
    ((base % 128 ≠ 0 ∨ len = 0 ∨ len % 128 ≠ 0 ∨ dur = 0) → exec (.lsacq i p d a b c) s = .next ((answer s 0#32 false).retire [])) ∧
    (∀ lines e, base % 128 = 0 → len ≠ 0 → len % 128 = 0 → dur ≠ 0 → s.leaseLines T base len = some lines →
      (List.range 64).find? (fun e => !((s.part T.part).leases.any (·.entry == e))) = some e → s.leaseFits lines = true →
      let gen := Sparse.get 0 (s.part T.part).leaseGen e
      exec (.lsacq i p d a b c) s = .next ((answer (s.modPart T.part fun pt =>
        { pt with leases := pt.leases ++ [{ entry := e, gen, lines, ends := s.gt + dur }],
                  leaseGen := Sparse.set 0 pt.leaseGen e (gen + 1) }) (leaseId gen e) true).retire [])) ∧
    (∀ lines, base % 128 = 0 → len ≠ 0 → len % 128 = 0 → dur ≠ 0 → s.leaseLines T base len = some lines →
      (s.leaseFits lines = false ∨ ∀ e, e < 64 → (s.part T.part).leases.any (·.entry == e) = true) →
      exec (.lsacq i p d a b c) s = .next ((answer s 0#32 false).retire [])) ∧
    (base % 128 = 0 → len ≠ 0 → len % 128 = 0 → dur ≠ 0 → s.leaseLines T base len = none →
      (∀ G, T.group? s.curGroup = some G → G.spec = none) → exec (.lsacq i p d a b c) s = .next (s.raise
        { s.faultOf .perm ((s.members T).take 1) { flt := dstV d.toNat } with va := BitVec.ofNat 64 base })) ∧
    GoesTo (exec (.lsrel i a) s) (WentOn (s.modPart T.part fun pt =>
      { pt with leases := pt.leases.filter fun e => leaseId e.gen e.entry != s.scalar T .zero (.v a) }))

/-- LDFE (R175): lanes whose granule is full read it at once; the others wait for it, and are woken when it fills. It comes after the stores
of its own threads that the core still holds (R174; log entry 65). -/
def Obligations.FullEmpty : Prop :=
  ∀ (i : Iss) (d a : VReg) (off : COp) (m : MemMod) (clear : Bool) (s : State) (T : Team) (g : Nat) (mask : BitVec 32)
      (accs : List (Ln × Place)), s.AtLane T g mask → m.space = .basin →
    let addr := baseRegs m.space a ++ off.regs
    (∀ ln ∈ s.actors T i, s.Ready T.id ln { src := addr, dst := span d m.size.regs } ∧ s.unknown ln { src := addr } = false) →
    (s.actors T i).map (fun ln => (ln, (s.at_ m.space m.swz.toNat m.size.bytes needR a off T ln).2)) =
      accs.map (fun x => (x.1, .ok x.2)) →
    s.behindHeld T.id g (accs.map fun x => (x.1.l, x.2.keys)) = false →
    ((∀ x ∈ accs, T.full.contains (T.granule (x.2.keys.headD 0)) = true) →
      exec (.ldfe i d a off m clear) s = .next ((s.takeFull T g d m.size clear accs).retire [])) ∧
    ((∀ x ∈ accs, T.full.contains (T.granule (x.2.keys.headD 0)) = false) → accs ≠ [] →
      exec (.ldfe i d a off m clear) s = .next (accs.foldl (fun u x => u.modThread T.id x.1.g x.1.l fun th =>
        { th with wait := .ldfe d m.size x.2.ea m.swz clear })
          ((s.takeFull T g d m.size clear []).retire (accs.map fun x => (x.1.g, x.1.l)))))

/-! ## Events of threads, groups and teams -/

/-- Threads arrive at a wide word (R131, R134): they wait there with their own count at 0, and no other thread changes. -/
def Obligations.ThreadArrives : Prop :=
  ∀ (t g : Nat) (lanes : BitVec 32) (sc : Scope) (s : State) (T : Team) (G : Group), s.team? t = some T → s.group? t g = some G →
    let ls := (lanesOf lanes).filter fun l => G.considered.contains l
    ls ≠ [] → (match sc with
      | .set cv => (vget T.cvs cv.toNat cvReset).mask.getLsbD g = true ∧ G.handler = none
      | .team _ => G.handler = none
      | _ => True) →
    GoesTo (exec (.threadArrives t g lanes sc) s) fun u =>
      u = { s with teams := u.teams } ∧ (∀ t', t' ≠ t → u.team? t' = s.team? t') ∧
      ∀ l, u.thread t g l = if l ∈ ls then (s.thread t g l).arrive sc.arr (s.isDet T) else s.thread t g l

/-- The counts that end what cannot end by itself (R123, R129, R134): a rendezvous that has waited RDVWD cycles raises RDVTMO (or REMTMO,
R366), unless the group speculates: in run-ahead that ends, and an access that is not confirmed comes first (R362, R364; log entry 13);
and a PC passed over to the bound is preferred. The active set (R331, R332): changing it changes no thread, no register and no memory; a starved pending group is promoted. -/
def Obligations.BoundsAndActiveSet : Prop :=
  (∀ (t g : Nat) (s : State) (T : Team) (G : Group), s.team? t = some T → s.group? t g = some G → T.st = .run →
    T.rdvwd ≠ 0#32 → T.rdvmis? = none →
    (∀ n, G.timer = some n → T.rdvwd.toNat ≤ n → G.met? = none →
      (G.spec = none → exec (.rdvtmo t g none) s = .next (s.raise
        (groupFault (if T.wdrem ≠ 0#32 ∧ T.wdrem.toNat ≤ G.tskip then .remtmo else .rdvtmo) t g G G.party))) ∧
      (∀ sp, G.spec = some sp → exec (.rdvtmo t g none) s = .next (if sp.runAhead then s.endRunAhead t g else s))) ∧
    (∀ (cv : CvN) (a : Arr) n, (vget T.cvs cv.toNat cvReset).timer = some n → T.rdvwd.toNat ≤ n →
      (T.arrivalsOn cv.toNat).head? = some a → T.signedAll? cv.toNat = none →
      T.speculates = false → exec (.rdvtmo t g (some cv)) s = .next (s.raise
        (T.cvFault (if T.wdrem ≠ 0#32 ∧ T.wdrem.toNat ≤ (vget T.cvs cv.toNat cvReset).tskip then .remtmo else .rdvtmo)
          cv.toNat a (T.membership a 0)))) ∧
    (∀ pc, G.overBound ((s.readySets T g G).map (·.pc)) = some pc → exec (.passedOverBound t g) s = .next (s.modGroup t g fun G => { G with prefer := some pc }))) ∧
  (∀ (core sub t g : Nat) (s : State),
    (GoesTo (exec (.groupSwap core sub) s) fun u =>
      u = { s with teams := u.teams } ∧ (∀ t' g' l, u.thread t' g' l = s.thread t' g' l) ∧
      ∀ t', (u.team? t').map (·.groups.length) = (s.team? t').map (·.groups.length)) ∧
    (∀ T G, s.team? t = some T → s.group? t g = some G → s.starved { T, g, G } = true →
      ((s.seats T.core G.sub).filter (·.G.active)).length < 8 →
      exec (.starvedPromotion t g) s = .next (s.modGroup t g fun G => { G with active := true })))

/-- What releases a wait (R175, R207, R274, R355): an LDFE whose granule is full now, a PWAIT whose predecessor has ended, an XACQ whose
rows have come back, a trap whose entry is free now. -/
def Obligations.WaitsEnd : Prop :=
  ∀ (t g l : Nat) (s : State) (T : Team) (G : Group), s.team? t = some T → s.group? t g = some G →
    (∀ d size off swz clear u, G.handler = none → l ∈ lanesOf G.live → (G.thread l).wait = .ldfe d size off swz clear →
      (∀ j ∈ lanesOf G.live, j ≠ l → ∀ d' size' off' swz' clear', (G.thread j).wait ≠ .ldfe d' size' off' swz' clear') →
      T.full.contains (T.granule ((T.basinKeys swz.toNat off 1).headD 0)) = true →
      s.behindHeld t g [(l, T.basinKeys swz.toNat off size.bytes)] = false →
      s.cowAll t (rowsOf [T.ln g l] (span d size.regs)) = .ok u →
      exec (.ldfeWake t g l) s = .next ((u.takeFull T g d size clear
        [(T.ln g l, { ea := off, ia := 0, keys := T.basinKeys swz.toNat off size.bytes })]).nextLanes t g [l])) ∧
    (∀ p a ok, G.pwaiting = some (p, a) → s.predEnded T = some ok → T.st = .run →
      exec (.pwaitRelease t g) s = .next ({ s with cur := T.cursorAt g a }.passPwait T p ok)) ∧
    (∀ n p, let ls := G.party.filter fun l => match (G.thread l).wait with | .xacq .. => true | _ => false
      (ls.head?.map fun l => (G.thread l).wait) = some (.xacq n p) → s.blockReady T g (ls.map (T.ln g)) n.toNat = true →
      exec (.xacqMap t g) s = .next ((((ls.map (T.ln g)).foldl (fun u ln => u.setPred ln p true)
        (s.mapBlock T g (ls.map (T.ln g)) n.toNat)).nextLanes t g ls).release t .group [g])) ∧
    (∀ r u, G.trap = some r → s.enterHandler (r.raise t g) = .ok u → exec (.trapEntry t g) s = .next u)

/-- The watchdogs (R18, R175, R347, R366): a wait that has lasted RDVWD cycles ends in its system fault, and the team is on its way out
with the record of it. -/
def Obligations.Watchdogs : Prop :=
  ∀ (t g l : Nat) (s : State) (T : Team) (G : Group), s.team? t = some T → s.group? t g = some G → T.st = .run → T.wdrem = 0#32 → T.speculates = false →
    let stops (ins : Instr) (code : BitVec 8) (lanes : List Nat) (pc : Word) : Prop :=
      GoesTo (exec ins s) fun u => ∃ U r, u.team? t = some U ∧ U.st = .stopping r ∧ r.code = code ∧ r.cls = 1#2 ∧
        r.lanes = maskOf lanes ∧ r.pc = pc ∧ r.lnum = T.lnum ∧ r.team = T.index ∧ r.group = g ∧
        u.mem = s.mem ∧ u.kiln = s.kiln ∧ ∀ t', t' ≠ t → u.team? t' = s.team? t'
    (T.overdue (G.thread l) = true → stops (.wdog t g l) 0x0E#8 ((lanesOf G.live).filter fun j =>
      T.overdue (G.thread j) && (G.thread j).closed == (G.thread l).closed && (G.thread j).wait.word == (G.thread l).wait.word &&
        (G.thread j).pc == (G.thread l).pc && (G.thread j).arr == (G.thread l).arr) (G.thread l).pc) ∧
    ((lanesOf G.live).find? (fun j => T.rowsOverdue (G.thread j)) = some l → stops (.kilnfull t g) 0x13#8
      ((lanesOf G.live).filter fun j => T.rowsOverdue (G.thread j) && (G.thread j).pc == (G.thread l).pc) (G.thread l).pc) ∧
    (∀ f, s.remoteLate T g l = some f → stops (.remtmo t g l) 0x0F#8 [l] f.pc)

/-- The end of a team (R128, R353): when its threads have exited, or a fault has ended it, and its engine commands have completed, its
rows, entries and allocation return to their pools and it counts as ended for its launch; nothing in memory changes but the counts of
cascade items that are lost. A swap-out (R361, R364, R367): a team that is being stopped first rolls back what it has speculated; when it has drained and a save
slot is free its image is written and it leaves its core; where none is free it stays, its groups out of the active set. -/
def Obligations.TeamsLeave : Prop :=
  (∀ (t : Nat) (s : State) (T : Team), s.team? t = some T → s.teamOver T = true →
    (GoesTo (exec (.teamEnd t) s) fun u => u.team? t = none ∧ (∀ t', t' ≠ t → u.team? t' = s.team? t') ∧
      (∀ k r, (k, r) ∈ u.kiln → r.owner = T.id → k / (4 * 32 * Config.bankRows) ≠ T.core) ∧
      (∀ k e, (k, e) ∈ u.entries → e.owner = T.id → k / 4096 ≠ T.core) ∧
      (∀ L, s.launch? T.part T.lnum = some L → ∃ L', u.launch? T.part T.lnum = some L' ∧ L'.ended = L.ended + 1 ∧
        L'.succs = if T.grid ∧ T.succ = false then L.succs + 1 else L.succs) ∧
      ((∀ G ∈ T.groups, G.occupied = 0#32) → u.mem = s.mem))) ∧
  (∀ (t : Nat) (s : State) (T : Team) (r : FaultRec), s.team? t = some T → T.st = .stopping r → s.allConfirmed t = true →
    (T.speculates = true → exec (.swapOut t) s = .next (s.rollbackAll t)) ∧
    (T.speculates = false → s.drained T = true → s.saveSlot T.part = none → exec (.swapOut t) s = .next
      (((s.modTeam t fun T => { T with st := .inPlace, groups := T.groups.map fun G => { G with active := false } }).modPart T.part
        fun p => { p with faults := insertFault { r with slot := none } p.faults }).post T.part)) ∧
    (∀ n, T.speculates = false → s.drained T = true → s.saveSlot T.part = some n →
      GoesTo (exec (.swapOut t) s) fun u => u.team? t = none ∧ (∀ t', t' ≠ t → u.team? t' = s.team? t') ∧
        ∃ v, u.saved = s.saved ++ [v] ∧ v.slot = n ∧ v.team.id = T.id ∧ v.team.st = .out n ∧ v.team.k = T.k ∧ v.team.cvs = T.cvs ∧
          v.team.groups.length = T.groups.length ∧ ∀ g G, T.group? g = some G → ∃ G', v.team.group? g = some G' ∧ ∀ l, l < 32 →
            { G'.thread l with parent := 0#32, born := false } = { G.thread l with parent := 0#32, born := false }))

/-- Three events take place, with the effect that each has: TEAM_END of a team that is over, resident or swapped out and ended by the
host (R128, R361): it is no team any more, and counts as ended for its launch. SWAP_OUT of a team that has drained, with a save slot
free (R367): the team leaves its core for the slot, and its rows and entries return to the pools. RUN_AHEAD of a group that holds a
speculation entry (R176, R362, R363): the lanes of the instruction whose page is not there lose the access and await nothing, the rest of it is confirmed, and
the entry, with what it captured, is in run-ahead with the pages as its batch. -/
def Obligations.EndSwapOutAndRunAhead : Prop :=
  ∀ (t : Nat) (s : State) (T : Team),
    let counted (u : State) : Prop := ∀ L, s.launch? T.part T.lnum = some L →
      ∃ L', u.launch? T.part T.lnum = some L' ∧ L'.ended = L.ended + 1
    (s.team? t = some T → s.teamOver T = true → ∃ u, exec (.teamEnd t) s = .next u ∧ u.team? t = none ∧ counted u) ∧
    (s.team? t = none → s.endedOut t = some T → ∃ u, exec (.teamEnd t) s = .next u ∧ u.teams = s.teams ∧ u.mem = s.mem ∧
      u.saved = s.saved.filter (·.team.id != t) ∧ counted u) ∧
    (∀ r n, s.team? t = some T → T.st = .stopping r → s.allConfirmed t = true → T.speculates = false → s.drained T = true →
      s.saveSlot T.part = some n → ∃ u v, exec (.swapOut t) s = .next u ∧ u.team? t = none ∧ u.saved = s.saved ++ [v] ∧
        v.team.id = T.id ∧ v.team.st = .out n ∧ u.flights = s.flights ∧ u.launches = s.launches ∧
        (∀ k x, (k, x) ∈ u.kiln → x.owner = T.id → k / (4 * 32 * Config.bankRows) ≠ T.core) ∧
        ∀ k e, (k, e) ∈ u.entries → e.owner = T.id → k / 4096 ≠ T.core) ∧
    (∀ id f G sp, s.flight? id = some f → f.team = t → f.confirmed = false → f.op.steps = false → s.team? t = some T → T.st = .run →
      T.aheadGroup = none → s.group? t f.group = some G → G.spec = some sp → sp.runAhead = false →
      let lost := s.lostLanes f
      let pages := (lost.map fun a => pageOf a.ia).eraseDups
      lost ≠ [] → pages.length < 8 → ∃ u K sq, exec (.runAhead id) s = .next u ∧ u.mem = s.mem ∧ (∀ t', t' ≠ t → u.team? t' = s.team? t') ∧
        u.group? t f.group = some K ∧ K.spec = some sq ∧ sq.runAhead = true ∧ sq.pages = pages ∧ sq.words = 0 ∧ sq.pc = f.pc ∧
        sq.lanes = maskOf (lost.map (·.lane)) ∧ sq.caps = sp.caps ∧ sq.start = sp.start ∧
        (∀ x ∈ u.flights, x.id = id → x.confirmed = true ∧ ∀ a ∈ x.lanes, s.found (s.partOf f) a.ia = true) ∧
        ∀ a ∈ f.lanes, s.found (s.partOf f) a.ia = false → ∀ k pos, a.dst = some (k, pos) → ∀ j, j < f.nreg →
          (u.row k).pend.getLsbD (pos + j) = false)

/-- A fetch that fails and a page that is not there (R98, R362, R363): threads at a word that cannot be fetched raise the fault of the
fetch; an access issued without a speculation entry that finds no page raises XLATE and is withdrawn. The word at a PC is the eight bytes of memory at the code address, little-endian, where no cache or loop buffer holds it; a PC at or
past the end of the code is PERM (R11, R98). -/
def Obligations.FetchAndPageFaults : Prop :=
  (∀ (t g id : Nat) (lanes : BitVec 32) (s : State) (T : Team) (G : Group), s.team? t = some T → s.group? t g = some G →
    G.spec = none → T.st = .run →
    (∀ l rest code, (lanesOf lanes).filter (fun l => G.considered.contains l) = l :: rest →
      s.wordAt T g G (l :: rest) (G.thread l).pc = .error code → code ≠ .xlate → exec (.fetchFault t g lanes) s = .next (s.raise
        { code, t, g, lanes := maskOf (l :: rest), pc := (G.thread l).pc,
          va := ((s.launchOf T).map (·.r.code)).getD 0#64 + (G.thread l).pc.setWidth 64 })) ∧
    (∀ f, s.flight? id = some f → f.team = t → f.group = g → f.confirmed = false → T.aheadGroup = none →
      s.lostLanes f ≠ [] →
      GoesTo (exec (.runAhead id) s) fun u => (∃ U r, u.team? t = some U ∧ U.st = .stopping r ∧ r.code = 5#8 ∧ r.pc = f.pc ∧
        r.lanes = maskOf ((s.lostLanes f).map (·.lane))) ∧
        (∀ x ∈ u.flights, x.id ≠ id) ∧ u.mem = s.mem)) ∧
  (∀ (s : State) (T : Team) (g : Nat) (G : Group) (lanes : List Nat) (pc : Word) (L : Launch), s.launchOf T = some L →
    s.loopWord T g G.sub lanes pc = none →
    (L.r.codeLen.toNat ≤ pc.toNat → s.wordAt T g G lanes pc = .error .perm) ∧
    (∀ ia k, pc.toNat < L.r.codeLen.toNat → s.translate T.part L.r.ctx (L.r.code.toNat + pc.toNat) needX = some ia →
      (∀ c ∈ s.icache, c.core ≠ T.core ∨ c.line ≠ ia / 128) → s.codeKey T.part ia = .ok k →
      s.wordAt T g G lanes pc = .ok (BitVec.ofNat 64 (s.bytes k 8))))

/-! ## Snapshots and allotment -/

/-- The handle instructions (R193, R194, R197 to R205): where no lane faults, the lanes are taken one after the other in ascending order,
each on what the lanes before have left, and the threads go on (those of RSTR at what they have restored). That an instruction reads and
stores its images in the step that issues it is log entry 16. What SNAP leaves in one lane (R11, R197): an entry of the sub-core's table, the
lowest free one (log entry 36), holds the captured items, with the PC at the following word and one more in depth, one reference to it and the
resume register; H[D] names it, and so does the thread's parent; every row of the thread has as many holders more as row pointers name it;
where the depth is 7, the table is full or a row is at 255 holders, H[D] is null, Q[P] is false, and nothing is captured. What RSTR, SPRT, HSPL
and HLDM make of one lane (R198, R199, R204, R205): the thread, or the sibling in the lowest group of the sub-core whose lane is free, has what
the entry captured, holds its rows (R19), and reads C in the resume register; the image of an entry leaves as stores of 16 bytes, and its
length comes in V[D]; a chain of images that holds gives an entry with what its header names, in fresh rows. A write to a row that has
other holders goes to a copy of it in a row of the team's budget (R18). -/
def Obligations.HandleInstructions : Prop :=
  (∀ (i : Iss) (p : PReg) (d a : HReg) (e v : VReg) (c off : COp) (full : Bool) (sel : HinfSel) (s : State) (T : Team) (g : Nat)
      (m : BitVec 32), s.AtLane T g m →
    let acts := s.actors T i
    let named (h : HReg) (own : Bool) : Prop := ∀ ln ∈ acts, s.badHandle h own T ln = none
    let resumes : Prop := ∀ ln ∈ acts, s.badResume a ln = false ∧ (s.cval T ln .sign c).isSome = true
    let x (ln : Ln) : Word × Bool := ((s.cval T ln .sign c).getD 0#32, s.tainted ln { src := c.regs })
    let ready (n : Names) : Prop := ∀ ln ∈ acts, s.Ready T.id ln n
    (∀ u, ready { also := [e.toNat] } → s.inTurn (snapLane p d e) acts = .ok u → exec (.snap i p d e) s = .next (u.retire [])) ∧
    (∀ u, ready { src := c.regs } → named a true → resumes → s.inTurn (rstrLane a x) acts = .ok u →
      exec (.rstr i a c) s = .next (((u.retire (acts.map fun ln => (ln.g, ln.l))).settle T.id g).modTeam T.id Team.refresh)) ∧
    (∀ u, ready { src := c.regs, also := [e.toNat] } → named a true → resumes → s.inTurn (sprtLane p e a x) acts = .ok u →
      exec (.sprt i p e a c) s = .next ((u.retire []).modTeam T.id Team.refresh)) ∧
    (∀ u, (∀ ln ∈ acts, ln.handle d = 0#32 ∨ s.badHandle d false T ln = none) →
      s.inTurn (fun s ln => .ok (s.setHandle (s.fresh_ ln) d 0#32)) acts = .ok u → exec (.drop i d) s = .next (u.retire [])) ∧
    (∀ u, named a false → s.inTurn (fun s ln => .ok ((s.addRef ln.core ((s.fresh_ ln).handle a)).setHandle ln d ((s.fresh_ ln).handle a)))
      acts = .ok u → exec (.hdup i d a) s = .next (u.retire [])) ∧
    (∀ u, ready { also := [e.toNat] } → named a false → s.inTurn (fun s1 ln => match s.entryOf ln (ln.handle a) with
        | some (_, E) => s1.writeReg ln e.toNat (s.entryItem ln E sel) false
        | none => .ok s1) acts = .ok u → exec (.hinf i e a sel) s = .next (u.retire [])) ∧
    (∀ u, ready { src := baseRegs .global v ++ off.regs, also := [e.toNat] } → named a false →
      (∀ ln ∈ acts, s.spillFault T ln a full (s.ea T ln .global v off) = none) →
      s.inTurn (fun s1 ln => match s1.team? ln.t with
        | some T => hsplLane e a full (fun ln => s.ea T ln .global v off) s1 ln
        | none => .ok s1) acts = .ok u → exec (.hspl i e a v off full) s = .next (u.retire [])) ∧
    (∀ u, ready { src := baseRegs .global v ++ off.regs } →
      (∀ ln ∈ acts, s.ea T ln .global v off % 128 = 0 ∧ ∀ code, s.chain T ln.g ln.l (s.ea T ln .global v off) 6 ≠ .fault code) →
      let reads (ln : Ln) : List (Nat × Nat) := s.chainReads T ln.g ln.l (s.ea T ln .global v off) 6
      s.readsNow T acts reads →
      let w := s.afterReads T acts reads
      (∀ W, w.team? T.id = some W → w.inTurn (fun s1 ln => match s1.team? ln.t with
        | some T => hldmLane p d (fun ln => s.ea T ln .global v off) s1 ln
        | none => .ok s1) (w.actors W i) = .ok u) → exec (.hldm i p d v off) s = .next (u.retire []))) ∧
  (∀ (p : PReg) (d : HReg) (e : VReg) (s : State) (ln : Ln) (th : Thread), ln.th = th → s.thread ln.t ln.g ln.l = th → ln.handle d = 0#32 →
    (s.group? ln.t ln.g).isSome = true → ln.l < 32 →
    ((th.depth = 7 ∨ s.rowFull ln.core ln.sub ln.l th.rows.toList = true ∨ s.freeSlot? ln.core ln.sub = none) →
      snapLane p d e s ln = .ok (((s.modThread ln.t ln.g ln.l fun th => { th with h := vset th.h d.toNat 0#32 })).setPred ln p false)) ∧
    (∀ slot u, th.depth ≠ 7 → s.rowFull ln.core ln.sub ln.l th.rows.toList = false → s.freeSlot? ln.core ln.sub = some slot →
      snapLane p d e s ln = .ok u →
      (∃ E, u.entry? (entryKey ln.core ln.sub slot) = some E ∧
        E.cap = { th.capture with pc := th.pc + 8#32, depth := th.depth + 1 } ∧ E.resume = e ∧ E.refs = 1 ∧ E.owner = ln.t ∧
        E.lane = ln.l ∧ (u.thread ln.t ln.g ln.l).h = vset th.h d.toNat (s.handle (entryKey ln.core ln.sub slot)) ∧
        (u.thread ln.t ln.g ln.l).parent = s.handle (entryKey ln.core ln.sub slot) ∧
        (u.thread ln.t ln.g ln.l).depth = th.depth + 1) ∧
      ∃ (w v : State), w = { s with kiln := w.kiln, entries := w.entries, teams := w.teams } ∧
        (∀ k, let n := ((th.capture.keys ln.core ln.sub ln.l).filter (· == k)).length
          w.row k = if n = 0 then s.row k else { s.row k with count := (s.row k).count + n }) ∧
        w.writeReg ln e.toNat 0#32 false = .ok v ∧ u = v.setPred ln p true)) ∧
  (∀ (p : PReg) (d : VReg) (a : HReg) (x : Ln → Word × Bool) (s : State) (ln : Ln) (th : Thread) (T : Team) (k : Nat) (E : Entry), ln.th = th →
    s.thread ln.t ln.g ln.l = th → s.team? ln.t = some T → (T.group? ln.g).isSome = true → ln.l < 32 → s.entryOf ln (ln.handle a) = some (k, E) →
    let h := ln.handle a
    let has (t : Thread) (ps : List (Option Nat)) : Prop :=
      t.pc = E.cap.pc ∧ t.mr = E.cap.mr ∧ t.stack = E.cap.stack ∧ t.preds = E.cap.preds ∧ t.tsw = E.cap.tsw ∧ t.depth = E.cap.depth ∧
      t.taint = E.cap.taint ∧ t.parent = h ∧ t.h = vset E.cap.h a.toNat h ∧ t.clkLatch = none ∧ t.gtLatch = none ∧ t.arr = .no ∧
      t.wait = .none ∧ ∀ j, j < 32 → vget t.rows j none = ps.getD j none
    (∀ u, rstrLane a x s ln = .ok u → ∃ (w v : State) (ps : List (Option Nat)), s.holdRows T ln.sub ln.l E.cap.rows.toList = .ok (w, ps) ∧
      has (v.thread ln.t ln.g ln.l) ps ∧ (v.thread ln.t ln.g ln.l).live = th.live ∧
      v.writeReg ln E.resume.toNat (x ln).1 (x ln).2 = .ok u) ∧
    (T.siblingSlot ln.sub ln.l = none ∨ s.rowFull ln.core ln.sub ln.l E.cap.rows.toList = true →
      sprtLane p d a x s ln = (s.writeReg ln d.toNat allOnes false).bind fun u => .ok (u.setPred ln p false)) ∧
    (∀ g u, T.siblingSlot ln.sub ln.l = some g → s.rowFull ln.core ln.sub ln.l E.cap.rows.toList = false →
      sprtLane p d a x s ln = .ok u → ∃ (w v : State) (ps : List (Option Nat)), s.holdRows T ln.sub ln.l E.cap.rows.toList = .ok (w, ps) ∧
        has (v.thread ln.t g ln.l) ps ∧ (v.thread ln.t g ln.l).live = true ∧ (v.thread ln.t g ln.l).born = true ∧
        ((v.writeReg { ln with g := g } E.resume.toNat (x ln).1 (x ln).2).bind fun y =>
          (y.writeReg ln d.toNat (BitVec.ofNat 32 (32 * g + ln.l)) false).bind fun y => .ok (y.setPred ln p true)) = .ok u) ∧
    (∀ g, T.siblingSlot ln.sub ln.l = some g → ∃ G, T.group? g = some G ∧ G.sub = ln.sub ∧ (G.thread ln.l).live = false ∧
      ∀ g' G', g' < g → T.group? g' = some G' → G'.sub = ln.sub → (G'.thread ln.l).live = true)) ∧
  (∀ (s : State) (T : Team) (sub lane : Nat) (rows : List (Option Nat)),
    let keys := rows.filterMap fun o => o.map fun i => rowKey T.core sub lane i
    keys.Nodup → (∀ k ∈ keys, (s.row k).count < 255) → ∃ w, s.holdRows T sub lane rows = .ok (w, rows) ∧
      w = { s with kiln := w.kiln } ∧ ∀ k, w.row k = if k ∈ keys then { s.row k with count := (s.row k).count + 1 } else s.row k) ∧
  (∀ (d : VReg) (b : HReg) (full : Bool) (ea : Ln → Nat) (s : State) (ln : Ln) (T : Team) (k : Nat) (E : Entry), s.team? ln.t = some T →
    s.entryOf ln (ln.handle b) = some (k, E) →
    let keys := E.cap.keys ln.core ln.sub E.lane
    let image := s.imageOf ln.core ln.sub E full
    let inimg := (s.spillPlan ln.core E full).1
    let js := (List.range 32).filter fun j => inimg / 2 ^ j % 2 == 1
    ((∃ r ∈ keys, (s.row r).pend ≠ 0#8) → hsplLane d b full ea s ln = .later) ∧
    ((∀ r ∈ keys, (s.row r).pend = 0#8) → hsplLane d b full ea s ln =
      ((s.storeChunks T ln.g ln.l (ea ln) (image.map fun x => [x % 2 ^ 128, x / 2 ^ 128]).flatten).setEntry k
        { E with spill := BitVec.ofNat 64 (ea ln) }).writeReg ln d.toNat (BitVec.ofNat 32 (32 * image.length)) false) ∧
    image.length = 8 + js.length ∧
    (full = true → ∀ j, j < 32 → (j ∈ js ↔ (vget E.cap.rows j none).isSome = true)) ∧
    ∀ n, n < js.length → ∀ i, vget E.cap.rows (js.getD n 0) none = some i →
      let r := s.row (rowKey ln.core ln.sub E.lane i)
      ∀ q, q < 8 → image.getD (8 + n) 0 / 2 ^ (32 * q) % 2 ^ 32 = if r.poison.getLsbD q then 0 else (vget r.regs q 0#32).toNat) ∧
  (∀ (p : PReg) (d : HReg) (ea : Ln → Nat) (s : State) (ln : Ln) (T : Team), s.team? ln.t = some T →
    ((∀ l, s.chain T ln.g ln.l (ea ln) 6 ≠ .images l) → hldmLane p d ea s ln = .ok (s.setPred ln p false)) ∧
    (∀ im rest, s.chain T ln.g ln.l (ea ln) 6 = .images (im :: rest) →
      let H := im.header
      let loaded := s.loadRows T ln.sub ln.l (im :: rest) (bits H 896 256) ((List.range 32).filter fun j => bits H (32 + j) 1 == 1)
      (s.freeSlot? ln.core ln.sub = none ∨ loaded = none → hldmLane p d ea s ln = .ok (s.setPred ln p false)) ∧
      (∀ slot w rows, s.freeSlot? ln.core ln.sub = some slot → loaded = some (w, rows) →
        let key := entryKey ln.core ln.sub slot
        ∃ E, hldmLane p d ea s ln = .ok (((w.setEntry key E).setHandle ln d ((w.setEntry key E).handle key)).setPred ln p true) ∧
          E.cap.pc.toNat = bits H 192 32 / 8 * 8 ∧ E.cap.mr.toNat = bits H 224 32 ∧ E.cap.preds.toNat = bits H 516 7 ∧
          E.cap.depth = bits H 24 3 ∧ E.cap.taint.toNat = bits H 640 256 ∧ E.cap.tsw.toNat = bits H 544 7 ∧
          E.cap.stack.length = bits H 512 4 ∧ (∀ j, j < bits H 512 4 → (E.cap.stack.reverse.getD j 0#32).toNat = bits H (256 + 32 * j) 32) ∧
          (∀ j, j < 32 → vget E.cap.rows j none = rows.lookup j) ∧ E.cap.h = .replicate 16 0#32 ∧ E.cap.parent = 0#32 ∧
          E.resume.toNat = bits H 523 8 ∧ E.owner = ln.t ∧ E.refs = 1 ∧ E.lane = ln.l ∧ E.spill = BitVec.ofNat 64 (ea ln))) ∧
    (∀ im poison js w rows, s.loadRows T ln.sub ln.l im poison js = some (w, rows) → rows.map (·.1) = js ∧
      ∀ j i, (j, i) ∈ rows → ∃ v bad, rowIn im j = some (v, bad) ∧
        w.row (rowKey T.core ln.sub ln.l i) = rowOf v (if bad then 0xFF#8 else BitVec.ofNat 8 (poison / 2 ^ (8 * j))) T.id)) ∧
  (∀ (s : State) (T : Team) (G : Group) (t g l i x : Nat), s.team? t = some T → T.group? g = some G → l < 32 → i < 32 →
    vget (G.thread l).rows i none = some x →
    let k := rowKey T.core G.sub l x
    let r := s.row k
    (r.count ≤ 1 → s.cow t g l i = .ok s) ∧
    (2 ≤ r.count → r.pend ≠ 0#8 → s.cow t g l i = .pending) ∧
    (2 ≤ r.count → r.pend = 0#8 → s.budgetRow? T G.sub l = none → s.cow t g l i = .noRow) ∧
    (∀ j, 2 ≤ r.count → r.pend = 0#8 → s.budgetRow? T G.sub l = some j → ∃ u, s.cow t g l i = .ok u ∧
      u = { s with kiln := u.kiln, teams := u.teams } ∧
      (∀ k', u.row k' = if k' = rowKey T.core G.sub l j then { r with count := 1, owner := t, pool := .snap }
        else if k' = k then { r with count := r.count - 1 } else s.row k') ∧
      (∀ t' g' l', u.thread t' g' l' = if t' = t ∧ g' = g ∧ l' = l then { G.thread l with rows := vset (G.thread l).rows i (some j) }
        else s.thread t' g' l'))) ∧
  (∀ (i : Iss) (d b : VReg) (s u : State) (T : Team) (g : Nat) (m : BitVec 32), s.AtLane T g m →
    (∀ ln ∈ s.actors T i, (s.rd ln b.toNat).poison = false ∧ ∀ n, n = b.toNat ∨ n = d.toNat →
      ∃ k, ln.key? n = some k ∧ (s.row k).count ≠ 0) →
    s.cowAll T.id (rowsOf (s.actors T i) [d.toNat]) = .ok u → exec (.mov i d (.v b)) s = exec (.mov i d (.v b)) u)

/-- XACQ and XREL (R207): a block that the group holds is granted at once; with all blocks of the allotment held it is refused; with
its rows free it is mapped; else the threads wait. XREL lets the rows of a held block go. -/
def Obligations.ExtendedBlocks : Prop :=
  ∀ (i : Iss) (p : PReg) (n : BitVec 2) (s : State) (T : Team) (g : Nat) (m : BitVec 32) (G : Group), s.AtWide T →
    s.cur.members = [(g, m)] → T.group? g = some G →
    let all (u : State) (b : Bool) : State := ((s.members T).foldl (fun u ln => u.setPred ln p b) u).retire []
    (G.xhold.getLsbD (n.toNat - 1) = true → exec (.xacq i p n) s = .next (all s true)) ∧
    (G.xhold.getLsbD (n.toNat - 1) = false → T.xblk ≤ G.blocks → exec (.xacq i p n) s = .next (all s false)) ∧
    (G.xhold.getLsbD (n.toNat - 1) = false → G.blocks < T.xblk → s.blockReady T g (s.members T) n.toNat = true →
      exec (.xacq i p n) s = .next (all (s.mapBlock T g (s.members T) n.toNat) true)) ∧
    (G.xhold.getLsbD (n.toNat - 1) = false → G.blocks < T.xblk → s.blockReady T g (s.members T) n.toNat = false →
      exec (.xacq i p n) s = .next (s.park (.xacq n p))) ∧
    (G.xhold.getLsbD (n.toNat - 1) = true → GoesTo (exec (.xrel i n) s) fun u => ∃ u0, WentOn u0 u ∧
      (∀ ln ∈ s.members T, ∀ r, 8 * n.toNat ≤ r → r < 8 * n.toNat + 8 → vget (u0.thread T.id ln.g ln.l).rows r none = none) ∧
      (∀ G', u0.group? T.id g = some G' → G'.xhold = setBit G.xhold (n.toNat - 1) false) ∧ u0.mem = s.mem) ∧
    (G.xhold.getLsbD (n.toNat - 1) = false → GoesTo (exec (.xrel i n) s) (WentOn s))

/-! ## Tasks, queues and cascades -/

/-- SPAWN, ESC, CRET and the packers (R209 to R211, R217 to R219), outside deterministic launches: a task whose descriptor is valid, and
which the depth and the list allow, is appended to the spawn list and Q[P] is true; else, a poisoned descriptor among these, Q[P] is false. The
descriptor is read in the step that issues the word (DESIGN CHOICE, log entry 16). ESC of an item ends its thread, and CRET leaves its
threads waiting at the word until the result and DONE are released (DEDUCED, log entry 18); a partial group is launched whole. -/
def Obligations.Tasks : Prop :=
  ∀ (i : Iss) (p : PReg) (a : VReg) (off : COp) (s : State) (T : Team) (g : Nat) (m : BitVec 32), s.AtLane T g m → s.isDet T = false →
    let acts := s.actors T i
    let addr := baseRegs .global a ++ off.regs
    (∀ accs : List (Ln × (Nat × Bool)),
      (∀ ln ∈ acts, s.Ready T.id ln { src := addr } ∧ s.unknown ln { src := addr } = false) →
      acts.map (fun ln => (ln, (s.objectAt false T ln a off 32 1).2)) = accs.map (fun x => (x.1, .ok x.2)) →
      let reads (ln : Ln) : List (Nat × Nat) := [(s.ea T ln .global a off, 32)]
      s.readsNow T acts reads →
      let w := s.afterReads T acts reads
      let u := accs.foldl (fun u x => u.spawnLane T p x.1 x.2) w
      exec (.spawn i p a off) s = .next (
        if w.spawnCount T.part < u.spawnCount T.part ∧ Config.spawnHigh < u.spawnCount T.part then
          (u.retire []).holdOut T.id g (accs.map fun x => x.1.l) .spawnHold
        else u.retire [])) ∧
    (∀ (ln : Ln) (d : Nat),
      (taskOk d = true → T.depth < 8 → s.spawnCount T.part < Config.spawnMax →
        s.spawnLane T p ln (d, false) = (s.addTask T ln d).setPred ln p true ∧
        ∃ x, (s.addTask T ln d).pending = s.pending ++ [x] ∧ x.part = T.part ∧ x.lnum = T.lnum ∧ x.task = true ∧
          x.entry = BitVec.ofNat 32 (bits d 0 32) ∧ x.xblk = bits d 32 2 ∧ x.snrows = bits d 34 9 ∧ x.basin = bits d 64 32 ∧
          x.depth = T.depth + 1) ∧
      ((taskOk d = false ∨ 8 ≤ T.depth ∨ Config.spawnMax ≤ s.spawnCount T.part) →
        s.spawnLane T p ln (d, false) = s.setPred ln p false) ∧
      s.spawnLane T p ln (d, true) = s.setPred ln p false) ∧
    ((∀ ln ∈ acts, s.escDo T ln a ≠ .wait ∧ ∀ c, s.escDo T ln a ≠ .bad c) →
      let gone := acts.filter fun ln => match s.escDo T ln a with | .go .. => true | _ => false
      exec (.esc i p a) s = .next (s.prompted (((acts.foldl (fun u ln => u.escLane T ln p (s.escDo T ln a)) s).retire
        (gone.map fun ln => (ln.g, ln.l))).exitLanes T.id g (gone.map (·.l)) false) T.id)) ∧
    (∀ oks : List (Ln × (Held × Nat × Nat)), acts.map (fun ln => (ln, s.cretDo T ln a)) = oks.map (fun x => (x.1, .ok (some x.2))) →
      let sizes := (oks.map fun x => x.2.2.2).eraseDups
      let u := sizes.foldl (fun u size => u.sendCret T g size ((oks.filter fun x => x.2.2.2 == size).map fun x =>
        (x.1, s.cretAccs T x.1 a x.2.1 x.2.2.1 x.2.2.2)))
        (oks.foldl (fun u x => u.reachRung T x.2.1.casc.toNat x.2.1.rung) (s.retire (acts.map fun ln => (ln.g, ln.l))))
      exec (.cret i a) s = .next (u.awaitAccess T.id g (u.nextId - 1) (acts.map (·.l)))) ∧
    (∀ n k, s.packers[n]? = some k → s.partialDue k = true → exec (.partialGroup n) s =
      .next ({ s with packers := s.packers.modify n fun k => { k with items := [] } }.launchItems k k.items))

/-- QENQ, QDEQ and CSUB (R213, R216, R284): each lane's step leaves the core, QDEQ's registers pending, and its thread waits; at the home of
the object the step finds room or an entry and advances TAIL or HEAD, or fails and changes nothing but its predicate; CSUB's step counts an
item and hands it to the packer of rung 0, or answers all ones where the header or the record is not valid. Where the thread waits is the
model's choice (log entry 18), and so is that the machine keeps the addresses of the objects it has found (log entry 63). -/
def Obligations.QueueSteps : Prop :=
  ∀ (i : Iss) (p : PReg) (d a b : VReg) (off : COp) (s : State) (T : Team),
    let addr := baseRegs .global a ++ off.regs
    (∀ (g : Nat) (m : BitVec 32) (accs : List (Ln × Place)), s.AtLane T g m → s.isDet T = false →
      (∀ ln ∈ s.actors T i, s.unknown ln { src := addr } = false) →
      let lie (place : Team → Ln → Nat × Except Code Place) : Prop :=
        (s.actors T i).map (fun ln => (ln, (place T ln).2)) = accs.map (fun x => (x.1, .ok x.2))
      (lie (s.stepAt (.qenq p) i a off) → (∀ ln ∈ s.actors T i, s.Ready T.id ln { src := addr ++ span b 4 }) → exec (.qenq i p a off b) s =
        .next (s.sendStep T g (flightOf s T g (.qenq p) 64 0 (accs.map fun x => stepLane x.1 x.2 (s.data x.1 b 4))))) ∧
      (lie (s.stepAt (.qdeq p d) i a off) → (∀ ln ∈ s.actors T i, s.Ready T.id ln { src := addr, dst := span d 4 }) →
        let u := accs.foldl (fun u x => (List.range 4).foldl (fun u j => u.pendReg T.id x.1.g x.1.l (d.toNat + j)) u) s
        exec (.qdeq i p d a off) s = .next (u.sendStep T g { flightOf s T g (.qdeq p d) 64 4 (accs.map fun x =>
          { stepLane x.1 x.2 0#512 with dst := s.landing T.id x.1.g x.1.l d.toNat }) with taint := false })) ∧
      (lie (s.csubAt p d i a off) → (∀ ln ∈ s.actors T i, s.Ready T.id ln { src := addr, dst := [d.toNat] } ∧
          (let n := s.frameLen T ln (s.ea T ln .global a off) 0
           b.toNat + n ≤ 256 ∧ ∀ r ∈ frameRegs b n, (ln.key? r).isSome = true ∧ (s.rd ln r).poison = false ∧ (s.rd ln r).pend = false)) →
        exec (.csub i p d a off b) s = .next (s.sendStep T g (flightOf s T g (.csub p d) 64 0 (accs.map fun x =>
          stepLane x.1 x.2 (BitVec.ofNat 512 (fromWords ((s.words x.1 (frameRegs b 16)).map (·.toNat))))))))) ∧
    (∀ (f : Flight) (x : LaneAcc),
      (s.queueAt T x = none → s.qenqStep T f x p = .done (s.stepPred T f x p false) false ∧
        s.qdeqStep T f x p d = .done ((s.unpend x.dst 4).stepPred T f x p false) false) ∧
      (∀ q, s.queueAt T x = some q →
        let k0 := s.knowQueue T x.ia
        (q.depth = q.cap → s.qenqStep T f x p = .done (k0.stepPred T f x p false) false) ∧
        (q.depth = 0 → s.qdeqStep T f x p d = .done ((k0.unpend x.dst 4).stepPred T f x p false) false) ∧
        (∀ ia k, q.depth ≠ q.cap → k0.ringKey T (q.entry q.tail) needW = .ok (ia, k) → k0.locked ia 16 = false →
          let q1 := { q with tail := (q.tail + 1) % 2 ^ 32 }
          let w := k0.stepWrite T f x.lane ia k 16 (x.data.toNat % 2 ^ 128)
          let u := (w.stepWrite T f x.lane x.ia (w.accKey x + 4) 4 q1.tail).stepPred T f x p true
          s.qenqStep T f x p = if q1.hiwm < q1.depth then .done (u.setOver T f x true) true else .done u false) ∧
        (∀ c, q.depth ≠ q.cap → k0.ringKey T (q.entry q.tail) needW = .error c → s.qenqStep T f x p = .fault c (q.entry q.tail)) ∧
        (∀ ia k, q.depth ≠ 0 → k0.ringKey T (q.entry q.head) needR = .ok (ia, k) →
          let q1 := { q with head := (q.head + 1) % 2 ^ 32 }
          let w := k0.reach ia k (s.standsOn T) anyPos
          let u := w.stepWrite T f x.lane x.ia (w.accKey x) 4 q1.head
          let u := if q.isOver = true ∧ q1.depth ≤ q1.lowm then u.setOver T f x false else u
          let (v, bad) := k0.readKey k 16
          s.qdeqStep T f x p d = .done ((u.landAt x.dst 4 (BitVec.ofNat 128 v) bad).modThread T.id f.group x.lane fun th =>
            { (th.acquired w.gt f.id x.lane).setQ p true with
              taint := (List.range 4).foldl (fun b j => setBit b (d.toNat + j) false) th.taint,
              unkV := (List.range 4).foldl (fun b j => setBit b (d.toNat + j) false) th.unkV }) false) ∧
        (∀ c, q.depth ≠ 0 → k0.ringKey T (q.entry q.head) needR = .error c → s.qdeqStep T f x p d = .fault c (q.entry q.head))) ∧
      (∀ c, s.cascadeAt T f.group x.lane x.va.toNat 0 = .error c → s.csubStep T f x p d = .fault c x.va.toNat) ∧
      (∀ hdr, s.cascadeAt T f.group x.lane x.va.toNat 0 = .ok { header := hdr, rung := none } → s.csubStep T f x p d =
        .done (((s.reachRung T x.va.toNat 0).wr T.id f.group x.lane d.toNat allOnes false).stepPred T f x p false) false) ∧
      (∀ hdr r, s.cascadeAt T f.group x.lane x.va.toNat 0 = .ok { header := hdr, rung := some r } →
        let k := s.accKey x + 4
        let n := s.bytes k 4
        let u := (s.reachRung T x.va.toNat 0).stepWrite T f x.lane x.ia k 4 ((n + 1) % 2 ^ 32)
        ∃ item : Item, item.casc = x.va ∧ item.rung = 0 ∧ item.index = BitVec.ofNat 32 n ∧ item.core = T.core ∧ item.group = f.group ∧
          item.lane = x.lane ∧ item.depth = T.depth ∧ item.time = u.gt ∧
          item.frame = (List.range r.frame).map (fun j => BitVec.ofNat 32 (x.data.toNat / 2 ^ (32 * j))) ∧
          s.csubStep T f x p d = .done (((u.deliver T.part T.lnum item).wr T.id f.group x.lane d.toNat (BitVec.ofNat 32 n) false).stepPred
            T f x p true) false ∧
          ∃ num, ∃ K ∈ (u.deliver T.part T.lnum item).packers, K.isFor T.part T.lnum x.va 0 = true ∧ { item with num := num } ∈ K.items))

/-! ## The matrix engine -/

/-- SLRSV, SLREL, MXCFG, MZERO and SLCB (R226 to R229, R238, R408): a record is accepted when its image passes, the record is free and its
range overlaps no live one; the others change the record, or their slot or table once the unit performs them; each joins the queue of the
core's unit, and the members go on; SLCB's table is read in the step that issues it (DESIGN CHOICE, log entry 16). What the unit then leaves
in the slots and registers of MMA, MMAG, MWR, MSCL, MRD and MCHK when it has performed them is `UnitLeaves` (R66, R67, R231, R236, R240 to
R243). -/
def Obligations.MatrixRecords : Prop :=
  (∀ (s : State) (core : Nat) (o : MxOp), UnitLeaves s core o) ∧
  ∀ (i : Iss) (p : PReg) (d : RecN) (sl : SlotN) (cb : BitVec 2) (a : VReg) (c off : COp) (i40 : Bool) (s : State) (T : Team),
    s.AtWide T → s.isMtx T = true →
    let m := s.mxOf T.core
    let old := vget m.recs d.toNat (.replicate 8 0#32)
    let upd (r : RecW) : State := (s.setMx T.core { m with recs := vset m.recs d.toNat r }).enqueue T (.rec_ d) 1
    let all (u : State) (ok : Bool) : State := ((s.members T).foldl (fun u ln => u.setPred ln p ok) u).retire []
    (∀ ln rest, s.members T = ln :: rest → s.Supplies T (span a 8) →
      let img : RecW := Vector.ofFn fun j => (s.rd ln (a.toNat + j.val)).val
      exec (.slrsv i p d a) s = .next (
        if recordOk img = true ∧ recLive old = false ∧ ∀ r ∈ m.recs.toList, recLive r = true → recsOverlap r img = false
        then all (upd (makeLive img)) true else all (s.enqueue T (.rec_ d) 1) false)) ∧
    exec (.slrel i d) s = .next ((upd (vset old 7 0#32)).retire []) ∧
    (s.Supplies T c.scalarRegs → recLive old = true →
      exec (.mxcfg i d c true) s = .next ((upd (vset old 5 (s.scalar T .zero c))).retire []) ∧
      exec (.mxcfg i d c false) s = .next ((upd (vset old 6 (s.scalar T .zero c &&& 0xFFFF#32))).retire [])) ∧
    exec (.mzero i sl i40) s = .next ((s.enqueue T (.mzero sl i40) 8).retire []) ∧
    (∀ ln rest W ws bad, s.members T = ln :: rest → s.Supplies T (baseRegs .global a ++ off.regs) →
      let ea := s.ea T ln .global a off
      let w := s.afterReads T [ln] fun _ => [(ea, 1024)]
      ea % 128 = 0 → (s.readsNow T [ln] fun _ => [(ea, 1024)]) → w.team? T.id = some W → w.readTable W ln.g ln.l ea = .ok (ws, bad) →
      exec (.slcb i cb a off) s = .next ((w.enqueue T (.slcb cb ea ws bad) 1).retire []))

/-- MMA, MMAG, MWR, MSCL, MRD and MCHK (R221, R230 to R233, R236, R239 to R243): in a team that holds the matrix declaration, with the
checks of each met, the instruction joins the queue with the operands as they are now; MRD and MCHK keep their members waiting for
the unit. In a team without the declaration they are ILLOP, before any operand is tested (log entry 25). -/
def Obligations.MatrixInstructions : Prop :=
  ∀ (i : Iss) (d sl : SlotN) (v a : VReg) (b : RecN) (kb : KReg) (c : COp) (nb : BitVec 4) (pair i32 e5 scl guid clr : Bool)
      (fmt : MrdFmt) (s : State) (T : Team), s.AtWide T →
    let m := s.mxOf T.core
    let r := vget m.recs b.toNat (.replicate 8 0#32)
    let pos := s.scalar T .zero c
    let blocks := nb.toNat + 1
    let lns := s.members T
    let n := s.cur.members.length
    let read (k : Nat) : BRead := s.readB T.core r b (bits pos.toNat 0 16) (bits pos.toNat 16 4) k
    let rows := s.latched T i.ru a (recAfmt r) s.cur.members
    let held (src : List Nat) : Prop := ∀ ln ∈ lns, s.Ready T.id ln { src }
    let gives (dst : List Nat) : Prop := ∀ ln ∈ lns, s.Ready T.id ln { dst }
    (s.isMtx T = true → s.Supplies T c.scalarRegs →
      (held (span a (rowWidth (recAfmt r))) → mmaOk m r d a pos blocks = true →
        (1 ≤ n → n ≤ 3 → exec (.mma i d a b c nb false) s =
          .next (((s.setMx T.core rows.2).enqueue T (.mma d rows.1 (read blocks)) 32).retire [])) ∧
        (1 ≤ n → n ≤ 3 → T.grid = true → T.cores.contains (partnerCore T.core) = true → T.cores.contains T.core = true →
          s.pairClash T r = false → exec (.mma i d a b c nb true) s =
          .next (((s.setMx T.core rows.2).enqueue T (.pair d rows.1 b (nb.toNat + 16) pos
            (read (if T.core % 2 = 1 then 0 else blocks))) 32).retire [])) ∧
        (n = 2 ∨ n = 4 ∨ n = 6 → mmaOk m r (d + 1#2) a pos blocks = true →
          let lo := (s.cur.members.take (n / 2)).any fun x => x.2 != 0#32
          let hi := (s.cur.members.drop (n / 2)).any fun x => x.2 != 0#32
          let mh := 32 * (n / 2)
          let u := (s.setMx T.core rows.2).enqueue T (.mmag d (rows.1.take mh) (rows.1.drop mh) lo hi (read blocks))
            (if 2 * mh ≤ 96 then 32 else 64)
          exec (.mmag i d a b c nb) s = .next ((match s.cur.arr.cv? with
            | some cv => if lo = true ∧ hi = true then u else u.modTeam T.id fun T =>
                { T with cvs := vset T.cvs cv.toNat { vget T.cvs cv.toNat cvReset with gdeg := true } }
            | none => u).retire []))) ∧
      (held (span a 8) → windowOk pos.toNat 8 n = true → m.tag d = i32 → exec (.mwr i d a c i32) s =
        .next ((s.enqueue T (.mwr d i32 (bits pos.toNat 8 9) (lns.map fun ln =>
          (bits pos.toNat 0 7 + elementOf (s.cur.members.map (·.1)) ln, (List.range 8).map fun j => (s.rd ln (a.toNat + j)).val)))
            4).retire [])) ∧
      (gives (span v 8) → windowOk pos.toNat (mrdCols fmt) n = true → (guid = true → m.tag sl = false ∧ m.tag (sl + 1#2) = false) →
        exec (.mrd i v sl kb c fmt e5 scl guid) s = .next ((s.enqueue T (.mrd v sl fmt e5
          (if scl then some (T.kreg kb.toNat) else none) (if guid then some T.gscale else none) (bits pos.toNat 0 7)
          (bits pos.toNat 8 9)) (if guid then 8 else 4)).park .matrix))) ∧
    (s.isMtx T = true → held [a.toNat] → m.tag d = false → n ≤ 3 → exec (.mscl i d a) s =
      .next ((s.enqueue T (.mscl d (lns.map fun ln => (elementOf (s.cur.members.map (·.1)) ln, (s.rd ln a.toNat).val))) 32).retire
        [])) ∧
    (s.isMtx T = true → gives [v.toNat] → exec (.mchk i v sl clr) s =
      .next ((s.enqueue T (.mchk v sl clr) 1).park .matrix)) ∧
    (s.isMtx T = false → lns ≠ [] → (∀ x ∈ s.cur.members, ∀ G, T.group? x.1 = some G → G.spec = none) →
      let ill (dst : Word) (width : Nat) : Out := .next (s.raise (s.faultOf .illop lns { flt := dst, width }))
      exec (.mma i d a b c nb pair) s = ill allOnes 1 ∧ exec (.mmag i d a b c nb) s = ill allOnes 1 ∧
      exec (.mwr i d a c i32) s = ill allOnes 1 ∧ exec (.mscl i d a) s = ill allOnes 1 ∧
      exec (.mrd i v sl kb c fmt e5 scl guid) s = ill (dstV v.toNat) 8 ∧ exec (.mchk i v sl clr) s = ill (dstV v.toNat) 1)

/-- The unit of a core (R223, R233, R235, R334, R401, R408): it starts the first instruction of its queue that touches no slot, record or
table of an earlier one, did not execute in this cycle and whose burst may go on, as long as none before has failed (R244), and performs it
in the last of its cycles; a paired MMA starts in both units at once, four cycles after both are ready, or times out. A power token passes
to a cluster that has a team on the die, unless a unit there keeps it for a pair. -/
def Obligations.MatrixUnit : Prop :=
  ∀ (core die cluster : Nat) (s : State),
    (∀ o, s.starting? core = some o →
      (∃ pre post, (s.mxOf core).queue = pre ++ o :: post ∧
        ∀ x ∈ pre, x.failed = false ∧ meets x.work.uses o.work.uses = false) ∧
      (∀ x ∈ (s.mxOf core).busy, meets x.2.work.uses o.work.uses = false) ∧ o.failed = false ∧ o.work.isPair = false ∧ o.after < s.gt ∧
      ∃ T, s.team? o.team = some T ∧ exec (.matrixUnitPerform core) s = .next (s.startAt core o (T.burstcap.toNat % 256))) ∧
    (∀ o cap, ∃ o', ((s.startAt core o cap).mxOf core).busy = (s.mxOf core).busy ++ [(s.gt + o.cycles - 1, o')] ∧
      o' = { o with work := o'.work } ∧ o'.work.uses = o.work.uses ∧ ((s.startAt core o cap).mxOf core).queue = (s.mxOf core).queue.erase o) ∧
    (∀ t o, ((s.mxOf core).busy.find? fun x => x.1 ≤ s.gt) = some (t, o) →
      exec (.matrixInstructionFinish core) s = .next (s.finishWork core o) ∧
      ∀ d i40, o.work = .mzero d i40 → ∀ e, d ≠ e →
        vget ((s.finishWork core o).mxOf core).slots e.toNat accReset = vget (s.mxOf core).slots e.toNat accReset ∧
        (vget ((s.finishWork core o).mxOf core).slots d.toNat accReset).cells = [] ∧
        (vget ((s.finishWork core o).mxOf core).slots d.toNat accReset).i40 = i40 ∧
        ((s.finishWork core o).mxOf core).busy = (s.mxOf core).busy.filter (·.2 != o)) ∧
    (∀ A a B b, s.pairReady (core - core % 2) = some (A, a) → s.pairReady (core - core % 2 + 1) = some (B, b) →
      A.part = B.part → A.lnum = B.lnum → A.cluster = B.cluster → pairAgrees a.work b.work = true → pairFormats a b = true →
      let even := core - core % 2
      ((s.mxOf even).pairAt = none → exec (.pairedStart core) s = .next (s.setPairAt even (some (s.gt + 4)))) ∧
      (∀ t, (s.mxOf even).pairAt = some t → t ≤ s.gt → a.after < s.gt → b.after < s.gt →
        (∀ x ∈ (s.mxOf even).busy, meets x.2.work.uses a.work.uses = false) →
        (∀ x ∈ (s.mxOf (even + 1)).busy, meets x.2.work.uses b.work.uses = false) →
        exec (.pairedStart core) s = .next (((s.setPairAt even none).startPair even A a a).startPair (even + 1) B b a))) ∧
    (∀ o T, (s.mxOf core).queue.find? (·.work.isPair) = some o → s.team? o.team = some T → T.st = .run → T.rdvwd ≠ 0#32 →
      T.rdvwd.toNat ≤ o.waited → T.wdSet ≠ s.gt + 1 → s.pairOver core = false → (T.wdrem = 0#32 ∨ o.skipped < T.wdrem.toNat) →
      GoesTo (exec (.pairedMmaTimeout core) s) fun u => ∃ U, u.team? o.team = some U ∧ U.st = .ending true) ∧
    ((∀ c m, (c, m) ∈ s.mx → c / Config.coresPerDie = die → s.pairReady c = none) → s.ringReady die = true →
      (∃ T ∈ s.teams, T.cid = cluster ∧ T.core / Config.coresPerDie = die) → exec (.powerToken die cluster) s =
        .next { s with tokens := (die, cluster) :: s.tokens.filter fun x => x.1 != die,
                       m := { s.m with dies := vset s.m.dies die { vget s.m.dies die dieDefault with passed := s.gt } } })

/-! ## Engine commands -/

/-- CPY, CPYG, CPYS, MST and COLL (R247, R251, R253, R260, R261): where no slice is faulty and the core has room, a command is in flight
for each slice, its token is set in its groups, and the members go on; where the core has no room nothing happens yet. The threads of
a GATHER or RSADD whose acquire is not met wait at the word until the first word of the table has been read (DEDUCED, log entry 41). -/
def Obligations.EngineCommands : Prop :=
  ∀ (i : Iss) (d a b : VReg) (c : COp) (tk : BitVec 3) (s : State) (T : Team), s.AtWide T → s.isDet T = false →
    let regs (n : Nat) : List Nat := span d 2 ++ span a 2 ++ span b n ++ c.regs
    let copies (ins : Instr) (k : Copy) (n : Nat) : Prop :=
      (∀ ln ∈ firstLanes (s.members T), s.Ready T.id ln { src := regs n }) →
      (∀ ln ∈ firstLanes (s.members T), s.slice T k d a b c ln ≠ .illop) →
      let gos : List (Ln × Nat × Loc × Nat × Nat × CmdPlan) := (firstLanes (s.members T)).filterMap fun ln =>
        match s.slice T k d a b c ln with
        | .go ctl dst bar bytes plan => some (ln, ctl, dst, bar, bytes, plan)
        | _ => none
      (s.cmdCount T.core + gos.length ≤ Config.cmdMax → exec ins s = .next ((s.addCmds (gos.zipIdx.map fun (x, j) =>
        s.newCmd T (s.nextId + j) [x.1.g] tk x.2.1 x.2.2.1 x.2.2.2.1 x.2.2.2.2.1 x.2.2.2.2.2 false)).retire [])) ∧
      (Config.cmdMax < s.cmdCount T.core + gos.length → exec ins s = .next s)
    copies (.cpy i d a b c tk) .plain 2 ∧ copies (.cpyg i d a b c tk) .gather 4 ∧ copies (.cpys i d a b c tk) .scatter 4 ∧
    (∀ (sl : SlotN) (fmt : MstFmt) (ln : Ln) (rest : List Ln) (dst : Loc), s.isMtx T = true → s.members T = ln :: rest →
      s.Supplies T (span d 2 ++ span b 2 ++ c.regs) →
      let stride := (s.v ln b).toNat
      let ctl := (s.rd ln (b.toNat + 1)).val.toNat
      let nb := bits ctl 20 4
      let n := s.cur.members.length
      let row := 32 * nb * mstBytes fmt
      let e5 := bits ctl 28 1 == 1
      ctlOk ctl = true → ctlSsp ctl = 0 → ctlDsp ctl ≠ 2 → bits ctl 29 3 = 0 → (e5 = true → fmt = .fp8) → 1 ≤ nb → bits ctl 24 4 + nb ≤ 12 → stride % 16 = 0 →
      row ≤ stride → 1 ≤ n → n ≤ 3 → (s.mxOf T.core).tag sl = (fmt == .i32) →
      s.locOf T (ctlDsp ctl) (bits ctl 7 3) (s.v ln d).toNat (s.rd ln (d.toNat + 1)).val.toNat = some dst → dst.foreign T = false →
      s.barrierOk T.id (s.barrierOf T ln c) = true →
      exec (.mst i d sl b c fmt tk) s = .next (((s.addCmds [s.newCmd T s.nextId (s.cur.members.map (·.1)) tk ctl dst
        (s.barrierOf T ln c) (row * (32 * n)) (.tile dst) false]).enqueue T
          (.mst sl fmt e5 (bits ctl 24 4) nb (32 * n) stride s.nextId) 1).retire [])) ∧
    (∀ (op : CollOp) (ln : Ln) (rest : List Ln), s.members T = ln :: rest → s.Supplies T (regs 4) →
      let word (v : VReg) (j : Nat) : Nat := (s.rd ln (v.toNat + j)).val.toNat
      let pair (v : VReg) (j : Nat) : Nat := word v j + 2 ^ 32 * word v (j + 1)
      let ctl := word b 1
      let x := s.collOf ln d a b op
      let k := s.collCmd T ln d a b c op tk
      let bar := s.barrierOf T ln c
      let bytes := x.n * collBytes x.ty
      let goes (k : Cmd) : Prop := exec (.coll i d a b c op tk) s = .next ((s.addCmds [k]).retire [])
      (x.op = op ∧ x.n = word b 0 ∧ x.ty = bits ctl 20 4 ∧ x.tag = bits ctl 24 8 ∧ x.src = pair a 0 ∧ x.dst = pair d 0 ∧ x.table = pair b 2) ∧
      (k.id = s.nextId ∧ k.team = T.id ∧ k.tk = tk ∧ k.groups = s.cur.members.map (·.1) ∧ k.started = false ∧ k.bytes = bytes ∧
        k.barTeam = T.id ∧ k.barOff = bar ∧ k.coll = some x) ∧
      (ctlOk ctl = true → ctlSsp ctl = 0 → ctlDsp ctl = 0 → collType op x.ty = true → 1 ≤ x.n → bytes % 16 = 0 → bytes ≤ sliceMax →
        x.dst % 16 = 0 → x.src % 16 = 0 → x.table % 64 = 0 → s.barrierOk T.id bar = true →
        (s.tagBusy T.part x.tag = true ∨ Config.cmdMax ≤ s.cmdCount T.core → exec (.coll i d a b c op tk) s = .next s) ∧
        (s.tagBusy T.part x.tag = false → s.cmdCount T.core < Config.cmdMax →
          (op ≠ .gather → op ≠ .rsadd → goes k) ∧
          (op = .gather ∨ op = .rsadd →
            (s.acquireMet k = false → exec (.coll i d a b c op tk) s = .next ((s.addCmds [k]).park (.coll k.id))) ∧
            (∀ h, s.acquireMet k = true → s.engineRead T k (.va x.table) = .val h →
              collOver op bytes (x.headed h).nn = false → goes { k with coll := some (x.headed h) })))))

/-- CARM, CWAIT and CTEST (R257 to R259): CARM arms in ascending lane order at L scope, once at a wider one; where the phase has flipped
CWAIT and CTEST write the word's ERR, untainted; else CWAIT's lanes wait and CTEST writes all ones with Q[P] false. Waiting threads go
on when the phase flips, those of a wider scope together. Barrier words (R249, R250): arming and arriving meet, and the phase flips when they do; a failure flips it with its code, and a word
that has failed takes no arrival until it is armed again. -/
def Obligations.Barriers : Prop :=
  (∀ (i : Iss) (p : PReg) (d a b : VReg) (off : COp) (s : State),
    (∀ (T : Team) (g : Nat) (m : BitVec 32) (accs : List (Ln × Place)), s.AtLane T g m → s.isDet T = false →
      (s.actors T i).map (fun ln => (ln, (s.barAt T ln a off).2)) = accs.map (fun x => (x.1, .ok x.2)) →
      (∀ ln ∈ s.actors T i, s.unknown ln { src := a.toNat :: off.regs } = false) →
      let ph (ln : Ln) : Bool := (s.v ln b).getLsbD 0
      let flipped (x : Ln × Place) : Bool := (s.bar T x.2.ea).flipped (ph x.1)
      let err (x : Ln × Place) : Word := BitVec.ofNat 32 (s.bar T x.2.ea).err
      ((∃ pg pn, i.scope = .lane pg pn) → (∀ ln ∈ s.actors T i, s.Ready T.id ln { src := a.toNat :: b.toNat :: off.regs }) →
        (s.armAll T b accs).2 = [] → exec (.carm i a off b) s = .next ((s.armAll T b accs).1.retire [])) ∧
      ((∀ ln ∈ s.actors T i, s.Ready T.id ln { src := a.toNat :: b.toNat :: off.regs, dst := [d.toNat] }) →
        ((∃ pg pn, i.scope = .lane pg pn) → exec (.cwait i d a off b) s =
          .next ((accs.filter fun x => !flipped x).foldl (fun u x => u.modThread T.id x.1.g x.1.l fun th =>
            { th with wait := .cwait none d x.2.ea (ph x.1) })
          (((accs.filter flipped).foldl (fun u x => u.wr T.id x.1.g x.1.l d.toNat (err x) false) s).retire
            ((accs.filter fun x => !flipped x).map fun x => (x.1.g, x.1.l))))) ∧
        exec (.ctest i p d a off b) s = .next ((accs.foldl (fun u x =>
          if flipped x then (u.wr T.id x.1.g x.1.l d.toNat (err x) false).setPred x.1 p true
          else (u.wr T.id x.1.g x.1.l d.toNat allOnes false).setPred x.1 p false) s).retire []))) ∧
    (∀ (T : Team) (ln : Ln) (rest : List Ln) (x : Place), s.AtWide T → (∀ pg pn, i.scope ≠ .lane pg pn) →
      s.members T = ln :: rest → s.Ready T.id ln { src := a.toNat :: b.toNat :: off.regs } → (s.barAt T ln a off).2 = .ok x →
      (∀ w, (s.bar T x.ea).arm (s.v ln b).toNat = some w → exec (.carm i a off b) s = .next ((s.setBar T x.ea w).retire [])) ∧
      ((∀ y ∈ s.members T, s.Ready T.id y { dst := [d.toNat] }) → exec (.cwait i d a off b) s =
        .next (if (s.bar T x.ea).flipped ((s.v ln b).getLsbD 0) = true
          then ((s.members T).foldl (fun u y => u.wr T.id y.g y.l d.toNat (BitVec.ofNat 32 (s.bar T x.ea).err) false) s).retire []
          else s.park (.cwait none d x.ea ((s.v ln b).getLsbD 0))))) ∧
    (∀ t g l U k e, s.team? t = some U → (U.ln g l).th.live = true → (U.ln g l).th.wait = .cwait none d e k →
      (s.bar U e).flipped k = true →
      let err : Word := BitVec.ofNat 32 (s.bar U e).err
      let ps := U.waitPeers g l
      ((U.ln g l).th.arr = .no → s.owns t g l (d.toNat / 8) → g < U.groups.length →
        exec (.cwaitWake t g l) s = .next ((s.wr t g l d.toNat err false).nextLanes t g [l])) ∧
      ((U.ln g l).th.arr ≠ .no → (∀ x ∈ ps, s.owns t x.1 x.2 (d.toNat / 8)) → exec (.cwaitWake t g l) s =
        .next ((((ps.map (·.1)).eraseDups).foldl (fun u j => u.nextLanes t j ((ps.filter (·.1 == j)).map (·.2)))
          (ps.foldl (fun u x => u.wr t x.1 x.2 d.toNat err false) s)).release t (U.ln g l).th.arr
            (if (U.ln g l).th.arr.cv?.isSome then U.membership (U.ln g l).th.arr g else [g]))))) ∧
  (∀ (b : Bar) (n : Nat) (code : BitVec 7), b.ph ≤ 1 → b.exp < 2 ^ 32 → b.arr < 2 ^ 24 → b.err < 128 →
    Bar.of b.word = b ∧
    (b.err = 0 → b.exp ≠ 0 → b.exp = b.arr + n → b.arr + n < 2 ^ 24 → b.arrive n = { exp := 0, arr := 0, ph := 1 - b.ph, err := 0 }) ∧
    (b.err = 0 → b.arr + n < b.exp → b.arr + n < 2 ^ 24 → b.arrive n = { b with arr := b.arr + n }) ∧
    (b.err = 0 → 2 ^ 24 ≤ b.arr + n → b.arrive n = { exp := 0, arr := 0, ph := 1 - b.ph, err := 8 }) ∧
    (b.err ≠ 0 → b.arrive n = b ∧ b.fail code.toNat = b) ∧
    (b.err = 0 → b.fail code.toNat = { exp := 0, arr := 0, ph := 1 - b.ph, err := code.toNat }) ∧
    (b.err = 0 → 1 ≤ n → b.arr < b.exp + n → b.exp + n < 2 ^ 24 → b.arm n = some { b with exp := b.exp + n }) ∧
    ((n = 0 ∨ 2 ^ 24 ≤ b.exp + n) → b.err = 0 → b.arm n = none))

/-- The course of a command (R250, R256, R263 to R265, R296): it reports and leaves when its last write and its release are done, or when it
has failed; chunks of a collective are taken when their checksum matches, and end it with their code when it does not, each chunk being
compared with its own sum whatever the operation (log entry 41), and a hop count of NN ends it with TOPO (R264); a page that is missing is
notified once; the destination of a collective is written when every chunk is there. The bytes that CPY, CPYG, CPYS and MST move are
`EngineMoves` (R253, R260); that their reads leave no older copy in the L1 of the issuing threads is log entry 9. -/
def Obligations.CommandEvents : Prop :=
  (∀ (s : State) (T : Team) (c : Cmd), EngineMoves s T c) ∧
  ∀ (id node chunk hops : Nat) (data : List Byte) (sum : Word) (code : BitVec 7) (s : State) (c : Cmd), s.cmd? id = some c →
    let ends (code : BitVec 7) : State := s.modCmd id (·.stop code)
    (s.cmdDone c = true → exec (.arrive id) s = .next ((s.report c (·.arrive c.bytes)).endCmd c)) ∧
    (c.err = some code → s.cmdQuiet c = true → exec (.fail id code) s =
      .next (((s.report c (·.fail code.toNat)).endCmd c).tellFailure c)) ∧
    (∀ x T, c.coll = some x → s.team? c.team = some T → (s.tellFailure c).linkOut = s.linkOut ++ x.known.map fun p =>
      { part := T.part, tag := x.tag, port := p.port, peer := p.node, body := .failure }) ∧
    (∀ x, c.exchanging = some x → exec (.failureNotice id) s = .next (ends 7#7) ∧
      (s.collLate c = true → exec (.collTimeout id) s = .next (ends 5#7)) ∧
      (x.nn ≤ hops → exec (.flit id node chunk hops data sum) s = .next (ends 4#7)) ∧
      (x.expected.contains node = true → chunk < x.chunks → x.has node chunk = false →
        data.length = min chunkBytes (x.shardBytes - chunk * chunkBytes) →
        (hops < x.nn → chunkSumOf data ≠ sum → exec (.flit id node chunk hops data sum) s = .next (ends 6#7)) ∧
        (hops < x.nn → chunkSumOf data = sum → ∃ y, y.shards = x.shards ++ [{ node := node, chunk := chunk, hops := hops, data := data }] ∧
          exec (.flit id node chunk hops data sum) s = .next ((s.modCmd id fun c => { c with coll := some y }).collSend id)))) ∧
    (∀ p, c.page = some p → ((s.part (p / 2 ^ 32)).efaults.map (·.1)).contains p = false → exec (.efault id) s =
      .next ((s.modPart (p / 2 ^ 32) fun pt => { pt with efaults := pt.efaults ++ [(p, c.agent)] }).notify (p / 2 ^ 32) kindEfault 0
        c.agent (p * 2 ^ 16))) ∧
    (∀ x T, c.gathered = some x → s.team? c.team = some T → c.page = none →
      (granulesOf x.result = [] → exec (.collComplete id) s =
        .next (s.modCmd id fun c => { c with coll := c.coll.map fun y => { y with stored := true } })) ∧
      (∀ e, s.firstStuck T x.dst (List.range (granulesOf x.result).length) = some (.err e) →
        exec (.collComplete id) s = .next (ends e)) ∧
      (s.firstStuck T x.dst (List.range (granulesOf x.result).length) = none → GoesTo (exec (.collComplete id) s) fun u =>
        ∃ k y, u.cmd? id = some k ∧ k.coll = some y ∧ y.stored = true))

/-! ## The generation loop -/

/-- PHASH, SLCOMMIT, SLQRY and the page pins (R267 to R271): a commit takes the least of its count, NTOK and CTX, moves them, and marks the
sequence done when either reaches 0; a query answers a field and may replace it, each in the step that issues it (DEDUCED, log entry 19); a
pin waits for the page unit, which counts in the leaf of the page's table and refuses at the bounds. -/
def Obligations.GenerationLoop : Prop :=
  ∀ (i : Iss) (p : PReg) (d a b : VReg) (c off : COp) (set : Bool) (fld : SlotField) (s : State) (T : Team) (g : Nat) (m : BitVec 32),
    RunsLanes (.phash i d a b) i (.toV (a.toNat :: span b 16) d) Always (fun s _ ln =>
      Res.reg d (phash (s.v ln a) ((List.range 16).map fun j => (s.rd ln (b.toNat + j)).val))) ∧
    (s.AtLane T g m → s.isDet T = false →
      let acts := s.actors T i
      let ix (ln : Ln) : Nat := (s.v ln a).toNat
      ((∀ ln ∈ acts, s.Ready T.id ln { src := a.toNat :: c.regs, dst := [d.toNat] } ∧ ix ln < slotMax) →
        exec (.slcommit i p d a c) s = .next ((acts.foldl (fun u ln =>
          let r := ((u.part T.part).slot (ix ln)).commitN ((s.cval T ln .zero c).getD 0#32).toNat
          ((u.modPart T.part (·.setSlot (ix ln) r.2)).wr T.id ln.g ln.l d.toNat (BitVec.ofNat 32 r.1) false).setPred ln p r.2.done)
          s).retire [])) ∧
      ((∀ ln ∈ acts, s.Ready T.id ln { src := a.toNat :: (if set then [b.toNat] else []), dst := [d.toNat] } ∧ ix ln < slotMax) →
        exec (.slqry i d a b set fld) s = .next ((acts.foldl (fun u ln =>
          let x := (u.part T.part).slot (ix ln)
          (if set then u.modPart T.part (·.setSlot (ix ln) (x.putField fld (s.v ln b))) else u).wr T.id ln.g ln.l d.toNat
            (x.field fld) false) s).retire [])) ∧
      (∀ accs : List (Ln × Nat),
        (∀ ln ∈ acts, s.Ready T.id ln { src := baseRegs .global a ++ off.regs } ∧
          s.unknown ln { src := baseRegs .global a ++ off.regs } = false) →
        acts.map (fun ln => (ln, (s.pinAt a off T ln).2)) = accs.map (fun x => (x.1, .ok x.2)) →
        let waits (add : Bool) : State := accs.foldl (fun u x => u.modThread T.id x.1.g x.1.l fun th =>
          { th with wait := .pin x.2 p add }) (s.retire (accs.map fun x => (x.1.g, x.1.l)))
        let at_ (u : State) : State := match i.scope with
          | .group => accs.foldl (fun u x => u.modThread T.id x.1.g x.1.l fun th => { th with arr := .group }) u
          | _ => u
        exec (.pgpin i p a off) s = .next (at_ (waits true)) ∧ exec (.pgunpin i p a off) s = .next (at_ (waits false)))) ∧
    (∀ (x : SeqSlot) (k : Nat),
      let n := min k (min x.ntok.toNat x.ctx.toNat)
      (x.commitN k).1 = n ∧ (x.commitN k).2.ntok.toNat = x.ntok.toNat - n ∧ (x.commitN k).2.ctx.toNat = x.ctx.toNat - n ∧
      (x.commitN k).2.commit = x.commit + BitVec.ofNat 32 n ∧
      (x.commitN k).2.done = (x.done || x.ntok.toNat == n || x.ctx.toNat == n)) ∧
    (∀ t l U G ia add leaf, s.team? t = some U → s.group? t g = some G → U.st = .run → G.pinSet l = [(l, ia, p, add)] →
      (G.thread l).arr = .no → s.pinFree ia add = true → s.walk ia = some leaf →
      let n := ptePin (s.bytes leaf.entry 8)
      let ok := if add then decide (n < 65535) else decide (0 < n)
      exec (.pgpinAnswer t g l) s = .next (((if ok then s.setBytes leaf.entry 8 (s.bytes leaf.entry 8 % 2 ^ 48 +
        (if add then n + 1 else n - 1) * 2 ^ 48) else s).setPred (U.ln g l) p ok).nextLanes t g [l])) ∧
    (∀ t l U G, s.team? t = some U → s.group? t g = some G → U.st = .run → (G.thread l).arr = .group →
      l ∈ (G.pinSet l).map (·.1) → (∀ x ∈ G.pinSet l, s.pinFree x.2.1 x.2.2.2 = true ∧ (s.walk x.2.1).isSome = true) →
      exec (.pgpinAnswer t g l) s = .next ((((G.pinSet l).foldl (fun u x =>
        (u.answerPin (U.ln g x.1) x.2.1 x.2.2.1 x.2.2.2).getD u) s).nextLanes t g ((G.pinSet l).map (·.1))).release t .group [g]))

/-! ## Launches -/

/-- LNCH, the launch queue engine and the end of a launch (R272, R323, R325, R327, R328, R346): a head that cannot be read or is malformed
ends at once with its status and its queue goes on; a launch is admitted when its predecessor lets it in; a launch whose teams have
ended takes its status and leaves when its writes have passed; a round of a deterministic launch ends when nothing is left to commit,
and the next begins with memory as it is. That LNCH's record is read in the step that issues it is log entry 16 (DESIGN CHOICE), that its
lanes append theirs in that step in lane order log entry 19 (DEDUCED). -/
def Obligations.Launches : Prop :=
  ∀ (i : Iss) (pr : PReg) (d a b : VReg) (off : COp) (p q : Nat) (lnum : Word) (s : State),
    (∀ (T : Team) (g : Nat) (m : BitVec 32) (accs : List (Ln × List (Nat × Bool))), s.AtLane T g m → s.isDet T = false →
      (∀ ln ∈ s.actors T i, s.Ready T.id ln { src := baseRegs .global a ++ off.regs ++ [b.toNat], dst := [d.toNat] } ∧
        s.unknown ln { src := baseRegs .global a ++ off.regs } = false) →
      (s.actors T i).map (fun ln => (ln, (s.recordAt false T ln a off).2)) = accs.map (fun x => (x.1, .ok x.2)) →
      let reads (ln : Ln) : List (Nat × Nat) := [(s.ea T ln .global a off, 640)]
      s.readsNow T (s.actors T i) reads → exec (.lnch i pr d a off b) s =
        .next ((accs.foldl (fun u x => u.lnchLane T pr d b x.1 x.2) (s.afterReads T (s.actors T i) reads)).retire [])) ∧
    (∀ L, s.resumable p = some L → exec (.dequeue p) s = .next (s.readOn L)) ∧
    (s.resumable p = none → s.places p < Config.launchMax → s.m.resetting p = false → bestHead (s.heads p) = some q →
      let k := (s.part p).slotKey q ((s.part p).qhead q)
      let r := recordOf (s.bytes k 640)
      let n : Word := BitVec.ofNat 32 (s.bytes (k + 0x5C) 4)
      let ends (st : Status) : Prop := GoesTo (exec (.dequeue p) s) fun u =>
        (∃ L, u.launch? p n = some L ∧ L.st = .finishing st) ∧ (u.part p).qhead q = ((s.part p).qhead q + 1) % 2 ^ 32 ∧ u.mem = s.mem
      (s.poisonedIn k 1024 = true → ends .readErr) ∧
      (s.poisonedIn k 1024 = false → (s.part p).malformed r = true → ends .badRec) ∧
      (s.poisonedIn k 1024 = false → (s.part p).malformed r = false → r.sema ≠ 0#64 → GoesTo (exec (.dequeue p) s) fun u =>
        (∃ L, u.launch? p n = some L ∧ L.st = .sema) ∧ (u.part p).qwait q = true ∧ (u.part p).qhead q = (s.part p).qhead q)) ∧
    (∀ L, (s.inFlight p).find? (fun L => L.queue == q && L.st == .sema) = some L → L.page = none → L.req = none →
      (∀ v, s.launchWord L L.r.sema.toNat = .ok v → v < L.r.semv.toNat → exec (.semaphorePoll p q) s =
        .next ((s.launchTouch L L.r.sema.toNat).modLaunch p L.lnum fun L => { L with got := [] })) ∧
      (∀ v, s.launchWord L L.r.sema.toNat = .ok v → L.r.semv.toNat ≤ v →
        let L1 := { L with st := .reading, got := [] }
        exec (.semaphorePoll p q) s = .next ((((s.launchTouch L L.r.sema.toNat).modLaunch p L.lnum fun _ => L1).modPart p (·.setQwait q false)).readOn L1)) ∧
      (s.launchWord L L.r.sema.toNat = .fail →
        exec (.semaphorePoll p q) s = .next ((s.launchTouch L L.r.sema.toNat).finish L .readErr))) ∧
    (∀ u, s.nextPlaced p = some u → exec (.place p) s = .next u) ∧
    (∀ L, s.launch? p lnum = some L →
      (s.mayAdmit L = true → GoesTo (exec (.admit_ p lnum) s) fun u => u = { s with launches := u.launches } ∧
        ∃ K, u.launch? p lnum = some K ∧ K.st = .admitted ∧ K.sinceCluster = s.gt ∧
          K.det = L.det.map fun d => { d with opening := s.mem, openGt := s.gt }) ∧
      (s.overdue L = true →
        exec (.urgent p lnum) s = .next (s.modLaunch p lnum fun L => { L with urgent := true })) ∧
      (L.st = .admitted → s.allEnded L = true → exec (.launchEnd p lnum) s =
        .next (s.modLaunch p lnum fun L => { L with st := .finishing (if L.faulted then .teamFault else .ok) })) ∧
      (∀ st, L.st = .finishing st → L.wct ≤ s.gt → L.page = none → s.writesUnderWay L = false →
        exec (.launchEnd p lnum) s = .next (s.writeCompletion L st) ∧
        (L.r.cmpl = 0#64 → L.r.msie = false → L.part < 8 → s.writeCompletion L st = s.removeLaunch L ∧
          (s.removeLaunch L).launch? L.part L.lnum = none ∧
          ((s.removeLaunch L).part L.part).done = (L.lnum, !L.faulted) :: (s.part L.part).done))) ∧
    (∀ L e, s.detLaunch p = some (L, e) → s.launch? p L.lnum = some L →
      let next : Prop := GoesTo (exec (.roundCommit p) s) fun u => u.mem = s.mem ∧ u.kiln = s.kiln ∧ ∃ K, u.launch? p L.lnum = some K ∧
        K.det = some { e with round := e.round + 1, opening := s.mem, openGt := s.gt, until_ := none, commit := false }
      (∀ w, e.until_ = some w → w ≤ s.gt → next) ∧
      (e.until_ = none → s.roundClosed L = true → s.nextEntry L = none → s.roundWct L ≤ s.gt → next) ∧
      (e.until_ = none → s.roundClosed L = true → s.nextEntry L = none → s.gt < s.roundWct L → exec (.roundCommit p) s =
        .next (s.modLaunch p L.lnum fun K => { K with det := K.det.map fun d => { d with commit := true, until_ := some (s.roundWct L) } })))

/-! ## The host -/

/-- Records appended to a queue, the commands to a team, and the fault ring (R321, R322, R358, R360, R361, R369 to R371): a QTAIL that
the queue has room for accepts its records, each with the next launch number; a command names a team, and its STAT says why nothing
was done; what PREEMPT does with a team that is being stopped already, or was left in place, is log entry 26 (DEDUCED). -/
def Obligations.HostQueues : Prop :=
  ∀ (p q : Nat) (v : Word) (s : State), p < 8 → q < 16 →
    let pt := s.part p
    let n := (v.toNat + 2 ^ 32 - pt.qtail q) % 2 ^ 32
    let index := pt.fld 0xF40 0 24
    let lnum : Word := BitVec.ofNat 32 (pt.fld 0xF40 32 32)
    ((pt.qdev q = true ∨ n = 0 ∨ pt.qslots q < pt.qcount q + n) → exec (.qtail p q v) s = .next s) ∧
    (pt.qdev q = false → n ≠ 0 → pt.qcount q + n ≤ pt.qslots q → GoesTo (exec (.qtail p q v) s) fun u =>
      (u.part p).qtail q = v.toNat ∧ (u.part p).nextLnum = pt.nextLnum + BitVec.ofNat 32 n ∧ u.teams = s.teams ∧
        u.launches = s.launches) ∧
    exec (.fqhead p v) s = .next ((s.modPart p fun pt => pt.setFld 0xF10 0 32 v.toNat).post p) ∧
    (pt.busy = false → s.named? p index lnum = none →
      exec (.preempt p) s = .next (s.modPart p (·.setAct false 1)) ∧ exec (.resume p) s = .next (s.modPart p (·.setAct false 1)) ∧
      exec (.end_ p) s = .next (s.modPart p (·.setAct false 1))) ∧
    (∀ T, pt.busy = false → s.named? p index lnum = some T → s.team? T.id = some T → s.saved.find? (·.team.id == T.id) = none →
      (s.isDet T = true → exec (.preempt p) s = .next (s.modPart p (·.setAct false 2))) ∧
      (s.isDet T = false → (T.st = .run ∧ T.numbered.all (fun x => !(x.2.spec.map (·.runAhead)).getD false) = true) ∨ T.st = .inPlace →
        GoesTo (exec (.preempt p) s) fun u => ∃ U r, u.team? T.id = some U ∧ U.st = .stopping r ∧ r.code = 0#8 ∧ r.cls = 2#2 ∧
          u.mem = s.mem) ∧
      (s.isDet T = false → ∀ r, T.st = .stopping r → exec (.preempt p) s = .next (s.modPart p (·.setAct false 0))) ∧
      (T.st = .run → exec (.resume p) s = .next (s.modPart p (·.setAct false 3))) ∧
      (T.st = .inPlace → T.broken = true → exec (.resume p) s = .next (s.modPart p (·.setAct false 2))) ∧
      (T.st = .inPlace → T.broken = false → s.unposted T = false →
        exec (.resume p) s = .next ((s.goOn T.id).modPart p (·.setAct false 0))) ∧
      (GoesTo (exec (.end_ p) s) fun u => ∃ U, u.team? T.id = some U ∧ U.st = .ending true ∧ u.mem = s.mem)) ∧
    (∀ T k, pt.busy = false → s.named? p index lnum = some T → T.st = .out k →
      (s.isDet T = false → exec (.preempt p) s = .next (s.modPart p (·.setAct false 3))) ∧
      (T.broken = true → exec (.resume p) s = .next (s.modPart p (·.setAct false 2))) ∧
      (T.broken = false → GoesTo (exec (.resume p) s) fun u => (u.part p).resuming = some T.id ∧ (u.part p).busy = true ∧
        u.teams = s.teams ∧ u.mem = s.mem ∧ u.saved = s.saved.map fun y =>
          if y.team.id == T.id then { y with team := { y.team with st := .resuming k } } else y)) ∧
    (pt.busy = true → exec (.preempt p) s = .next s ∧ exec (.resume p) s = .next s) ∧
    (∀ t x, pt.resuming = some t → s.team? t = none → s.saved.find? (·.team.id == t) = some x → s.unposted x.team = false →
      (s.imageIntact x = false → exec (.resumePlacement p) s = .next (((s.badImage x).stopResume p t).post p)) ∧
      (∀ c s0 b, s.imageIntact x = true → s.resumeSpots x = [(c, s0, b)] →
        exec (.resumePlacement p) s = .next ((s.restoreTeam x c s0 b).stopResume p t)))

/-- What the memory side does for the host (R288 to R298, R400): drops of translations, migration, answers to page faults, residency
handles and sequence slots, a write of 8 bytes being two of 4, the lower first. That a drop of translations and a migration are done at
moments of their own is log entry 21. -/
def Obligations.MemoryService : Prop :=
  ∀ (p page h off n : Nat) (v : Word) (x : Dword) (s : State), s.serving p = true →
    let pt := s.part p
    exec (.all p) s = .next (s.modPart p fun pt => (pt.setFld 0x008 0 1 1).askDrop none) ∧
    exec (.page p page) s =
      .next (s.modPart p fun pt => ((pt.setFld 0x008 0 1 0).setFld 0x008 16 36 page).askDrop (some (page % 2 ^ 36))) ∧
    (pt.drops ≠ [] → GoesTo (exec (.translationDropDone p) s) fun u => (u.part p).drops = [] ∧ (u.part p).fld 0x008 63 1 = 0 ∧
      (∀ y ∈ u.tlb, y ∈ s.tlb) ∧ (none ∈ pt.drops → ∀ y ∈ u.tlb, y.1 / 2 ^ 32 ≠ p) ∧
      (∀ g, some g ∈ pt.drops → ∀ y ∈ u.tlb, y.1 ≠ g) ∧ u.mem = s.mem) ∧
    exec (.mqtail p v) s = .next (s.modPart p fun pt => pt.setFld 0x058 0 32 v.toNat) ∧
    (s.migrateReady p = true →
      let k := pt.fld 0x060 0 32
      let desc := s.bytes (physKey 0 (pt.fld 0x048 4 44 * 16 + 16 * (k % 2 ^ pt.fld 0x050 0 5))) 16
      let u := s.modPart p fun pt => pt.setFld 0x060 0 32 ((k + 1) % 2 ^ 32)
      (u.migOf p desc = none → exec (.migrate p) s = .next (u.notify p kindMigabort 0 4 (bits desc 16 36 * 2 ^ 16))) ∧
      (∀ g, u.migOf p desc = some g → ptePin (u.bytes g.leaf 8) ≠ 0 →
        exec (.migrate p) s = .next (u.notify p kindMigabort 0 3 (g.page * 2 ^ 16))) ∧
      (∀ g, u.migOf p desc = some g → ptePin (u.bytes g.leaf 8) = 0 →
        exec (.migrate p) s = .next ((u.setMig g.leaf true).modPart p fun pt => { pt with mig := some g }))) ∧
    (∀ g, pt.mig = some g →
      (s.migPoison g = none → s.cxlDown g.dst = false → exec (.migdone p) s = .next ((((((s.copyPage g).moveOpenings g).remap g).dropTlb p (some g.page)).endMig p g).notify p
        kindMigdone 0 0 (g.page * 2 ^ 16))) ∧
      (s.migPoison g = some n →
        exec (.migabort p (some n)) s = .next ((s.endMig p g).notify p kindMigabort 0 1 (g.page * 2 ^ 16 + 128 * n))) ∧
      exec (.migabort p none) s = .next ((s.endMig p g).notify p kindMigabort 0 2 (g.page * 2 ^ 16))) ∧
    (page / 2 ^ 32 = p → exec (.eactRetry p page) s = .next (s.retryPage p page) ∧
      (∀ c ∈ (s.retryPage p page).cmds, c.page ≠ some page) ∧
      exec (.eactUnresolvable p page) s = .next ((s.modPart p (·.answered page)).failPage page 2#7)) ∧
    (pt.handleAct h = 1 → GoesTo (exec (.evict p h) s) fun u => (u.part p).fld (handleOff h) 3 2 = 0 ∧ u.mem = s.mem ∧ u.lend = s.lend ∧
      ∀ c ∈ u.l2 ++ u.llc, pt.inHandle h c.line = true → s.kept c.line = true) ∧
    (pt.handleAct h = 2 → exec (.demote p h) s =
      let last (c : CLine) : CLine := if pt.inHandle h c.line then { c with rrpv := 3 } else c
      .next ({ s with l2 := s.l2.map last, llc := s.llc.map last }.modPart p fun pt => pt.setFld (handleOff h) 3 2 0)) ∧
    exec (.slotWrite p off 4 x) s = .next (s.modPart p fun pt => pt.slotWrite off 4 x) ∧
    (off % 8 = 0 → 0x10000 ≤ off → off < 0x20000 → exec (.slotWrite p off 8 x) s =
      .next ((s.modPart p fun pt => pt.slotWrite off 4 x).followedBy (.slotWrite p (off + 4) 4 (x >>> 32)))) ∧
    (n < slotMax → off = 0x10000 + 16 * n →
      let y := pt.slot n
      (pt.slotWrite off 4 x).slot n = { y with ntok := x.setWidth 32 } ∧
      (pt.slotWrite (off + 4) 4 x).slot n = { y with ctx := x.setWidth 32 } ∧
      (pt.slotWrite (off + 8) 4 x).slot n = { y with commit := x.setWidth 32 } ∧
      (pt.slotWrite (off + 12) 4 x).slot n = { y with done := x.getLsbD 0 })

/-- Requests from outside and to it (R312, R387, R389, R391): a write lands in the bytes that its window maps, and no other byte changes;
a read answers with the bytes there; an AtomicOp answers the old value; what matches no window fails; an outbound request ends with
its data, its acknowledgement or an error. A read of a register through BAR0 is answered with its bytes, and with 0 where it is not naturally
aligned, which R400 says of the sequence slots and the model of the others (log entry 34); where the function does not answer it fails (log
entry 24). -/
def Obligations.OutsideRequests : Prop :=
  ∀ (port req p off id : Nat) (s : State),
    (∀ (bytes : List Byte) (bs : List (Nat × Nat)), s.reaches port p = true → s.writeReady port req p off bytes.length = true →
      s.inbound p off bytes.length .write = .ok bs → (∀ x ∈ bs, s.cxlDown x.2 = false) → (bs.map (·.2)).Nodup →
      (∀ x ∈ linesOf bs, (s.part (x.1 / 2 ^ 48)).fld 0x018 16 1 = 0) →
      GoesTo (exec (.inboundPostedWrite port req p off bytes false) s) fun u =>
        (∀ j (hj : j < bytes.length), ∀ x, bs[j]? = some x → u.byte x.2 = s.keepPte x.2 bytes[j]) ∧
        (∀ k, (∀ x ∈ bs, x.2 ≠ k) → u.byte k = s.byte k) ∧ u.replies = s.replies) ∧
    (∀ (bytes : List Byte) (ep : Bool) (w : Option Nat), s.reaches port p = true →
      s.writeReady port req p off bytes.length = true → s.inbound p off bytes.length .write = .error w →
      exec (.inboundPostedWrite port req p off bytes ep) s = .next (s.modPart p (·.inFailed w))) ∧
    (∀ n, s.reaches port p = true → s.inOrder port req = true →
      (∀ bs, s.inbound p off n .read = .ok bs → GoesTo (exec (.inboundRead port req (.bar2 p) off n) s) fun u => ∃ ep,
        u.replies = s.replies ++ [{ port, req, data := some (bs.map fun x => s.byte x.2), ep }]) ∧
      (∀ w, s.inbound p off n .read = .error w → exec (.inboundRead port req (.bar2 p) off n) s = .next (s.unsupported port req p))) ∧
    (∀ fn n, s.inOrder port req = true →
      (s.bar0Open port fn off = false → exec (.inboundRead port req (.bar0 fn) off n) s = .next (s.reply port req none false)) ∧
      (s.bar0Open port fn off = true → (n ≠ 8 ∨ off % 8 ≠ 0 ∨ fn = 0 ∨ off < 0x10000 ∨ 0x20000 ≤ off) →
        exec (.inboundRead port req (.bar0 fn) off n) s = .next (s.reply port req (some (s.bar0Bytes port fn off n)) false)) ∧
      (off % n ≠ 0 → s.bar0Bytes port fn off n = List.replicate n 0#8)) ∧
    (∀ k m, k < 8 → m < slotMax →
      let y := (s.part k).slot m
      let at_ (j : Nat) : List Byte := s.bar0Bytes port (1 + k) (0x10000 + 16 * m + j) 4
      at_ 0 = listOf 4 y.ntok.toNat ∧ at_ 4 = listOf 4 y.ctx.toNat ∧ at_ 8 = listOf 4 y.commit.toNat ∧
        at_ 12 = listOf 4 (if y.done then 1 else 0)) ∧
    (∀ (wide : Bool) (kind : AOpKind) (a b : Dword) (ia k : Nat) (bs : List (Nat × Nat)), s.reaches port p = true →
      let n := if wide then 8 else 4
      s.aopReady port req p off n = true → s.inbound p off n .atomic = .ok ((ia, k) :: bs) → off % n = 0 →
      s.poisonedIn k n = false → s.cxlDown k = false → GoesTo (exec (.inboundAtomicop port req p off wide kind a b) s) fun u =>
        u.replies = s.replies ++ [{ port, req, data := some (listOf n (s.bytes k n)), ep := false }]) ∧
    (s.reaches port p = false → exec (.inboundRead port req (.bar2 p) off id) s = .next (s.reply port req none false)) ∧
    (∀ q, s.outReq? id = some q →
      (∀ t, exec (.outboundCompletion id (.error t)) s = .next (s.complete q (.error t))) ∧
      exec (.completionTimeout id) s = .next (s.complete q (.error true)) ∧
      (∀ bytes sg, q.op = .load sg → exec (.outboundCompletion id (.data bytes)) s = .next (s.complete q (.data bytes))) ∧
      (∀ fe, q.op = .store fe → q.flight = none → exec (.outboundCompletion id .acked) s = .next (s.complete q .acked)) ∧
      (q.flight = none → ∀ x, ∀ r ∈ (s.complete q x).outbox, r.id ≠ q.id))

/-! ## The module -/

/-- Links, ports, power, ageing and freeze (R387, R392 to R394, R401, R402, R405, R407): what each event changes of the module; none
of them writes memory or a register of a thread. -/
def Obligations.ModuleEvents : Prop :=
  ∀ (port p w die mv share rate core : Nat) (st : LinkSt) (en : Bool) (ps : Word) (s : State),
    let quiet (ins : Instr) (f : State → Prop) : Prop := GoesTo (exec ins s) fun u =>
      u.mem = s.mem ∧ u.kiln = s.kiln ∧ u.teams = s.teams ∧ u.agenda = s.agenda ∧ f u
    let link (u : State) : Link := vget u.m.links port linkDefault
    (port < 16 → st ≠ .down → exec (.linkState port st) s =
      .next (s.modModule fun m => { m with links := vset m.links port ((vget m.links port linkDefault).enter st) })) ∧
    (port < 16 → GoesTo (exec (.linkState port .down) s) fun u => (link u).st = .down) ∧
    (s.recoveryOver port = true → GoesTo (exec (.recoveryLimit port) s) fun u => (link u).st = .down) ∧
    quiet (.cxlPortDown port) (fun u => vget u.m.cxlUp port false = false) ∧
    (st = .up ∨ st = .recovery → quiet (.pcieLinkState port st) fun u => port < 2 → vget u.m.pcie port .down = st) ∧
    (GoesTo (exec (.pcieLinkState port st) s) fun u => port < 2 → vget u.m.pcie port .down = st) ∧
    (p < 8 → port < (s.part p).bme.length → quiet (.busMasterEnable p port en) fun u => u.busMaster p port = en) ∧
    (s.serving p = true → w < 4096 → quiet (.vectorUnmask p w) fun u => (u.part p).masked w = false) ∧
    (die < 8 → mv ≤ Config.fusedVoltage.toNat → share ≤ 256 → quiet (.firmwareThrottle die mv share rate) fun u =>
      (vget u.m.dies die dieDefault).mv = mv ∧ (vget u.m.dies die dieDefault).share = share ∧ (vget u.m.dies die dieDefault).rate = rate) ∧
    (die < 8 → quiet (.fusedCeiling die) fun u => (vget u.m.dies die dieDefault).forced = true) ∧
    (core < Config.cores → quiet (.slackMeasurement core ps) fun u => (u.m.age core).slack = ps ∧ (u.m.age core).time = s.gt ∧
      (u.m.age core).replans = (s.m.age core).replans) ∧
    (s.mayReplan core = true → quiet (.replan core) fun u => (u.m.replan.any fun x => x.1 == core) = true ∧
      ((s.m.age core).replans ≠ allOnes → (u.m.age core).replans = (s.m.age core).replans + 1#32)) ∧
    quiet (.replanEnd core) (fun u => (u.m.replan.any fun x => x.1 == core) = false) ∧
    quiet .freeze (fun u => u.m.frozen = true ∧ u.m.thermtrip = s.m.thermtrip) ∧
    quiet .frz (fun u => u.m.frozen = true ∧ u.m.thermtrip = s.m.thermtrip) ∧
    quiet .thermalTrip (fun u => u.m.frozen = true ∧ u.m.thermtrip = true) ∧
    exec (.readOut core) s = .next s

/-- Ownership, partition reset, module reset and bring-up (R395 to R398, R406): the owners of dies, links, CXL ports and units of LPDDR6 move only
between held partitions; a partition held loses its teams, launches and register state, all but its Bus Master Enables, which lie in
configuration space, and comes out of reset when HOLD has fallen; a module reset leaves the reset state, and each stage of bring-up follows
the one before. That units of LPDDR6 are handed out in partition order is log entry 12; that an access of another partition settles at its
turn, and that INRST waits for it, is log entry 23. -/
def Obligations.ResetAndBringup : Prop :=
  ∀ (p : Nat) (v : BitVec 8) (x : Dword) (s : State),
    (s.m.mayMove 8 (ownerIn s.m.diepart) (ownerIn (x &&& 0xFFFFFFFF#64)) = true →
      exec (.diepart 0x00 x) s = .next { s with m := { s.m with diepart := x &&& 0xFFFFFFFF#64 } }) ∧
    (s.m.mayMove 8 (ownerIn s.m.diepart) (ownerIn (x &&& 0xFFFFFFFF#64)) = false → exec (.diepart 0x00 x) s = .next s) ∧
    (s.m.mayMove 16 (ownerIn s.m.linkpart) (ownerIn x) = true →
      exec (.diepart 0x08 x) s = .next { s with m := { s.m with linkpart := x } }) ∧
    (s.m.mayMove 4 (ownerIn s.m.cxlpart) (ownerIn (x &&& 0xFFFF#64)) = true →
      exec (.diepart 0x10 x) s = .next { s with m := { s.m with cxlpart := x &&& 0xFFFF#64 } }) ∧
    (s.m.mayMove 16 (ownerIn s.m.linkpart) (ownerIn x) = false → exec (.diepart 0x08 x) s = .next s) ∧
    (s.m.mayMove 4 (ownerIn s.m.cxlpart) (ownerIn (x &&& 0xFFFF#64)) = false → exec (.diepart 0x10 x) s = .next s) ∧
    (let y := x &&& 0x7F7F7F7F7F7F7F7F#64
     let units := ((List.range 8).map fun k => y.toNat / 2 ^ (8 * k) % 128).sum
     (units ≤ 64 → s.m.mayMove 64 (unitOwner s.m.lpdq) (unitOwner y) = true →
       exec (.diepart 0x18 x) s = .next { s with m := { s.m with lpdq := y } }) ∧
     ((64 < units ∨ s.m.mayMove 64 (unitOwner s.m.lpdq) (unitOwner y) = false) → exec (.diepart 0x18 x) s = .next s)) ∧
    (GoesTo (exec (.hold v) s) fun u => u.m.hold = v ∧
      ((∀ k, k < 8 → v.getLsbD k = true → s.m.hold.getLsbD k = true) → u = { s with m := { s.m with hold := v } }) ∧
      (p < 8 → v.getLsbD p = true → s.m.hold.getLsbD p = false →
        u.m.inrst.getLsbD p = true ∧ (∀ T ∈ u.teams, T.part ≠ p) ∧ (∀ L ∈ u.launches, L.part ≠ p) ∧
        ((∀ k, k < 8 → k ≠ p → v.getLsbD k = true → s.m.hold.getLsbD k = true) → u.part p = { partReset with bme := (s.part p).bme } ∧
          (∀ y ∈ u.tlb, y.1 / 2 ^ 32 ≠ p) ∧ (∀ y ∈ u.l2 ++ u.llc, y.line / 2 ^ 41 ≠ p)))) ∧
    (s.inrstReady p = true → GoesTo (exec (.inrstClear p) s) fun u => u.m.inrst.getLsbD p = false ∧ u.mem = s.mem ∧ u.teams = s.teams ∧
      Sparse.get 0 u.clock0 p = s.gt) ∧
    (GoesTo (exec .moduleResetAssert s) fun u => u.m.stopped = true ∧ u.mem = [] ∧ u.teams = [] ∧ u.m.stage = 0) ∧
    (GoesTo (exec .mainRailLoss s) fun u => u.m.stopped = true ∧ u.mem = [] ∧ u.teams = [] ∧ u.m.stage = 0) ∧
    (s.m.inReset = true → GoesTo (exec .moduleReset s) fun u =>
      u = { State.reset with agenda := s.agenda, upsets := s.upsets, fresh := s.fresh }) ∧
    (s.m.bringing = true →
      (s.m.stage < 3 → exec (.bringupStage true) s = .next { s with m := { s.m with stage := s.m.stage + 1 } }) ∧
      (s.m.stage = 3 → GoesTo (exec (.bringupStage true) s) fun u => u.m.stage = 4 ∧ u.mem = s.mem ∧ u.teams = s.teams ∧
        (vget u.m.pcie 0 .down = .up ∧ vget u.m.pcie 1 .down = .up) ∧
        (∀ l, l < 16 → (vget u.m.links l linkDefault).st = .training) ∧ ∀ k, k < 8 → Sparse.get 0 u.clock0 k = s.gt) ∧
      exec (.bringupStage false) s = .next { s with m := { s.m with stageFailed := true } })

/-- The mailbox (R403, R404): a posted command is answered, MBDB falls, and MBSTAT says how; before stage 4 each of GETTELEM, SETCAP, SETWARN and
GETAGEING is answered busy, while a code that names no command is answered 1 in every stage (log entry 24, the model's choice); caps and
warnings beyond the fused limits change nothing. A doubleword that the host writes to a register of a partition without a behaviour of its
own, or a word that it writes to either half of one, replaces the fields of the register, where each keeps to its range, and no other register
but the actions of residency handles, which are 0 while handles are off; no other partition's registers and no memory change (R385, R386,
R297). That a word leaves the other half as it was is log entry 34. -/
def Obligations.MailboxAndRegisters : Prop :=
  ∀ (s : State),
    let answered (u : State) (stat : Byte) : Prop := u.m.mbdb = false ∧ u.m.mbstat = stat ∧ u.mem = s.mem ∧ u.teams = s.teams
    let busy (ins : Instr) : Prop := s.m.stage < 4 → GoesTo (exec ins s) fun u => answered u 3#8 ∧ u.m.mbdata = s.m.mbdata
    (s.m.posted 1 = true → GoesTo (exec .getlimits s) fun u => answered u 0#8 ∧ u.m.mbWord 0 = Config.firmwareVersion ∧
      u.m.mbWord 4 = Config.fusedCeiling ∧ u.m.mbWord 8 = Config.fusedTrip ∧ u.m.mbWord 12 = Config.fusedVoltage ∧
      ∀ d, d < 8 → u.m.mbWord (16 + 4 * d) = Config.fusedDieCeiling d) ∧
    (s.m.posted 2 = true → busy .gettelem ∧ (4 ≤ s.m.stage → GoesTo (exec .gettelem s) fun u => answered u 0#8 ∧
      ∀ d, d < 8 → u.m.mbWord (16 + 16 * d) = BitVec.ofNat 32 (vget s.m.dies d dieDefault).mv ∧
        u.m.mbWord (20 + 16 * d) = BitVec.ofNat 32 (vget s.m.dies d dieDefault).share)) ∧
    (s.m.posted 3 = true → busy .setcap ∧ (4 ≤ s.m.stage →
      let ok := (s.m.mbWord 0).toNat ≤ Config.fusedCeiling.toNat ∧
        ∀ d, d < 8 → (s.m.mbWord (4 + 4 * d)).toNat ≤ (Config.fusedDieCeiling d).toNat
      (ok → GoesTo (exec .setcap s) fun u => answered u 0#8 ∧ u.m.moduleCap = s.m.mbWord 0 ∧
        ∀ d, d < 8 → (vget u.m.dies d dieDefault).cap = s.m.mbWord (4 + 4 * d)) ∧
      (¬ok → GoesTo (exec .setcap s) fun u => answered u 2#8 ∧ u.m.moduleCap = s.m.moduleCap ∧ u.m.dies = s.m.dies))) ∧
    (s.m.posted 4 = true → busy .setwarn ∧ (4 ≤ s.m.stage →
      ((s.m.mbWord 0).toNat < Config.fusedTrip.toNat → GoesTo (exec .setwarn s) fun u => answered u 0#8 ∧ u.m.warn = s.m.mbWord 0) ∧
      (Config.fusedTrip.toNat ≤ (s.m.mbWord 0).toNat → GoesTo (exec .setwarn s) fun u => answered u 2#8 ∧ u.m.warn = s.m.warn))) ∧
    (s.m.posted 5 = true → busy .getageing ∧ (4 ≤ s.m.stage →
      let core := (s.m.mbWord 0).toNat
      (core < Config.cores → GoesTo (exec .getageing s) fun u => answered u 0#8 ∧ u.m.mbWord 0 = (s.m.age core).slack ∧
        u.m.mbWord 4 = BitVec.ofNat 32 (s.m.age core).time ∧ u.m.mbWord 12 = (s.m.age core).replans) ∧
      (Config.cores ≤ core → GoesTo (exec .getageing s) fun u => answered u 2#8))) ∧
    (s.m.mbdb = true → (s.m.mbcmd.toNat = 0 ∨ 5 < s.m.mbcmd.toNat) → GoesTo (exec .unknownCommand s) fun u => answered u 1#8) ∧
    (∀ (p off : Nat) (v : RegVal), s.serving p = true → off % 8 = 0 → off = 0x30 ∨ off = 0x1308 ∨ off = 0x1310 →
      GoesTo (exec (.registerWrite (1 + p) off v) s) fun u => (u.part p).fld off 0 32 = v.toNat % 2 ^ 32 ∧ u.mem = s.mem ∧
        (∀ k, k ≠ p → u.part k = s.part k) ∧ ∀ o, o % 8 = 0 → o ≠ off → (u.part p).fld o 0 64 = (s.part p).fld o 0 64) ∧
    (∀ (p off : Nat) (v : RegVal), s.serving p = true → off % 8 = 0 ∨ (off % 8 = 4 ∧ v.wide = false) → off < 0x10000 ∨ 0x20000 ≤ off →
      let o := off / 8 * 8
      let old := ((s.part p).reg o).toNat
      let new := if v.wide then v.toNat else if off % 8 = 4 then old % 2 ^ 32 + v.toNat % 2 ^ 32 * 2 ^ 32
        else v.toNat % 2 ^ 32 + old / 2 ^ 32 * 2 ^ 32
      let others (u : State) : Prop := u.mem = s.mem ∧ (∀ k, k ≠ p → u.part k = s.part k) ∧
        ∀ x, x ≠ o → (o ≠ 0x68 ∨ x < 0x80 ∨ 0x480 ≤ x) → (u.part p).reg x = (s.part p).reg x
      rwFields o ≠ [] → ¬(0xA00 ≤ o ∧ o < 0xF00 ∧ s.detInFlight p = true) →
        (regValid o new = true → GoesTo (exec (.registerWrite (1 + p) off v) s) fun u => others u ∧
          ∀ f ∈ rwFields o, (u.part p).fld o f.1 f.2 = bits new f.1 f.2) ∧
        (regValid o new = false → off % 8 = 0 → exec (.registerWrite (1 + p) off v) s = .next s)) ∧
    (∀ (p off : Nat) (v : RegVal), 1 ≤ p → p < 17 → s.serving ((p - 1) % 8) = false → exec (.registerWrite p off v) s = .next s)

/-! ## Reset, encoding, and what every step keeps -/

/-- The machine right after reset (R395, R403, R406): STAGE 0, nothing of the device works yet, no team, no launch, no clock has passed;
memory reads zero (log entry 5) and is in its canonical form; ownership, HOLD, XACC, MBCMD, MBDB and MBSTAT have their Reset values, every register of a
partition reads its Reset value (R385), and no port is up. -/
def Obligations.ResetState : Prop :=
  let s := State.reset
  s.m.stage = 0 ∧ s.m.stopped = false ∧ s.teams = [] ∧ s.saved = [] ∧ s.launches = [] ∧ s.gt = 0 ∧ (∀ k, s.byte k = 0#8) ∧
  Memory.wf s.mem = true ∧ s.poison = [] ∧
  s.m.diepart = 0x88888888#64 ∧ s.m.linkpart = 0x8888888888888888#64 ∧ s.m.cxlpart = 0x8888#64 ∧ s.m.lpdq = 0x40#64 ∧
  s.m.hold = 0#8 ∧ s.m.inrst = 0#8 ∧ s.m.xacc = 0x8040201008040201#64 ∧ s.m.mbcmd = 0#16 ∧ s.m.mbdb = false ∧ s.m.mbstat = 0#8 ∧
  (∀ p off, p < 8 → (s.part p).reg off = regReset off) ∧ (∀ x, vget s.m.pcie x .down = .down) ∧ (∀ x, vget s.m.cxlUp x false = false) ∧
  (∀ l, l < 16 → (vget s.m.links l linkDefault).st = .down)

/-- Words of the worked encodings of the spec, and what they decode to (R68, R69, R73, R75, R79, R97): SC, H, OPC, WT, the guard or the
cv, D, A, B, C, MOD, RU and CK from the highest bit down. -/
def Obligations.DecodeWords : Prop :=
  let l : Iss := { scope := .lane 7#3 false, wt := 0#8, ru := false }
  let t : Iss := { scope := .team 0#4, wt := 0#8, ru := false }
  decode 0x00801C1212000201#64 = .ok (.iadd l 9#8 9#8 (.imm 1#8) false false) ∧
  decode 0x04201C0202000812#64 = .ok (.icmp l 1#3 1#8 (.k 4#6) .lt false) ∧
  decode 0xC6E0060000000000#64 = .ok (.bar { t with scope := .team 3#4 }) ∧
  decode 0x4800000000060010#64 = .ok (.tret { t with scope := .group } .subst 3#8) ∧
  decode 0x0E001C0E04060851#64 = .ok (.ld l 7#8 2#8 (.imm 4#8) { size := .b32, space := .basin, far := false, swz := 3#3 }) ∧
  decode 0x0EA01C06100A0101#64 = .ok (.atom l 3#8 8#8 (.imm 0#8) 5#8 .add .device) ∧
  decode 0x0F601C00000000A0#64 = .ok (.fence l .device .acqrel) ∧
  decode 0x12201C0004000201#64 = .ok (.rstr l 2#4 (.imm 1#8)) ∧
  decode 0xD460000020000001#64 = .ok (.mmag t 0#2 16#8 0#4 (.imm 0#8) 0#4) ∧
  decode 0xD600000810188009#64 = .ok (.cpy t 4#8 8#8 12#8 (.imm 64#8) 1#3) ∧
  decode 0x17601C0C0A000E08#64 = .ok (.slcommit l 1#3 6#8 5#8 (.v 7#8))

/-- Decoding what is encoded gives the instruction back, for every instruction word (R68, R84, R97). Every word that is an instruction is the encoding of it, and of no other: no bit of a word is ignored (R84, R97, R98). -/
def Obligations.EncodeDecode : Prop :=
  (∀ (i : Instr), i.check = none → ∃ w, i.encode = some w ∧ decode w = .ok i) ∧
  (∀ (w : Dword) (i : Instr), decode w = .ok i → i.check = none ∧ i.encode = some w)

/-- Memory keeps its canonical form, which is the model's, in every step: addresses strictly rising, no byte listed that reads as an unlisted one. -/
def Obligations.MemoryCanonical : Prop :=
  ∀ (s t : State), Memory.wf s.mem = true → step s = .next t → Memory.wf t.mem = true

/-- A module whose clocks have stopped (R406, R407) does nothing but take its next input: reset, the loss of the rail and the read-out
act, a thermal trip of the same cycle takes part in the freeze, and every other input changes nothing. -/
def Obligations.StoppedModule : Prop :=
  ∀ (s : State), s.m.stopped = true →
    (s.agenda = [] → step s = .next s) ∧
    (∀ t i rest, s.agenda = (t, i) :: rest →
      (i.whileStopped = true → step s = exec i { s with agenda := rest }) ∧
      (i = .thermalTrip → s.m.frozen = true → t ≤ s.gt → step s = exec .thermalTrip { s with agenda := rest }) ∧
      (i.whileStopped = false → i ≠ .thermalTrip → step s = .next { s with agenda := rest }))

/-- The words that sub-cores issue in bring-up are none: before stage 4 a step takes an input, works on bring-up, or lets time pass, and
no team comes into being (R403, R406). -/
def Obligations.BringupHasNoTeams : Prop :=
  ∀ (s t : State), s.m.stage < 4 → s.teams = [] → step s = .next t → t.teams = []
end

