-- ==== Sys2Proof/Laws/Issue.lean ====
section
/-! SUPPORT. What the issue stage hands on: every ready set of a seat is one that its group has, at the PC of its threads. -/

namespace Sys2Proof.Machine

open Sys2Proof

/-- A fold that keeps what it has or takes the next ends with one of those that it is given. -/
theorem foldBest_mem {α : Type} (step : Option α → α → Option α) (hs : ∀ a x, step a x = a ∨ step a x = some x) (l : List α)
    (a : Option α) {y : α} (h : l.foldl step a = some y) : a = some y ∨ y ∈ l := by
  induction l generalizing a with
  | nil => exact .inl h
  | cons z l ih =>
    rcases ih _ h with h | h
    · rcases hs a z with e | e <;> rw [e] at h
      · exact .inl h
      · cases h; exact .inr (by simp)
    · exact .inr (by simp [h])

/-- A sub-core's choice is one of its offers. -/
theorem State.choice_mem {s : State} {core sub : Nat} {x : Choice} (h : s.choice core sub = some x) : x ∈ s.offersOf core sub := by
  unfold State.choice at h
  rcases foldBest_mem _ (by intro a y; grind) _ _ h with h | h
  · cases h
  · exact h

/-- An offer is of an active group on the sub-core: the single execution of its rendezvous, or what the grouping stage has ready. -/
theorem State.offer_cases {s : State} {core sub : Nat} {x : Choice} (h : x ∈ s.offersOf core sub) :
    x.seat ∈ s.seats core sub ∧ x.seat.G.active = true ∧ x.seat.out = false ∧
      ((∃ d, x = .due x.seat d ∧ s.groupDue x.seat.T x.seat.g x.seat.G = some d ∧ s.mayRun d = true) ∨
        (x = .set x.seat (s.readySets x.seat.T x.seat.g x.seat.G) ∧ s.readySets x.seat.T x.seat.g x.seat.G ≠ [] ∧
          s.groupDue x.seat.T x.seat.g x.seat.G = none)) := by
  obtain ⟨y, hy, he⟩ := List.mem_filterMap.1 h
  obtain ⟨hm, hp⟩ := List.mem_filter.1 hy
  simp only [Bool.and_eq_true, Bool.not_eq_true'] at hp
  split at he
  · rename_i d hd
    split at he
    · rename_i hr
      cases he
      exact ⟨hm, hp.1, hp.2, .inl ⟨d, rfl, hd, hr⟩⟩
    · cases he
  · rename_i hd
    split at he
    · cases he
    · rename_i hne
      cases he
      exact ⟨hm, hp.1, hp.2, .inr ⟨rfl, hne, hd⟩⟩

/-- Putting items in order adds none. -/
theorem byKey_mem {α : Type} {key : α → List Nat} {x : α} {l : List α} (h : x ∈ byKey key l) : x ∈ l := by
  have put (p : α → Bool) (l : List α) (y z : α) (h : z ∈ l.takeWhile p ++ y :: l.dropWhile p) : z = y ∨ z ∈ l := by
    rcases List.mem_append.1 h with h | h
    · exact .inr ((List.takeWhile_sublist _).subset h)
    · rcases List.mem_cons.1 h with h | h
      · exact .inl h
      · exact .inr ((List.dropWhile_sublist _).subset h)
  have fold (l a : List α) (h : x ∈ l.foldl (fun ys x => ys.takeWhile (fun y => decide (key y ≤ key x)) ++
      x :: ys.dropWhile fun y => decide (key y ≤ key x)) a) : x ∈ a ∨ x ∈ l := by
    induction l generalizing a with
    | nil => exact .inl h
    | cons y l ih =>
      rcases ih _ h with h | h
      · rcases put _ a y x h with h | h
        · exact .inr (by simp [h])
        · exact .inl h
      · exact .inr (by simp [h])
  rcases fold l [] h with h | h
  · cases h
  · exact h

/-- What the machine may issue next is the choice of a sub-core that has an issue cycle left. -/
theorem State.issues_mem {s : State} {x : Choice} (h : x ∈ s.issues) :
    ∃ core sub, s.slotFree core sub = true ∧ s.choice core sub = some x := by
  obtain ⟨n, -, h⟩ := List.mem_filterMap.1 (byKey_mem h)
  split at h
  · rename_i hf; exact ⟨_, _, hf, h⟩
  · cases h

/-- What acts next is one of the turns of the cycle. -/
theorem State.nextTurn_mem {s : State} {x : Turn} (h : s.nextTurn = some x) : x ∈ s.turns := by
  have fold : ∀ (l : List Turn) (a : Option (Strike × Turn)) (y : Strike × Turn),
      l.foldl (fun (best : Option (Strike × Turn)) x =>
        match s.strikeOf x with
        | none => best
        | some k =>
          if k.team.struck = s.gt + 1 then best
          else match best with
            | some (k', _) => if k.before k' then some (k, x) else best
            | none => some (k, x)) a = some y → a = some y ∨ y.2 ∈ l := by
    intro l
    induction l with
    | nil => intro a y h; exact .inl h
    | cons z l ih =>
      intro a y h
      rcases ih _ _ h with h | h
      · revert h
        dsimp only
        repeat' split
        all_goals intro h
        all_goals first
          | exact .inl h
          | (cases h; exact .inr (by simp))
      · exact .inr (by simp [h])
  unfold State.nextTurn at h
  rcases Option.or_eq_some_iff.1 h with h | ⟨-, h⟩
  · exact List.mem_of_find?_eq_some h
  · obtain ⟨y, hy, rfl⟩ := Option.map_eq_some_iff.1 h
    rcases fold _ _ _ hy with h | h
    · cases h
    · exact h

/-- A turn is an upset, an event that is due, a rendezvous that cannot complete any more, a single execution, or what a sub-core
issues. -/
theorem State.mem_turns {s : State} {x : Turn} (h : x ∈ s.turns) :
    (∃ u, x = .upset u) ∨ (∃ i, x = .event i ∧ i ∈ s.dueEvents ∧ s.changedBy i = true) ∨ (∃ r, x = .mismatch r) ∨
      (∃ T d, x = .wide T d ∧ (T, d) ∈ s.wides) ∨ ∃ y, x = .issue y ∧ y ∈ s.issues := by
  simp only [State.turns, List.mem_append, List.mem_map, List.partition_eq_filter_filter, Prod.exists] at h
  rcases h with ((h | h) | h) | h
  · grind
  · simp only [List.mem_append, List.mem_map, List.mem_filter, Prod.exists] at h
    grind
  · replace h := byKey_mem h
    simp only [List.mem_append, List.mem_map, List.mem_filter, Prod.exists] at h
    rcases h with ⟨((⟨a, ⟨h, h'⟩, rfl⟩ | ⟨a, -, rfl⟩) | ⟨a, b, ⟨⟨h, -⟩, -⟩, rfl⟩) | ⟨a, ⟨h, -⟩, rfl⟩, -⟩
    · exact .inr (.inl ⟨a, rfl, h, h'⟩)
    · exact .inr (.inr (.inl ⟨a, rfl⟩))
    · exact .inr (.inr (.inr (.inl ⟨a, b, rfl, h⟩)))
    · exact .inr (.inr (.inr (.inr ⟨a, rfl, h⟩)))
  · simp only [List.mem_filter] at h
    grind

/-- A ready set is the set at its PC: threads that stand there and that the grouping stage considers (R122). -/
theorem State.mem_readySets {s : State} {T : Team} {g : Nat} {G : Group} {r : Machine.Ready} (h : r ∈ s.readySets T g G) :
    s.quiet T g G = false ∧ ∃ pc, s.setAt T g G pc (G.considered.filter fun l => (G.thread l).pc == pc) = some r := by
  unfold State.readySets at h
  split at h
  · cases h
  · rename_i hq
    obtain ⟨p, -, hp⟩ := List.mem_filterMap.1 h
    exact ⟨by simpa using hq, _, hp⟩

/-- The PC and the lanes of the set at a PC are the ones it was asked for. -/
theorem State.setAt_pc {s : State} {T : Team} {g : Nat} {G : Group} {pc : Word} {lanes : List Nat} {r : Machine.Ready}
    (h : s.setAt T g G pc lanes = some r) : r.pc = pc ∧ r.lanes = lanes := by
  unfold State.setAt at h
  grind

/-- What the grouping stage picks is one of the sets it was given. -/
theorem pick_mem {G : Group} {rs : List Machine.Ready} {r : Machine.Ready} (h : pick G rs = some r) : r ∈ rs := by
  have low : ∀ x, (match G.yielded with
      | some p => (rs.find? (·.pc != p)).or rs.head?
      | none => rs.head?) = some x → x ∈ rs := by
    intro x hx
    split at hx
    · rcases Option.or_eq_some_iff.1 hx with h | h
      · exact List.mem_of_find?_eq_some h
      · exact List.mem_of_head? h.2
    · exact List.mem_of_head? hx
  unfold pick at h
  dsimp only at h
  split at h
  · rcases Option.or_eq_some_iff.1 h with h | h
    · exact List.mem_of_find?_eq_some h
    · exact low _ h.2
  · exact low _ h

end Sys2Proof.Machine
end

