-- ==== Sys2Proof/Laws/Sparse.lean ====
section
/-! SUPPORT. Reading a sparse table after a write, and the canonical form that every operation on one keeps. -/

namespace Sys2Proof.Machine.Sparse

variable {α : Type}

/-! ## The canonical form -/

theorem above_mono [DecidableEq α] {dflt : α} {m : List (Nat × α)} {a b : Nat} (h : above dflt (some b) m = true)
    (hab : a ≤ b) : above dflt (some a) m = true := by
  cases m with
  | nil => rfl
  | cons e rest =>
    simp only [above, Bool.and_eq_true, decide_eq_true_eq] at h ⊢
    exact ⟨⟨by omega, h.1.2⟩, h.2⟩

theorem above_none [DecidableEq α] {dflt : α} {m : List (Nat × α)} {lo : Option Nat} (h : above dflt lo m = true) :
    above dflt none m = true := by
  cases m with
  | nil => rfl
  | cons e rest =>
    simp only [above, Bool.and_eq_true, decide_eq_true_eq] at h ⊢
    exact ⟨⟨trivial, h.1.2⟩, h.2⟩

theorem above_filter [DecidableEq α] {dflt : α} (p : Nat × α → Bool) {m : List (Nat × α)} :
    ∀ {lo : Option Nat}, above dflt lo m = true → above dflt lo (m.filter p) = true := by
  induction m with
  | nil => intro lo _; cases lo <;> rfl
  | cons e rest ih =>
    intro lo h
    simp only [above, Bool.and_eq_true, decide_eq_true_eq] at h
    obtain ⟨⟨hlo, hne⟩, hrest⟩ := h
    by_cases hp : p e
    · simp only [List.filter_cons_of_pos hp, above, Bool.and_eq_true, decide_eq_true_eq]
      exact ⟨⟨hlo, hne⟩, ih hrest⟩
    · simp only [List.filter_cons_of_neg hp]
      cases lo with
      | none => exact above_none (ih hrest)
      | some b =>
        simp only [decide_eq_true_eq] at hlo
        exact above_mono (ih hrest) (by omega)

theorem above_erase [DecidableEq α] {dflt : α} {i : Nat} {m : List (Nat × α)} :
    ∀ {lo : Option Nat}, above dflt lo m = true → above dflt lo (erase m i) = true := by
  induction m with
  | nil => intro lo h; simpa [erase] using h
  | cons e rest ih =>
    intro lo h
    simp only [above, Bool.and_eq_true, decide_eq_true_eq] at h
    obtain ⟨⟨hlo, hne⟩, hrest⟩ := h
    by_cases hi : i = e.1
    · simp only [erase, hi, if_true]
      rw [← hi]
      cases lo with
      | none => exact above_none (ih hrest)
      | some b =>
        simp only [decide_eq_true_eq] at hlo
        exact above_mono (ih hrest) (by omega)
    · simp only [erase, hi, if_false, above, Bool.and_eq_true, decide_eq_true_eq]
      exact ⟨⟨hlo, hne⟩, ih hrest⟩

theorem above_insert [DecidableEq α] {dflt x : α} (hx : x ≠ dflt) {i : Nat} {m : List (Nat × α)} :
    ∀ {lo : Option Nat}, (∀ b, lo = some b → b < i) → above dflt lo m = true → above dflt lo (insert m i x) = true := by
  induction m with
  | nil =>
    intro lo hlo _
    cases lo with
    | none => simp [insert, above, hx]
    | some b => simp [insert, above, hx, hlo b rfl]
  | cons e rest ih =>
    intro lo hlo h
    simp only [above, Bool.and_eq_true, decide_eq_true_eq] at h
    obtain ⟨⟨hel, hne⟩, hrest⟩ := h
    rcases Nat.lt_trichotomy i e.1 with h1 | h1 | h1
    · have hi : insert (e :: rest) i x = (i, x) :: e :: rest := by simp [insert, h1]
      rw [hi]
      cases lo with
      | none => simp [above, hx, hne, hrest, h1]
      | some b => simp [above, hx, hne, hrest, h1, hlo b rfl]
    · have hi : insert (e :: rest) i x = (i, x) :: rest := by simp [insert, h1]
      rw [hi]
      cases lo with
      | none => simp [above, hx, h1, hrest]
      | some b => simp [above, hx, hrest, h1, h1 ▸ hlo b rfl]
    · have hi : insert (e :: rest) i x = e :: insert rest i x := by
        have : ¬ i < e.1 := by omega
        have : i ≠ e.1 := by omega
        simp [insert, *]
      rw [hi]
      simp only [above, Bool.and_eq_true, decide_eq_true_eq]
      exact ⟨⟨hel, hne⟩, ih (fun b hb => by cases hb; omega) hrest⟩

/-- A write keeps the canonical form. -/
theorem set_wf [DecidableEq α] {dflt : α} {m : List (Nat × α)} (h : wf dflt m = true) (i : Nat) (x : α) :
    wf dflt (set dflt m i x) = true := by
  unfold set
  split
  · exact above_erase h
  · exact above_insert ‹_› (fun b hb => by cases hb) h

/-- Entries taken out keep the canonical form. -/
theorem filter_wf [DecidableEq α] {dflt : α} {m : List (Nat × α)} (h : wf dflt m = true) (p : Nat × α → Bool) :
    wf dflt (m.filter p) = true := above_filter p h

@[simp] theorem wf_nil [DecidableEq α] (dflt : α) : wf dflt [] = true := rfl

/-! ## Reading after a write -/

@[simp] theorem get_nil (dflt : α) (i : Nat) : get dflt [] i = dflt := rfl

theorem get_insert_eq (dflt : α) (m : List (Nat × α)) (i : Nat) (x : α) : get dflt (insert m i x) i = x := by
  induction m with
  | nil => simp [insert, get]
  | cons e rest ih =>
    unfold insert
    split
    · simp [get]
    · split
      · simp [get]
      · rename_i h; simp [get, h, ih]

theorem get_insert_ne (dflt : α) (m : List (Nat × α)) {i j : Nat} (x : α) (h : j ≠ i) :
    get dflt (insert m i x) j = get dflt m j := by
  induction m with
  | nil => simp [insert, get, h]
  | cons e rest ih =>
    unfold insert
    split
    · simp [get, h]
    · split
      · rename_i he; simp [get, h, ← he]
      · simp only [get, ih]

theorem get_erase_ne (dflt : α) (m : List (Nat × α)) {i j : Nat} (h : j ≠ i) : get dflt (erase m i) j = get dflt m j := by
  induction m with
  | nil => rfl
  | cons e rest ih =>
    unfold erase
    split
    · rename_i he; simp [get, ← he, h, ih]
    · simp only [get, ih]

/-- A key below every listed one reads as the default. -/
theorem get_above [DecidableEq α] {dflt : α} {m : List (Nat × α)} :
    ∀ {b : Nat}, above dflt (some b) m = true → ∀ i, i ≤ b → get dflt m i = dflt := by
  induction m with
  | nil => intro _ _ i _; rfl
  | cons e rest ih =>
    intro b h i hi
    simp only [above, Bool.and_eq_true, decide_eq_true_eq] at h
    have hne : i ≠ e.1 := by omega
    simp only [get, hne, if_false]
    exact ih h.2 i (by omega)

theorem get_erase_eq (dflt : α) (m : List (Nat × α)) (i : Nat) : get dflt (erase m i) i = dflt := by
  induction m with
  | nil => rfl
  | cons e rest ih =>
    unfold erase
    split
    · exact ih
    · rename_i he; simp only [get, he, if_false]; exact ih

/-- The key that is written reads as the value written. -/
theorem get_set_eq [DecidableEq α] (dflt : α) (m : List (Nat × α)) (i : Nat) (x : α) :
    get dflt (set dflt m i x) i = x := by
  unfold set
  split
  · rename_i hx; rw [get_erase_eq, hx]
  · exact get_insert_eq dflt m i x

/-- Every other key reads as before. -/
theorem get_set_ne [DecidableEq α] {dflt : α} (m : List (Nat × α)) {i j : Nat} (x : α) (h : j ≠ i) :
    get dflt (set dflt m i x) j = get dflt m j := by
  unfold set
  split
  · exact get_erase_ne dflt m h
  · exact get_insert_ne dflt m x h

end Sys2Proof.Machine.Sparse
end

