-- ==== Sys2Proof/Laws/State.lean ====
section
/-! SUPPORT. What each primitive update of the state leaves alone: one lemma for each field and update, true by definition. -/

namespace Sys2Proof.Machine

open Sys2Proof

/-! ## modTeam writes `teams` only -/

@[simp] theorem State.modTeam_gt (s : State) (t : Nat) (f : Team → Team) : (s.modTeam t f).gt = s.gt := rfl
@[simp] theorem State.modTeam_fresh (s : State) (t : Nat) (f : Team → Team) : (s.modTeam t f).fresh = s.fresh := rfl
@[simp] theorem State.modTeam_agenda (s : State) (t : Nat) (f : Team → Team) : (s.modTeam t f).agenda = s.agenda := rfl
@[simp] theorem State.modTeam_upsets (s : State) (t : Nat) (f : Team → Team) : (s.modTeam t f).upsets = s.upsets := rfl
@[simp] theorem State.modTeam_cur (s : State) (t : Nat) (f : Team → Team) : (s.modTeam t f).cur = s.cur := rfl
@[simp] theorem State.modTeam_issued (s : State) (t : Nat) (f : Team → Team) : (s.modTeam t f).issued = s.issued := rfl
@[simp] theorem State.modTeam_nextId (s : State) (t : Nat) (f : Team → Team) : (s.modTeam t f).nextId = s.nextId := rfl
@[simp] theorem State.modTeam_mem (s : State) (t : Nat) (f : Team → Team) : (s.modTeam t f).mem = s.mem := rfl
@[simp] theorem State.modTeam_poison (s : State) (t : Nat) (f : Team → Team) : (s.modTeam t f).poison = s.poison := rfl
@[simp] theorem State.modTeam_kiln (s : State) (t : Nat) (f : Team → Team) : (s.modTeam t f).kiln = s.kiln := rfl
@[simp] theorem State.modTeam_entries (s : State) (t : Nat) (f : Team → Team) : (s.modTeam t f).entries = s.entries := rfl
@[simp] theorem State.modTeam_gens (s : State) (t : Nat) (f : Team → Team) : (s.modTeam t f).gens = s.gens := rfl
@[simp] theorem State.modTeam_saved (s : State) (t : Nat) (f : Team → Team) : (s.modTeam t f).saved = s.saved := rfl
@[simp] theorem State.modTeam_mx (s : State) (t : Nat) (f : Team → Team) : (s.modTeam t f).mx = s.mx := rfl
@[simp] theorem State.modTeam_flights (s : State) (t : Nat) (f : Team → Team) : (s.modTeam t f).flights = s.flights := rfl
@[simp] theorem State.modTeam_cmds (s : State) (t : Nat) (f : Team → Team) : (s.modTeam t f).cmds = s.cmds := rfl
@[simp] theorem State.modTeam_l1 (s : State) (t : Nat) (f : Team → Team) : (s.modTeam t f).l1 = s.l1 := rfl
@[simp] theorem State.modTeam_icache (s : State) (t : Nat) (f : Team → Team) : (s.modTeam t f).icache = s.icache := rfl
@[simp] theorem State.modTeam_loops (s : State) (t : Nat) (f : Team → Team) : (s.modTeam t f).loops = s.loops := rfl
@[simp] theorem State.modTeam_lend (s : State) (t : Nat) (f : Team → Team) : (s.modTeam t f).lend = s.lend := rfl
@[simp] theorem State.modTeam_elend (s : State) (t : Nat) (f : Team → Team) : (s.modTeam t f).elend = s.elend := rfl
@[simp] theorem State.modTeam_launches (s : State) (t : Nat) (f : Team → Team) : (s.modTeam t f).launches = s.launches := rfl
@[simp] theorem State.modTeam_pending (s : State) (t : Nat) (f : Team → Team) : (s.modTeam t f).pending = s.pending := rfl
@[simp] theorem State.modTeam_packers (s : State) (t : Nat) (f : Team → Team) : (s.modTeam t f).packers = s.packers := rfl
@[simp] theorem State.modTeam_owed (s : State) (t : Nat) (f : Team → Team) : (s.modTeam t f).owed = s.owed := rfl
@[simp] theorem State.modTeam_lbinv (s : State) (t : Nat) (f : Team → Team) : (s.modTeam t f).lbinv = s.lbinv := rfl
@[simp] theorem State.modTeam_pwrtok (s : State) (t : Nat) (f : Team → Team) : (s.modTeam t f).pwrtok = s.pwrtok := rfl
@[simp] theorem State.modTeam_tokens (s : State) (t : Nat) (f : Team → Team) : (s.modTeam t f).tokens = s.tokens := rfl
@[simp] theorem State.modTeam_clock0 (s : State) (t : Nat) (f : Team → Team) : (s.modTeam t f).clock0 = s.clock0 := rfl
@[simp] theorem State.modTeam_parts (s : State) (t : Nat) (f : Team → Team) : (s.modTeam t f).parts = s.parts := rfl
@[simp] theorem State.modTeam_outbox (s : State) (t : Nat) (f : Team → Team) : (s.modTeam t f).outbox = s.outbox := rfl
@[simp] theorem State.modTeam_replies (s : State) (t : Nat) (f : Team → Team) : (s.modTeam t f).replies = s.replies := rfl
@[simp] theorem State.modTeam_linkOut (s : State) (t : Nat) (f : Team → Team) : (s.modTeam t f).linkOut = s.linkOut := rfl
@[simp] theorem State.modTeam_wrote (s : State) (t : Nat) (f : Team → Team) : (s.modTeam t f).wrote = s.wrote := rfl
@[simp] theorem State.modTeam_tlb (s : State) (t : Nat) (f : Team → Team) : (s.modTeam t f).tlb = s.tlb := rfl
@[simp] theorem State.modTeam_prompt (s : State) (t : Nat) (f : Team → Team) : (s.modTeam t f).prompt = s.prompt := rfl
@[simp] theorem State.modTeam_gone (s : State) (t : Nat) (f : Team → Team) : (s.modTeam t f).gone = s.gone := rfl
@[simp] theorem State.modTeam_l2 (s : State) (t : Nat) (f : Team → Team) : (s.modTeam t f).l2 = s.l2 := rfl
@[simp] theorem State.modTeam_llc (s : State) (t : Nat) (f : Team → Team) : (s.modTeam t f).llc = s.llc := rfl
@[simp] theorem State.modTeam_m (s : State) (t : Nat) (f : Team → Team) : (s.modTeam t f).m = s.m := rfl

/-! ## modGroup writes `teams` only -/

@[simp] theorem State.modGroup_gt (s : State) (t g : Nat) (f : Group → Group) : (s.modGroup t g f).gt = s.gt := rfl
@[simp] theorem State.modGroup_fresh (s : State) (t g : Nat) (f : Group → Group) : (s.modGroup t g f).fresh = s.fresh := rfl
@[simp] theorem State.modGroup_agenda (s : State) (t g : Nat) (f : Group → Group) : (s.modGroup t g f).agenda = s.agenda := rfl
@[simp] theorem State.modGroup_upsets (s : State) (t g : Nat) (f : Group → Group) : (s.modGroup t g f).upsets = s.upsets := rfl
@[simp] theorem State.modGroup_cur (s : State) (t g : Nat) (f : Group → Group) : (s.modGroup t g f).cur = s.cur := rfl
@[simp] theorem State.modGroup_issued (s : State) (t g : Nat) (f : Group → Group) : (s.modGroup t g f).issued = s.issued := rfl
@[simp] theorem State.modGroup_nextId (s : State) (t g : Nat) (f : Group → Group) : (s.modGroup t g f).nextId = s.nextId := rfl
@[simp] theorem State.modGroup_mem (s : State) (t g : Nat) (f : Group → Group) : (s.modGroup t g f).mem = s.mem := rfl
@[simp] theorem State.modGroup_poison (s : State) (t g : Nat) (f : Group → Group) : (s.modGroup t g f).poison = s.poison := rfl
@[simp] theorem State.modGroup_kiln (s : State) (t g : Nat) (f : Group → Group) : (s.modGroup t g f).kiln = s.kiln := rfl
@[simp] theorem State.modGroup_entries (s : State) (t g : Nat) (f : Group → Group) : (s.modGroup t g f).entries = s.entries := rfl
@[simp] theorem State.modGroup_gens (s : State) (t g : Nat) (f : Group → Group) : (s.modGroup t g f).gens = s.gens := rfl
@[simp] theorem State.modGroup_saved (s : State) (t g : Nat) (f : Group → Group) : (s.modGroup t g f).saved = s.saved := rfl
@[simp] theorem State.modGroup_mx (s : State) (t g : Nat) (f : Group → Group) : (s.modGroup t g f).mx = s.mx := rfl
@[simp] theorem State.modGroup_flights (s : State) (t g : Nat) (f : Group → Group) : (s.modGroup t g f).flights = s.flights := rfl
@[simp] theorem State.modGroup_cmds (s : State) (t g : Nat) (f : Group → Group) : (s.modGroup t g f).cmds = s.cmds := rfl
@[simp] theorem State.modGroup_l1 (s : State) (t g : Nat) (f : Group → Group) : (s.modGroup t g f).l1 = s.l1 := rfl
@[simp] theorem State.modGroup_icache (s : State) (t g : Nat) (f : Group → Group) : (s.modGroup t g f).icache = s.icache := rfl
@[simp] theorem State.modGroup_loops (s : State) (t g : Nat) (f : Group → Group) : (s.modGroup t g f).loops = s.loops := rfl
@[simp] theorem State.modGroup_lend (s : State) (t g : Nat) (f : Group → Group) : (s.modGroup t g f).lend = s.lend := rfl
@[simp] theorem State.modGroup_elend (s : State) (t g : Nat) (f : Group → Group) : (s.modGroup t g f).elend = s.elend := rfl
@[simp] theorem State.modGroup_launches (s : State) (t g : Nat) (f : Group → Group) : (s.modGroup t g f).launches = s.launches := rfl
@[simp] theorem State.modGroup_pending (s : State) (t g : Nat) (f : Group → Group) : (s.modGroup t g f).pending = s.pending := rfl
@[simp] theorem State.modGroup_packers (s : State) (t g : Nat) (f : Group → Group) : (s.modGroup t g f).packers = s.packers := rfl
@[simp] theorem State.modGroup_owed (s : State) (t g : Nat) (f : Group → Group) : (s.modGroup t g f).owed = s.owed := rfl
@[simp] theorem State.modGroup_lbinv (s : State) (t g : Nat) (f : Group → Group) : (s.modGroup t g f).lbinv = s.lbinv := rfl
@[simp] theorem State.modGroup_pwrtok (s : State) (t g : Nat) (f : Group → Group) : (s.modGroup t g f).pwrtok = s.pwrtok := rfl
@[simp] theorem State.modGroup_tokens (s : State) (t g : Nat) (f : Group → Group) : (s.modGroup t g f).tokens = s.tokens := rfl
@[simp] theorem State.modGroup_clock0 (s : State) (t g : Nat) (f : Group → Group) : (s.modGroup t g f).clock0 = s.clock0 := rfl
@[simp] theorem State.modGroup_parts (s : State) (t g : Nat) (f : Group → Group) : (s.modGroup t g f).parts = s.parts := rfl
@[simp] theorem State.modGroup_outbox (s : State) (t g : Nat) (f : Group → Group) : (s.modGroup t g f).outbox = s.outbox := rfl
@[simp] theorem State.modGroup_replies (s : State) (t g : Nat) (f : Group → Group) : (s.modGroup t g f).replies = s.replies := rfl
@[simp] theorem State.modGroup_linkOut (s : State) (t g : Nat) (f : Group → Group) : (s.modGroup t g f).linkOut = s.linkOut := rfl
@[simp] theorem State.modGroup_wrote (s : State) (t g : Nat) (f : Group → Group) : (s.modGroup t g f).wrote = s.wrote := rfl
@[simp] theorem State.modGroup_tlb (s : State) (t g : Nat) (f : Group → Group) : (s.modGroup t g f).tlb = s.tlb := rfl
@[simp] theorem State.modGroup_prompt (s : State) (t g : Nat) (f : Group → Group) : (s.modGroup t g f).prompt = s.prompt := rfl
@[simp] theorem State.modGroup_gone (s : State) (t g : Nat) (f : Group → Group) : (s.modGroup t g f).gone = s.gone := rfl
@[simp] theorem State.modGroup_l2 (s : State) (t g : Nat) (f : Group → Group) : (s.modGroup t g f).l2 = s.l2 := rfl
@[simp] theorem State.modGroup_llc (s : State) (t g : Nat) (f : Group → Group) : (s.modGroup t g f).llc = s.llc := rfl
@[simp] theorem State.modGroup_m (s : State) (t g : Nat) (f : Group → Group) : (s.modGroup t g f).m = s.m := rfl

/-! ## modThread writes `teams` only -/

@[simp] theorem State.modThread_gt (s : State) (t g l : Nat) (f : Thread → Thread) : (s.modThread t g l f).gt = s.gt := rfl
@[simp] theorem State.modThread_fresh (s : State) (t g l : Nat) (f : Thread → Thread) : (s.modThread t g l f).fresh = s.fresh := rfl
@[simp] theorem State.modThread_agenda (s : State) (t g l : Nat) (f : Thread → Thread) : (s.modThread t g l f).agenda = s.agenda := rfl
@[simp] theorem State.modThread_upsets (s : State) (t g l : Nat) (f : Thread → Thread) : (s.modThread t g l f).upsets = s.upsets := rfl
@[simp] theorem State.modThread_cur (s : State) (t g l : Nat) (f : Thread → Thread) : (s.modThread t g l f).cur = s.cur := rfl
@[simp] theorem State.modThread_issued (s : State) (t g l : Nat) (f : Thread → Thread) : (s.modThread t g l f).issued = s.issued := rfl
@[simp] theorem State.modThread_nextId (s : State) (t g l : Nat) (f : Thread → Thread) : (s.modThread t g l f).nextId = s.nextId := rfl
@[simp] theorem State.modThread_mem (s : State) (t g l : Nat) (f : Thread → Thread) : (s.modThread t g l f).mem = s.mem := rfl
@[simp] theorem State.modThread_poison (s : State) (t g l : Nat) (f : Thread → Thread) : (s.modThread t g l f).poison = s.poison := rfl
@[simp] theorem State.modThread_kiln (s : State) (t g l : Nat) (f : Thread → Thread) : (s.modThread t g l f).kiln = s.kiln := rfl
@[simp] theorem State.modThread_entries (s : State) (t g l : Nat) (f : Thread → Thread) : (s.modThread t g l f).entries = s.entries := rfl
@[simp] theorem State.modThread_gens (s : State) (t g l : Nat) (f : Thread → Thread) : (s.modThread t g l f).gens = s.gens := rfl
@[simp] theorem State.modThread_saved (s : State) (t g l : Nat) (f : Thread → Thread) : (s.modThread t g l f).saved = s.saved := rfl
@[simp] theorem State.modThread_mx (s : State) (t g l : Nat) (f : Thread → Thread) : (s.modThread t g l f).mx = s.mx := rfl
@[simp] theorem State.modThread_flights (s : State) (t g l : Nat) (f : Thread → Thread) : (s.modThread t g l f).flights = s.flights := rfl
@[simp] theorem State.modThread_cmds (s : State) (t g l : Nat) (f : Thread → Thread) : (s.modThread t g l f).cmds = s.cmds := rfl
@[simp] theorem State.modThread_l1 (s : State) (t g l : Nat) (f : Thread → Thread) : (s.modThread t g l f).l1 = s.l1 := rfl
@[simp] theorem State.modThread_icache (s : State) (t g l : Nat) (f : Thread → Thread) : (s.modThread t g l f).icache = s.icache := rfl
@[simp] theorem State.modThread_loops (s : State) (t g l : Nat) (f : Thread → Thread) : (s.modThread t g l f).loops = s.loops := rfl
@[simp] theorem State.modThread_lend (s : State) (t g l : Nat) (f : Thread → Thread) : (s.modThread t g l f).lend = s.lend := rfl
@[simp] theorem State.modThread_elend (s : State) (t g l : Nat) (f : Thread → Thread) : (s.modThread t g l f).elend = s.elend := rfl
@[simp] theorem State.modThread_launches (s : State) (t g l : Nat) (f : Thread → Thread) : (s.modThread t g l f).launches = s.launches := rfl
@[simp] theorem State.modThread_pending (s : State) (t g l : Nat) (f : Thread → Thread) : (s.modThread t g l f).pending = s.pending := rfl
@[simp] theorem State.modThread_packers (s : State) (t g l : Nat) (f : Thread → Thread) : (s.modThread t g l f).packers = s.packers := rfl
@[simp] theorem State.modThread_owed (s : State) (t g l : Nat) (f : Thread → Thread) : (s.modThread t g l f).owed = s.owed := rfl
@[simp] theorem State.modThread_lbinv (s : State) (t g l : Nat) (f : Thread → Thread) : (s.modThread t g l f).lbinv = s.lbinv := rfl
@[simp] theorem State.modThread_pwrtok (s : State) (t g l : Nat) (f : Thread → Thread) : (s.modThread t g l f).pwrtok = s.pwrtok := rfl
@[simp] theorem State.modThread_tokens (s : State) (t g l : Nat) (f : Thread → Thread) : (s.modThread t g l f).tokens = s.tokens := rfl
@[simp] theorem State.modThread_clock0 (s : State) (t g l : Nat) (f : Thread → Thread) : (s.modThread t g l f).clock0 = s.clock0 := rfl
@[simp] theorem State.modThread_parts (s : State) (t g l : Nat) (f : Thread → Thread) : (s.modThread t g l f).parts = s.parts := rfl
@[simp] theorem State.modThread_outbox (s : State) (t g l : Nat) (f : Thread → Thread) : (s.modThread t g l f).outbox = s.outbox := rfl
@[simp] theorem State.modThread_replies (s : State) (t g l : Nat) (f : Thread → Thread) : (s.modThread t g l f).replies = s.replies := rfl
@[simp] theorem State.modThread_linkOut (s : State) (t g l : Nat) (f : Thread → Thread) : (s.modThread t g l f).linkOut = s.linkOut := rfl
@[simp] theorem State.modThread_wrote (s : State) (t g l : Nat) (f : Thread → Thread) : (s.modThread t g l f).wrote = s.wrote := rfl
@[simp] theorem State.modThread_tlb (s : State) (t g l : Nat) (f : Thread → Thread) : (s.modThread t g l f).tlb = s.tlb := rfl
@[simp] theorem State.modThread_prompt (s : State) (t g l : Nat) (f : Thread → Thread) : (s.modThread t g l f).prompt = s.prompt := rfl
@[simp] theorem State.modThread_gone (s : State) (t g l : Nat) (f : Thread → Thread) : (s.modThread t g l f).gone = s.gone := rfl
@[simp] theorem State.modThread_l2 (s : State) (t g l : Nat) (f : Thread → Thread) : (s.modThread t g l f).l2 = s.l2 := rfl
@[simp] theorem State.modThread_llc (s : State) (t g l : Nat) (f : Thread → Thread) : (s.modThread t g l f).llc = s.llc := rfl
@[simp] theorem State.modThread_m (s : State) (t g l : Nat) (f : Thread → Thread) : (s.modThread t g l f).m = s.m := rfl

/-! ## modLaunch writes `launches` only -/

@[simp] theorem State.modLaunch_gt (s : State) (p : Nat) (n : Word) (f : Launch → Launch) : (s.modLaunch p n f).gt = s.gt := rfl
@[simp] theorem State.modLaunch_fresh (s : State) (p : Nat) (n : Word) (f : Launch → Launch) : (s.modLaunch p n f).fresh = s.fresh := rfl
@[simp] theorem State.modLaunch_agenda (s : State) (p : Nat) (n : Word) (f : Launch → Launch) : (s.modLaunch p n f).agenda = s.agenda := rfl
@[simp] theorem State.modLaunch_upsets (s : State) (p : Nat) (n : Word) (f : Launch → Launch) : (s.modLaunch p n f).upsets = s.upsets := rfl
@[simp] theorem State.modLaunch_cur (s : State) (p : Nat) (n : Word) (f : Launch → Launch) : (s.modLaunch p n f).cur = s.cur := rfl
@[simp] theorem State.modLaunch_issued (s : State) (p : Nat) (n : Word) (f : Launch → Launch) : (s.modLaunch p n f).issued = s.issued := rfl
@[simp] theorem State.modLaunch_nextId (s : State) (p : Nat) (n : Word) (f : Launch → Launch) : (s.modLaunch p n f).nextId = s.nextId := rfl
@[simp] theorem State.modLaunch_mem (s : State) (p : Nat) (n : Word) (f : Launch → Launch) : (s.modLaunch p n f).mem = s.mem := rfl
@[simp] theorem State.modLaunch_poison (s : State) (p : Nat) (n : Word) (f : Launch → Launch) : (s.modLaunch p n f).poison = s.poison := rfl
@[simp] theorem State.modLaunch_kiln (s : State) (p : Nat) (n : Word) (f : Launch → Launch) : (s.modLaunch p n f).kiln = s.kiln := rfl
@[simp] theorem State.modLaunch_entries (s : State) (p : Nat) (n : Word) (f : Launch → Launch) : (s.modLaunch p n f).entries = s.entries := rfl
@[simp] theorem State.modLaunch_gens (s : State) (p : Nat) (n : Word) (f : Launch → Launch) : (s.modLaunch p n f).gens = s.gens := rfl
@[simp] theorem State.modLaunch_teams (s : State) (p : Nat) (n : Word) (f : Launch → Launch) : (s.modLaunch p n f).teams = s.teams := rfl
@[simp] theorem State.modLaunch_saved (s : State) (p : Nat) (n : Word) (f : Launch → Launch) : (s.modLaunch p n f).saved = s.saved := rfl
@[simp] theorem State.modLaunch_mx (s : State) (p : Nat) (n : Word) (f : Launch → Launch) : (s.modLaunch p n f).mx = s.mx := rfl
@[simp] theorem State.modLaunch_flights (s : State) (p : Nat) (n : Word) (f : Launch → Launch) : (s.modLaunch p n f).flights = s.flights := rfl
@[simp] theorem State.modLaunch_cmds (s : State) (p : Nat) (n : Word) (f : Launch → Launch) : (s.modLaunch p n f).cmds = s.cmds := rfl
@[simp] theorem State.modLaunch_l1 (s : State) (p : Nat) (n : Word) (f : Launch → Launch) : (s.modLaunch p n f).l1 = s.l1 := rfl
@[simp] theorem State.modLaunch_icache (s : State) (p : Nat) (n : Word) (f : Launch → Launch) : (s.modLaunch p n f).icache = s.icache := rfl
@[simp] theorem State.modLaunch_loops (s : State) (p : Nat) (n : Word) (f : Launch → Launch) : (s.modLaunch p n f).loops = s.loops := rfl
@[simp] theorem State.modLaunch_lend (s : State) (p : Nat) (n : Word) (f : Launch → Launch) : (s.modLaunch p n f).lend = s.lend := rfl
@[simp] theorem State.modLaunch_elend (s : State) (p : Nat) (n : Word) (f : Launch → Launch) : (s.modLaunch p n f).elend = s.elend := rfl
@[simp] theorem State.modLaunch_pending (s : State) (p : Nat) (n : Word) (f : Launch → Launch) : (s.modLaunch p n f).pending = s.pending := rfl
@[simp] theorem State.modLaunch_packers (s : State) (p : Nat) (n : Word) (f : Launch → Launch) : (s.modLaunch p n f).packers = s.packers := rfl
@[simp] theorem State.modLaunch_owed (s : State) (p : Nat) (n : Word) (f : Launch → Launch) : (s.modLaunch p n f).owed = s.owed := rfl
@[simp] theorem State.modLaunch_lbinv (s : State) (p : Nat) (n : Word) (f : Launch → Launch) : (s.modLaunch p n f).lbinv = s.lbinv := rfl
@[simp] theorem State.modLaunch_pwrtok (s : State) (p : Nat) (n : Word) (f : Launch → Launch) : (s.modLaunch p n f).pwrtok = s.pwrtok := rfl
@[simp] theorem State.modLaunch_tokens (s : State) (p : Nat) (n : Word) (f : Launch → Launch) : (s.modLaunch p n f).tokens = s.tokens := rfl
@[simp] theorem State.modLaunch_clock0 (s : State) (p : Nat) (n : Word) (f : Launch → Launch) : (s.modLaunch p n f).clock0 = s.clock0 := rfl
@[simp] theorem State.modLaunch_parts (s : State) (p : Nat) (n : Word) (f : Launch → Launch) : (s.modLaunch p n f).parts = s.parts := rfl
@[simp] theorem State.modLaunch_outbox (s : State) (p : Nat) (n : Word) (f : Launch → Launch) : (s.modLaunch p n f).outbox = s.outbox := rfl
@[simp] theorem State.modLaunch_replies (s : State) (p : Nat) (n : Word) (f : Launch → Launch) : (s.modLaunch p n f).replies = s.replies := rfl
@[simp] theorem State.modLaunch_linkOut (s : State) (p : Nat) (n : Word) (f : Launch → Launch) : (s.modLaunch p n f).linkOut = s.linkOut := rfl
@[simp] theorem State.modLaunch_wrote (s : State) (p : Nat) (n : Word) (f : Launch → Launch) : (s.modLaunch p n f).wrote = s.wrote := rfl
@[simp] theorem State.modLaunch_tlb (s : State) (p : Nat) (n : Word) (f : Launch → Launch) : (s.modLaunch p n f).tlb = s.tlb := rfl
@[simp] theorem State.modLaunch_prompt (s : State) (p : Nat) (n : Word) (f : Launch → Launch) : (s.modLaunch p n f).prompt = s.prompt := rfl
@[simp] theorem State.modLaunch_gone (s : State) (p : Nat) (n : Word) (f : Launch → Launch) : (s.modLaunch p n f).gone = s.gone := rfl
@[simp] theorem State.modLaunch_l2 (s : State) (p : Nat) (n : Word) (f : Launch → Launch) : (s.modLaunch p n f).l2 = s.l2 := rfl
@[simp] theorem State.modLaunch_llc (s : State) (p : Nat) (n : Word) (f : Launch → Launch) : (s.modLaunch p n f).llc = s.llc := rfl
@[simp] theorem State.modLaunch_m (s : State) (p : Nat) (n : Word) (f : Launch → Launch) : (s.modLaunch p n f).m = s.m := rfl

/-! ## modPart writes `parts` only -/

@[simp] theorem State.modPart_gt (s : State) (p : Nat) (f : Part → Part) : (s.modPart p f).gt = s.gt := rfl
@[simp] theorem State.modPart_fresh (s : State) (p : Nat) (f : Part → Part) : (s.modPart p f).fresh = s.fresh := rfl
@[simp] theorem State.modPart_agenda (s : State) (p : Nat) (f : Part → Part) : (s.modPart p f).agenda = s.agenda := rfl
@[simp] theorem State.modPart_upsets (s : State) (p : Nat) (f : Part → Part) : (s.modPart p f).upsets = s.upsets := rfl
@[simp] theorem State.modPart_cur (s : State) (p : Nat) (f : Part → Part) : (s.modPart p f).cur = s.cur := rfl
@[simp] theorem State.modPart_issued (s : State) (p : Nat) (f : Part → Part) : (s.modPart p f).issued = s.issued := rfl
@[simp] theorem State.modPart_nextId (s : State) (p : Nat) (f : Part → Part) : (s.modPart p f).nextId = s.nextId := rfl
@[simp] theorem State.modPart_mem (s : State) (p : Nat) (f : Part → Part) : (s.modPart p f).mem = s.mem := rfl
@[simp] theorem State.modPart_poison (s : State) (p : Nat) (f : Part → Part) : (s.modPart p f).poison = s.poison := rfl
@[simp] theorem State.modPart_kiln (s : State) (p : Nat) (f : Part → Part) : (s.modPart p f).kiln = s.kiln := rfl
@[simp] theorem State.modPart_entries (s : State) (p : Nat) (f : Part → Part) : (s.modPart p f).entries = s.entries := rfl
@[simp] theorem State.modPart_gens (s : State) (p : Nat) (f : Part → Part) : (s.modPart p f).gens = s.gens := rfl
@[simp] theorem State.modPart_teams (s : State) (p : Nat) (f : Part → Part) : (s.modPart p f).teams = s.teams := rfl
@[simp] theorem State.modPart_saved (s : State) (p : Nat) (f : Part → Part) : (s.modPart p f).saved = s.saved := rfl
@[simp] theorem State.modPart_mx (s : State) (p : Nat) (f : Part → Part) : (s.modPart p f).mx = s.mx := rfl
@[simp] theorem State.modPart_flights (s : State) (p : Nat) (f : Part → Part) : (s.modPart p f).flights = s.flights := rfl
@[simp] theorem State.modPart_cmds (s : State) (p : Nat) (f : Part → Part) : (s.modPart p f).cmds = s.cmds := rfl
@[simp] theorem State.modPart_l1 (s : State) (p : Nat) (f : Part → Part) : (s.modPart p f).l1 = s.l1 := rfl
@[simp] theorem State.modPart_icache (s : State) (p : Nat) (f : Part → Part) : (s.modPart p f).icache = s.icache := rfl
@[simp] theorem State.modPart_loops (s : State) (p : Nat) (f : Part → Part) : (s.modPart p f).loops = s.loops := rfl
@[simp] theorem State.modPart_lend (s : State) (p : Nat) (f : Part → Part) : (s.modPart p f).lend = s.lend := rfl
@[simp] theorem State.modPart_elend (s : State) (p : Nat) (f : Part → Part) : (s.modPart p f).elend = s.elend := rfl
@[simp] theorem State.modPart_launches (s : State) (p : Nat) (f : Part → Part) : (s.modPart p f).launches = s.launches := rfl
@[simp] theorem State.modPart_pending (s : State) (p : Nat) (f : Part → Part) : (s.modPart p f).pending = s.pending := rfl
@[simp] theorem State.modPart_packers (s : State) (p : Nat) (f : Part → Part) : (s.modPart p f).packers = s.packers := rfl
@[simp] theorem State.modPart_owed (s : State) (p : Nat) (f : Part → Part) : (s.modPart p f).owed = s.owed := rfl
@[simp] theorem State.modPart_lbinv (s : State) (p : Nat) (f : Part → Part) : (s.modPart p f).lbinv = s.lbinv := rfl
@[simp] theorem State.modPart_pwrtok (s : State) (p : Nat) (f : Part → Part) : (s.modPart p f).pwrtok = s.pwrtok := rfl
@[simp] theorem State.modPart_tokens (s : State) (p : Nat) (f : Part → Part) : (s.modPart p f).tokens = s.tokens := rfl
@[simp] theorem State.modPart_clock0 (s : State) (p : Nat) (f : Part → Part) : (s.modPart p f).clock0 = s.clock0 := rfl
@[simp] theorem State.modPart_outbox (s : State) (p : Nat) (f : Part → Part) : (s.modPart p f).outbox = s.outbox := rfl
@[simp] theorem State.modPart_replies (s : State) (p : Nat) (f : Part → Part) : (s.modPart p f).replies = s.replies := rfl
@[simp] theorem State.modPart_linkOut (s : State) (p : Nat) (f : Part → Part) : (s.modPart p f).linkOut = s.linkOut := rfl
@[simp] theorem State.modPart_wrote (s : State) (p : Nat) (f : Part → Part) : (s.modPart p f).wrote = s.wrote := rfl
@[simp] theorem State.modPart_tlb (s : State) (p : Nat) (f : Part → Part) : (s.modPart p f).tlb = s.tlb := rfl
@[simp] theorem State.modPart_prompt (s : State) (p : Nat) (f : Part → Part) : (s.modPart p f).prompt = s.prompt := rfl
@[simp] theorem State.modPart_gone (s : State) (p : Nat) (f : Part → Part) : (s.modPart p f).gone = s.gone := rfl
@[simp] theorem State.modPart_l2 (s : State) (p : Nat) (f : Part → Part) : (s.modPart p f).l2 = s.l2 := rfl
@[simp] theorem State.modPart_llc (s : State) (p : Nat) (f : Part → Part) : (s.modPart p f).llc = s.llc := rfl
@[simp] theorem State.modPart_m (s : State) (p : Nat) (f : Part → Part) : (s.modPart p f).m = s.m := rfl

/-! ## modModule writes `m` only -/

@[simp] theorem State.modModule_gt (s : State) (f : Module → Module) : (s.modModule f).gt = s.gt := rfl
@[simp] theorem State.modModule_fresh (s : State) (f : Module → Module) : (s.modModule f).fresh = s.fresh := rfl
@[simp] theorem State.modModule_agenda (s : State) (f : Module → Module) : (s.modModule f).agenda = s.agenda := rfl
@[simp] theorem State.modModule_upsets (s : State) (f : Module → Module) : (s.modModule f).upsets = s.upsets := rfl
@[simp] theorem State.modModule_cur (s : State) (f : Module → Module) : (s.modModule f).cur = s.cur := rfl
@[simp] theorem State.modModule_issued (s : State) (f : Module → Module) : (s.modModule f).issued = s.issued := rfl
@[simp] theorem State.modModule_nextId (s : State) (f : Module → Module) : (s.modModule f).nextId = s.nextId := rfl
@[simp] theorem State.modModule_mem (s : State) (f : Module → Module) : (s.modModule f).mem = s.mem := rfl
@[simp] theorem State.modModule_poison (s : State) (f : Module → Module) : (s.modModule f).poison = s.poison := rfl
@[simp] theorem State.modModule_kiln (s : State) (f : Module → Module) : (s.modModule f).kiln = s.kiln := rfl
@[simp] theorem State.modModule_entries (s : State) (f : Module → Module) : (s.modModule f).entries = s.entries := rfl
@[simp] theorem State.modModule_gens (s : State) (f : Module → Module) : (s.modModule f).gens = s.gens := rfl
@[simp] theorem State.modModule_teams (s : State) (f : Module → Module) : (s.modModule f).teams = s.teams := rfl
@[simp] theorem State.modModule_saved (s : State) (f : Module → Module) : (s.modModule f).saved = s.saved := rfl
@[simp] theorem State.modModule_mx (s : State) (f : Module → Module) : (s.modModule f).mx = s.mx := rfl
@[simp] theorem State.modModule_flights (s : State) (f : Module → Module) : (s.modModule f).flights = s.flights := rfl
@[simp] theorem State.modModule_cmds (s : State) (f : Module → Module) : (s.modModule f).cmds = s.cmds := rfl
@[simp] theorem State.modModule_l1 (s : State) (f : Module → Module) : (s.modModule f).l1 = s.l1 := rfl
@[simp] theorem State.modModule_icache (s : State) (f : Module → Module) : (s.modModule f).icache = s.icache := rfl
@[simp] theorem State.modModule_loops (s : State) (f : Module → Module) : (s.modModule f).loops = s.loops := rfl
@[simp] theorem State.modModule_lend (s : State) (f : Module → Module) : (s.modModule f).lend = s.lend := rfl
@[simp] theorem State.modModule_elend (s : State) (f : Module → Module) : (s.modModule f).elend = s.elend := rfl
@[simp] theorem State.modModule_launches (s : State) (f : Module → Module) : (s.modModule f).launches = s.launches := rfl
@[simp] theorem State.modModule_pending (s : State) (f : Module → Module) : (s.modModule f).pending = s.pending := rfl
@[simp] theorem State.modModule_packers (s : State) (f : Module → Module) : (s.modModule f).packers = s.packers := rfl
@[simp] theorem State.modModule_owed (s : State) (f : Module → Module) : (s.modModule f).owed = s.owed := rfl
@[simp] theorem State.modModule_lbinv (s : State) (f : Module → Module) : (s.modModule f).lbinv = s.lbinv := rfl
@[simp] theorem State.modModule_pwrtok (s : State) (f : Module → Module) : (s.modModule f).pwrtok = s.pwrtok := rfl
@[simp] theorem State.modModule_tokens (s : State) (f : Module → Module) : (s.modModule f).tokens = s.tokens := rfl
@[simp] theorem State.modModule_clock0 (s : State) (f : Module → Module) : (s.modModule f).clock0 = s.clock0 := rfl
@[simp] theorem State.modModule_parts (s : State) (f : Module → Module) : (s.modModule f).parts = s.parts := rfl
@[simp] theorem State.modModule_outbox (s : State) (f : Module → Module) : (s.modModule f).outbox = s.outbox := rfl
@[simp] theorem State.modModule_replies (s : State) (f : Module → Module) : (s.modModule f).replies = s.replies := rfl
@[simp] theorem State.modModule_linkOut (s : State) (f : Module → Module) : (s.modModule f).linkOut = s.linkOut := rfl
@[simp] theorem State.modModule_wrote (s : State) (f : Module → Module) : (s.modModule f).wrote = s.wrote := rfl
@[simp] theorem State.modModule_tlb (s : State) (f : Module → Module) : (s.modModule f).tlb = s.tlb := rfl
@[simp] theorem State.modModule_prompt (s : State) (f : Module → Module) : (s.modModule f).prompt = s.prompt := rfl
@[simp] theorem State.modModule_gone (s : State) (f : Module → Module) : (s.modModule f).gone = s.gone := rfl
@[simp] theorem State.modModule_l2 (s : State) (f : Module → Module) : (s.modModule f).l2 = s.l2 := rfl
@[simp] theorem State.modModule_llc (s : State) (f : Module → Module) : (s.modModule f).llc = s.llc := rfl

/-! ## setRow writes `kiln` only -/

@[simp] theorem State.setRow_gt (s : State) (k : Nat) (r : Row) : (s.setRow k r).gt = s.gt := rfl
@[simp] theorem State.setRow_fresh (s : State) (k : Nat) (r : Row) : (s.setRow k r).fresh = s.fresh := rfl
@[simp] theorem State.setRow_agenda (s : State) (k : Nat) (r : Row) : (s.setRow k r).agenda = s.agenda := rfl
@[simp] theorem State.setRow_upsets (s : State) (k : Nat) (r : Row) : (s.setRow k r).upsets = s.upsets := rfl
@[simp] theorem State.setRow_cur (s : State) (k : Nat) (r : Row) : (s.setRow k r).cur = s.cur := rfl
@[simp] theorem State.setRow_issued (s : State) (k : Nat) (r : Row) : (s.setRow k r).issued = s.issued := rfl
@[simp] theorem State.setRow_nextId (s : State) (k : Nat) (r : Row) : (s.setRow k r).nextId = s.nextId := rfl
@[simp] theorem State.setRow_mem (s : State) (k : Nat) (r : Row) : (s.setRow k r).mem = s.mem := rfl
@[simp] theorem State.setRow_poison (s : State) (k : Nat) (r : Row) : (s.setRow k r).poison = s.poison := rfl
@[simp] theorem State.setRow_entries (s : State) (k : Nat) (r : Row) : (s.setRow k r).entries = s.entries := rfl
@[simp] theorem State.setRow_gens (s : State) (k : Nat) (r : Row) : (s.setRow k r).gens = s.gens := rfl
@[simp] theorem State.setRow_teams (s : State) (k : Nat) (r : Row) : (s.setRow k r).teams = s.teams := rfl
@[simp] theorem State.setRow_saved (s : State) (k : Nat) (r : Row) : (s.setRow k r).saved = s.saved := rfl
@[simp] theorem State.setRow_mx (s : State) (k : Nat) (r : Row) : (s.setRow k r).mx = s.mx := rfl
@[simp] theorem State.setRow_flights (s : State) (k : Nat) (r : Row) : (s.setRow k r).flights = s.flights := rfl
@[simp] theorem State.setRow_cmds (s : State) (k : Nat) (r : Row) : (s.setRow k r).cmds = s.cmds := rfl
@[simp] theorem State.setRow_l1 (s : State) (k : Nat) (r : Row) : (s.setRow k r).l1 = s.l1 := rfl
@[simp] theorem State.setRow_icache (s : State) (k : Nat) (r : Row) : (s.setRow k r).icache = s.icache := rfl
@[simp] theorem State.setRow_loops (s : State) (k : Nat) (r : Row) : (s.setRow k r).loops = s.loops := rfl
@[simp] theorem State.setRow_lend (s : State) (k : Nat) (r : Row) : (s.setRow k r).lend = s.lend := rfl
@[simp] theorem State.setRow_elend (s : State) (k : Nat) (r : Row) : (s.setRow k r).elend = s.elend := rfl
@[simp] theorem State.setRow_launches (s : State) (k : Nat) (r : Row) : (s.setRow k r).launches = s.launches := rfl
@[simp] theorem State.setRow_pending (s : State) (k : Nat) (r : Row) : (s.setRow k r).pending = s.pending := rfl
@[simp] theorem State.setRow_packers (s : State) (k : Nat) (r : Row) : (s.setRow k r).packers = s.packers := rfl
@[simp] theorem State.setRow_owed (s : State) (k : Nat) (r : Row) : (s.setRow k r).owed = s.owed := rfl
@[simp] theorem State.setRow_lbinv (s : State) (k : Nat) (r : Row) : (s.setRow k r).lbinv = s.lbinv := rfl
@[simp] theorem State.setRow_pwrtok (s : State) (k : Nat) (r : Row) : (s.setRow k r).pwrtok = s.pwrtok := rfl
@[simp] theorem State.setRow_tokens (s : State) (k : Nat) (r : Row) : (s.setRow k r).tokens = s.tokens := rfl
@[simp] theorem State.setRow_clock0 (s : State) (k : Nat) (r : Row) : (s.setRow k r).clock0 = s.clock0 := rfl
@[simp] theorem State.setRow_parts (s : State) (k : Nat) (r : Row) : (s.setRow k r).parts = s.parts := rfl
@[simp] theorem State.setRow_outbox (s : State) (k : Nat) (r : Row) : (s.setRow k r).outbox = s.outbox := rfl
@[simp] theorem State.setRow_replies (s : State) (k : Nat) (r : Row) : (s.setRow k r).replies = s.replies := rfl
@[simp] theorem State.setRow_linkOut (s : State) (k : Nat) (r : Row) : (s.setRow k r).linkOut = s.linkOut := rfl
@[simp] theorem State.setRow_wrote (s : State) (k : Nat) (r : Row) : (s.setRow k r).wrote = s.wrote := rfl
@[simp] theorem State.setRow_tlb (s : State) (k : Nat) (r : Row) : (s.setRow k r).tlb = s.tlb := rfl
@[simp] theorem State.setRow_prompt (s : State) (k : Nat) (r : Row) : (s.setRow k r).prompt = s.prompt := rfl
@[simp] theorem State.setRow_gone (s : State) (k : Nat) (r : Row) : (s.setRow k r).gone = s.gone := rfl
@[simp] theorem State.setRow_l2 (s : State) (k : Nat) (r : Row) : (s.setRow k r).l2 = s.l2 := rfl
@[simp] theorem State.setRow_llc (s : State) (k : Nat) (r : Row) : (s.setRow k r).llc = s.llc := rfl
@[simp] theorem State.setRow_m (s : State) (k : Nat) (r : Row) : (s.setRow k r).m = s.m := rfl

/-! ## putRow writes `kiln` only -/

@[simp] theorem State.putRow_gt (s : State) (k : Nat) (r : Row) : (s.putRow k r).gt = s.gt := rfl
@[simp] theorem State.putRow_fresh (s : State) (k : Nat) (r : Row) : (s.putRow k r).fresh = s.fresh := rfl
@[simp] theorem State.putRow_agenda (s : State) (k : Nat) (r : Row) : (s.putRow k r).agenda = s.agenda := rfl
@[simp] theorem State.putRow_upsets (s : State) (k : Nat) (r : Row) : (s.putRow k r).upsets = s.upsets := rfl
@[simp] theorem State.putRow_cur (s : State) (k : Nat) (r : Row) : (s.putRow k r).cur = s.cur := rfl
@[simp] theorem State.putRow_issued (s : State) (k : Nat) (r : Row) : (s.putRow k r).issued = s.issued := rfl
@[simp] theorem State.putRow_nextId (s : State) (k : Nat) (r : Row) : (s.putRow k r).nextId = s.nextId := rfl
@[simp] theorem State.putRow_mem (s : State) (k : Nat) (r : Row) : (s.putRow k r).mem = s.mem := rfl
@[simp] theorem State.putRow_poison (s : State) (k : Nat) (r : Row) : (s.putRow k r).poison = s.poison := rfl
@[simp] theorem State.putRow_entries (s : State) (k : Nat) (r : Row) : (s.putRow k r).entries = s.entries := rfl
@[simp] theorem State.putRow_gens (s : State) (k : Nat) (r : Row) : (s.putRow k r).gens = s.gens := rfl
@[simp] theorem State.putRow_teams (s : State) (k : Nat) (r : Row) : (s.putRow k r).teams = s.teams := rfl
@[simp] theorem State.putRow_saved (s : State) (k : Nat) (r : Row) : (s.putRow k r).saved = s.saved := rfl
@[simp] theorem State.putRow_mx (s : State) (k : Nat) (r : Row) : (s.putRow k r).mx = s.mx := rfl
@[simp] theorem State.putRow_flights (s : State) (k : Nat) (r : Row) : (s.putRow k r).flights = s.flights := rfl
@[simp] theorem State.putRow_cmds (s : State) (k : Nat) (r : Row) : (s.putRow k r).cmds = s.cmds := rfl
@[simp] theorem State.putRow_l1 (s : State) (k : Nat) (r : Row) : (s.putRow k r).l1 = s.l1 := rfl
@[simp] theorem State.putRow_icache (s : State) (k : Nat) (r : Row) : (s.putRow k r).icache = s.icache := rfl
@[simp] theorem State.putRow_loops (s : State) (k : Nat) (r : Row) : (s.putRow k r).loops = s.loops := rfl
@[simp] theorem State.putRow_lend (s : State) (k : Nat) (r : Row) : (s.putRow k r).lend = s.lend := rfl
@[simp] theorem State.putRow_elend (s : State) (k : Nat) (r : Row) : (s.putRow k r).elend = s.elend := rfl
@[simp] theorem State.putRow_launches (s : State) (k : Nat) (r : Row) : (s.putRow k r).launches = s.launches := rfl
@[simp] theorem State.putRow_pending (s : State) (k : Nat) (r : Row) : (s.putRow k r).pending = s.pending := rfl
@[simp] theorem State.putRow_packers (s : State) (k : Nat) (r : Row) : (s.putRow k r).packers = s.packers := rfl
@[simp] theorem State.putRow_owed (s : State) (k : Nat) (r : Row) : (s.putRow k r).owed = s.owed := rfl
@[simp] theorem State.putRow_lbinv (s : State) (k : Nat) (r : Row) : (s.putRow k r).lbinv = s.lbinv := rfl
@[simp] theorem State.putRow_pwrtok (s : State) (k : Nat) (r : Row) : (s.putRow k r).pwrtok = s.pwrtok := rfl
@[simp] theorem State.putRow_tokens (s : State) (k : Nat) (r : Row) : (s.putRow k r).tokens = s.tokens := rfl
@[simp] theorem State.putRow_clock0 (s : State) (k : Nat) (r : Row) : (s.putRow k r).clock0 = s.clock0 := rfl
@[simp] theorem State.putRow_parts (s : State) (k : Nat) (r : Row) : (s.putRow k r).parts = s.parts := rfl
@[simp] theorem State.putRow_outbox (s : State) (k : Nat) (r : Row) : (s.putRow k r).outbox = s.outbox := rfl
@[simp] theorem State.putRow_replies (s : State) (k : Nat) (r : Row) : (s.putRow k r).replies = s.replies := rfl
@[simp] theorem State.putRow_linkOut (s : State) (k : Nat) (r : Row) : (s.putRow k r).linkOut = s.linkOut := rfl
@[simp] theorem State.putRow_wrote (s : State) (k : Nat) (r : Row) : (s.putRow k r).wrote = s.wrote := rfl
@[simp] theorem State.putRow_tlb (s : State) (k : Nat) (r : Row) : (s.putRow k r).tlb = s.tlb := rfl
@[simp] theorem State.putRow_prompt (s : State) (k : Nat) (r : Row) : (s.putRow k r).prompt = s.prompt := rfl
@[simp] theorem State.putRow_gone (s : State) (k : Nat) (r : Row) : (s.putRow k r).gone = s.gone := rfl
@[simp] theorem State.putRow_l2 (s : State) (k : Nat) (r : Row) : (s.putRow k r).l2 = s.l2 := rfl
@[simp] theorem State.putRow_llc (s : State) (k : Nat) (r : Row) : (s.putRow k r).llc = s.llc := rfl
@[simp] theorem State.putRow_m (s : State) (k : Nat) (r : Row) : (s.putRow k r).m = s.m := rfl

/-! ## incRow writes `kiln` only -/

@[simp] theorem State.incRow_gt (s : State) (k : Nat) : (s.incRow k).gt = s.gt := rfl
@[simp] theorem State.incRow_fresh (s : State) (k : Nat) : (s.incRow k).fresh = s.fresh := rfl
@[simp] theorem State.incRow_agenda (s : State) (k : Nat) : (s.incRow k).agenda = s.agenda := rfl
@[simp] theorem State.incRow_upsets (s : State) (k : Nat) : (s.incRow k).upsets = s.upsets := rfl
@[simp] theorem State.incRow_cur (s : State) (k : Nat) : (s.incRow k).cur = s.cur := rfl
@[simp] theorem State.incRow_issued (s : State) (k : Nat) : (s.incRow k).issued = s.issued := rfl
@[simp] theorem State.incRow_nextId (s : State) (k : Nat) : (s.incRow k).nextId = s.nextId := rfl
@[simp] theorem State.incRow_mem (s : State) (k : Nat) : (s.incRow k).mem = s.mem := rfl
@[simp] theorem State.incRow_poison (s : State) (k : Nat) : (s.incRow k).poison = s.poison := rfl
@[simp] theorem State.incRow_entries (s : State) (k : Nat) : (s.incRow k).entries = s.entries := rfl
@[simp] theorem State.incRow_gens (s : State) (k : Nat) : (s.incRow k).gens = s.gens := rfl
@[simp] theorem State.incRow_teams (s : State) (k : Nat) : (s.incRow k).teams = s.teams := rfl
@[simp] theorem State.incRow_saved (s : State) (k : Nat) : (s.incRow k).saved = s.saved := rfl
@[simp] theorem State.incRow_mx (s : State) (k : Nat) : (s.incRow k).mx = s.mx := rfl
@[simp] theorem State.incRow_flights (s : State) (k : Nat) : (s.incRow k).flights = s.flights := rfl
@[simp] theorem State.incRow_cmds (s : State) (k : Nat) : (s.incRow k).cmds = s.cmds := rfl
@[simp] theorem State.incRow_l1 (s : State) (k : Nat) : (s.incRow k).l1 = s.l1 := rfl
@[simp] theorem State.incRow_icache (s : State) (k : Nat) : (s.incRow k).icache = s.icache := rfl
@[simp] theorem State.incRow_loops (s : State) (k : Nat) : (s.incRow k).loops = s.loops := rfl
@[simp] theorem State.incRow_lend (s : State) (k : Nat) : (s.incRow k).lend = s.lend := rfl
@[simp] theorem State.incRow_elend (s : State) (k : Nat) : (s.incRow k).elend = s.elend := rfl
@[simp] theorem State.incRow_launches (s : State) (k : Nat) : (s.incRow k).launches = s.launches := rfl
@[simp] theorem State.incRow_pending (s : State) (k : Nat) : (s.incRow k).pending = s.pending := rfl
@[simp] theorem State.incRow_packers (s : State) (k : Nat) : (s.incRow k).packers = s.packers := rfl
@[simp] theorem State.incRow_owed (s : State) (k : Nat) : (s.incRow k).owed = s.owed := rfl
@[simp] theorem State.incRow_lbinv (s : State) (k : Nat) : (s.incRow k).lbinv = s.lbinv := rfl
@[simp] theorem State.incRow_pwrtok (s : State) (k : Nat) : (s.incRow k).pwrtok = s.pwrtok := rfl
@[simp] theorem State.incRow_tokens (s : State) (k : Nat) : (s.incRow k).tokens = s.tokens := rfl
@[simp] theorem State.incRow_clock0 (s : State) (k : Nat) : (s.incRow k).clock0 = s.clock0 := rfl
@[simp] theorem State.incRow_parts (s : State) (k : Nat) : (s.incRow k).parts = s.parts := rfl
@[simp] theorem State.incRow_outbox (s : State) (k : Nat) : (s.incRow k).outbox = s.outbox := rfl
@[simp] theorem State.incRow_replies (s : State) (k : Nat) : (s.incRow k).replies = s.replies := rfl
@[simp] theorem State.incRow_linkOut (s : State) (k : Nat) : (s.incRow k).linkOut = s.linkOut := rfl
@[simp] theorem State.incRow_wrote (s : State) (k : Nat) : (s.incRow k).wrote = s.wrote := rfl
@[simp] theorem State.incRow_tlb (s : State) (k : Nat) : (s.incRow k).tlb = s.tlb := rfl
@[simp] theorem State.incRow_prompt (s : State) (k : Nat) : (s.incRow k).prompt = s.prompt := rfl
@[simp] theorem State.incRow_gone (s : State) (k : Nat) : (s.incRow k).gone = s.gone := rfl
@[simp] theorem State.incRow_l2 (s : State) (k : Nat) : (s.incRow k).l2 = s.l2 := rfl
@[simp] theorem State.incRow_llc (s : State) (k : Nat) : (s.incRow k).llc = s.llc := rfl
@[simp] theorem State.incRow_m (s : State) (k : Nat) : (s.incRow k).m = s.m := rfl

/-! ## decRow writes `kiln` only -/

@[simp] theorem State.decRow_gt (s : State) (k : Nat) : (s.decRow k).gt = s.gt := rfl
@[simp] theorem State.decRow_fresh (s : State) (k : Nat) : (s.decRow k).fresh = s.fresh := rfl
@[simp] theorem State.decRow_agenda (s : State) (k : Nat) : (s.decRow k).agenda = s.agenda := rfl
@[simp] theorem State.decRow_upsets (s : State) (k : Nat) : (s.decRow k).upsets = s.upsets := rfl
@[simp] theorem State.decRow_cur (s : State) (k : Nat) : (s.decRow k).cur = s.cur := rfl
@[simp] theorem State.decRow_issued (s : State) (k : Nat) : (s.decRow k).issued = s.issued := rfl
@[simp] theorem State.decRow_nextId (s : State) (k : Nat) : (s.decRow k).nextId = s.nextId := rfl
@[simp] theorem State.decRow_mem (s : State) (k : Nat) : (s.decRow k).mem = s.mem := rfl
@[simp] theorem State.decRow_poison (s : State) (k : Nat) : (s.decRow k).poison = s.poison := rfl
@[simp] theorem State.decRow_entries (s : State) (k : Nat) : (s.decRow k).entries = s.entries := rfl
@[simp] theorem State.decRow_gens (s : State) (k : Nat) : (s.decRow k).gens = s.gens := rfl
@[simp] theorem State.decRow_teams (s : State) (k : Nat) : (s.decRow k).teams = s.teams := rfl
@[simp] theorem State.decRow_saved (s : State) (k : Nat) : (s.decRow k).saved = s.saved := rfl
@[simp] theorem State.decRow_mx (s : State) (k : Nat) : (s.decRow k).mx = s.mx := rfl
@[simp] theorem State.decRow_flights (s : State) (k : Nat) : (s.decRow k).flights = s.flights := rfl
@[simp] theorem State.decRow_cmds (s : State) (k : Nat) : (s.decRow k).cmds = s.cmds := rfl
@[simp] theorem State.decRow_l1 (s : State) (k : Nat) : (s.decRow k).l1 = s.l1 := rfl
@[simp] theorem State.decRow_icache (s : State) (k : Nat) : (s.decRow k).icache = s.icache := rfl
@[simp] theorem State.decRow_loops (s : State) (k : Nat) : (s.decRow k).loops = s.loops := rfl
@[simp] theorem State.decRow_lend (s : State) (k : Nat) : (s.decRow k).lend = s.lend := rfl
@[simp] theorem State.decRow_elend (s : State) (k : Nat) : (s.decRow k).elend = s.elend := rfl
@[simp] theorem State.decRow_launches (s : State) (k : Nat) : (s.decRow k).launches = s.launches := rfl
@[simp] theorem State.decRow_pending (s : State) (k : Nat) : (s.decRow k).pending = s.pending := rfl
@[simp] theorem State.decRow_packers (s : State) (k : Nat) : (s.decRow k).packers = s.packers := rfl
@[simp] theorem State.decRow_owed (s : State) (k : Nat) : (s.decRow k).owed = s.owed := rfl
@[simp] theorem State.decRow_lbinv (s : State) (k : Nat) : (s.decRow k).lbinv = s.lbinv := rfl
@[simp] theorem State.decRow_pwrtok (s : State) (k : Nat) : (s.decRow k).pwrtok = s.pwrtok := rfl
@[simp] theorem State.decRow_tokens (s : State) (k : Nat) : (s.decRow k).tokens = s.tokens := rfl
@[simp] theorem State.decRow_clock0 (s : State) (k : Nat) : (s.decRow k).clock0 = s.clock0 := rfl
@[simp] theorem State.decRow_parts (s : State) (k : Nat) : (s.decRow k).parts = s.parts := rfl
@[simp] theorem State.decRow_outbox (s : State) (k : Nat) : (s.decRow k).outbox = s.outbox := rfl
@[simp] theorem State.decRow_replies (s : State) (k : Nat) : (s.decRow k).replies = s.replies := rfl
@[simp] theorem State.decRow_linkOut (s : State) (k : Nat) : (s.decRow k).linkOut = s.linkOut := rfl
@[simp] theorem State.decRow_wrote (s : State) (k : Nat) : (s.decRow k).wrote = s.wrote := rfl
@[simp] theorem State.decRow_tlb (s : State) (k : Nat) : (s.decRow k).tlb = s.tlb := rfl
@[simp] theorem State.decRow_prompt (s : State) (k : Nat) : (s.decRow k).prompt = s.prompt := rfl
@[simp] theorem State.decRow_gone (s : State) (k : Nat) : (s.decRow k).gone = s.gone := rfl
@[simp] theorem State.decRow_l2 (s : State) (k : Nat) : (s.decRow k).l2 = s.l2 := rfl
@[simp] theorem State.decRow_llc (s : State) (k : Nat) : (s.decRow k).llc = s.llc := rfl
@[simp] theorem State.decRow_m (s : State) (k : Nat) : (s.decRow k).m = s.m := rfl

/-! ## setByte writes `mem` only -/

@[simp] theorem State.setByte_gt (s : State) (k : Nat) (b : Byte) : (s.setByte k b).gt = s.gt := rfl
@[simp] theorem State.setByte_fresh (s : State) (k : Nat) (b : Byte) : (s.setByte k b).fresh = s.fresh := rfl
@[simp] theorem State.setByte_agenda (s : State) (k : Nat) (b : Byte) : (s.setByte k b).agenda = s.agenda := rfl
@[simp] theorem State.setByte_upsets (s : State) (k : Nat) (b : Byte) : (s.setByte k b).upsets = s.upsets := rfl
@[simp] theorem State.setByte_cur (s : State) (k : Nat) (b : Byte) : (s.setByte k b).cur = s.cur := rfl
@[simp] theorem State.setByte_issued (s : State) (k : Nat) (b : Byte) : (s.setByte k b).issued = s.issued := rfl
@[simp] theorem State.setByte_nextId (s : State) (k : Nat) (b : Byte) : (s.setByte k b).nextId = s.nextId := rfl
@[simp] theorem State.setByte_poison (s : State) (k : Nat) (b : Byte) : (s.setByte k b).poison = s.poison := rfl
@[simp] theorem State.setByte_kiln (s : State) (k : Nat) (b : Byte) : (s.setByte k b).kiln = s.kiln := rfl
@[simp] theorem State.setByte_entries (s : State) (k : Nat) (b : Byte) : (s.setByte k b).entries = s.entries := rfl
@[simp] theorem State.setByte_gens (s : State) (k : Nat) (b : Byte) : (s.setByte k b).gens = s.gens := rfl
@[simp] theorem State.setByte_teams (s : State) (k : Nat) (b : Byte) : (s.setByte k b).teams = s.teams := rfl
@[simp] theorem State.setByte_saved (s : State) (k : Nat) (b : Byte) : (s.setByte k b).saved = s.saved := rfl
@[simp] theorem State.setByte_mx (s : State) (k : Nat) (b : Byte) : (s.setByte k b).mx = s.mx := rfl
@[simp] theorem State.setByte_flights (s : State) (k : Nat) (b : Byte) : (s.setByte k b).flights = s.flights := rfl
@[simp] theorem State.setByte_cmds (s : State) (k : Nat) (b : Byte) : (s.setByte k b).cmds = s.cmds := rfl
@[simp] theorem State.setByte_l1 (s : State) (k : Nat) (b : Byte) : (s.setByte k b).l1 = s.l1 := rfl
@[simp] theorem State.setByte_icache (s : State) (k : Nat) (b : Byte) : (s.setByte k b).icache = s.icache := rfl
@[simp] theorem State.setByte_loops (s : State) (k : Nat) (b : Byte) : (s.setByte k b).loops = s.loops := rfl
@[simp] theorem State.setByte_lend (s : State) (k : Nat) (b : Byte) : (s.setByte k b).lend = s.lend := rfl
@[simp] theorem State.setByte_elend (s : State) (k : Nat) (b : Byte) : (s.setByte k b).elend = s.elend := rfl
@[simp] theorem State.setByte_launches (s : State) (k : Nat) (b : Byte) : (s.setByte k b).launches = s.launches := rfl
@[simp] theorem State.setByte_pending (s : State) (k : Nat) (b : Byte) : (s.setByte k b).pending = s.pending := rfl
@[simp] theorem State.setByte_packers (s : State) (k : Nat) (b : Byte) : (s.setByte k b).packers = s.packers := rfl
@[simp] theorem State.setByte_owed (s : State) (k : Nat) (b : Byte) : (s.setByte k b).owed = s.owed := rfl
@[simp] theorem State.setByte_lbinv (s : State) (k : Nat) (b : Byte) : (s.setByte k b).lbinv = s.lbinv := rfl
@[simp] theorem State.setByte_pwrtok (s : State) (k : Nat) (b : Byte) : (s.setByte k b).pwrtok = s.pwrtok := rfl
@[simp] theorem State.setByte_tokens (s : State) (k : Nat) (b : Byte) : (s.setByte k b).tokens = s.tokens := rfl
@[simp] theorem State.setByte_clock0 (s : State) (k : Nat) (b : Byte) : (s.setByte k b).clock0 = s.clock0 := rfl
@[simp] theorem State.setByte_parts (s : State) (k : Nat) (b : Byte) : (s.setByte k b).parts = s.parts := rfl
@[simp] theorem State.setByte_outbox (s : State) (k : Nat) (b : Byte) : (s.setByte k b).outbox = s.outbox := rfl
@[simp] theorem State.setByte_replies (s : State) (k : Nat) (b : Byte) : (s.setByte k b).replies = s.replies := rfl
@[simp] theorem State.setByte_linkOut (s : State) (k : Nat) (b : Byte) : (s.setByte k b).linkOut = s.linkOut := rfl
@[simp] theorem State.setByte_wrote (s : State) (k : Nat) (b : Byte) : (s.setByte k b).wrote = s.wrote := rfl
@[simp] theorem State.setByte_tlb (s : State) (k : Nat) (b : Byte) : (s.setByte k b).tlb = s.tlb := rfl
@[simp] theorem State.setByte_prompt (s : State) (k : Nat) (b : Byte) : (s.setByte k b).prompt = s.prompt := rfl
@[simp] theorem State.setByte_gone (s : State) (k : Nat) (b : Byte) : (s.setByte k b).gone = s.gone := rfl
@[simp] theorem State.setByte_l2 (s : State) (k : Nat) (b : Byte) : (s.setByte k b).l2 = s.l2 := rfl
@[simp] theorem State.setByte_llc (s : State) (k : Nat) (b : Byte) : (s.setByte k b).llc = s.llc := rfl
@[simp] theorem State.setByte_m (s : State) (k : Nat) (b : Byte) : (s.setByte k b).m = s.m := rfl

/-! ## markPoison writes `poison` only -/

@[simp] theorem State.markPoison_gt (s : State) (k : Nat) : (s.markPoison k).gt = s.gt := rfl
@[simp] theorem State.markPoison_fresh (s : State) (k : Nat) : (s.markPoison k).fresh = s.fresh := rfl
@[simp] theorem State.markPoison_agenda (s : State) (k : Nat) : (s.markPoison k).agenda = s.agenda := rfl
@[simp] theorem State.markPoison_upsets (s : State) (k : Nat) : (s.markPoison k).upsets = s.upsets := rfl
@[simp] theorem State.markPoison_cur (s : State) (k : Nat) : (s.markPoison k).cur = s.cur := rfl
@[simp] theorem State.markPoison_issued (s : State) (k : Nat) : (s.markPoison k).issued = s.issued := rfl
@[simp] theorem State.markPoison_nextId (s : State) (k : Nat) : (s.markPoison k).nextId = s.nextId := rfl
@[simp] theorem State.markPoison_mem (s : State) (k : Nat) : (s.markPoison k).mem = s.mem := rfl
@[simp] theorem State.markPoison_kiln (s : State) (k : Nat) : (s.markPoison k).kiln = s.kiln := rfl
@[simp] theorem State.markPoison_entries (s : State) (k : Nat) : (s.markPoison k).entries = s.entries := rfl
@[simp] theorem State.markPoison_gens (s : State) (k : Nat) : (s.markPoison k).gens = s.gens := rfl
@[simp] theorem State.markPoison_teams (s : State) (k : Nat) : (s.markPoison k).teams = s.teams := rfl
@[simp] theorem State.markPoison_saved (s : State) (k : Nat) : (s.markPoison k).saved = s.saved := rfl
@[simp] theorem State.markPoison_mx (s : State) (k : Nat) : (s.markPoison k).mx = s.mx := rfl
@[simp] theorem State.markPoison_flights (s : State) (k : Nat) : (s.markPoison k).flights = s.flights := rfl
@[simp] theorem State.markPoison_cmds (s : State) (k : Nat) : (s.markPoison k).cmds = s.cmds := rfl
@[simp] theorem State.markPoison_l1 (s : State) (k : Nat) : (s.markPoison k).l1 = s.l1 := rfl
@[simp] theorem State.markPoison_icache (s : State) (k : Nat) : (s.markPoison k).icache = s.icache := rfl
@[simp] theorem State.markPoison_loops (s : State) (k : Nat) : (s.markPoison k).loops = s.loops := rfl
@[simp] theorem State.markPoison_lend (s : State) (k : Nat) : (s.markPoison k).lend = s.lend := rfl
@[simp] theorem State.markPoison_elend (s : State) (k : Nat) : (s.markPoison k).elend = s.elend := rfl
@[simp] theorem State.markPoison_launches (s : State) (k : Nat) : (s.markPoison k).launches = s.launches := rfl
@[simp] theorem State.markPoison_pending (s : State) (k : Nat) : (s.markPoison k).pending = s.pending := rfl
@[simp] theorem State.markPoison_packers (s : State) (k : Nat) : (s.markPoison k).packers = s.packers := rfl
@[simp] theorem State.markPoison_owed (s : State) (k : Nat) : (s.markPoison k).owed = s.owed := rfl
@[simp] theorem State.markPoison_lbinv (s : State) (k : Nat) : (s.markPoison k).lbinv = s.lbinv := rfl
@[simp] theorem State.markPoison_pwrtok (s : State) (k : Nat) : (s.markPoison k).pwrtok = s.pwrtok := rfl
@[simp] theorem State.markPoison_tokens (s : State) (k : Nat) : (s.markPoison k).tokens = s.tokens := rfl
@[simp] theorem State.markPoison_clock0 (s : State) (k : Nat) : (s.markPoison k).clock0 = s.clock0 := rfl
@[simp] theorem State.markPoison_parts (s : State) (k : Nat) : (s.markPoison k).parts = s.parts := rfl
@[simp] theorem State.markPoison_outbox (s : State) (k : Nat) : (s.markPoison k).outbox = s.outbox := rfl
@[simp] theorem State.markPoison_replies (s : State) (k : Nat) : (s.markPoison k).replies = s.replies := rfl
@[simp] theorem State.markPoison_linkOut (s : State) (k : Nat) : (s.markPoison k).linkOut = s.linkOut := rfl
@[simp] theorem State.markPoison_wrote (s : State) (k : Nat) : (s.markPoison k).wrote = s.wrote := rfl
@[simp] theorem State.markPoison_tlb (s : State) (k : Nat) : (s.markPoison k).tlb = s.tlb := rfl
@[simp] theorem State.markPoison_prompt (s : State) (k : Nat) : (s.markPoison k).prompt = s.prompt := rfl
@[simp] theorem State.markPoison_gone (s : State) (k : Nat) : (s.markPoison k).gone = s.gone := rfl
@[simp] theorem State.markPoison_l2 (s : State) (k : Nat) : (s.markPoison k).l2 = s.l2 := rfl
@[simp] theorem State.markPoison_llc (s : State) (k : Nat) : (s.markPoison k).llc = s.llc := rfl
@[simp] theorem State.markPoison_m (s : State) (k : Nat) : (s.markPoison k).m = s.m := rfl

/-! ## clearPoison writes `poison` only -/

@[simp] theorem State.clearPoison_gt (s : State) (k : Nat) : (s.clearPoison k).gt = s.gt := rfl
@[simp] theorem State.clearPoison_fresh (s : State) (k : Nat) : (s.clearPoison k).fresh = s.fresh := rfl
@[simp] theorem State.clearPoison_agenda (s : State) (k : Nat) : (s.clearPoison k).agenda = s.agenda := rfl
@[simp] theorem State.clearPoison_upsets (s : State) (k : Nat) : (s.clearPoison k).upsets = s.upsets := rfl
@[simp] theorem State.clearPoison_cur (s : State) (k : Nat) : (s.clearPoison k).cur = s.cur := rfl
@[simp] theorem State.clearPoison_issued (s : State) (k : Nat) : (s.clearPoison k).issued = s.issued := rfl
@[simp] theorem State.clearPoison_nextId (s : State) (k : Nat) : (s.clearPoison k).nextId = s.nextId := rfl
@[simp] theorem State.clearPoison_mem (s : State) (k : Nat) : (s.clearPoison k).mem = s.mem := rfl
@[simp] theorem State.clearPoison_kiln (s : State) (k : Nat) : (s.clearPoison k).kiln = s.kiln := rfl
@[simp] theorem State.clearPoison_entries (s : State) (k : Nat) : (s.clearPoison k).entries = s.entries := rfl
@[simp] theorem State.clearPoison_gens (s : State) (k : Nat) : (s.clearPoison k).gens = s.gens := rfl
@[simp] theorem State.clearPoison_teams (s : State) (k : Nat) : (s.clearPoison k).teams = s.teams := rfl
@[simp] theorem State.clearPoison_saved (s : State) (k : Nat) : (s.clearPoison k).saved = s.saved := rfl
@[simp] theorem State.clearPoison_mx (s : State) (k : Nat) : (s.clearPoison k).mx = s.mx := rfl
@[simp] theorem State.clearPoison_flights (s : State) (k : Nat) : (s.clearPoison k).flights = s.flights := rfl
@[simp] theorem State.clearPoison_cmds (s : State) (k : Nat) : (s.clearPoison k).cmds = s.cmds := rfl
@[simp] theorem State.clearPoison_l1 (s : State) (k : Nat) : (s.clearPoison k).l1 = s.l1 := rfl
@[simp] theorem State.clearPoison_icache (s : State) (k : Nat) : (s.clearPoison k).icache = s.icache := rfl
@[simp] theorem State.clearPoison_loops (s : State) (k : Nat) : (s.clearPoison k).loops = s.loops := rfl
@[simp] theorem State.clearPoison_lend (s : State) (k : Nat) : (s.clearPoison k).lend = s.lend := rfl
@[simp] theorem State.clearPoison_elend (s : State) (k : Nat) : (s.clearPoison k).elend = s.elend := rfl
@[simp] theorem State.clearPoison_launches (s : State) (k : Nat) : (s.clearPoison k).launches = s.launches := rfl
@[simp] theorem State.clearPoison_pending (s : State) (k : Nat) : (s.clearPoison k).pending = s.pending := rfl
@[simp] theorem State.clearPoison_packers (s : State) (k : Nat) : (s.clearPoison k).packers = s.packers := rfl
@[simp] theorem State.clearPoison_owed (s : State) (k : Nat) : (s.clearPoison k).owed = s.owed := rfl
@[simp] theorem State.clearPoison_lbinv (s : State) (k : Nat) : (s.clearPoison k).lbinv = s.lbinv := rfl
@[simp] theorem State.clearPoison_pwrtok (s : State) (k : Nat) : (s.clearPoison k).pwrtok = s.pwrtok := rfl
@[simp] theorem State.clearPoison_tokens (s : State) (k : Nat) : (s.clearPoison k).tokens = s.tokens := rfl
@[simp] theorem State.clearPoison_clock0 (s : State) (k : Nat) : (s.clearPoison k).clock0 = s.clock0 := rfl
@[simp] theorem State.clearPoison_parts (s : State) (k : Nat) : (s.clearPoison k).parts = s.parts := rfl
@[simp] theorem State.clearPoison_outbox (s : State) (k : Nat) : (s.clearPoison k).outbox = s.outbox := rfl
@[simp] theorem State.clearPoison_replies (s : State) (k : Nat) : (s.clearPoison k).replies = s.replies := rfl
@[simp] theorem State.clearPoison_linkOut (s : State) (k : Nat) : (s.clearPoison k).linkOut = s.linkOut := rfl
@[simp] theorem State.clearPoison_wrote (s : State) (k : Nat) : (s.clearPoison k).wrote = s.wrote := rfl
@[simp] theorem State.clearPoison_tlb (s : State) (k : Nat) : (s.clearPoison k).tlb = s.tlb := rfl
@[simp] theorem State.clearPoison_prompt (s : State) (k : Nat) : (s.clearPoison k).prompt = s.prompt := rfl
@[simp] theorem State.clearPoison_gone (s : State) (k : Nat) : (s.clearPoison k).gone = s.gone := rfl
@[simp] theorem State.clearPoison_l2 (s : State) (k : Nat) : (s.clearPoison k).l2 = s.l2 := rfl
@[simp] theorem State.clearPoison_llc (s : State) (k : Nat) : (s.clearPoison k).llc = s.llc := rfl
@[simp] theorem State.clearPoison_m (s : State) (k : Nat) : (s.clearPoison k).m = s.m := rfl

/-! ## setEntry writes `entries` only -/

@[simp] theorem State.setEntry_gt (s : State) (k : Nat) (e : Entry) : (s.setEntry k e).gt = s.gt := rfl
@[simp] theorem State.setEntry_fresh (s : State) (k : Nat) (e : Entry) : (s.setEntry k e).fresh = s.fresh := rfl
@[simp] theorem State.setEntry_agenda (s : State) (k : Nat) (e : Entry) : (s.setEntry k e).agenda = s.agenda := rfl
@[simp] theorem State.setEntry_upsets (s : State) (k : Nat) (e : Entry) : (s.setEntry k e).upsets = s.upsets := rfl
@[simp] theorem State.setEntry_cur (s : State) (k : Nat) (e : Entry) : (s.setEntry k e).cur = s.cur := rfl
@[simp] theorem State.setEntry_issued (s : State) (k : Nat) (e : Entry) : (s.setEntry k e).issued = s.issued := rfl
@[simp] theorem State.setEntry_nextId (s : State) (k : Nat) (e : Entry) : (s.setEntry k e).nextId = s.nextId := rfl
@[simp] theorem State.setEntry_mem (s : State) (k : Nat) (e : Entry) : (s.setEntry k e).mem = s.mem := rfl
@[simp] theorem State.setEntry_poison (s : State) (k : Nat) (e : Entry) : (s.setEntry k e).poison = s.poison := rfl
@[simp] theorem State.setEntry_kiln (s : State) (k : Nat) (e : Entry) : (s.setEntry k e).kiln = s.kiln := rfl
@[simp] theorem State.setEntry_gens (s : State) (k : Nat) (e : Entry) : (s.setEntry k e).gens = s.gens := rfl
@[simp] theorem State.setEntry_teams (s : State) (k : Nat) (e : Entry) : (s.setEntry k e).teams = s.teams := rfl
@[simp] theorem State.setEntry_saved (s : State) (k : Nat) (e : Entry) : (s.setEntry k e).saved = s.saved := rfl
@[simp] theorem State.setEntry_mx (s : State) (k : Nat) (e : Entry) : (s.setEntry k e).mx = s.mx := rfl
@[simp] theorem State.setEntry_flights (s : State) (k : Nat) (e : Entry) : (s.setEntry k e).flights = s.flights := rfl
@[simp] theorem State.setEntry_cmds (s : State) (k : Nat) (e : Entry) : (s.setEntry k e).cmds = s.cmds := rfl
@[simp] theorem State.setEntry_l1 (s : State) (k : Nat) (e : Entry) : (s.setEntry k e).l1 = s.l1 := rfl
@[simp] theorem State.setEntry_icache (s : State) (k : Nat) (e : Entry) : (s.setEntry k e).icache = s.icache := rfl
@[simp] theorem State.setEntry_loops (s : State) (k : Nat) (e : Entry) : (s.setEntry k e).loops = s.loops := rfl
@[simp] theorem State.setEntry_lend (s : State) (k : Nat) (e : Entry) : (s.setEntry k e).lend = s.lend := rfl
@[simp] theorem State.setEntry_elend (s : State) (k : Nat) (e : Entry) : (s.setEntry k e).elend = s.elend := rfl
@[simp] theorem State.setEntry_launches (s : State) (k : Nat) (e : Entry) : (s.setEntry k e).launches = s.launches := rfl
@[simp] theorem State.setEntry_pending (s : State) (k : Nat) (e : Entry) : (s.setEntry k e).pending = s.pending := rfl
@[simp] theorem State.setEntry_packers (s : State) (k : Nat) (e : Entry) : (s.setEntry k e).packers = s.packers := rfl
@[simp] theorem State.setEntry_owed (s : State) (k : Nat) (e : Entry) : (s.setEntry k e).owed = s.owed := rfl
@[simp] theorem State.setEntry_lbinv (s : State) (k : Nat) (e : Entry) : (s.setEntry k e).lbinv = s.lbinv := rfl
@[simp] theorem State.setEntry_pwrtok (s : State) (k : Nat) (e : Entry) : (s.setEntry k e).pwrtok = s.pwrtok := rfl
@[simp] theorem State.setEntry_tokens (s : State) (k : Nat) (e : Entry) : (s.setEntry k e).tokens = s.tokens := rfl
@[simp] theorem State.setEntry_clock0 (s : State) (k : Nat) (e : Entry) : (s.setEntry k e).clock0 = s.clock0 := rfl
@[simp] theorem State.setEntry_parts (s : State) (k : Nat) (e : Entry) : (s.setEntry k e).parts = s.parts := rfl
@[simp] theorem State.setEntry_outbox (s : State) (k : Nat) (e : Entry) : (s.setEntry k e).outbox = s.outbox := rfl
@[simp] theorem State.setEntry_replies (s : State) (k : Nat) (e : Entry) : (s.setEntry k e).replies = s.replies := rfl
@[simp] theorem State.setEntry_linkOut (s : State) (k : Nat) (e : Entry) : (s.setEntry k e).linkOut = s.linkOut := rfl
@[simp] theorem State.setEntry_wrote (s : State) (k : Nat) (e : Entry) : (s.setEntry k e).wrote = s.wrote := rfl
@[simp] theorem State.setEntry_tlb (s : State) (k : Nat) (e : Entry) : (s.setEntry k e).tlb = s.tlb := rfl
@[simp] theorem State.setEntry_prompt (s : State) (k : Nat) (e : Entry) : (s.setEntry k e).prompt = s.prompt := rfl
@[simp] theorem State.setEntry_gone (s : State) (k : Nat) (e : Entry) : (s.setEntry k e).gone = s.gone := rfl
@[simp] theorem State.setEntry_l2 (s : State) (k : Nat) (e : Entry) : (s.setEntry k e).l2 = s.l2 := rfl
@[simp] theorem State.setEntry_llc (s : State) (k : Nat) (e : Entry) : (s.setEntry k e).llc = s.llc := rfl
@[simp] theorem State.setEntry_m (s : State) (k : Nat) (e : Entry) : (s.setEntry k e).m = s.m := rfl

/-! ## setMx writes `mx` only -/

@[simp] theorem State.setMx_gt (s : State) (core : Nat) (x : Mx) : (s.setMx core x).gt = s.gt := rfl
@[simp] theorem State.setMx_fresh (s : State) (core : Nat) (x : Mx) : (s.setMx core x).fresh = s.fresh := rfl
@[simp] theorem State.setMx_agenda (s : State) (core : Nat) (x : Mx) : (s.setMx core x).agenda = s.agenda := rfl
@[simp] theorem State.setMx_upsets (s : State) (core : Nat) (x : Mx) : (s.setMx core x).upsets = s.upsets := rfl
@[simp] theorem State.setMx_cur (s : State) (core : Nat) (x : Mx) : (s.setMx core x).cur = s.cur := rfl
@[simp] theorem State.setMx_issued (s : State) (core : Nat) (x : Mx) : (s.setMx core x).issued = s.issued := rfl
@[simp] theorem State.setMx_nextId (s : State) (core : Nat) (x : Mx) : (s.setMx core x).nextId = s.nextId := rfl
@[simp] theorem State.setMx_mem (s : State) (core : Nat) (x : Mx) : (s.setMx core x).mem = s.mem := rfl
@[simp] theorem State.setMx_poison (s : State) (core : Nat) (x : Mx) : (s.setMx core x).poison = s.poison := rfl
@[simp] theorem State.setMx_kiln (s : State) (core : Nat) (x : Mx) : (s.setMx core x).kiln = s.kiln := rfl
@[simp] theorem State.setMx_entries (s : State) (core : Nat) (x : Mx) : (s.setMx core x).entries = s.entries := rfl
@[simp] theorem State.setMx_gens (s : State) (core : Nat) (x : Mx) : (s.setMx core x).gens = s.gens := rfl
@[simp] theorem State.setMx_teams (s : State) (core : Nat) (x : Mx) : (s.setMx core x).teams = s.teams := rfl
@[simp] theorem State.setMx_saved (s : State) (core : Nat) (x : Mx) : (s.setMx core x).saved = s.saved := rfl
@[simp] theorem State.setMx_flights (s : State) (core : Nat) (x : Mx) : (s.setMx core x).flights = s.flights := rfl
@[simp] theorem State.setMx_cmds (s : State) (core : Nat) (x : Mx) : (s.setMx core x).cmds = s.cmds := rfl
@[simp] theorem State.setMx_l1 (s : State) (core : Nat) (x : Mx) : (s.setMx core x).l1 = s.l1 := rfl
@[simp] theorem State.setMx_icache (s : State) (core : Nat) (x : Mx) : (s.setMx core x).icache = s.icache := rfl
@[simp] theorem State.setMx_loops (s : State) (core : Nat) (x : Mx) : (s.setMx core x).loops = s.loops := rfl
@[simp] theorem State.setMx_lend (s : State) (core : Nat) (x : Mx) : (s.setMx core x).lend = s.lend := rfl
@[simp] theorem State.setMx_elend (s : State) (core : Nat) (x : Mx) : (s.setMx core x).elend = s.elend := rfl
@[simp] theorem State.setMx_launches (s : State) (core : Nat) (x : Mx) : (s.setMx core x).launches = s.launches := rfl
@[simp] theorem State.setMx_pending (s : State) (core : Nat) (x : Mx) : (s.setMx core x).pending = s.pending := rfl
@[simp] theorem State.setMx_packers (s : State) (core : Nat) (x : Mx) : (s.setMx core x).packers = s.packers := rfl
@[simp] theorem State.setMx_owed (s : State) (core : Nat) (x : Mx) : (s.setMx core x).owed = s.owed := rfl
@[simp] theorem State.setMx_lbinv (s : State) (core : Nat) (x : Mx) : (s.setMx core x).lbinv = s.lbinv := rfl
@[simp] theorem State.setMx_pwrtok (s : State) (core : Nat) (x : Mx) : (s.setMx core x).pwrtok = s.pwrtok := rfl
@[simp] theorem State.setMx_tokens (s : State) (core : Nat) (x : Mx) : (s.setMx core x).tokens = s.tokens := rfl
@[simp] theorem State.setMx_clock0 (s : State) (core : Nat) (x : Mx) : (s.setMx core x).clock0 = s.clock0 := rfl
@[simp] theorem State.setMx_parts (s : State) (core : Nat) (x : Mx) : (s.setMx core x).parts = s.parts := rfl
@[simp] theorem State.setMx_outbox (s : State) (core : Nat) (x : Mx) : (s.setMx core x).outbox = s.outbox := rfl
@[simp] theorem State.setMx_replies (s : State) (core : Nat) (x : Mx) : (s.setMx core x).replies = s.replies := rfl
@[simp] theorem State.setMx_linkOut (s : State) (core : Nat) (x : Mx) : (s.setMx core x).linkOut = s.linkOut := rfl
@[simp] theorem State.setMx_wrote (s : State) (core : Nat) (x : Mx) : (s.setMx core x).wrote = s.wrote := rfl
@[simp] theorem State.setMx_tlb (s : State) (core : Nat) (x : Mx) : (s.setMx core x).tlb = s.tlb := rfl
@[simp] theorem State.setMx_prompt (s : State) (core : Nat) (x : Mx) : (s.setMx core x).prompt = s.prompt := rfl
@[simp] theorem State.setMx_gone (s : State) (core : Nat) (x : Mx) : (s.setMx core x).gone = s.gone := rfl
@[simp] theorem State.setMx_l2 (s : State) (core : Nat) (x : Mx) : (s.setMx core x).l2 = s.l2 := rfl
@[simp] theorem State.setMx_llc (s : State) (core : Nat) (x : Mx) : (s.setMx core x).llc = s.llc := rfl
@[simp] theorem State.setMx_m (s : State) (core : Nat) (x : Mx) : (s.setMx core x).m = s.m := rfl

end Sys2Proof.Machine
end

