-- ==== Sys2Proof/Laws/Threads.lean ====
section
/-! SUPPORT. Teams, groups, threads, rows and registers after an update of one of them. -/

namespace Sys2Proof.Machine

open Sys2Proof

/-! ## Vectors -/

theorem vget_vset {α : Type} {n : Nat} (v : Vector α n) (i j : Nat) (x d : α) :
    vget (vset v i x) j d = if j = i ∧ i < n then x else vget v j d := by
  unfold vget vset
  by_cases h : j = i
  · subst h
    by_cases hn : j < n
    · simp [hn]
    · simp [hn]
  · have h' : i ≠ j := fun e => h e.symm
    simp [h, Vector.getElem?_setIfInBounds_ne h']

/-! ## Teams -/

theorem State.team?_id {s : State} {t : Nat} {T : Team} (h : s.team? t = some T) : T.id = t := by
  have := List.find?_some h
  simpa using this

theorem find?_map_id (f : Team → Team) (hf : ∀ x, (f x).id = x.id) (t t' : Nat) (l : List Team) :
    (l.map fun x => if x.id == t then f x else x).find? (·.id == t') =
      (l.find? (·.id == t')).map fun x => if x.id == t then f x else x := by
  induction l with
  | nil => rfl
  | cons x xs ih =>
    have hx : (if x.id == t then f x else x).id = x.id := by split <;> simp [hf]
    simp only [List.map_cons, List.find?_cons, hx]
    split
    · rfl
    · exact ih

theorem State.team?_modTeam (s : State) (t t' : Nat) (f : Team → Team) (hf : ∀ x, (f x).id = x.id) :
    (s.modTeam t f).team? t' = (s.team? t').map fun x => if t' = t then f x else x := by
  unfold State.modTeam State.team?
  rw [find?_map_id f hf]
  cases h : s.teams.find? (·.id == t') with
  | none => rfl
  | some x =>
    have hx : x.id = t' := by simpa using List.find?_some h
    simp [hx]

theorem State.team?_modTeam_ne (s : State) {t t' : Nat} (f : Team → Team) (hf : ∀ x, (f x).id = x.id) (h : t' ≠ t) :
    (s.modTeam t f).team? t' = s.team? t' := by
  rw [State.team?_modTeam s t t' f hf]
  simp [h]

theorem State.team?_modTeam_eq {s : State} {t : Nat} {T : Team} (f : Team → Team) (hf : ∀ x, (f x).id = x.id)
    (h : s.team? t = some T) : (s.modTeam t f).team? t = some (f T) := by
  rw [State.team?_modTeam s t t f hf, h]
  simp

@[simp] theorem Team.modGroup_id (T : Team) (g : Nat) (f : Group → Group) : (T.modGroup g f).id = T.id := rfl

theorem Team.group?_modGroup (T : Team) (g g' : Nat) (f : Group → Group) :
    (T.modGroup g f).group? g' = (T.group? g').map fun G => if g' = g then f G else G := by
  unfold Team.modGroup Team.group?
  simp only [List.getElem?_modify]
  cases T.groups[g']? <;> simp [eq_comm]

theorem State.group?_modGroup (s : State) (t g t' g' : Nat) (f : Group → Group) :
    (s.modGroup t g f).group? t' g' = (s.group? t' g').map fun G => if t' = t ∧ g' = g then f G else G := by
  unfold State.group? State.modGroup
  rw [State.team?_modTeam s t t' (·.modGroup g f) (fun _ => rfl)]
  cases s.team? t' with
  | none => rfl
  | some T =>
    simp only [Option.map_some, Option.bind_some]
    by_cases h : t' = t
    · simp [h, Team.group?_modGroup]
    · simp [h]

theorem Group.thread_modThread (G : Group) (l l' : Nat) (f : Thread → Thread) :
    (G.modThread l f).thread l' = if l' = l ∧ l < 32 then f (G.thread l) else G.thread l' := by
  unfold Group.thread Group.modThread
  exact vget_vset _ _ _ _ _

theorem State.thread_modThread (s : State) (t g l t' g' l' : Nat) (f : Thread → Thread) :
    (s.modThread t g l f).thread t' g' l' =
      if t' = t ∧ g' = g ∧ l' = l ∧ l < 32 ∧ (s.group? t g).isSome then f (s.thread t g l) else s.thread t' g' l' := by
  unfold State.thread State.modThread
  rw [State.group?_modGroup]
  cases h : s.group? t' g' with
  | none =>
    simp only [Option.map_none]
    split
    · rename_i hc; obtain ⟨rfl, rfl, -, -, hs⟩ := hc; simp [h] at hs
    · rfl
  | some G =>
    simp only [Option.map_some]
    by_cases h1 : t' = t ∧ g' = g
    · obtain ⟨rfl, rfl⟩ := h1
      simp only [and_self, if_true, Group.thread_modThread, h, Option.isSome_some, and_true, true_and]
    · have h2 : ¬(t' = t ∧ g' = g ∧ l' = l ∧ l < 32 ∧ (s.group? t g).isSome = true) := by
        rintro ⟨a, b, -⟩; exact h1 ⟨a, b⟩
      simp only [h1, h2, if_false]

/-- Lanes from 32 on hold nothing. -/
theorem State.thread_ge {s : State} {t g l : Nat} (h : 32 ≤ l) : s.thread t g l = threadIdle := by
  unfold State.thread
  cases s.group? t g with
  | none => rfl
  | some G =>
    show vget G.threads l threadIdle = threadIdle
    unfold vget
    rw [Vector.getElem?_eq_none h]
    rfl

/-! ## Lanes -/

@[simp] theorem Team.ln_g (T : Team) (g l : Nat) : (T.ln g l).g = g := by unfold Team.ln; cases T.group? g <;> rfl
@[simp] theorem Team.ln_l (T : Team) (g l : Nat) : (T.ln g l).l = l := by unfold Team.ln; cases T.group? g <;> rfl
@[simp] theorem Team.ln_t (T : Team) (g l : Nat) : (T.ln g l).t = T.id := by unfold Team.ln; cases T.group? g <;> rfl
@[simp] theorem Team.ln_core (T : Team) (g l : Nat) : (T.ln g l).core = T.core := by
  unfold Team.ln; cases T.group? g <;> rfl

theorem Team.ln_th {s : State} {t : Nat} {T : Team} (h : s.team? t = some T) (g l : Nat) :
    (T.ln g l).th = s.thread t g l := by
  unfold Team.ln State.thread State.group?
  rw [h]
  simp only [Option.bind_some]
  cases T.group? g <;> rfl

theorem Team.ln_sub (T : Team) (g l : Nat) : (T.ln g l).sub = ((T.group? g).map (·.sub)).getD 0 := by
  unfold Team.ln; cases T.group? g <;> rfl

end Sys2Proof.Machine
end

