-- ==== Sys2Proof/Laws/Near.lean ====
section
/-! SUPPORT. What an update leaves alone that touches only the working state of one team's threads and the Kiln: the relation,
its composition, and the updates that satisfy it. -/

namespace Sys2Proof.Machine

open Sys2Proof

/-! ## Pops and working state -/

@[simp] theorem Thread.working_self (a : Thread) : a.working a = a := rfl
@[simp] theorem Thread.working_working (a b c : Thread) : (a.working b).working c = a.working c := rfl
theorem Thread.pop_working (a b : Thread) : (a.working b).pop = a.pop.working b := by
  unfold Thread.pop; cases h : a.stack <;> simp [Thread.working, h]

theorem Thread.pops_working (k : Nat) (a b : Thread) :
    Nat.repeat Thread.pop k (a.working b) = (Nat.repeat Thread.pop k a).working b := by
  induction k with
  | zero => rfl
  | succ k ih => simp only [Nat.repeat, ih, Thread.pop_working]

theorem Thread.pops_add (j k : Nat) (a : Thread) :
    Nat.repeat Thread.pop j (Nat.repeat Thread.pop k a) = Nat.repeat Thread.pop (j + k) a := by
  induction j with
  | zero => simp [Nat.repeat]
  | succ j ih => rw [Nat.succ_add]; simp only [Nat.repeat, ih]

theorem Thread.pops_eq (k : Nat) (a : Thread) : (Nat.repeat Thread.pop k a).working a = Nat.repeat Thread.pop k a := by
  have h := Thread.pops_working k a a
  rw [Thread.working_self] at h
  exact h.symm

/-- Only MR and its stack change in a pop. -/
theorem Thread.pops_fields (k : Nat) (a : Thread) : ∃ mr stack, Nat.repeat Thread.pop k a = { a with mr, stack } := by
  induction k with
  | zero => exact ⟨a.mr, a.stack, rfl⟩
  | succ k ih =>
    obtain ⟨mr, st, h⟩ := ih
    simp only [Nat.repeat, h]
    unfold Thread.pop
    cases st with
    | nil => exact ⟨_, _, rfl⟩
    | cons m r => exact ⟨_, _, rfl⟩

/-! ## The relation -/

/-- Two threads that differ in working state and pops only. -/
def Thread.Near (a b : Thread) : Prop := ∃ k, b = (Nat.repeat Thread.pop k a).working b

theorem Thread.Near.refl (a : Thread) : a.Near a := ⟨0, rfl⟩

theorem Thread.Near.trans {a b c : Thread} (h : a.Near b) (h' : b.Near c) : a.Near c := by
  obtain ⟨j, hj⟩ := h
  obtain ⟨k, hk⟩ := h'
  refine ⟨k + j, ?_⟩
  rw [← Thread.pops_add, hk, hj, Thread.pops_working, Thread.working_working]
  rfl

theorem Thread.Near.fields {a b : Thread} (h : a.Near b) :
    b.rows = a.rows ∧ b.live = a.live ∧ b.h = a.h ∧ b.held = a.held ∧ b.wct = a.wct ∧ b.parent = a.parent := by
  obtain ⟨k, h⟩ := h
  obtain ⟨mr, st, hk⟩ := Thread.pops_fields k a
  rw [hk] at h
  rw [h]
  exact ⟨rfl, rfl, rfl, rfl, rfl, rfl⟩

/-- Two groups whose threads are near each other, and which differ in nothing else but the timer of their rendezvous. -/
structure Group.Near (G G' : Group) : Prop where
  eq : G' = { G with threads := G'.threads, timer := G'.timer, tskip := G'.tskip }
  thread : ∀ l, (G.thread l).Near (G'.thread l)

theorem Group.Near.refl (G : Group) : G.Near G := ⟨rfl, fun _ => .refl _⟩

theorem Group.Near.trans {a b c : Group} (h : a.Near b) (h' : b.Near c) : a.Near c := by
  refine ⟨?_, fun l => (h.thread l).trans (h'.thread l)⟩
  rw [h'.eq, h.eq]

/-- The updated state differs from the other in the working state of the threads of one team and in the Kiln only. -/
structure State.Near (t : Nat) (s u : State) : Prop where
  only : u = { s with teams := u.teams, kiln := u.kiln }
  others : ∀ t', t' ≠ t → u.team? t' = s.team? t'
  team : ∀ T, s.team? t = some T → ∃ T', u.team? t = some T' ∧ T' = { T with groups := T'.groups }
  absent : s.team? t = none → u.team? t = none
  group : ∀ g, (s.group? t g = none ∧ u.group? t g = none) ∨
    ∃ G G', s.group? t g = some G ∧ u.group? t g = some G' ∧ G.Near G'

theorem State.Near.refl (t : Nat) (s : State) : s.Near t s := by
  refine ⟨rfl, fun _ _ => rfl, fun T h => ⟨T, h, rfl⟩, id, fun g => ?_⟩
  cases h : s.group? t g with
  | none => exact .inl ⟨rfl, rfl⟩
  | some G => exact .inr ⟨G, G, rfl, rfl, .refl G⟩

theorem State.Near.trans {t : Nat} {s u v : State} (h : s.Near t u) (h' : u.Near t v) : s.Near t v := by
  refine ⟨?_, fun t' ht => (h'.others t' ht).trans (h.others t' ht), ?_, fun hs => h'.absent (h.absent hs), ?_⟩
  · rw [h'.only, h.only]
  · intro T hT
    obtain ⟨T1, hT1, e1⟩ := h.team T hT
    obtain ⟨T2, hT2, e2⟩ := h'.team T1 hT1
    exact ⟨T2, hT2, by rw [e2, e1]⟩
  · intro g
    rcases h.group g with ⟨a, b⟩ | ⟨G, G1, a, b, n⟩
    · rcases h'.group g with ⟨c, d⟩ | ⟨G, G', c, d, -⟩
      · exact .inl ⟨a, d⟩
      · rw [b] at c; cases c
    · rcases h'.group g with ⟨c, d⟩ | ⟨G1', G2, c, d, n'⟩
      · rw [b] at c; cases c
      · rw [b] at c; cases c
        exact .inr ⟨G, G2, a, d, n.trans n'⟩

theorem State.Near.fold {α : Type} {t : Nat} (f : State → α → State) (h : ∀ (s : State) (a : α), s.Near t (f s a)) (l : List α) (s : State) :
    s.Near t (l.foldl f s) := by
  induction l generalizing s with
  | nil => exact .refl t s
  | cons a l ih => exact (h s a).trans (ih (f s a))

theorem State.Near.thread {t : Nat} {s u : State} (h : s.Near t u) (g l : Nat) : (s.thread t g l).Near (u.thread t g l) := by
  unfold State.thread
  rcases h.group g with ⟨a, b⟩ | ⟨G, G', a, b, n⟩
  · rw [a, b]; exact .refl _
  · rw [a, b]; exact n.thread l

theorem State.Near.kilnOnly (t : Nat) (s : State) (k : SMap Row) : s.Near t { s with kiln := k } := by
  have h := State.Near.refl t s
  exact ⟨rfl, h.others, h.team, h.absent, h.group⟩

/-- The sub-core and the core of a lane stay, and so do its row pointers. -/
theorem State.Near.rowAt {t : Nat} {s u : State} (h : s.Near t u) (t' g l i : Nat) : u.rowAt t' g l i = s.rowAt t' g l i := by
  unfold State.rowAt
  by_cases ht : t' = t
  · subst ht
    cases hT : s.team? t' with
    | none => rw [h.absent hT]
    | some T =>
      obtain ⟨T', hT', e⟩ := h.team T hT
      rw [hT']
      have hc : T'.core = T.core := by rw [e]
      have hth := (h.thread g l).fields.1
      have hs : (T'.ln g l).sub = (T.ln g l).sub := by
        rw [Team.ln_sub, Team.ln_sub]
        have e1 : T'.group? g = u.group? t' g := by simp [State.group?, hT']
        have e2 : T.group? g = s.group? t' g := by simp [State.group?, hT]
        rw [e1, e2]
        rcases h.group g with ⟨a, b⟩ | ⟨G, G', a, b, n⟩
        · rw [a, b]
        · rw [a, b]; simp only [Option.map_some, Option.getD_some]; rw [n.eq]
      simp only [Team.ln_th hT', Team.ln_th hT, hth, hc, hs]
  · rw [h.others t' ht]

/-! ## Updates that satisfy it -/

theorem State.Near.modGroup (t g : Nat) (f : Group → Group) (hf : ∀ G : Group, G.Near (f G)) (s : State) : s.Near t (s.modGroup t g f) := by
  refine ⟨rfl, ?_, ?_, ?_, ?_⟩
  · exact fun t' ht => State.team?_modTeam_ne s (·.modGroup g f) (fun _ => rfl) ht
  · intro T hT
    exact ⟨T.modGroup g f, State.team?_modTeam_eq (·.modGroup g f) (fun _ => rfl) hT, rfl⟩
  · intro hT
    show (s.modTeam t (·.modGroup g f)).team? t = Option.none
    rw [State.team?_modTeam s t t (·.modGroup g f) (fun _ => rfl), hT]; rfl
  · intro g'
    rw [State.group?_modGroup]
    cases h : s.group? t g' with
    | none => exact .inl ⟨rfl, rfl⟩
    | some G =>
      refine .inr ⟨G, _, rfl, rfl, ?_⟩
      split
      · exact hf G
      · exact .refl G

theorem Group.Near.modThread (G : Group) (l : Nat) (f : Thread → Thread) (hf : ∀ th : Thread, th.Near (f th)) : G.Near (G.modThread l f) := by
  refine ⟨rfl, fun l' => ?_⟩
  rw [Group.thread_modThread]
  split
  · rename_i h; rw [h.1]; exact hf _
  · exact .refl _

theorem State.Near.modThread (t g l : Nat) (f : Thread → Thread) (hf : ∀ th : Thread, th.Near (f th)) (s : State) :
    s.Near t (s.modThread t g l f) := .modGroup t g _ (fun G => .modThread G l f hf) s

theorem Group.Near.fold {α : Type} (f : Group → α → Group) (h : ∀ (G : Group) (a : α), G.Near (f G a)) (l : List α) (G : Group) :
    G.Near (l.foldl f G) := by
  induction l generalizing G with
  | nil => exact .refl G
  | cons a l ih => exact (h G a).trans (ih (f G a))

theorem Thread.Near.pop (th : Thread) : th.Near th.pop := ⟨1, rfl⟩

theorem Thread.Near.next (th : Thread) : th.Near th.next := ⟨0, rfl⟩

theorem Group.Near.settle (fuel : Nat) (G : Group) : G.Near (G.settle fuel) := by
  induction fuel generalizing G with
  | zero => exact .refl G
  | succ n ih =>
    unfold Group.settle
    simp only
    split
    · exact .refl G
    · exact (Group.Near.fold _ (fun G l => .modThread G l _ .pop) _ G).trans (ih _)

theorem Group.Near.closeHeld (G : Group) : G.Near G.closeHeld := by
  unfold Group.closeHeld
  refine Group.Near.fold _ (fun G l => ?_) _ G
  split
  · exact .modThread G l _ fun th => ⟨0, rfl⟩
  · exact .refl G

theorem Group.Near.settled (det : Bool) (G : Group) : G.Near (G.settled det) := by
  unfold Group.settled
  split
  · exact (Group.Near.closeHeld G).trans (.settle _ _)
  · exact .settle _ G

theorem State.Near.settle (t g : Nat) (s : State) : s.Near t (s.settle t g) := by
  unfold State.settle
  exact .modGroup t g _ (Group.Near.settled _) s

theorem State.Near.nextLanes (t g : Nat) (lanes : List Nat) (s : State) : s.Near t (s.nextLanes t g lanes) := by
  unfold State.nextLanes
  exact (State.Near.modGroup t g _ (fun G => .fold _ (fun G l => .modThread G l _ .next) lanes G) s).trans (.settle t g _)

end Sys2Proof.Machine
end

