-- ==== Sys2Proof/Laws/Write.lean ====
section
/-! SUPPORT. Writing a register in place (R20, R104): the register written, and every other one. -/

namespace Sys2Proof.Machine

open Sys2Proof

/-! ## Bits -/

theorem setBit_getLsbD {w : Nat} (x : BitVec w) (i j : Nat) (b : Bool) :
    (setBit x i b).getLsbD j = if j = i ∧ i < w then b else x.getLsbD j := by
  unfold setBit
  by_cases hj : j = i
  · subst hj
    by_cases hw : j < w
    · cases b <;> simp [hw]
    · have hx := BitVec.getLsbD_of_ge x j (Nat.le_of_not_lt hw)
      cases b <;> simp [hw, hx]
  · cases b
    · simp only [Bool.false_eq_true, if_false, BitVec.getLsbD_and, BitVec.getLsbD_not, BitVec.getLsbD_shiftLeft, hj, false_and]
      by_cases hw : j < w
      · have : (1#w).getLsbD (j - i) = false ∨ j < i := by
          by_cases hlt : j < i
          · exact .inr hlt
          · left; rw [BitVec.getLsbD_one]; simp; intro _; omega
        rcases this with h | h <;> simp [h, hw]
      · simp [BitVec.getLsbD_of_ge _ _ (Nat.le_of_not_lt hw)]
    · simp only [if_true, BitVec.getLsbD_or, BitVec.getLsbD_shiftLeft, hj, false_and, if_false]
      have : (1#w).getLsbD (j - i) = false ∨ j < i := by
        by_cases hlt : j < i
        · exact .inr hlt
        · left; rw [BitVec.getLsbD_one]; simp; intro _; omega
      rcases this with h | h <;> simp [h]

/-! ## Rows -/

theorem State.row_putRow (s : State) (k k' : Nat) (r : Row) (h : r.count ≠ 0) :
    (s.putRow k r).row k' = if k' = k then r else s.row k' := by
  have hd : r ≠ rowDefault := by intro e; rw [e] at h; exact h rfl
  unfold State.putRow State.setRow State.row
  have hc : ¬(r.count = 0 ∧ r.pend = 0#8) := fun x => h x.1
  rw [if_neg hc]
  split
  · rename_i hk
    rw [hk]
    show Sparse.get rowDefault (Sparse.set rowDefault s.kiln k r) k = r
    unfold Sparse.set
    rw [if_neg hd]
    exact Sparse.get_insert_eq _ _ _ _
  · rename_i hk
    exact Sparse.get_set_ne _ _ hk

theorem State.team?_putRow (s : State) (k t : Nat) (r : Row) : (s.putRow k r).team? t = s.team? t := rfl

theorem State.thread_putRow (s : State) (k t g l : Nat) (r : Row) : (s.putRow k r).thread t g l = s.thread t g l := rfl

theorem State.group?_putRow (s : State) (k t g : Nat) (r : Row) : (s.putRow k r).group? t g = s.group? t g := rfl

theorem State.row_modThread (s : State) (t g l k : Nat) (f : Thread → Thread) : (s.modThread t g l f).row k = s.row k := rfl

/-! ## Registers -/

theorem State.reg_eq {s : State} {t g l n : Nat} :
    s.reg t g l n = match s.rowAt t g l (n / 8) with
      | none => { val := 0#32, taint := false, poison := false, pend := false, unk := false }
      | some k => { val := vget (s.row k).regs (n % 8) 0#32, taint := (s.thread t g l).taint.getLsbD n,
                    poison := (s.row k).poison.getLsbD (n % 8), pend := (s.row k).pend.getLsbD (n % 8),
                    unk := (s.thread t g l).unkV.getLsbD n } := by
  unfold State.reg State.rowAt
  cases h : s.team? t with
  | none => rfl
  | some T =>
    simp only [State.rd, Ln.key?, Team.ln_l, Team.ln_core, Team.ln_th h] <;>
      cases vget (s.thread t g l).rows (n / 8) none <;> rfl

theorem State.reg_team {s : State} {t : Nat} {T : Team} (h : s.team? t = some T) (g l n : Nat) :
    s.reg t g l n = s.rd (T.ln g l) n := by
  unfold State.reg; rw [h]

/-- A row pointer that names a row is one of 32. -/
theorem State.rowAt_lt {s : State} {t g l i k : Nat} (h : s.rowAt t g l i = some k) : i < 32 := by
  unfold State.rowAt at h
  split at h
  · cases h
  · unfold vget at h
    by_cases hi : i < 32
    · exact hi
    · rw [Vector.getElem?_eq_none (Nat.le_of_not_lt hi)] at h
      simp at h

theorem State.thread_live_of_rowAt {s : State} {t g l i k : Nat} (h : s.rowAt t g l i = some k) :
    l < 32 ∧ (s.group? t g).isSome = true := by
  unfold State.rowAt at h
  split at h
  · cases h
  · rename_i T hT
    rw [Team.ln_th hT] at h
    constructor
    · by_cases hl : l < 32
      · exact hl
      · rw [State.thread_ge (Nat.le_of_not_lt hl)] at h
        simp [threadIdle, vget, Vector.getElem?_replicate] at h
        split at h <;> simp at h
    · cases hg : s.group? t g with
      | some G => rfl
      | none =>
        unfold State.thread at h
        rw [hg] at h
        simp [threadIdle, vget, Vector.getElem?_replicate] at h
        split at h <;> simp at h

/-- The state after a register in a row of its own is written in place. -/
theorem State.wr_eq {s : State} {t g l n k : Nat} (v : Word) (b : Bool) (h : s.rowAt t g l (n / 8) = some k) :
    s.wr t g l n v b =
      (s.putRow k { s.row k with regs := vset (s.row k).regs (n % 8) v, poison := setBit (s.row k).poison (n % 8) false }).modThread
        t g l fun th => { th with taint := setBit th.taint n b, unkV := setBit th.unkV n false } := by
  unfold State.rowAt at h
  unfold State.wr
  split at h
  · cases h
  · rename_i T hT
    simp only [hT, Ln.key?, Team.ln_l, Team.ln_core, h]

theorem State.Near.wr (t g l n : Nat) (v : Word) (b : Bool) (s : State) : s.Near t (s.wr t g l n v b) := by
  unfold State.wr
  cases s.team? t with
  | none => exact .refl t s
  | some T =>
    simp only
    cases (T.ln g l).key? n with
    | none => exact .refl t s
    | some k =>
      simp only
      exact (State.Near.kilnOnly t s _).trans (.modThread t g l _ (fun th => ⟨0, rfl⟩) _)

theorem State.thread_wr (s : State) (t g l n : Nat) (v : Word) (b : Bool) (t' g' l' : Nat) :
    ∃ ta un, (s.wr t g l n v b).thread t' g' l' = { s.thread t' g' l' with taint := ta, unkV := un } := by
  unfold State.wr
  split
  · exact ⟨_, _, rfl⟩
  · simp only
    split
    · exact ⟨_, _, rfl⟩
    · rw [State.thread_modThread]
      split
      · rename_i h; obtain ⟨rfl, rfl, rfl, -⟩ := h; exact ⟨_, _, rfl⟩
      · exact ⟨_, _, rfl⟩

theorem State.row_count_wr {s : State} {t g l n k : Nat} (v : Word) (b : Bool) (h : s.rowAt t g l (n / 8) = some k)
    (hc : (s.row k).count = 1) (k' : Nat) : ((s.wr t g l n v b).row k').count = (s.row k').count := by
  rw [State.wr_eq v b h, State.row_modThread, State.row_putRow _ _ _ _ (by simp [hc])]
  split
  · rename_i e; rw [e]
  · rfl

/-- A register written in a row of its own reads as written; every other register reads as before. -/
theorem State.reg_wr {s : State} {t g l n : Nat} (v : Word) (b : Bool) (h : s.owns t g l (n / 8)) (t' g' l' n' : Nat) :
    (s.wr t g l n v b).reg t' g' l' n' =
      if t' = t ∧ g' = g ∧ l' = l ∧ n' = n then { s.reg t g l n with val := v, taint := b, poison := false, unk := false }
      else s.reg t' g' l' n' := by
  obtain ⟨k, hk, hc, alone⟩ := h
  have hn := State.rowAt_lt hk
  have hl := State.thread_live_of_rowAt hk
  have hrow : ∀ k', (s.wr t g l n v b).row k' = if k' = k then
      { s.row k with regs := vset (s.row k).regs (n % 8) v, poison := setBit (s.row k).poison (n % 8) false }
      else s.row k' := by
    intro k'
    rw [State.wr_eq v b hk, State.row_modThread, State.row_putRow _ _ _ _ (by simp [hc])]
  have hth : (s.wr t g l n v b).thread t' g' l' = if t' = t ∧ g' = g ∧ l' = l then
      { s.thread t g l with taint := setBit (s.thread t g l).taint n b, unkV := setBit (s.thread t g l).unkV n false }
      else s.thread t' g' l' := by
    rw [State.wr_eq v b hk, State.thread_modThread]
    simp only [State.group?_putRow, hl.1, hl.2, and_true, State.thread_putRow]
  rw [State.reg_eq, State.reg_eq, State.reg_eq, (State.Near.wr t g l n v b s).rowAt, hth]
  by_cases h1 : t' = t ∧ g' = g ∧ l' = l
  · obtain ⟨rfl, rfl, rfl⟩ := h1
    simp only [true_and, if_true]
    by_cases h2 : n' = n
    · subst h2
      simp only [if_true, hk, hrow]
      have h8 : n' % 8 < 8 := Nat.mod_lt _ (by decide)
      have h256 : n' < 256 := by omega
      simp only [vget_vset, setBit_getLsbD, h8, h256, and_self, if_true]
    · simp only [h2, if_false]
      cases hk' : s.rowAt t' g' l' (n' / 8) with
      | none => rfl
      | some k' =>
        simp only [setBit_getLsbD, h2, false_and, if_false, hrow]
        by_cases hkk : k' = k
        · subst hkk
          have := (alone _ _ _ _ hk').2.2.2
          have h3 : n' % 8 ≠ n % 8 := by omega
          simp [vget_vset, setBit_getLsbD, h3]
        · simp [hkk]
  · have h2 : ¬(t' = t ∧ g' = g ∧ l' = l ∧ n' = n) := fun x => h1 ⟨x.1, x.2.1, x.2.2.1⟩
    simp only [h1, h2, if_false]
    cases hk' : s.rowAt t' g' l' (n' / 8) with
    | none => rfl
    | some k' =>
      have hkk : k' ≠ k := by
        intro e; subst e
        have := alone _ _ _ _ hk'
        exact h1 ⟨this.1, this.2.1, this.2.2.1⟩
      simp [hrow, hkk]

/-- Rows of their own stay so. -/
theorem State.owns_wr {s : State} {t g l n : Nat} (v : Word) (b : Bool) (h : s.owns t g l (n / 8)) {t' g' l' i : Nat}
    (h' : s.owns t' g' l' i) : (s.wr t g l n v b).owns t' g' l' i := by
  obtain ⟨k, hk, hc, -⟩ := h
  obtain ⟨k', hk', hc', alone⟩ := h'
  refine ⟨k', ?_, ?_, ?_⟩
  · rw [(State.Near.wr t g l n v b s).rowAt]; exact hk'
  · rw [State.row_count_wr v b hk hc]; exact hc'
  · intro a b' c d e
    rw [(State.Near.wr t g l n v b s).rowAt] at e
    exact alone a b' c d e

end Sys2Proof.Machine
end

