-- ==== Sys2Proof/Laws/Put.lean ====
section
/-! SUPPORT. One lane's results written (R51): registers, predicates, TSW and PC of the lane, and nothing else. -/

namespace Sys2Proof.Machine

open Sys2Proof

/-! ## Lists of writes -/

theorem lookup_none_of_not_mem {α : Type} {n : Nat} {vs : List (Nat × α)} (h : n ∉ vs.map (·.1)) : vs.lookup n = none := by
  induction vs with
  | nil => rfl
  | cons e vs ih =>
    simp only [List.map_cons, List.mem_cons, not_or] at h
    have he : (n == e.1) = false := by simpa using h.1
    obtain ⟨a, b⟩ := e
    simp only [List.lookup_cons, he]
    exact ih h.2

theorem State.regs_fold {t g l : Nat} {b : Bool} (vs : List (Nat × Word)) :
    ∀ (s : State), (∀ x ∈ vs, s.owns t g l (x.1 / 8)) → (vs.map (·.1)).Nodup → ∀ t' g' l' n',
      { (vs.foldl (fun s x => s.wr t g l x.1 x.2 b) s).reg t' g' l' n' with unk := false } =
        if t' = t ∧ g' = g ∧ l' = l then
          { (match vs.lookup n' with
             | some x => { s.reg t' g' l' n' with val := x, taint := b, poison := false }
             | none => s.reg t' g' l' n') with unk := false }
        else { s.reg t' g' l' n' with unk := false } := by
  induction vs with
  | nil => intro s _ _ t' g' l' n'; simp
  | cons e vs ih =>
    obtain ⟨n, v⟩ := e
    intro s ho hnd t' g' l' n'
    simp only [List.map_cons, List.nodup_cons] at hnd
    have hn : s.owns t g l (n / 8) := ho (n, v) (by simp)
    have ho' : ∀ x ∈ vs, (s.wr t g l n v b).owns t g l (x.1 / 8) :=
      fun x hx => State.owns_wr v b hn (ho x (by simp [hx]))
    rw [List.foldl_cons, ih _ ho' hnd.2]
    by_cases h1 : t' = t ∧ g' = g ∧ l' = l
    · obtain ⟨rfl, rfl, rfl⟩ := h1
      simp only [and_self, if_true, State.reg_wr v b hn, true_and, List.lookup_cons]
      by_cases h2 : n' = n
      · subst h2
        have := lookup_none_of_not_mem hnd.1
        simp [this]
      · have hb : (n' == n) = false := by simpa using h2
        simp [h2, hb]
    · have h2 : ¬(t' = t ∧ g' = g ∧ l' = l ∧ n' = n) := fun x => h1 ⟨x.1, x.2.1, x.2.2.1⟩
      simp only [h1, if_false, State.reg_wr v b hn, h2]

theorem State.owns_fold {t g l : Nat} {b : Bool} (vs : List (Nat × Word)) :
    ∀ (s : State), (∀ x ∈ vs, s.owns t g l (x.1 / 8)) → ∀ t' g' l' i, s.owns t' g' l' i →
      (vs.foldl (fun s x => s.wr t g l x.1 x.2 b) s).owns t' g' l' i := by
  induction vs with
  | nil => intro s _ t' g' l' i h; exact h
  | cons e vs ih =>
    obtain ⟨n, v⟩ := e
    intro s ho t' g' l' i h
    have hn : s.owns t g l (n / 8) := ho (n, v) (by simp)
    rw [List.foldl_cons]
    exact ih _ (fun x hx => State.owns_wr v b hn (ho x (by simp [hx]))) _ _ _ _ (State.owns_wr v b hn h)

theorem State.thread_fold {t g l : Nat} {b : Bool} (vs : List (Nat × Word)) :
    ∀ (s : State) (t' g' l' : Nat), ∃ ta un,
      (vs.foldl (fun s x => s.wr t g l x.1 x.2 b) s).thread t' g' l' = { s.thread t' g' l' with taint := ta, unkV := un } := by
  induction vs with
  | nil => intro s t' g' l'; exact ⟨_, _, rfl⟩
  | cons e vs ih =>
    intro s t' g' l'
    obtain ⟨ta, un, h⟩ := ih (s.wr t g l e.1 e.2 b) t' g' l'
    obtain ⟨ta', un', h'⟩ := State.thread_wr s t g l e.1 e.2 b t' g' l'
    refine ⟨ta, un, ?_⟩
    rw [List.foldl_cons, h, h']

/-- Threads of other lanes are left as they are. -/
theorem State.thread_fold_ne {t g l : Nat} {b : Bool} (vs : List (Nat × Word)) {t' g' l' : Nat}
    (hne : ¬(t' = t ∧ g' = g ∧ l' = l)) :
    ∀ (s : State), (vs.foldl (fun s x => s.wr t g l x.1 x.2 b) s).thread t' g' l' = s.thread t' g' l' := by
  induction vs with
  | nil => intro s; rfl
  | cons e vs ih =>
    intro s
    rw [List.foldl_cons, ih]
    unfold State.wr
    split
    · rfl
    · simp only
      split
      · rfl
      · rw [State.thread_modThread, if_neg (fun x => hne ⟨x.1, x.2.1, x.2.2.1⟩), State.thread_putRow]

/-! ## Predicates -/

theorem Thread.setQ_preds (th : Thread) (q : PReg) (b : Bool) (p : Nat) (hp : p < 7) :
    (th.setQ q b).preds.getLsbD p = if q.toNat = p then b else th.preds.getLsbD p := by
  unfold Thread.setQ
  split
  · rename_i h
    have : q.toNat = 7 := by rw [h]; rfl
    rw [if_neg (by omega)]
  · simp only [setBit_getLsbD]
    by_cases h : q.toNat = p
    · subst h; simp [hp]
    · rw [if_neg (fun x => h x.1.symm), if_neg h]

theorem Thread.setQ_other (th : Thread) (q : PReg) (b : Bool) :
    ∃ pr uq, th.setQ q b = { th with preds := pr, unkQ := uq } := by
  unfold Thread.setQ
  split
  · exact ⟨_, _, rfl⟩
  · exact ⟨_, _, rfl⟩

theorem setQ_fold_other (qs : List (PReg × Bool)) : ∀ th : Thread,
    ∃ pr uq, qs.foldl (fun th x => th.setQ x.1 x.2) th = { th with preds := pr, unkQ := uq } := by
  induction qs with
  | nil => intro th; exact ⟨_, _, rfl⟩
  | cons e qs ih =>
    intro th
    obtain ⟨a, b, h⟩ := ih (th.setQ e.1 e.2)
    obtain ⟨a', b', h'⟩ := Thread.setQ_other th e.1 e.2
    exact ⟨a, b, by rw [List.foldl_cons, h, h']⟩

theorem setQ_fold_preds (qs : List (PReg × Bool)) : ∀ (th : Thread), (qs.map (·.1)).Nodup → ∀ p, p < 7 →
    (qs.foldl (fun th x => th.setQ x.1 x.2) th).preds.getLsbD p =
      (qs.lookup (BitVec.ofNat 3 p)).getD (th.preds.getLsbD p) := by
  induction qs with
  | nil => intro th _ p _; rfl
  | cons e qs ih =>
    obtain ⟨q, b⟩ := e
    intro th hnd p hp
    simp only [List.map_cons, List.nodup_cons] at hnd
    rw [List.foldl_cons, ih _ hnd.2 p hp, Thread.setQ_preds _ _ _ _ hp, List.lookup_cons]
    have he : (BitVec.ofNat 3 p == q) = decide (q.toNat = p) := by
      by_cases h : q.toNat = p
      · subst h; simp
      · have : BitVec.ofNat 3 p ≠ q := by
          intro hh; apply h; rw [← hh]; simp; omega
        simp [h, this]
    rw [he]
    by_cases h : q.toNat = p
    · have : qs.lookup (BitVec.ofNat 3 p) = none := by
        have hq : BitVec.ofNat 3 p = q := by subst h; simp
        rw [hq]
        cases hl : qs.lookup q with
        | none => rfl
        | some x =>
          exfalso; apply hnd.1
          obtain ⟨l1, l2, e, -⟩ := List.lookup_eq_some_iff.mp hl
          rw [e]; simp
      simp [h, this]
    · simp [h]

/-! ## Results -/

/-- A result that writes registers, predicates and TSW of its lane, each once, and sends the lane on. -/
structure Res.Plain (r : Res) : Prop where
  latch : ∃ a b : Option (Option Word), ∀ th, r.latch th = { th with clkLatch := a.getD th.clkLatch, gtLatch := b.getD th.gtLatch }
  hold : r.hold = none
  regs : (r.v.map (·.1)).Nodup
  preds : (r.q.map (·.1)).Nodup

/-- What `put` does to the thread of its lane, once the registers are written. -/
def Res.finish (r : Res) (unk : Bool) (th : Thread) : Thread :=
  let th := r.q.foldl (fun th (p, b) => th.setQ p b) th
  let th := (r.latch th).orFlags r.flags
  let th := if r.idz then th.setIdz else th
  let th := if r.clear then th.clearTsw else th
  let th := match r.goto with | some p => { th with pc := p - 8#32 } | none => th
  let th := match r.hold with | some w => { th with wait := w } | none => th
  if unk || r.unk then
    { th with unkV := r.v.foldl (fun b (n, _) => setBit b n true) th.unkV,
              unkQ := r.q.foldl (fun b (p, _) => if p = 7#3 then b else setBit b p.toNat true) th.unkQ }
  else th

theorem Res.tsw_eq (r : Res) (th : Thread) :
    (let th := th.orFlags r.flags
     let th := if r.idz then th.setIdz else th
     if r.clear then th.clearTsw else th) = { th with tsw := r.tswOf th.tsw } := by
  unfold Res.tswOf Thread.orFlags Thread.setIdz Thread.clearTsw
  cases r.idz <;> cases r.clear <;> rfl

theorem Res.finish_eq {r : Res} (hr : r.Plain) (unk : Bool) (th : Thread) : ∃ un uq, r.finish unk th =
    { th with preds := (r.q.foldl (fun th x => th.setQ x.1 x.2) th).preds, clkLatch := (r.latch th).clkLatch,
              gtLatch := (r.latch th).gtLatch, tsw := r.tswOf th.tsw, pc := (r.goto.map (· - 8#32)).getD th.pc, unkV := un, unkQ := uq } := by
  obtain ⟨pr, uq, hq⟩ := setQ_fold_other r.q th
  obtain ⟨a, b, hl⟩ := hr.latch
  have ht := Res.tsw_eq r { th with preds := pr, unkQ := uq, clkLatch := a.getD th.clkLatch, gtLatch := b.getD th.gtLatch }
  unfold Res.finish
  simp only at ht
  simp only [hq, hl, hr.hold, ht]
  cases r.goto with
  | none =>
    cases (unk || r.unk)
    · exact ⟨th.unkV, uq, rfl⟩
    · exact ⟨_, _, rfl⟩
  | some p =>
    cases (unk || r.unk)
    · exact ⟨th.unkV, uq, rfl⟩
    · exact ⟨_, _, rfl⟩

theorem State.put_eq (s : State) (ln : Ln) (r : Res) (taint unk : Bool) : s.put ln r taint unk =
    (r.v.foldl (fun s x => s.wr ln.t ln.g ln.l x.1 x.2 (r.taint.getD taint)) s).modThread ln.t ln.g ln.l (r.finish unk) := rfl

theorem State.Near.put {r : Res} (hr : r.Plain) (ln : Ln) (taint unk : Bool) (s : State) : s.Near ln.t (s.put ln r taint unk) := by
  rw [State.put_eq]
  refine (State.Near.fold (fun s x => s.wr ln.t ln.g ln.l x.1 x.2 (r.taint.getD taint)) (fun s x => .wr _ _ _ _ _ _ s) r.v s).trans ?_
  refine .modThread _ _ _ _ (fun th => ?_) _
  obtain ⟨un, uq, h⟩ := Res.finish_eq hr unk th
  exact ⟨0, by rw [h]; rfl⟩

theorem State.thread_put_ne {r : Res} {ln : Ln} {t g l : Nat} (hne : ¬(t = ln.t ∧ g = ln.g ∧ l = ln.l)) (taint unk : Bool)
    (s : State) : (s.put ln r taint unk).thread t g l = s.thread t g l := by
  rw [State.put_eq, State.thread_modThread, if_neg (fun x => hne ⟨x.1, x.2.1, x.2.2.1⟩), State.thread_fold_ne _ hne]

/-- Predicates, TSW and PC of the lane after its results are written; what else may have changed is the taint of its registers,
the latches of the counters and the marks of run-ahead. -/
theorem State.thread_put {r : Res} (hr : r.Plain) {ln : Ln} (hl : ln.l < 32) {s : State}
    (hg : (s.group? ln.t ln.g).isSome = true) (taint unk : Bool) :
    let th := s.thread ln.t ln.g ln.l
    let th' := (s.put ln r taint unk).thread ln.t ln.g ln.l
    (∀ p, p < 7 → th'.preds.getLsbD p = (r.q.lookup (BitVec.ofNat 3 p)).getD (th.preds.getLsbD p)) ∧
    th'.tsw = r.tswOf th.tsw ∧ th'.pc = (r.goto.map (· - 8#32)).getD th.pc ∧
    th'.clkLatch = (r.latch th).clkLatch ∧ th'.gtLatch = (r.latch th).gtLatch := by
  rw [State.put_eq]
  simp only
  have hn := State.Near.fold (t := ln.t) (fun s x => s.wr ln.t ln.g ln.l x.1 x.2 (r.taint.getD taint))
    (fun s (x : Nat × Word) => .wr _ _ _ _ _ _ s) r.v s
  have hg' : ((r.v.foldl (fun s x => s.wr ln.t ln.g ln.l x.1 x.2 (r.taint.getD taint)) s).group? ln.t ln.g).isSome = true := by
    rcases hn.group ln.g with ⟨a, _⟩ | ⟨G, G', a, b, -⟩
    · rw [a] at hg; cases hg
    · rw [b]; rfl
  rw [State.thread_modThread, if_pos ⟨rfl, rfl, rfl, hl, hg'⟩]
  obtain ⟨ta, un, hf⟩ := State.thread_fold (t := ln.t) (g := ln.g) (l := ln.l) (b := r.taint.getD taint) r.v s ln.t ln.g ln.l
  obtain ⟨un', uq, h⟩ := Res.finish_eq hr unk
    ((r.v.foldl (fun s x => s.wr ln.t ln.g ln.l x.1 x.2 (r.taint.getD taint)) s).thread ln.t ln.g ln.l)
  obtain ⟨a, b, hl⟩ := hr.latch
  rw [h]
  refine ⟨fun p hp => ?_, ?_, ?_, ?_, ?_⟩
  · simp only
    rw [setQ_fold_preds r.q _ hr.preds p hp, hf]
  · simp only; rw [hf]
  · simp only; rw [hf]
  · simp only [hl]; rw [hf]
  · simp only [hl]; rw [hf]

/-- The registers after a lane's results are written. -/
theorem State.reg_put {r : Res} (hr : r.Plain) {ln : Ln} {s : State} (ho : ∀ x ∈ r.v, s.owns ln.t ln.g ln.l (x.1 / 8))
    (taint unk : Bool) (t' g' l' n' : Nat) :
    { (s.put ln r taint unk).reg t' g' l' n' with unk := false } =
      { (if t' = ln.t ∧ g' = ln.g ∧ l' = ln.l then r.regOf taint n' (s.reg t' g' l' n') else s.reg t' g' l' n')
        with unk := false } := by
  have h1 := State.regs_fold (t := ln.t) (g := ln.g) (l := ln.l) (b := r.taint.getD taint) r.v s ho hr.regs t' g' l' n'
  have h2 : { (s.put ln r taint unk).reg t' g' l' n' with unk := false } =
      { (r.v.foldl (fun s x => s.wr ln.t ln.g ln.l x.1 x.2 (r.taint.getD taint)) s).reg t' g' l' n' with unk := false } := by
    rw [State.put_eq]
    generalize (r.v.foldl (fun s x => s.wr ln.t ln.g ln.l x.1 x.2 (r.taint.getD taint)) s) = u
    have hn : u.Near ln.t (u.modThread ln.t ln.g ln.l (r.finish unk)) := by
      refine .modThread _ _ _ _ (fun th => ?_) _
      obtain ⟨un, uq, h⟩ := Res.finish_eq hr unk th
      exact ⟨0, by rw [h]; rfl⟩
    rw [State.reg_eq, State.reg_eq, hn.rowAt]
    cases u.rowAt t' g' l' (n' / 8) with
    | none => rfl
    | some k =>
      simp only [State.row_modThread]
      have : ((u.modThread ln.t ln.g ln.l (r.finish unk)).thread t' g' l').taint = (u.thread t' g' l').taint := by
        rw [State.thread_modThread]
        split
        · rename_i hc
          obtain ⟨rfl, rfl, rfl, -⟩ := hc
          obtain ⟨un, uq, h⟩ := Res.finish_eq hr unk (u.thread ln.t ln.g ln.l)
          rw [h]
        · rfl
      rw [this]
  rw [h2, h1]
  unfold Res.regOf
  split <;> rename_i hc
  · cases r.v.lookup n' <;> simp
  · simp

theorem State.owns_put {r : Res} (hr : r.Plain) {ln : Ln} {s : State} (ho : ∀ x ∈ r.v, s.owns ln.t ln.g ln.l (x.1 / 8))
    (taint unk : Bool) {t' g' l' i : Nat} (h : s.owns t' g' l' i) : (s.put ln r taint unk).owns t' g' l' i := by
  obtain ⟨k, hk, hc, alone⟩ := State.owns_fold (t := ln.t) (g := ln.g) (l := ln.l) (b := r.taint.getD taint) r.v s ho _ _ _ _ h
  rw [State.put_eq]
  generalize (r.v.foldl (fun s x => s.wr ln.t ln.g ln.l x.1 x.2 (r.taint.getD taint)) s) = u at *
  have hn : u.Near ln.t (u.modThread ln.t ln.g ln.l (r.finish unk)) := by
    refine .modThread _ _ _ _ (fun th => ?_) _
    obtain ⟨un, uq, h⟩ := Res.finish_eq hr unk th
    exact ⟨0, by rw [h]; rfl⟩
  refine ⟨k, by rw [hn.rowAt]; exact hk, hc, fun a b c d e => ?_⟩
  rw [hn.rowAt] at e
  exact alone a b c d e

end Sys2Proof.Machine
end

