-- ==== Sys2Proof/Laws/Lanes.lean ====
section
/-! SUPPORT. The shared shapes of lane by lane and single executions (R51, R131): what they come to when nothing faults and every
row is the lane's own. -/

namespace Sys2Proof.Machine

open Sys2Proof

/-! ## Many lanes written -/

theorem made_cons (ln : Ln) (acts : List Ln) (f : Ln → Res) (g l : Nat) :
    made (ln :: acts) f g l = if ln.g = g ∧ ln.l = l then some (f ln) else made acts f g l := by
  unfold made
  rw [List.find?_cons]
  by_cases h : ln.g = g ∧ ln.l = l
  · simp [h]
  · have : (ln.g == g && ln.l == l) = false := by simpa [Bool.and_eq_false_iff] using fun a b => h ⟨a, b⟩
    simp [this, h]

theorem made_none {acts : List Ln} {f : Ln → Res} {g l : Nat} (h : (g, l) ∉ acts.map fun ln => (ln.g, ln.l)) :
    made acts f g l = none := by
  induction acts with
  | nil => rfl
  | cons ln acts ih =>
    simp only [List.map_cons, List.mem_cons, not_or] at h
    rw [made_cons, if_neg (fun x => h.1 (by rw [x.1, x.2])), ih h.2]

/-- Lanes that may be written: each once, of one team, with rows of their own behind what they write. -/
structure State.Writable (s : State) (t : Nat) (acts : List Ln) (f : Ln → Res) : Prop where
  team : ∀ ln ∈ acts, ln.t = t
  lane : ∀ ln ∈ acts, ln.l < 32
  group : ∀ ln ∈ acts, (s.group? t ln.g).isSome = true
  once : (acts.map fun ln => (ln.g, ln.l)).Nodup
  plain : ∀ ln ∈ acts, (f ln).Plain
  owned : ∀ ln ∈ acts, ∀ x ∈ (f ln).v, s.owns t ln.g ln.l (x.1 / 8)

/-- The lanes' results written one lane after the other. -/
def State.puts (s : State) (f : Ln → Res) (taint unk : Ln → Bool) (acts : List Ln) : State :=
  acts.foldl (fun s ln => s.put ln (f ln) (taint ln) (unk ln)) s

theorem State.Near.isSome_group {t : Nat} {s u : State} (h : s.Near t u) (g : Nat) :
    (u.group? t g).isSome = (s.group? t g).isSome := by
  rcases h.group g with ⟨a, b⟩ | ⟨G, G', a, b, -⟩ <;> rw [a, b] <;> rfl

theorem State.puts_spec {t : Nat} {f : Ln → Res} {taint unk : Ln → Bool} (acts : List Ln) :
    ∀ s : State, s.Writable t acts f →
      s.Near t (s.puts f taint unk acts) ∧
      (∀ t' g l r, { (s.puts f taint unk acts).reg t' g l r with unk := false } =
        { (match (if t' = t then acts.find? fun ln => ln.g == g && ln.l == l else none) with
           | some ln => (f ln).regOf (taint ln) r (s.reg t' g l r)
           | none => s.reg t' g l r) with unk := false }) ∧
      (∀ g l, let th := s.thread t g l; let th' := (s.puts f taint unk acts).thread t g l
        (∀ p, p < 7 → th'.preds.getLsbD p =
          (((made acts f g l).bind fun r => r.q.lookup (BitVec.ofNat 3 p)).getD (th.preds.getLsbD p))) ∧
        th'.tsw = (match made acts f g l with | some r => r.tswOf th.tsw | none => th.tsw) ∧
        th'.pc = (((made acts f g l).bind (·.goto)).map (· - 8#32)).getD th.pc ∧
        th'.clkLatch = ((made acts f g l).map fun r => (r.latch th).clkLatch).getD th.clkLatch ∧
        th'.gtLatch = ((made acts f g l).map fun r => (r.latch th).gtLatch).getD th.gtLatch ∧
        (made acts f g l = none → th' = th)) := by
  induction acts with
  | nil =>
    intro s _
    refine ⟨.refl t s, fun t' g l r => ?_, fun g l => ?_⟩
    · simp [State.puts]
    · simp [State.puts, made]
  | cons ln acts ih =>
    intro s h
    have hm : ln ∈ ln :: acts := by simp
    have ht : ln.t = t := h.team ln hm
    have hp := h.plain ln hm
    have hl := h.lane ln hm
    have hg := h.group ln hm
    have ho : ∀ x ∈ (f ln).v, s.owns ln.t ln.g ln.l (x.1 / 8) := by rw [ht]; exact h.owned ln hm
    have hnd := h.once
    simp only [List.map_cons, List.nodup_cons] at hnd
    let u := s.put ln (f ln) (taint ln) (unk ln)
    have hu : s.Near t u := by have := State.Near.put hp ln (taint ln) (unk ln) s; rwa [ht] at this
    have hw : u.Writable t acts f := by
      refine ⟨fun x hx => h.team x (by simp [hx]), fun x hx => h.lane x (by simp [hx]), fun x hx => ?_, hnd.2,
        fun x hx => h.plain x (by simp [hx]), fun x hx y hy => ?_⟩
      · rw [hu.isSome_group]; exact h.group x (by simp [hx])
      · exact State.owns_put hp ho _ _ (h.owned x (by simp [hx]) y hy)
    obtain ⟨hn, hr, hth⟩ := ih u hw
    have hputs : s.puts f taint unk (ln :: acts) = u.puts f taint unk acts := rfl
    rw [hputs]
    refine ⟨hu.trans hn, fun t' g l r => ?_, fun g l => ?_⟩
    · rw [hr t' g l r]
      have hreg := State.reg_put hp ho (taint ln) (unk ln) t' g l r
      by_cases h1 : t' = t ∧ g = ln.g ∧ l = ln.l
      · obtain ⟨rfl, rfl, rfl⟩ := h1
        have hno : (acts.find? fun x => x.g == ln.g && x.l == ln.l) = none := by
          rw [List.find?_eq_none]
          intro x hx hc
          simp only [Bool.and_eq_true, beq_iff_eq] at hc
          exact hnd.1 (List.mem_map.mpr ⟨x, hx, by rw [hc.1, hc.2]⟩)
        rw [if_pos ⟨ht.symm, rfl, rfl⟩] at hreg
        simpa [hno] using hreg
      · have h2 : ¬(t' = ln.t ∧ g = ln.g ∧ l = ln.l) := by rw [ht]; exact h1
        rw [if_neg h2] at hreg
        by_cases h3 : t' = t
        · have h4 : (ln.g == g && ln.l == l) = false := by
            simp only [Bool.and_eq_false_iff, beq_eq_false_iff_ne]
            by_cases h5 : ln.g = g
            · exact .inr fun h6 => h1 ⟨h3, h5.symm, h6.symm⟩
            · exact .inl h5
          simp only [h3, if_true, List.find?_cons, h4]
          rw [h3] at hreg
          cases acts.find? fun x => x.g == g && x.l == l with
          | none => exact hreg
          | some x =>
            simp only
            unfold Res.regOf
            cases (f x).v.lookup r with
            | none => exact hreg
            | some v =>
              simp only at hreg ⊢
              have e := congrArg (fun q : Reg => q.pend) hreg
              simp only at e
              show Reg.mk _ _ _ _ _ = Reg.mk _ _ _ _ _
              rw [show (u.reg t g l r).pend = (s.reg t g l r).pend from e]
        · simp only [h3, if_false]
          exact hreg
    · have hthp := State.thread_put hp hl (by rw [ht]; exact hg) (taint ln) (unk ln)
      obtain ⟨a, b, c, d, e, w⟩ := hth g l
      simp only at a b c d e w ⊢
      rw [made_cons]
      by_cases h1 : ln.g = g ∧ ln.l = l
      · obtain ⟨rfl, rfl⟩ := h1
        have hno : made acts f ln.g ln.l = none := made_none hnd.1
        rw [hno] at a b c d e
        rw [ht] at hthp
        obtain ⟨a', b', c', d', e'⟩ := hthp
        simp only [and_self, if_true]
        refine ⟨fun p hp => ?_, ?_, ?_, ?_, ?_, fun h => nomatch h⟩
        · rw [a p hp]; exact a' p hp
        · rw [b]; exact b'
        · rw [c]; exact c'
        · rw [d]; exact d'
        · rw [e]; exact e'
      · rw [if_neg h1]
        have hne : ¬(t = ln.t ∧ g = ln.g ∧ l = ln.l) := fun x => h1 ⟨x.2.1.symm, x.2.2.symm⟩
        have same : u.thread t g l = s.thread t g l := State.thread_put_ne hne _ _ s
        rw [same] at a b c d e w
        exact ⟨a, b, c, d, e, w⟩

/-! ## Moving on -/

theorem Thread.next_seen (th : Thread) : th.next.seen = th.seen.next := rfl

theorem Group.fold_modThread_same {β : Type} (π : Thread → β) (f : Thread → Thread) (hf : ∀ th, π (f th) = π th) (ls : List Nat) :
    ∀ (G : Group) (l : Nat), π ((ls.foldl (fun G l => G.modThread l f) G).thread l) = π (G.thread l) := by
  induction ls with
  | nil => intro G l; rfl
  | cons a ls ih =>
    intro G l
    rw [List.foldl_cons, ih, Group.thread_modThread]
    split
    · rename_i h; rw [hf, h.1]
    · rfl

theorem Thread.pop_seen (th : Thread) : th.pop.seen = th.seen := by
  unfold Thread.pop; cases th.stack <;> rfl

theorem Group.settle_seen (n : Nat) : ∀ (G : Group) (l : Nat), ((G.settle n).thread l).seen = (G.thread l).seen := by
  induction n with
  | zero => intro G l; rfl
  | succ n ih =>
    intro G l
    unfold Group.settle
    simp only
    split
    · rfl
    · rw [ih]; exact Group.fold_modThread_same Thread.seen Thread.pop Thread.pop_seen _ G l

theorem Group.closeHeld_seen (G : Group) (l : Nat) : (G.closeHeld.thread l).seen = (G.thread l).seen := by
  unfold Group.closeHeld
  generalize allLanes = ls
  induction ls generalizing G with
  | nil => rfl
  | cons a ls ih =>
    rw [List.foldl_cons, ih]
    split
    · rw [Group.thread_modThread]; split
      · rename_i h; rw [h.1]; rfl
      · rfl
    · rfl

theorem Group.settled_seen (det : Bool) (G : Group) (l : Nat) : ((G.settled det).thread l).seen = (G.thread l).seen := by
  unfold Group.settled
  rw [Group.settle_seen]
  split
  · exact Group.closeHeld_seen G l
  · rfl

theorem State.settle_seen (s : State) (t g t' g' l : Nat) : ((s.settle t g).thread t' g' l).seen = (s.thread t' g' l).seen := by
  unfold State.settle State.thread
  rw [State.group?_modGroup]
  cases s.group? t' g' with
  | none => rfl
  | some G =>
    simp only [Option.map_some]
    split
    · exact Group.settled_seen _ G l
    · rfl

theorem Group.fold_next (ls : List Nat) : ∀ (G : Group) (l : Nat), ls.Nodup →
    (ls.foldl (fun G l => G.modThread l Thread.next) G).thread l =
      if l ∈ ls ∧ l < 32 then (G.thread l).next else G.thread l := by
  induction ls with
  | nil => intro G l _; simp
  | cons a ls ih =>
    intro G l h
    simp only [List.nodup_cons] at h
    rw [List.foldl_cons, ih _ _ h.2, Group.thread_modThread]
    by_cases h1 : l = a
    · subst h1
      simp [h.1]
    · simp [h1]

theorem State.thread_some {s : State} {t g l : Nat} {G : Group} (h : s.group? t g = some G) : s.thread t g l = G.thread l := by
  unfold State.thread; rw [h]

theorem State.thread_none {s : State} {t g l : Nat} (h : s.group? t g = none) : s.thread t g l = threadIdle := by
  unfold State.thread; rw [h]

theorem State.modGroup_seen (s : State) (t g : Nat) (f : Group → Group) (t' g' l : Nat) :
    ((s.modGroup t g f).thread t' g' l).seen =
      match s.group? t' g' with
      | none => threadIdle.seen
      | some G => ((if t' = t ∧ g' = g then f G else G).thread l).seen := by
  cases hG : s.group? t' g' with
  | none =>
    have e : (s.modGroup t g f).group? t' g' = none := by rw [State.group?_modGroup, hG]; rfl
    rw [State.thread_none e]
  | some G =>
    have e : (s.modGroup t g f).group? t' g' = some (if t' = t ∧ g' = g then f G else G) := by
      rw [State.group?_modGroup, hG]; rfl
    rw [State.thread_some e]

theorem State.nextLanes_seen (s : State) (t g : Nat) (ls : List Nat) (h : ls.Nodup) (t' g' l : Nat) :
    ((s.nextLanes t g ls).thread t' g' l).seen =
      if t' = t ∧ g' = g ∧ l ∈ ls ∧ l < 32 ∧ (s.group? t g).isSome then (s.thread t' g' l).seen.next else (s.thread t' g' l).seen := by
  show (((s.modGroup t g fun G => ls.foldl (fun G l => G.modThread l Thread.next) G).settle t g).thread t' g' l).seen = _
  rw [State.settle_seen, State.modGroup_seen]
  cases hG : s.group? t' g' with
  | none =>
    rw [State.thread_none hG, if_neg]
    rintro ⟨rfl, rfl, -, -, hs⟩
    rw [hG] at hs; cases hs
  | some G =>
    rw [State.thread_some hG]
    simp only
    by_cases h1 : t' = t ∧ g' = g
    · obtain ⟨rfl, rfl⟩ := h1
      simp only [and_self, if_true, true_and, hG, Option.isSome_some, and_true]
      rw [Group.fold_next ls G l h]
      by_cases h2 : l ∈ ls ∧ l < 32
      · simp only [h2, and_self, if_true, Thread.next_seen]
      · simp only [h2, if_false]
    · have h2 : ¬(t' = t ∧ g' = g ∧ l ∈ ls ∧ l < 32 ∧ (s.group? t g).isSome = true) := fun x => h1 ⟨x.1, x.2.1⟩
      simp only [h1, h2, if_false]

/-- The state after lanes of a list of groups move on. -/
def State.moveOn (s : State) (t : Nat) (ms : List (Nat × List Nat)) : State := ms.foldl (fun s x => s.nextLanes t x.1 x.2) s

theorem State.Near.moveOn (t : Nat) (ms : List (Nat × List Nat)) (s : State) : s.Near t (s.moveOn t ms) :=
  State.Near.fold (fun (s : State) (x : Nat × List Nat) => s.nextLanes t x.1 x.2) (fun s x => .nextLanes t x.1 x.2 s) ms s

theorem State.moveOn_seen (t : Nat) (ms : List (Nat × List Nat)) :
    ∀ (s : State), (ms.map (·.1)).Nodup → (∀ x ∈ ms, x.2.Nodup ∧ (s.group? t x.1).isSome = true) → ∀ t' g l,
      ((s.moveOn t ms).thread t' g l).seen =
        if t' = t ∧ (ms.any fun x => x.1 == g && l < 32 && x.2.contains l) then (s.thread t' g l).seen.next
        else (s.thread t' g l).seen := by
  induction ms with
  | nil => intro s _ _ t' g l; simp [State.moveOn]
  | cons a ms ih =>
    intro s hnd hok t' g l
    simp only [List.map_cons, List.nodup_cons] at hnd
    have ha := hok a (by simp)
    have hn := State.Near.nextLanes t a.1 a.2 s
    have hm : s.moveOn t (a :: ms) = (s.nextLanes t a.1 a.2).moveOn t ms := rfl
    rw [hm, ih _ hnd.2 (fun x hx => ⟨(hok x (by simp [hx])).1, by rw [hn.isSome_group]; exact (hok x (by simp [hx])).2⟩)]
    have hs := State.nextLanes_seen s t a.1 a.2 ha.1 t' g l
    simp only [ha.2, and_true] at hs
    rw [hs]
    by_cases h1 : t' = t ∧ g = a.1 ∧ l ∈ a.2 ∧ l < 32
    · obtain ⟨rfl, rfl, h3, h4⟩ := h1
      have hno : (ms.any fun x => x.1 == a.1 && decide (l < 32) && x.2.contains l) = false := by
        rw [List.any_eq_false]
        intro x hx hc
        simp only [Bool.and_eq_true, beq_iff_eq] at hc
        exact hnd.1 (List.mem_map.mpr ⟨x, hx, hc.1.1⟩)
      have hyes : ((a :: ms).any fun x => x.1 == a.1 && decide (l < 32) && x.2.contains l) = true := by
        simp [h3, h4]
      rw [hno, hyes]
      simp [h3, h4]
    · rw [if_neg h1]
      have hb : (t' = t ∧ ((a :: ms).any fun x => x.1 == g && decide (l < 32) && x.2.contains l) = true) ↔
          (t' = t ∧ (ms.any fun x => x.1 == g && decide (l < 32) && x.2.contains l) = true) := by
        constructor
        · rintro ⟨rfl, hc⟩
          refine ⟨rfl, ?_⟩
          simp only [List.any_cons, Bool.or_eq_true, Bool.and_eq_true, beq_iff_eq, decide_eq_true_eq, List.contains_iff_mem] at hc
          rcases hc with hc | hc
          · exact absurd ⟨rfl, hc.1.1.symm, hc.2, hc.1.2⟩ h1
          · simpa using hc
        · rintro ⟨rfl, hc⟩
          exact ⟨rfl, by simp only [List.any_cons, hc, Bool.or_true]⟩
      simp only [hb]

end Sys2Proof.Machine
end

