-- ==== Sys2Proof/Laws/Memory.lean ====
section
/-! SUPPORT. The byte store: reading after a write, and the canonical form that every writer of memory keeps. -/

namespace Sys2Proof.Machine

open Sys2Proof

/-! ## Reading after a write -/

@[simp] theorem State.byte_setByte_eq (s : State) (k : Nat) (b : Byte) : (s.setByte k b).byte k = b :=
  Sparse.get_set_eq unwritten s.mem k b

theorem State.byte_setByte_ne (s : State) {k j : Nat} (b : Byte) (h : j ≠ k) : (s.setByte k b).byte j = s.byte j :=
  Sparse.get_set_ne s.mem b h

theorem State.byte_setList_lt (s : State) {k j : Nat} (bs : List Byte) (h : j < k) : (s.setList k bs).byte j = s.byte j := by
  induction bs generalizing s k with
  | nil => rfl
  | cons b bs ih => rw [State.setList, ih _ (by omega), byte_setByte_ne _ _ (by omega)]

/-- Keys that a scattered write does not name read as before. -/
theorem State.byte_scatter_ne (s : State) {j : Nat} (ks : List Nat) (v : Nat) (h : j ∉ ks) :
    (s.scatter ks v).byte j = s.byte j := by
  induction ks generalizing s v with
  | nil => rfl
  | cons k ks ih =>
    simp only [List.mem_cons, not_or] at h
    rw [State.scatter, ih _ _ h.2, byte_setByte_ne _ _ h.1]

/-- The bytes of a range that is cleared read as unwritten ones, and the others as before. -/
theorem State.byte_zero (s : State) (k n j : Nat) :
    (s.zero k n).byte j = if k ≤ j ∧ j < k + n then unwritten else s.byte j := by
  simp only [State.byte, State.zero]
  induction s.mem with
  | nil => simp [Sparse.get]
  | cons e rest ih =>
    obtain ⟨a, b⟩ := e
    by_cases ha : k ≤ a ∧ a < k + n
    · simp only [List.filter_cons, ha, decide_true, Bool.and_self, Bool.not_true, Bool.false_eq_true, if_false, ih, Sparse.get]
      by_cases hj : j = a <;> simp_all
    · have hp : (!(decide (k ≤ a) && decide (a < k + n))) = true := by
        simp only [Bool.not_eq_true', Bool.and_eq_false_iff, decide_eq_false_iff_not]
        omega
      simp only [List.filter_cons, hp, if_true, ih, Sparse.get]
      by_cases hj : j = a
      · subst hj; simp only [if_true]; rw [if_neg ha]
      · simp only [hj, if_false]

/-! ## Nothing but the memory is written -/


/-- Bytes written leave every other field as it was. -/
theorem State.setBytes_frame (s : State) (k n v : Nat) : ∃ m, s.setBytes k n v = { s with mem := m } := by
  induction n generalizing s k v with
  | zero => exact ⟨s.mem, rfl⟩
  | succ n ih => obtain ⟨m, h⟩ := ih (s.setByte k (BitVec.ofNat 8 v)) (k + 1) (v / 256); exact ⟨m, h⟩

/-- A scattered write leaves every other field as it was. -/
theorem State.scatter_frame (s : State) (ks : List Nat) (v : Nat) : ∃ m, s.scatter ks v = { s with mem := m } := by
  induction ks generalizing s v with
  | nil => exact ⟨s.mem, rfl⟩
  | cons k ks ih => obtain ⟨m, h⟩ := ih (s.setByte k (BitVec.ofNat 8 v)) (v / 256); exact ⟨m, h⟩

/-! ## The canonical form -/

theorem wf_setByte {s : State} (h : Memory.wf s.mem = true) (k : Nat) (b : Byte) : Memory.wf (s.setByte k b).mem = true :=
  Sparse.set_wf h k b

theorem wf_foldl_setByte {α : Type} (f : State → α → State)
    (hf : ∀ s x, Memory.wf s.mem = true → Memory.wf (f s x).mem = true) (xs : List α) :
    ∀ {s : State}, Memory.wf s.mem = true → Memory.wf (xs.foldl f s).mem = true := by
  induction xs with
  | nil => exact id
  | cons x xs ih => exact fun h => ih (hf _ x h)

theorem wf_setList {s : State} (h : Memory.wf s.mem = true) (k : Nat) (bs : List Byte) :
    Memory.wf (s.setList k bs).mem = true := by
  induction bs generalizing s k with
  | nil => exact h
  | cons b bs ih => exact ih (wf_setByte h k b) (k + 1)

theorem wf_scatter {s : State} (h : Memory.wf s.mem = true) (ks : List Nat) (v : Nat) :
    Memory.wf (s.scatter ks v).mem = true := by
  induction ks generalizing s v with
  | nil => exact h
  | cons k ks ih => exact ih (wf_setByte h k _) (v / 256)

theorem wf_writeKey {s : State} (h : Memory.wf s.mem = true) (p k : Nat) (bs : List (Nat × Byte)) :
    Memory.wf (s.writeKey p k bs).mem = true := by
  unfold State.writeKey
  split
  · exact h
  · exact wf_foldl_setByte _ (fun _ _ hs => wf_setByte hs _ _) bs h

theorem wf_putCells {s : State} (h : Memory.wf s.mem = true) (k : Nat) (cs : List Host.Cell) :
    Memory.wf (s.putCells k cs).mem = true :=
  wf_foldl_setByte _ (fun _ _ hs => wf_setByte hs _ _) cs h

theorem wf_zero {s : State} (h : Memory.wf s.mem = true) (k n : Nat) : Memory.wf (s.zero k n).mem = true :=
  Sparse.filter_wf h _

theorem wf_reset : Memory.wf State.reset.mem = true := rfl

end Sys2Proof.Machine
end

