-- ==== Sys2Proof/Laws/PerInstr.lean ====
section
/-! SUPPORT. What holds of every constructor of `Instr` as syntax. -/

namespace Sys2Proof.Laws

/-- The term is an instruction word, which has an encoding; or it is an event, which is not well-formed and has none. -/
def HasWord.Statement (i : Instr) : Prop := (∃ w, i.encode = some w) ∨ (i.check = some .notWord ∧ i.encode = none)

theorem HasWord.nop (x1 : Iss) : HasWord.Statement (.nop x1) := .inl ⟨_, rfl⟩
theorem HasWord.mov (x1 : Iss) (x2 : VReg) (x3 : COp) : HasWord.Statement (.mov x1 x2 x3) := .inl ⟨_, rfl⟩
theorem HasWord.movs (x1 : Iss) (x2 : VReg) (x3 : BitVec 8) (x4 : Bool) : HasWord.Statement (.movs x1 x2 x3 x4) := .inl ⟨_, rfl⟩
theorem HasWord.kset (x1 : Iss) (x2 : KReg) (x3 : COp) : HasWord.Statement (.kset x1 x2 x3) := .inl ⟨_, rfl⟩
theorem HasWord.iadd (x1 : Iss) (x2 : VReg) (x3 : VReg) (x4 : COp) (x5 : Bool) (x6 : Bool) : HasWord.Statement (.iadd x1 x2 x3 x4 x5 x6) := .inl ⟨_, rfl⟩
theorem HasWord.isub (x1 : Iss) (x2 : VReg) (x3 : VReg) (x4 : COp) (x5 : Bool) (x6 : Bool) : HasWord.Statement (.isub x1 x2 x3 x4 x5 x6) := .inl ⟨_, rfl⟩
theorem HasWord.imul (x1 : Iss) (x2 : VReg) (x3 : VReg) (x4 : COp) (x5 : Bool) (x6 : Bool) : HasWord.Statement (.imul x1 x2 x3 x4 x5 x6) := .inl ⟨_, rfl⟩
theorem HasWord.imulh (x1 : Iss) (x2 : VReg) (x3 : VReg) (x4 : COp) (x5 : Bool) : HasWord.Statement (.imulh x1 x2 x3 x4 x5) := .inl ⟨_, rfl⟩
theorem HasWord.imad (x1 : Iss) (x2 : VReg) (x3 : VReg) (x4 : VReg) (x5 : COp) (x6 : Bool) (x7 : Bool) : HasWord.Statement (.imad x1 x2 x3 x4 x5 x6 x7) := .inl ⟨_, rfl⟩
theorem HasWord.imadw (x1 : Iss) (x2 : VReg) (x3 : VReg) (x4 : VReg) (x5 : VReg) (x6 : Bool) : HasWord.Statement (.imadw x1 x2 x3 x4 x5 x6) := .inl ⟨_, rfl⟩
theorem HasWord.iaddw (x1 : Iss) (x2 : VReg) (x3 : VReg) (x4 : COp) (x5 : Bool) (x6 : Bool) : HasWord.Statement (.iaddw x1 x2 x3 x4 x5 x6) := .inl ⟨_, rfl⟩
theorem HasWord.idiv (x1 : Iss) (x2 : VReg) (x3 : VReg) (x4 : COp) (x5 : Bool) : HasWord.Statement (.idiv x1 x2 x3 x4 x5) := .inl ⟨_, rfl⟩
theorem HasWord.irem (x1 : Iss) (x2 : VReg) (x3 : VReg) (x4 : COp) (x5 : Bool) : HasWord.Statement (.irem x1 x2 x3 x4 x5) := .inl ⟨_, rfl⟩
theorem HasWord.imin (x1 : Iss) (x2 : VReg) (x3 : VReg) (x4 : COp) (x5 : Bool) : HasWord.Statement (.imin x1 x2 x3 x4 x5) := .inl ⟨_, rfl⟩
theorem HasWord.imax (x1 : Iss) (x2 : VReg) (x3 : VReg) (x4 : COp) (x5 : Bool) : HasWord.Statement (.imax x1 x2 x3 x4 x5) := .inl ⟨_, rfl⟩
theorem HasWord.iabs (x1 : Iss) (x2 : VReg) (x3 : COp) (x4 : Bool) : HasWord.Statement (.iabs x1 x2 x3 x4) := .inl ⟨_, rfl⟩
theorem HasWord.and (x1 : Iss) (x2 : VReg) (x3 : VReg) (x4 : COp) : HasWord.Statement (.and x1 x2 x3 x4) := .inl ⟨_, rfl⟩
theorem HasWord.or (x1 : Iss) (x2 : VReg) (x3 : VReg) (x4 : COp) : HasWord.Statement (.or x1 x2 x3 x4) := .inl ⟨_, rfl⟩
theorem HasWord.xor (x1 : Iss) (x2 : VReg) (x3 : VReg) (x4 : COp) : HasWord.Statement (.xor x1 x2 x3 x4) := .inl ⟨_, rfl⟩
theorem HasWord.andn (x1 : Iss) (x2 : VReg) (x3 : VReg) (x4 : COp) : HasWord.Statement (.andn x1 x2 x3 x4) := .inl ⟨_, rfl⟩
theorem HasWord.shl (x1 : Iss) (x2 : VReg) (x3 : VReg) (x4 : COp) : HasWord.Statement (.shl x1 x2 x3 x4) := .inl ⟨_, rfl⟩
theorem HasWord.shr (x1 : Iss) (x2 : VReg) (x3 : VReg) (x4 : COp) : HasWord.Statement (.shr x1 x2 x3 x4) := .inl ⟨_, rfl⟩
theorem HasWord.sar (x1 : Iss) (x2 : VReg) (x3 : VReg) (x4 : COp) : HasWord.Statement (.sar x1 x2 x3 x4) := .inl ⟨_, rfl⟩
theorem HasWord.rot (x1 : Iss) (x2 : VReg) (x3 : VReg) (x4 : COp) : HasWord.Statement (.rot x1 x2 x3 x4) := .inl ⟨_, rfl⟩
theorem HasWord.shf (x1 : Iss) (x2 : VReg) (x3 : VReg) (x4 : VReg) (x5 : COp) : HasWord.Statement (.shf x1 x2 x3 x4 x5) := .inl ⟨_, rfl⟩
theorem HasWord.popc (x1 : Iss) (x2 : VReg) (x3 : COp) : HasWord.Statement (.popc x1 x2 x3) := .inl ⟨_, rfl⟩
theorem HasWord.clz (x1 : Iss) (x2 : VReg) (x3 : COp) : HasWord.Statement (.clz x1 x2 x3) := .inl ⟨_, rfl⟩
theorem HasWord.brev (x1 : Iss) (x2 : VReg) (x3 : COp) : HasWord.Statement (.brev x1 x2 x3) := .inl ⟨_, rfl⟩
theorem HasWord.bfx (x1 : Iss) (x2 : VReg) (x3 : VReg) (x4 : COp) (x5 : Bool) : HasWord.Statement (.bfx x1 x2 x3 x4 x5) := .inl ⟨_, rfl⟩
theorem HasWord.bfi (x1 : Iss) (x2 : VReg) (x3 : VReg) (x4 : VReg) (x5 : COp) : HasWord.Statement (.bfi x1 x2 x3 x4 x5) := .inl ⟨_, rfl⟩
theorem HasWord.prmt (x1 : Iss) (x2 : VReg) (x3 : VReg) (x4 : VReg) (x5 : COp) : HasWord.Statement (.prmt x1 x2 x3 x4 x5) := .inl ⟨_, rfl⟩
theorem HasWord.lea (x1 : Iss) (x2 : VReg) (x3 : VReg) (x4 : COp) (x5 : BitVec 3) : HasWord.Statement (.lea x1 x2 x3 x4 x5) := .inl ⟨_, rfl⟩
theorem HasWord.isel (x1 : Iss) (x2 : VReg) (x3 : VReg) (x4 : COp) (x5 : PReg) (x6 : Bool) : HasWord.Statement (.isel x1 x2 x3 x4 x5 x6) := .inl ⟨_, rfl⟩
theorem HasWord.icmp (x1 : Iss) (x2 : PReg) (x3 : VReg) (x4 : COp) (x5 : ICond) (x6 : Bool) : HasWord.Statement (.icmp x1 x2 x3 x4 x5 x6) := .inl ⟨_, rfl⟩
theorem HasWord.plop (x1 : Iss) (x2 : PReg) (x3 : PReg) (x4 : PReg) (x5 : PReg) (x6 : BitVec 8) : HasWord.Statement (.plop x1 x2 x3 x4 x5 x6) := .inl ⟨_, rfl⟩
theorem HasWord.pmov (x1 : Iss) (x2 : PmovOp) : HasWord.Statement (.pmov x1 x2) := by cases x2 <;> exact .inl ⟨_, rfl⟩
theorem HasWord.pairedWord (x1 : Half) (x2 : Half) : HasWord.Statement (.pairedWord x1 x2) := .inl ⟨_, rfl⟩
theorem HasWord.bra (x1 : Iss) (x2 : COp) : HasWord.Statement (.bra x1 x2) := .inl ⟨_, rfl⟩
theorem HasWord.call (x1 : Iss) (x2 : VReg) (x3 : COp) : HasWord.Statement (.call x1 x2 x3) := .inl ⟨_, rfl⟩
theorem HasWord.ret (x1 : Iss) (x2 : VReg) : HasWord.Statement (.ret x1 x2) := .inl ⟨_, rfl⟩
theorem HasWord.smeet (x1 : Iss) (x2 : Option COp) : HasWord.Statement (.smeet x1 x2) := by cases x2 <;> exact .inl ⟨_, rfl⟩
theorem HasWord.exit (x1 : Iss) : HasWord.Statement (.exit x1) := .inl ⟨_, rfl⟩
theorem HasWord.yield (x1 : Iss) : HasWord.Statement (.yield x1) := .inl ⟨_, rfl⟩
theorem HasWord.nap (x1 : Iss) (x2 : COp) : HasWord.Statement (.nap x1 x2) := .inl ⟨_, rfl⟩
theorem HasWord.bar (x1 : Iss) : HasWord.Statement (.bar x1) := .inl ⟨_, rfl⟩
theorem HasWord.cvset (x1 : Iss) (x2 : CvN) (x3 : COp) : HasWord.Statement (.cvset x1 x2 x3) := .inl ⟨_, rfl⟩
theorem HasWord.cvleave (x1 : Iss) (x2 : CvN) : HasWord.Statement (.cvleave x1 x2) := .inl ⟨_, rfl⟩
theorem HasWord.vote (x1 : Iss) (x2 : BitVec 8) (x3 : PReg) (x4 : Bool) (x5 : VoteMode) : HasWord.Statement (.vote x1 x2 x3 x4 x5) := .inl ⟨_, rfl⟩
theorem HasWord.shfl (x1 : Iss) (x2 : VReg) (x3 : VReg) (x4 : PReg) (x5 : COp) (x6 : ShflMode) (x7 : BitVec 2) : HasWord.Statement (.shfl x1 x2 x3 x4 x5 x6 x7) := .inl ⟨_, rfl⟩
theorem HasWord.redux (x1 : Iss) (x2 : VReg) (x3 : VReg) (x4 : ReduxOp) (x5 : Bool) : HasWord.Statement (.redux x1 x2 x3 x4 x5) := .inl ⟨_, rfl⟩
theorem HasWord.match_ (x1 : Iss) (x2 : VReg) (x3 : VReg) (x4 : MatchMode) (x5 : Bool) : HasWord.Statement (.match_ x1 x2 x3 x4 x5) := .inl ⟨_, rfl⟩
theorem HasWord.islast (x1 : Iss) (x2 : PReg) : HasWord.Statement (.islast x1 x2) := .inl ⟨_, rfl⟩
theorem HasWord.trap (x1 : Iss) : HasWord.Statement (.trap x1) := .inl ⟨_, rfl⟩
theorem HasWord.bkpt (x1 : Iss) : HasWord.Statement (.bkpt x1) := .inl ⟨_, rfl⟩
theorem HasWord.tret (x1 : Iss) (x2 : TretMode) (x3 : VReg) : HasWord.Statement (.tret x1 x2 x3) := .inl ⟨_, rfl⟩
theorem HasWord.csrr (x1 : Iss) (x2 : VReg) (x3 : BitVec 8) : HasWord.Statement (.csrr x1 x2 x3) := .inl ⟨_, rfl⟩
theorem HasWord.csrw (x1 : Iss) (x2 : BitVec 8) (x3 : VReg) : HasWord.Statement (.csrw x1 x2 x3) := .inl ⟨_, rfl⟩
theorem HasWord.lnch (x1 : Iss) (x2 : PReg) (x3 : VReg) (x4 : VReg) (x5 : COp) (x6 : VReg) : HasWord.Statement (.lnch x1 x2 x3 x4 x5 x6) := .inl ⟨_, rfl⟩
theorem HasWord.succ (x1 : Iss) : HasWord.Statement (.succ x1) := .inl ⟨_, rfl⟩
theorem HasWord.pwait (x1 : Iss) (x2 : PReg) : HasWord.Statement (.pwait x1 x2) := .inl ⟨_, rfl⟩
theorem HasWord.fadd (x1 : Iss) (x2 : VReg) (x3 : VReg) (x4 : COp) (x5 : FpMod) : HasWord.Statement (.fadd x1 x2 x3 x4 x5) := .inl ⟨_, rfl⟩
theorem HasWord.fmul (x1 : Iss) (x2 : VReg) (x3 : VReg) (x4 : COp) (x5 : FpMod) : HasWord.Statement (.fmul x1 x2 x3 x4 x5) := .inl ⟨_, rfl⟩
theorem HasWord.ffma (x1 : Iss) (x2 : VReg) (x3 : VReg) (x4 : VReg) (x5 : COp) (x6 : FpMod) : HasWord.Statement (.ffma x1 x2 x3 x4 x5 x6) := .inl ⟨_, rfl⟩
theorem HasWord.fmin (x1 : Iss) (x2 : VReg) (x3 : VReg) (x4 : COp) (x5 : FpMod) : HasWord.Statement (.fmin x1 x2 x3 x4 x5) := .inl ⟨_, rfl⟩
theorem HasWord.fmax (x1 : Iss) (x2 : VReg) (x3 : VReg) (x4 : COp) (x5 : FpMod) : HasWord.Statement (.fmax x1 x2 x3 x4 x5) := .inl ⟨_, rfl⟩
theorem HasWord.fcmp (x1 : Iss) (x2 : PReg) (x3 : VReg) (x4 : COp) (x5 : FCond) (x6 : Bool) : HasWord.Statement (.fcmp x1 x2 x3 x4 x5 x6) := .inl ⟨_, rfl⟩
theorem HasWord.fcls (x1 : Iss) (x2 : VReg) (x3 : VReg) : HasWord.Statement (.fcls x1 x2 x3) := .inl ⟨_, rfl⟩
theorem HasWord.frnd (x1 : Iss) (x2 : VReg) (x3 : VReg) (x4 : FpMod) : HasWord.Statement (.frnd x1 x2 x3 x4) := .inl ⟨_, rfl⟩
theorem HasWord.frcp (x1 : Iss) (x2 : VReg) (x3 : VReg) (x4 : FpMod) : HasWord.Statement (.frcp x1 x2 x3 x4) := .inl ⟨_, rfl⟩
theorem HasWord.frsq (x1 : Iss) (x2 : VReg) (x3 : VReg) (x4 : FpMod) : HasWord.Statement (.frsq x1 x2 x3 x4) := .inl ⟨_, rfl⟩
theorem HasWord.fsqrt (x1 : Iss) (x2 : VReg) (x3 : VReg) (x4 : FpMod) : HasWord.Statement (.fsqrt x1 x2 x3 x4) := .inl ⟨_, rfl⟩
theorem HasWord.fdiv (x1 : Iss) (x2 : VReg) (x3 : VReg) (x4 : COp) (x5 : FpMod) : HasWord.Statement (.fdiv x1 x2 x3 x4 x5) := .inl ⟨_, rfl⟩
theorem HasWord.fex2 (x1 : Iss) (x2 : VReg) (x3 : VReg) (x4 : FpMod) : HasWord.Statement (.fex2 x1 x2 x3 x4) := .inl ⟨_, rfl⟩
theorem HasWord.flg2 (x1 : Iss) (x2 : VReg) (x3 : VReg) (x4 : FpMod) : HasWord.Statement (.flg2 x1 x2 x3 x4) := .inl ⟨_, rfl⟩
theorem HasWord.fgumb (x1 : Iss) (x2 : VReg) (x3 : VReg) (x4 : COp) : HasWord.Statement (.fgumb x1 x2 x3 x4) := .inl ⟨_, rfl⟩
theorem HasWord.rngc (x1 : Iss) (x2 : VReg) (x3 : VReg) (x4 : COp) : HasWord.Statement (.rngc x1 x2 x3 x4) := .inl ⟨_, rfl⟩
theorem HasWord.f2i (x1 : Iss) (x2 : VReg) (x3 : VReg) (x4 : FpMod) : HasWord.Statement (.f2i x1 x2 x3 x4) := .inl ⟨_, rfl⟩
theorem HasWord.i2f (x1 : Iss) (x2 : VReg) (x3 : VReg) (x4 : BitVec 2) (x5 : Bool) : HasWord.Statement (.i2f x1 x2 x3 x4 x5) := .inl ⟨_, rfl⟩
theorem HasWord.fcvt (x1 : Iss) (x2 : VReg) (x3 : VReg) (x4 : CvtFmt) (x5 : CvtFmt) (x6 : BitVec 2) (x7 : Bool) (x8 : Bool) (x9 : Bool) : HasWord.Statement (.fcvt x1 x2 x3 x4 x5 x6 x7 x8 x9) := .inl ⟨_, rfl⟩
theorem HasWord.hadd2 (x1 : Iss) (x2 : VReg) (x3 : VReg) (x4 : COp) (x5 : FpMod) : HasWord.Statement (.hadd2 x1 x2 x3 x4 x5) := .inl ⟨_, rfl⟩
theorem HasWord.hmul2 (x1 : Iss) (x2 : VReg) (x3 : VReg) (x4 : COp) (x5 : FpMod) : HasWord.Statement (.hmul2 x1 x2 x3 x4 x5) := .inl ⟨_, rfl⟩
theorem HasWord.hfma2 (x1 : Iss) (x2 : VReg) (x3 : VReg) (x4 : VReg) (x5 : COp) (x6 : FpMod) : HasWord.Statement (.hfma2 x1 x2 x3 x4 x5 x6) := .inl ⟨_, rfl⟩
theorem HasWord.hmnx2 (x1 : Iss) (x2 : VReg) (x3 : VReg) (x4 : COp) (x5 : FpMod) : HasWord.Statement (.hmnx2 x1 x2 x3 x4 x5) := .inl ⟨_, rfl⟩
theorem HasWord.pk8 (x1 : Iss) (x2 : VReg) (x3 : VReg) (x4 : COp) (x5 : Bool) (x6 : Bool) (x7 : Bool) (x8 : BitVec 2) (x9 : Bool) : HasWord.Statement (.pk8 x1 x2 x3 x4 x5 x6 x7 x8 x9) := .inl ⟨_, rfl⟩
theorem HasWord.upk8 (x1 : Iss) (x2 : VReg) (x3 : VReg) (x4 : BitVec 2) (x5 : Bool) : HasWord.Statement (.upk8 x1 x2 x3 x4 x5) := .inl ⟨_, rfl⟩
theorem HasWord.pk4 (x1 : Iss) (x2 : VReg) (x3 : VReg) (x4 : COp) (x5 : BitVec 2) (x6 : Bool) (x7 : BitVec 2) : HasWord.Statement (.pk4 x1 x2 x3 x4 x5 x6 x7) := .inl ⟨_, rfl⟩
theorem HasWord.upk4 (x1 : Iss) (x2 : VReg) (x3 : VReg) (x4 : COp) (x5 : BitVec 3) : HasWord.Statement (.upk4 x1 x2 x3 x4 x5) := .inl ⟨_, rfl⟩
theorem HasWord.fscl (x1 : Iss) (x2 : VReg) (x3 : VReg) (x4 : COp) (x5 : FpMod) : HasWord.Statement (.fscl x1 x2 x3 x4 x5) := .inl ⟨_, rfl⟩
theorem HasWord.ld (x1 : Iss) (x2 : VReg) (x3 : VReg) (x4 : COp) (x5 : MemMod) : HasWord.Statement (.ld x1 x2 x3 x4 x5) := .inl ⟨_, rfl⟩
theorem HasWord.st (x1 : Iss) (x2 : VReg) (x3 : VReg) (x4 : COp) (x5 : MemMod) : HasWord.Statement (.st x1 x2 x3 x4 x5) := .inl ⟨_, rfl⟩
theorem HasWord.ldc (x1 : Iss) (x2 : VReg) (x3 : VReg) (x4 : COp) (x5 : MemMod) : HasWord.Statement (.ldc x1 x2 x3 x4 x5) := .inl ⟨_, rfl⟩
theorem HasWord.ldfe (x1 : Iss) (x2 : VReg) (x3 : VReg) (x4 : COp) (x5 : MemMod) (x6 : Bool) : HasWord.Statement (.ldfe x1 x2 x3 x4 x5 x6) := .inl ⟨_, rfl⟩
theorem HasWord.stfe (x1 : Iss) (x2 : VReg) (x3 : VReg) (x4 : COp) (x5 : MemMod) : HasWord.Statement (.stfe x1 x2 x3 x4 x5) := .inl ⟨_, rfl⟩
theorem HasWord.atom (x1 : Iss) (x2 : VReg) (x3 : VReg) (x4 : COp) (x5 : VReg) (x6 : AtomOp) (x7 : SGroup) : HasWord.Statement (.atom x1 x2 x3 x4 x5 x6 x7) := .inl ⟨_, rfl⟩
theorem HasWord.acas (x1 : Iss) (x2 : VReg) (x3 : VReg) (x4 : COp) (x5 : VReg) (x6 : Bool) (x7 : SGroup) : HasWord.Statement (.acas x1 x2 x3 x4 x5 x6 x7) := .inl ⟨_, rfl⟩
theorem HasWord.afadd (x1 : Iss) (x2 : VReg) (x3 : VReg) (x4 : COp) (x5 : VReg) (x6 : SGroup) : HasWord.Statement (.afadd x1 x2 x3 x4 x5 x6) := .inl ⟨_, rfl⟩
theorem HasWord.ab2add (x1 : Iss) (x2 : VReg) (x3 : COp) (x4 : VReg) (x5 : SGroup) : HasWord.Statement (.ab2add x1 x2 x3 x4 x5) := .inl ⟨_, rfl⟩
theorem HasWord.avimx (x1 : Iss) (x2 : VReg) (x3 : VReg) (x4 : COp) (x5 : VReg) (x6 : Bool) (x7 : SGroup) : HasWord.Statement (.avimx x1 x2 x3 x4 x5 x6 x7) := .inl ⟨_, rfl⟩
theorem HasWord.red (x1 : Iss) (x2 : VReg) (x3 : COp) (x4 : VReg) (x5 : AtomOp) (x6 : SGroup) : HasWord.Statement (.red x1 x2 x3 x4 x5 x6) := .inl ⟨_, rfl⟩
theorem HasWord.fence (x1 : Iss) (x2 : FScope) (x3 : FKind) : HasWord.Statement (.fence x1 x2 x3) := .inl ⟨_, rfl⟩
theorem HasWord.pref (x1 : Iss) (x2 : VReg) (x3 : COp) (x4 : MemMod) : HasWord.Statement (.pref x1 x2 x3 x4) := .inl ⟨_, rfl⟩
theorem HasWord.cctl (x1 : Iss) (x2 : CctlOp) (x3 : VReg) (x4 : COp) : HasWord.Statement (.cctl x1 x2 x3 x4) := .inl ⟨_, rfl⟩
theorem HasWord.lsacq (x1 : Iss) (x2 : PReg) (x3 : VReg) (x4 : VReg) (x5 : VReg) (x6 : COp) : HasWord.Statement (.lsacq x1 x2 x3 x4 x5 x6) := .inl ⟨_, rfl⟩
theorem HasWord.lsrel (x1 : Iss) (x2 : VReg) : HasWord.Statement (.lsrel x1 x2) := .inl ⟨_, rfl⟩
theorem HasWord.snap (x1 : Iss) (x2 : PReg) (x3 : HReg) (x4 : VReg) : HasWord.Statement (.snap x1 x2 x3 x4) := .inl ⟨_, rfl⟩
theorem HasWord.rstr (x1 : Iss) (x2 : HReg) (x3 : COp) : HasWord.Statement (.rstr x1 x2 x3) := .inl ⟨_, rfl⟩
theorem HasWord.sprt (x1 : Iss) (x2 : PReg) (x3 : VReg) (x4 : HReg) (x5 : COp) : HasWord.Statement (.sprt x1 x2 x3 x4 x5) := .inl ⟨_, rfl⟩
theorem HasWord.drop (x1 : Iss) (x2 : HReg) : HasWord.Statement (.drop x1 x2) := .inl ⟨_, rfl⟩
theorem HasWord.hdup (x1 : Iss) (x2 : HReg) (x3 : HReg) : HasWord.Statement (.hdup x1 x2 x3) := .inl ⟨_, rfl⟩
theorem HasWord.hspl (x1 : Iss) (x2 : VReg) (x3 : HReg) (x4 : VReg) (x5 : COp) (x6 : Bool) : HasWord.Statement (.hspl x1 x2 x3 x4 x5 x6) := .inl ⟨_, rfl⟩
theorem HasWord.hldm (x1 : Iss) (x2 : PReg) (x3 : HReg) (x4 : VReg) (x5 : COp) : HasWord.Statement (.hldm x1 x2 x3 x4 x5) := .inl ⟨_, rfl⟩
theorem HasWord.hinf (x1 : Iss) (x2 : VReg) (x3 : HReg) (x4 : HinfSel) : HasWord.Statement (.hinf x1 x2 x3 x4) := .inl ⟨_, rfl⟩
theorem HasWord.xacq (x1 : Iss) (x2 : PReg) (x3 : BitVec 2) : HasWord.Statement (.xacq x1 x2 x3) := .inl ⟨_, rfl⟩
theorem HasWord.xrel (x1 : Iss) (x2 : BitVec 2) : HasWord.Statement (.xrel x1 x2) := .inl ⟨_, rfl⟩
theorem HasWord.spawn (x1 : Iss) (x2 : PReg) (x3 : VReg) (x4 : COp) : HasWord.Statement (.spawn x1 x2 x3 x4) := .inl ⟨_, rfl⟩
theorem HasWord.qenq (x1 : Iss) (x2 : PReg) (x3 : VReg) (x4 : COp) (x5 : VReg) : HasWord.Statement (.qenq x1 x2 x3 x4 x5) := .inl ⟨_, rfl⟩
theorem HasWord.qdeq (x1 : Iss) (x2 : PReg) (x3 : VReg) (x4 : VReg) (x5 : COp) : HasWord.Statement (.qdeq x1 x2 x3 x4 x5) := .inl ⟨_, rfl⟩
theorem HasWord.csub (x1 : Iss) (x2 : PReg) (x3 : VReg) (x4 : VReg) (x5 : COp) (x6 : VReg) : HasWord.Statement (.csub x1 x2 x3 x4 x5 x6) := .inl ⟨_, rfl⟩
theorem HasWord.esc (x1 : Iss) (x2 : PReg) (x3 : VReg) : HasWord.Statement (.esc x1 x2 x3) := .inl ⟨_, rfl⟩
theorem HasWord.cret (x1 : Iss) (x2 : VReg) : HasWord.Statement (.cret x1 x2) := .inl ⟨_, rfl⟩
theorem HasWord.slrsv (x1 : Iss) (x2 : PReg) (x3 : RecN) (x4 : VReg) : HasWord.Statement (.slrsv x1 x2 x3 x4) := .inl ⟨_, rfl⟩
theorem HasWord.slrel (x1 : Iss) (x2 : RecN) : HasWord.Statement (.slrel x1 x2) := .inl ⟨_, rfl⟩
theorem HasWord.mma (x1 : Iss) (x2 : SlotN) (x3 : VReg) (x4 : RecN) (x5 : COp) (x6 : BitVec 4) (x7 : Bool) : HasWord.Statement (.mma x1 x2 x3 x4 x5 x6 x7) := .inl ⟨_, rfl⟩
theorem HasWord.mmag (x1 : Iss) (x2 : SlotN) (x3 : VReg) (x4 : RecN) (x5 : COp) (x6 : BitVec 4) : HasWord.Statement (.mmag x1 x2 x3 x4 x5 x6) := .inl ⟨_, rfl⟩
theorem HasWord.mzero (x1 : Iss) (x2 : SlotN) (x3 : Bool) : HasWord.Statement (.mzero x1 x2 x3) := .inl ⟨_, rfl⟩
theorem HasWord.mrd (x1 : Iss) (x2 : VReg) (x3 : SlotN) (x4 : KReg) (x5 : COp) (x6 : MrdFmt) (x7 : Bool) (x8 : Bool) (x9 : Bool) : HasWord.Statement (.mrd x1 x2 x3 x4 x5 x6 x7 x8 x9) := .inl ⟨_, rfl⟩
theorem HasWord.mwr (x1 : Iss) (x2 : SlotN) (x3 : VReg) (x4 : COp) (x5 : Bool) : HasWord.Statement (.mwr x1 x2 x3 x4 x5) := .inl ⟨_, rfl⟩
theorem HasWord.mscl (x1 : Iss) (x2 : SlotN) (x3 : VReg) : HasWord.Statement (.mscl x1 x2 x3) := .inl ⟨_, rfl⟩
theorem HasWord.mchk (x1 : Iss) (x2 : VReg) (x3 : SlotN) (x4 : Bool) : HasWord.Statement (.mchk x1 x2 x3 x4) := .inl ⟨_, rfl⟩
theorem HasWord.slcb (x1 : Iss) (x2 : BitVec 2) (x3 : VReg) (x4 : COp) : HasWord.Statement (.slcb x1 x2 x3 x4) := .inl ⟨_, rfl⟩
theorem HasWord.mxcfg (x1 : Iss) (x2 : RecN) (x3 : COp) (x4 : Bool) : HasWord.Statement (.mxcfg x1 x2 x3 x4) := .inl ⟨_, rfl⟩
theorem HasWord.cpy (x1 : Iss) (x2 : VReg) (x3 : VReg) (x4 : VReg) (x5 : COp) (x6 : BitVec 3) : HasWord.Statement (.cpy x1 x2 x3 x4 x5 x6) := .inl ⟨_, rfl⟩
theorem HasWord.cpyg (x1 : Iss) (x2 : VReg) (x3 : VReg) (x4 : VReg) (x5 : COp) (x6 : BitVec 3) : HasWord.Statement (.cpyg x1 x2 x3 x4 x5 x6) := .inl ⟨_, rfl⟩
theorem HasWord.cpys (x1 : Iss) (x2 : VReg) (x3 : VReg) (x4 : VReg) (x5 : COp) (x6 : BitVec 3) : HasWord.Statement (.cpys x1 x2 x3 x4 x5 x6) := .inl ⟨_, rfl⟩
theorem HasWord.carm (x1 : Iss) (x2 : VReg) (x3 : COp) (x4 : VReg) : HasWord.Statement (.carm x1 x2 x3 x4) := .inl ⟨_, rfl⟩
theorem HasWord.cwait (x1 : Iss) (x2 : VReg) (x3 : VReg) (x4 : COp) (x5 : VReg) : HasWord.Statement (.cwait x1 x2 x3 x4 x5) := .inl ⟨_, rfl⟩
theorem HasWord.ctest (x1 : Iss) (x2 : PReg) (x3 : VReg) (x4 : VReg) (x5 : COp) (x6 : VReg) : HasWord.Statement (.ctest x1 x2 x3 x4 x5 x6) := .inl ⟨_, rfl⟩
theorem HasWord.mst (x1 : Iss) (x2 : VReg) (x3 : SlotN) (x4 : VReg) (x5 : COp) (x6 : MstFmt) (x7 : BitVec 3) : HasWord.Statement (.mst x1 x2 x3 x4 x5 x6 x7) := .inl ⟨_, rfl⟩
theorem HasWord.coll (x1 : Iss) (x2 : VReg) (x3 : VReg) (x4 : VReg) (x5 : COp) (x6 : CollOp) (x7 : BitVec 3) : HasWord.Statement (.coll x1 x2 x3 x4 x5 x6 x7) := .inl ⟨_, rfl⟩
theorem HasWord.phash (x1 : Iss) (x2 : VReg) (x3 : VReg) (x4 : VReg) : HasWord.Statement (.phash x1 x2 x3 x4) := .inl ⟨_, rfl⟩
theorem HasWord.pgpin (x1 : Iss) (x2 : PReg) (x3 : VReg) (x4 : COp) : HasWord.Statement (.pgpin x1 x2 x3 x4) := .inl ⟨_, rfl⟩
theorem HasWord.pgunpin (x1 : Iss) (x2 : PReg) (x3 : VReg) (x4 : COp) : HasWord.Statement (.pgunpin x1 x2 x3 x4) := .inl ⟨_, rfl⟩
theorem HasWord.slcommit (x1 : Iss) (x2 : PReg) (x3 : VReg) (x4 : VReg) (x5 : COp) : HasWord.Statement (.slcommit x1 x2 x3 x4 x5) := .inl ⟨_, rfl⟩
theorem HasWord.slqry (x1 : Iss) (x2 : VReg) (x3 : VReg) (x4 : VReg) (x5 : Bool) (x6 : SlotField) : HasWord.Statement (.slqry x1 x2 x3 x4 x5 x6) := .inl ⟨_, rfl⟩
theorem HasWord.illop (x1 : Dword) : HasWord.Statement (.illop x1) := .inr ⟨rfl, rfl⟩
theorem HasWord.threadArrives (x1 : Nat) (x2 : Nat) (x3 : BitVec 32) (x4 : Scope) : HasWord.Statement (.threadArrives x1 x2 x3 x4) := .inr ⟨rfl, rfl⟩
theorem HasWord.rdvtmo (x1 : Nat) (x2 : Nat) (x3 : Option CvN) : HasWord.Statement (.rdvtmo x1 x2 x3) := .inr ⟨rfl, rfl⟩
theorem HasWord.passedOverBound (x1 : Nat) (x2 : Nat) : HasWord.Statement (.passedOverBound x1 x2) := .inr ⟨rfl, rfl⟩
theorem HasWord.groupSwap (x1 : Nat) (x2 : Nat) : HasWord.Statement (.groupSwap x1 x2) := .inr ⟨rfl, rfl⟩
theorem HasWord.starvedPromotion (x1 : Nat) (x2 : Nat) : HasWord.Statement (.starvedPromotion x1 x2) := .inr ⟨rfl, rfl⟩
theorem HasWord.loadLands (x1 : Nat) (x2 : Nat) : HasWord.Statement (.loadLands x1 x2) := .inr ⟨rfl, rfl⟩
theorem HasWord.napEnd (x1 : Nat) (x2 : Nat) (x3 : Nat) : HasWord.Statement (.napEnd x1 x2 x3) := .inr ⟨rfl, rfl⟩
theorem HasWord.ldfeWake (x1 : Nat) (x2 : Nat) (x3 : Nat) : HasWord.Statement (.ldfeWake x1 x2 x3) := .inr ⟨rfl, rfl⟩
theorem HasWord.cwaitWake (x1 : Nat) (x2 : Nat) (x3 : Nat) : HasWord.Statement (.cwaitWake x1 x2 x3) := .inr ⟨rfl, rfl⟩
theorem HasWord.pwaitRelease (x1 : Nat) (x2 : Nat) : HasWord.Statement (.pwaitRelease x1 x2) := .inr ⟨rfl, rfl⟩
theorem HasWord.xacqMap (x1 : Nat) (x2 : Nat) : HasWord.Statement (.xacqMap x1 x2) := .inr ⟨rfl, rfl⟩
theorem HasWord.kilnfull (x1 : Nat) (x2 : Nat) : HasWord.Statement (.kilnfull x1 x2) := .inr ⟨rfl, rfl⟩
theorem HasWord.wdog (x1 : Nat) (x2 : Nat) (x3 : Nat) : HasWord.Statement (.wdog x1 x2 x3) := .inr ⟨rfl, rfl⟩
theorem HasWord.remtmo (x1 : Nat) (x2 : Nat) (x3 : Nat) : HasWord.Statement (.remtmo x1 x2 x3) := .inr ⟨rfl, rfl⟩
theorem HasWord.trapEntry (x1 : Nat) (x2 : Nat) : HasWord.Statement (.trapEntry x1 x2) := .inr ⟨rfl, rfl⟩
theorem HasWord.teamEnd (x1 : Nat) : HasWord.Statement (.teamEnd x1) := .inr ⟨rfl, rfl⟩
theorem HasWord.swapOut (x1 : Nat) : HasWord.Statement (.swapOut x1) := .inr ⟨rfl, rfl⟩
theorem HasWord.accessConfirmed (x1 : Nat) : HasWord.Statement (.accessConfirmed x1) := .inr ⟨rfl, rfl⟩
theorem HasWord.runAhead (x1 : Nat) : HasWord.Statement (.runAhead x1) := .inr ⟨rfl, rfl⟩
theorem HasWord.matrixUnitPerform (x1 : Nat) : HasWord.Statement (.matrixUnitPerform x1) := .inr ⟨rfl, rfl⟩
theorem HasWord.pairedStart (x1 : Nat) : HasWord.Statement (.pairedStart x1) := .inr ⟨rfl, rfl⟩
theorem HasWord.pairedMmaTimeout (x1 : Nat) : HasWord.Statement (.pairedMmaTimeout x1) := .inr ⟨rfl, rfl⟩
theorem HasWord.arrive (x1 : Nat) : HasWord.Statement (.arrive x1) := .inr ⟨rfl, rfl⟩
theorem HasWord.fail (x1 : Nat) (x2 : BitVec 7) : HasWord.Statement (.fail x1 x2) := .inr ⟨rfl, rfl⟩
theorem HasWord.efault (x1 : Nat) : HasWord.Statement (.efault x1) := .inr ⟨rfl, rfl⟩
theorem HasWord.flit (x1 : Nat) (x2 : Nat) (x3 : Nat) (x4 : Nat) (x5 : List Byte) (x6 : Word) : HasWord.Statement (.flit x1 x2 x3 x4 x5 x6) := .inr ⟨rfl, rfl⟩
theorem HasWord.collComplete (x1 : Nat) : HasWord.Statement (.collComplete x1) := .inr ⟨rfl, rfl⟩
theorem HasWord.collTimeout (x1 : Nat) : HasWord.Statement (.collTimeout x1) := .inr ⟨rfl, rfl⟩
theorem HasWord.failureNotice (x1 : Nat) : HasWord.Statement (.failureNotice x1) := .inr ⟨rfl, rfl⟩
theorem HasWord.partialGroup (x1 : Nat) : HasWord.Statement (.partialGroup x1) := .inr ⟨rfl, rfl⟩
theorem HasWord.leaseExpiry (x1 : Nat) (x2 : Nat) : HasWord.Statement (.leaseExpiry x1 x2) := .inr ⟨rfl, rfl⟩
theorem HasWord.roundCommit (x1 : Nat) : HasWord.Statement (.roundCommit x1) := .inr ⟨rfl, rfl⟩
theorem HasWord.dequeue (x1 : Nat) : HasWord.Statement (.dequeue x1) := .inr ⟨rfl, rfl⟩
theorem HasWord.semaphorePoll (x1 : Nat) (x2 : Nat) : HasWord.Statement (.semaphorePoll x1 x2) := .inr ⟨rfl, rfl⟩
theorem HasWord.admit_ (x1 : Nat) (x2 : Word) : HasWord.Statement (.admit_ x1 x2) := .inr ⟨rfl, rfl⟩
theorem HasWord.place (x1 : Nat) : HasWord.Statement (.place x1) := .inr ⟨rfl, rfl⟩
theorem HasWord.urgent (x1 : Nat) (x2 : Word) : HasWord.Statement (.urgent x1 x2) := .inr ⟨rfl, rfl⟩
theorem HasWord.launchEnd (x1 : Nat) (x2 : Word) : HasWord.Statement (.launchEnd x1 x2) := .inr ⟨rfl, rfl⟩
theorem HasWord.qtail (x1 : Nat) (x2 : Nat) (x3 : Word) : HasWord.Statement (.qtail x1 x2 x3) := .inr ⟨rfl, rfl⟩
theorem HasWord.preempt (x1 : Nat) : HasWord.Statement (.preempt x1) := .inr ⟨rfl, rfl⟩
theorem HasWord.resume (x1 : Nat) : HasWord.Statement (.resume x1) := .inr ⟨rfl, rfl⟩
theorem HasWord.resumePlacement (x1 : Nat) : HasWord.Statement (.resumePlacement x1) := .inr ⟨rfl, rfl⟩
theorem HasWord.end_ (x1 : Nat) : HasWord.Statement (.end_ x1) := .inr ⟨rfl, rfl⟩
theorem HasWord.fqhead (x1 : Nat) (x2 : Word) : HasWord.Statement (.fqhead x1 x2) := .inr ⟨rfl, rfl⟩
theorem HasWord.eactRetry (x1 : Nat) (x2 : Nat) : HasWord.Statement (.eactRetry x1 x2) := .inr ⟨rfl, rfl⟩
theorem HasWord.eactUnresolvable (x1 : Nat) (x2 : Nat) : HasWord.Statement (.eactUnresolvable x1 x2) := .inr ⟨rfl, rfl⟩
theorem HasWord.mqtail (x1 : Nat) (x2 : Word) : HasWord.Statement (.mqtail x1 x2) := .inr ⟨rfl, rfl⟩
theorem HasWord.migrate (x1 : Nat) : HasWord.Statement (.migrate x1) := .inr ⟨rfl, rfl⟩
theorem HasWord.migdone (x1 : Nat) : HasWord.Statement (.migdone x1) := .inr ⟨rfl, rfl⟩
theorem HasWord.migabort (x1 : Nat) (x2 : Option Nat) : HasWord.Statement (.migabort x1 x2) := .inr ⟨rfl, rfl⟩
theorem HasWord.all (x1 : Nat) : HasWord.Statement (.all x1) := .inr ⟨rfl, rfl⟩
theorem HasWord.page (x1 : Nat) (x2 : Nat) : HasWord.Statement (.page x1 x2) := .inr ⟨rfl, rfl⟩
theorem HasWord.translationDropDone (x1 : Nat) : HasWord.Statement (.translationDropDone x1) := .inr ⟨rfl, rfl⟩
theorem HasWord.evict (x1 : Nat) (x2 : Nat) : HasWord.Statement (.evict x1 x2) := .inr ⟨rfl, rfl⟩
theorem HasWord.demote (x1 : Nat) (x2 : Nat) : HasWord.Statement (.demote x1 x2) := .inr ⟨rfl, rfl⟩
theorem HasWord.slotWrite (x1 : Nat) (x2 : Nat) (x3 : Nat) (x4 : Dword) : HasWord.Statement (.slotWrite x1 x2 x3 x4) := .inr ⟨rfl, rfl⟩
theorem HasWord.registerWrite (x1 : Nat) (x2 : Nat) (x3 : RegVal) : HasWord.Statement (.registerWrite x1 x2 x3) := .inr ⟨rfl, rfl⟩
theorem HasWord.inboundPostedWrite (x1 : Nat) (x2 : Nat) (x3 : Nat) (x4 : Nat) (x5 : List Byte) (x6 : Bool) : HasWord.Statement (.inboundPostedWrite x1 x2 x3 x4 x5 x6) := .inr ⟨rfl, rfl⟩
theorem HasWord.inboundRead (x1 : Nat) (x2 : Nat) (x3 : PciBar) (x4 : Nat) (x5 : Nat) : HasWord.Statement (.inboundRead x1 x2 x3 x4 x5) := .inr ⟨rfl, rfl⟩
theorem HasWord.inboundAtomicop (x1 : Nat) (x2 : Nat) (x3 : Nat) (x4 : Nat) (x5 : Bool) (x6 : AOpKind) (x7 : Dword) (x8 : Dword) : HasWord.Statement (.inboundAtomicop x1 x2 x3 x4 x5 x6 x7 x8) := .inr ⟨rfl, rfl⟩
theorem HasWord.outboundCompletion (x1 : Nat) (x2 : OutResult) : HasWord.Statement (.outboundCompletion x1 x2) := .inr ⟨rfl, rfl⟩
theorem HasWord.completionTimeout (x1 : Nat) : HasWord.Statement (.completionTimeout x1) := .inr ⟨rfl, rfl⟩
theorem HasWord.linkState (x1 : Nat) (x2 : LinkSt) : HasWord.Statement (.linkState x1 x2) := .inr ⟨rfl, rfl⟩
theorem HasWord.recoveryLimit (x1 : Nat) : HasWord.Statement (.recoveryLimit x1) := .inr ⟨rfl, rfl⟩
theorem HasWord.cxlPortDown (x1 : Nat) : HasWord.Statement (.cxlPortDown x1) := .inr ⟨rfl, rfl⟩
theorem HasWord.hold (x1 : BitVec 8) : HasWord.Statement (.hold x1) := .inr ⟨rfl, rfl⟩
theorem HasWord.inrstClear (x1 : Nat) : HasWord.Statement (.inrstClear x1) := .inr ⟨rfl, rfl⟩
theorem HasWord.getlimits : HasWord.Statement .getlimits := .inr ⟨rfl, rfl⟩
theorem HasWord.gettelem : HasWord.Statement .gettelem := .inr ⟨rfl, rfl⟩
theorem HasWord.setcap : HasWord.Statement .setcap := .inr ⟨rfl, rfl⟩
theorem HasWord.setwarn : HasWord.Statement .setwarn := .inr ⟨rfl, rfl⟩
theorem HasWord.getageing : HasWord.Statement .getageing := .inr ⟨rfl, rfl⟩
theorem HasWord.replan (x1 : Nat) : HasWord.Statement (.replan x1) := .inr ⟨rfl, rfl⟩
theorem HasWord.replanEnd (x1 : Nat) : HasWord.Statement (.replanEnd x1) := .inr ⟨rfl, rfl⟩
theorem HasWord.thermalTrip : HasWord.Statement .thermalTrip := .inr ⟨rfl, rfl⟩
theorem HasWord.freeze : HasWord.Statement .freeze := .inr ⟨rfl, rfl⟩
theorem HasWord.frz : HasWord.Statement .frz := .inr ⟨rfl, rfl⟩
theorem HasWord.readOut (x1 : Nat) : HasWord.Statement (.readOut x1) := .inr ⟨rfl, rfl⟩
theorem HasWord.moduleReset : HasWord.Statement .moduleReset := .inr ⟨rfl, rfl⟩
theorem HasWord.bringupStage (x1 : Bool) : HasWord.Statement (.bringupStage x1) := .inr ⟨rfl, rfl⟩
theorem HasWord.reachesHome (x1 : Nat) : HasWord.Statement (.reachesHome x1) := .inr ⟨rfl, rfl⟩
theorem HasWord.wctPassed (x1 : Nat) (x2 : Nat) (x3 : Nat) : HasWord.Statement (.wctPassed x1 x2 x3) := .inr ⟨rfl, rfl⟩
theorem HasWord.matrixInstructionFinish (x1 : Nat) : HasWord.Statement (.matrixInstructionFinish x1) := .inr ⟨rfl, rfl⟩
theorem HasWord.fetchFault (x1 : Nat) (x2 : Nat) (x3 : BitVec 32) : HasWord.Statement (.fetchFault x1 x2 x3) := .inr ⟨rfl, rfl⟩
theorem HasWord.pgpinAnswer (x1 : Nat) (x2 : Nat) (x3 : Nat) : HasWord.Statement (.pgpinAnswer x1 x2 x3) := .inr ⟨rfl, rfl⟩
theorem HasWord.powerToken (x1 : Nat) (x2 : Nat) : HasWord.Statement (.powerToken x1 x2) := .inr ⟨rfl, rfl⟩
theorem HasWord.firmwareThrottle (x1 : Nat) (x2 : Nat) (x3 : Nat) (x4 : Nat) : HasWord.Statement (.firmwareThrottle x1 x2 x3 x4) := .inr ⟨rfl, rfl⟩
theorem HasWord.fusedCeiling (x1 : Nat) : HasWord.Statement (.fusedCeiling x1) := .inr ⟨rfl, rfl⟩
theorem HasWord.slackMeasurement (x1 : Nat) (x2 : Word) : HasWord.Statement (.slackMeasurement x1 x2) := .inr ⟨rfl, rfl⟩
theorem HasWord.mainRailLoss : HasWord.Statement .mainRailLoss := .inr ⟨rfl, rfl⟩
theorem HasWord.moduleResetAssert : HasWord.Statement .moduleResetAssert := .inr ⟨rfl, rfl⟩
theorem HasWord.pcieLinkState (x1 : Nat) (x2 : LinkSt) : HasWord.Statement (.pcieLinkState x1 x2) := .inr ⟨rfl, rfl⟩
theorem HasWord.busMasterEnable (x1 : Nat) (x2 : Nat) (x3 : Bool) : HasWord.Statement (.busMasterEnable x1 x2 x3) := .inr ⟨rfl, rfl⟩
theorem HasWord.vectorUnmask (x1 : Nat) (x2 : Nat) : HasWord.Statement (.vectorUnmask x1 x2) := .inr ⟨rfl, rfl⟩
theorem HasWord.diepart (x1 : Nat) (x2 : Dword) : HasWord.Statement (.diepart x1 x2) := .inr ⟨rfl, rfl⟩
theorem HasWord.unknownCommand : HasWord.Statement .unknownCommand := .inr ⟨rfl, rfl⟩

end Sys2Proof.Laws
end

