-- ==== Sys2Proof/Laws/Runs.lean ====
section
/-! SUPPORT. What `State.perLane` and `State.wide` answer where nothing faults: the relation `Wrote` (R51, R121, R131). -/

namespace Sys2Proof.Machine

open Sys2Proof

/-! ## The end of a rendezvous -/

theorem State.group?_modTeam (s : State) (t t' g : Nat) (f : Team → Team) (hid : ∀ x, (f x).id = x.id)
    (hg : ∀ x, (f x).groups = x.groups) : (s.modTeam t f).group? t' g = s.group? t' g := by
  unfold State.group?
  rw [State.team?_modTeam s t t' f hid]
  cases s.team? t' with
  | none => rfl
  | some T =>
    simp only [Option.map_some, Option.bind_some, Team.group?]
    split
    · rw [hg]
    · rfl

theorem State.thread_modTeam (s : State) (t t' g l : Nat) (f : Team → Team) (hid : ∀ x, (f x).id = x.id)
    (hg : ∀ x, (f x).groups = x.groups) : (s.modTeam t f).thread t' g l = s.thread t' g l := by
  unfold State.thread
  rw [State.group?_modTeam s t t' g f hid hg]

theorem State.reg_modTeam (s : State) (t t' g l n : Nat) (f : Team → Team) (hid : ∀ x, (f x).id = x.id)
    (hg : ∀ x, (f x).groups = x.groups) (hc : ∀ x, (f x).core = x.core) : (s.modTeam t f).reg t' g l n = s.reg t' g l n := by
  have hr : (s.modTeam t f).rowAt t' g l (n / 8) = s.rowAt t' g l (n / 8) := by
    unfold State.rowAt
    rw [State.team?_modTeam s t t' f hid]
    cases hT : s.team? t' with
    | none => rfl
    | some T =>
      simp only [Option.map_some]
      split
      · have hln : ((f T).ln g l).th = (T.ln g l).th ∧ ((f T).ln g l).sub = (T.ln g l).sub := by
          unfold Team.ln Team.group?
          rw [hg]
          cases T.groups[g]? <;> exact ⟨rfl, rfl⟩
        rw [hln.1, hln.2, hc]
      · rfl
  rw [State.reg_eq, State.reg_eq, hr, State.thread_modTeam s t t' g l f hid hg]
  rfl

/-- Timers of groups stopped. -/
def State.stopTimers (s : State) (t : Nat) (ms : List Nat) : State := ms.foldl (fun s g => s.modGroup t g Group.stopTimer) s

theorem State.Near.stopTimers (t : Nat) (ms : List Nat) (s : State) : s.Near t (s.stopTimers t ms) :=
  State.Near.fold (fun (s : State) (g : Nat) => s.modGroup t g Group.stopTimer)
    (fun s g => .modGroup t g Group.stopTimer (fun _ => ⟨rfl, fun _ => .refl _⟩) s) ms s

theorem State.stopTimers_kiln (t : Nat) (ms : List Nat) (s : State) : (s.stopTimers t ms).kiln = s.kiln := by
  unfold State.stopTimers
  induction ms generalizing s with
  | nil => rfl
  | cons a ms ih => rw [List.foldl_cons, ih]; rfl

theorem State.stopTimers_thread (t : Nat) (ms : List Nat) (s : State) (t' g l : Nat) :
    (s.stopTimers t ms).thread t' g l = s.thread t' g l := by
  unfold State.stopTimers
  induction ms generalizing s with
  | nil => rfl
  | cons a ms ih =>
    rw [List.foldl_cons, ih]
    cases h : s.group? t' g with
    | none =>
      have e : (s.modGroup t a Group.stopTimer).group? t' g = none := by rw [State.group?_modGroup, h]; rfl
      rw [State.thread_none h, State.thread_none e]
    | some G =>
      have e : (s.modGroup t a Group.stopTimer).group? t' g = some (if t' = t ∧ g = a then G.stopTimer else G) := by
        rw [State.group?_modGroup, h]; rfl
      rw [State.thread_some h, State.thread_some e]
      split <;> rfl

/-! ## Members of the cursor -/

theorem lanesOf_nodup (m : BitVec 32) : (lanesOf m).Nodup := List.Pairwise.filter _ List.nodup_range

theorem mem_lanesOf {m : BitVec 32} {l : Nat} : l ∈ lanesOf m ↔ l < 32 ∧ m.getLsbD l = true := by
  unfold lanesOf allLanes
  simp

theorem State.mem_members {s : State} {T : Team} {ln : Ln} (h : ln ∈ s.members T) :
    ∃ x ∈ s.cur.members, ∃ l ∈ lanesOf x.2, ln = T.ln x.1 l := by
  unfold State.members at h
  simp only [List.mem_flatten, List.mem_map] at h
  obtain ⟨ls, ⟨x, hx, rfl⟩, hl⟩ := h
  simp only [List.mem_map] at hl
  obtain ⟨l, hl, rfl⟩ := hl
  exact ⟨x, hx, l, hl, rfl⟩

theorem State.members_once {s : State} {T : Team} (h : (s.cur.members.map (·.1)).Nodup) :
    ((s.members T).map fun ln => (ln.g, ln.l)).Nodup := by
  unfold State.members
  generalize s.cur.members = ms at h
  induction ms with
  | nil => exact List.nodup_nil
  | cons x ms ih =>
    simp only [List.map_cons, List.nodup_cons] at h
    simp only [List.map_cons, List.flatten_cons, List.map_append, List.map_map]
    rw [List.nodup_append]
    refine ⟨?_, ih h.2, ?_⟩
    · have : ((fun ln : Ln => (ln.g, ln.l)) ∘ fun l => T.ln x.1 l) = fun l => (x.1, l) := by funext l; simp
      rw [this]
      show List.Pairwise _ _
      rw [List.pairwise_map]
      exact (lanesOf_nodup x.2).imp fun hab e => hab (by simpa using e)
    · intro a ha b hb hab
      subst hab
      simp only [List.mem_map, List.mem_flatten, Function.comp] at ha hb
      obtain ⟨l, _, rfl⟩ := ha
      obtain ⟨ln, ⟨ls, ⟨y, hy, rfl⟩, hl⟩, e⟩ := hb
      simp only [List.mem_map] at hl
      obtain ⟨l', _, rfl⟩ := hl
      simp only [Team.ln_g, Prod.mk.injEq] at e
      exact h.1 (List.mem_map.mpr ⟨y, hy, e.1⟩)

/-- A lane of a list of members of the cursor is read as the team holds it. -/
theorem find_members {s : State} {T : Team} {acts : List Ln} (h : ∀ ln ∈ acts, ln ∈ s.members T) {g l : Nat} {ln : Ln}
    (hf : (acts.find? fun ln => ln.g == g && ln.l == l) = some ln) : ln = T.ln g l := by
  have hm := h ln (List.mem_of_find?_eq_some hf)
  have hp := List.find?_some hf
  obtain ⟨x, _, l', _, rfl⟩ := State.mem_members hm
  simp only [Team.ln_g, Team.ln_l, Bool.and_eq_true, beq_iff_eq] at hp
  rw [hp.1, hp.2]

/-! ## Copying on write -/

/-- Rows that are not shared are not copied (R18). -/
theorem State.cowAll_own {s : State} {t : Nat} (rows : List (Nat × Nat × Nat))
    (h : ∀ x ∈ rows, s.owns t x.1 x.2.1 x.2.2) : s.cowAll t rows = .ok s := by
  induction rows with
  | nil => rfl
  | cons x rows ih =>
    obtain ⟨g, l, i⟩ := x
    obtain ⟨k, hk, hc, -⟩ := h (g, l, i) (by simp)
    have hcow : s.cow t g l i = .ok s := by
      unfold State.rowAt at hk
      unfold State.cow
      cases hT : s.team? t with
      | none => rfl
      | some T =>
        rw [hT] at hk
        simp only at hk ⊢
        cases hv : vget (T.ln g l).th.rows i none with
        | none => rfl
        | some idx =>
          rw [hv] at hk
          simp only [Option.map_some, Option.some.injEq] at hk
          simp only [Team.ln_core, hk, hc]
          rfl
    unfold State.cowAll
    rw [hcow]
    exact ih fun x hx => h x (by simp [hx])

theorem State.rowsOf_own {s : State} {t : Nat} {lns : List Ln} {dst : List Nat}
    (h : ∀ ln ∈ lns, ∀ r ∈ dst, s.owns t ln.g ln.l (r / 8)) : ∀ x ∈ rowsOf lns dst, s.owns t x.1 x.2.1 x.2.2 := by
  intro x hx
  unfold rowsOf at hx
  simp only [List.mem_flatten, List.mem_map] at hx
  obtain ⟨ls, ⟨ln, hln, rfl⟩, hx⟩ := hx
  simp only [List.mem_map, List.mem_eraseDups] at hx
  obtain ⟨i, ⟨r, hr, rfl⟩, rfl⟩ := hx
  exact h ln hln r hr

/-! ## The results written and the lanes moved on -/

theorem State.retire_nil (s : State) : s.retire [] =
    (s.moveOn s.cur.team (s.cur.members.map fun x => (x.1, lanesOf x.2))).release s.cur.team s.cur.arr (s.cur.members.map (·.1)) := by
  unfold State.retire State.moveOn
  have h : ∀ ls : List Nat, ls.filter (fun _ => true) = ls := fun ls => List.filter_eq_self.mpr fun _ _ => rfl
  simp only [List.contains_nil, Bool.not_false, h, List.foldl_map]

/-- Lanes of the cursor write what they make of an instruction and go on: `Wrote`. -/
theorem State.wrote_of {s : State} {T : Team} (hT : s.AtWide T) {acts : List Ln} (hacts : ∀ ln ∈ acts, ln ∈ s.members T)
    (honce : (acts.map fun ln => (ln.g, ln.l)).Nodup) {n : Names} {f : Ln → Res} (hplain : ∀ ln ∈ acts, (f ln).Plain)
    (howned : ∀ ln ∈ acts, ∀ x ∈ (f ln).v, s.owns T.id ln.g ln.l (x.1 / 8)) (unk : Ln → Bool) :
    Wrote s T n acts f ((s.puts f (s.tainted · n) unk acts).retire []) := by
  have hid : s.cur.team = T.id := (State.team?_id hT.team).symm
  have hTt : s.team? T.id = some T := by rw [← hid]; exact hT.team
  have hw : s.Writable T.id acts f := by
    refine ⟨fun ln h => ?_, fun ln h => ?_, fun ln h => ?_, honce, hplain, howned⟩
    · obtain ⟨x, _, l, _, rfl⟩ := State.mem_members (hacts ln h); simp
    · obtain ⟨x, _, l, hl, rfl⟩ := State.mem_members (hacts ln h); simpa using (mem_lanesOf.mp hl).1
    · obtain ⟨x, hx, l, _, rfl⟩ := State.mem_members (hacts ln h)
      have := hT.groups x hx
      unfold State.group?
      rw [hTt]; simpa using this
  obtain ⟨hn, hreg, hth⟩ := State.puts_spec (taint := (s.tainted · n)) (unk := unk) acts s hw
  generalize hu : s.puts f (s.tainted · n) unk acts = u at hn hreg hth
  have hcur : u.cur = s.cur := by rw [hn.only]
  rw [State.retire_nil, hcur, hid]
  -- moving on
  have hmn := State.Near.moveOn T.id (s.cur.members.map fun x => (x.1, lanesOf x.2)) u
  have hms := State.moveOn_seen T.id (s.cur.members.map fun x => (x.1, lanesOf x.2)) u
    (by simpa [List.map_map, Function.comp_def] using hT.once)
    (by
      intro x hx
      simp only [List.mem_map] at hx
      obtain ⟨y, hy, rfl⟩ := hx
      refine ⟨lanesOf_nodup _, ?_⟩
      rw [hn.isSome_group]
      have := hT.groups y hy
      unfold State.group?
      rw [hTt]; simpa using this)
  generalize hv : u.moveOn T.id (s.cur.members.map fun x => (x.1, lanesOf x.2)) = v at hmn hms
  have hnv : s.Near T.id v := hn.trans hmn
  have hhas : ∀ g l, (T.id = T.id ∧ ((s.cur.members.map fun x => (x.1, lanesOf x.2)).any fun x =>
      x.1 == g && decide (l < 32) && x.2.contains l) = true) ↔ s.cur.has g l = true := by
    intro g l
    unfold Cursor.has
    simp only [true_and, List.any_map]
    constructor
    · intro h
      rw [List.any_eq_true] at h ⊢
      obtain ⟨x, hx, h⟩ := h
      simp only [Function.comp, Bool.and_eq_true, List.contains_iff_mem, mem_lanesOf] at h ⊢
      exact ⟨x, hx, h.1, h.2.2⟩
    · intro h
      rw [List.any_eq_true] at h ⊢
      obtain ⟨x, hx, h⟩ := h
      simp only [Function.comp, Bool.and_eq_true, List.contains_iff_mem, mem_lanesOf] at h ⊢
      exact ⟨x, hx, h.1, by simpa using h.1.2, h.2⟩
  have hseen : ∀ g l, (v.thread T.id g l).seen =
      if s.cur.has g l then (u.thread T.id g l).seen.next else (u.thread T.id g l).seen := by
    intro g l
    rw [hms T.id g l]
    by_cases h : s.cur.has g l = true
    · rw [if_pos h, if_pos ((hhas g l).mpr h)]
    · rw [if_neg h, if_neg (fun x => h ((hhas g l).mp x))]
  -- registers do not change once the results are written
  have hvreg : ∀ t' g l r, { v.reg t' g l r with unk := false } = { u.reg t' g l r with unk := false } := by
    intro t' g l r
    have hk : v.kiln = u.kiln := by
      rw [← hv]
      unfold State.moveOn
      generalize (s.cur.members.map fun x => (x.1, lanesOf x.2)) = ms
      clear hv hmn hms hnv hhas hseen hreg hth hn hcur hu
      induction ms generalizing u with
      | nil => rfl
      | cons a ms ih => rw [List.foldl_cons, ih]; rfl
    have hrow : ∀ k, v.row k = u.row k := fun k => by unfold State.row; rw [hk]
    have hta : (v.thread t' g l).taint = (u.thread t' g l).taint := by
      have e := hms t' g l
      have e2 := congrArg Thread.taint e
      split at e2 <;> exact e2
    rw [State.reg_eq, State.reg_eq, hmn.rowAt]
    cases u.rowAt t' g l (r / 8) with
    | none => rfl
    | some k => simp only [hrow, hta]
  -- the end of the rendezvous
  have hfin : ∃ w, v.release T.id s.cur.arr (s.cur.members.map (·.1)) = w ∧ w = { v with teams := w.teams } ∧
      (∀ t', t' ≠ T.id → w.team? t' = v.team? t') ∧
      (∃ T', w.team? T.id = some T' ∧ T' = { T with groups := T'.groups, cvs := T'.cvs } ∧ (s.cur.arr.cv? = none → T'.cvs = T.cvs)) ∧
      (∀ g, (v.group? T.id g = none ∧ w.group? T.id g = none) ∨
        ∃ G G', v.group? T.id g = some G ∧ w.group? T.id g = some G' ∧ G.Near G') ∧
      (∀ g l, (w.thread T.id g l).seen = (v.thread T.id g l).seen) ∧
      (∀ t' g l r, { w.reg t' g l r with unk := false } = { v.reg t' g l r with unk := false }) := by
    obtain ⟨T1, hT1, e1⟩ := hnv.team T hTt
    have hcv1 : T1.cvs = T.cvs := by rw [e1]
    have viaTeam : ∀ F : Team → Team, (∀ x, F x = { x with cvs := (F x).cvs }) → (s.cur.arr.cv? ≠ none) →
        (v.modTeam T.id F) = { v with teams := (v.modTeam T.id F).teams } ∧
        (∀ t', t' ≠ T.id → (v.modTeam T.id F).team? t' = v.team? t') ∧
        (∃ T', (v.modTeam T.id F).team? T.id = some T' ∧ T' = { T with groups := T'.groups, cvs := T'.cvs } ∧
          (s.cur.arr.cv? = none → T'.cvs = T.cvs)) ∧
        (∀ g, (v.group? T.id g = none ∧ (v.modTeam T.id F).group? T.id g = none) ∨
          ∃ G G', v.group? T.id g = some G ∧ (v.modTeam T.id F).group? T.id g = some G' ∧ G.Near G') ∧
        (∀ g l, ((v.modTeam T.id F).thread T.id g l).seen = (v.thread T.id g l).seen) ∧
        (∀ t' g l r, { (v.modTeam T.id F).reg t' g l r with unk := false } = { v.reg t' g l r with unk := false }) := by
      intro F hF hcv
      have fid : ∀ x, (F x).id = x.id := fun x => by rw [hF]
      have fg : ∀ x, (F x).groups = x.groups := fun x => by rw [hF]
      have fc : ∀ x, (F x).core = x.core := fun x => by rw [hF]
      refine ⟨rfl, fun t' ht => State.team?_modTeam_ne v F fid ht, ⟨F T1, State.team?_modTeam_eq F fid hT1, ?_, fun h => absurd h hcv⟩,
        fun g => ?_, fun g l => ?_, fun t' g l r => ?_⟩
      · rw [hF T1, e1]
      · rw [State.group?_modTeam v _ _ g F fid fg]
        cases h : v.group? T.id g with
        | none => exact .inl ⟨rfl, rfl⟩
        | some G => exact .inr ⟨G, G, rfl, rfl, .refl G⟩
      · rw [State.thread_modTeam v _ _ g l F fid fg]
      · rw [State.reg_modTeam v _ t' g l r F fid fg fc]
    cases ha : s.cur.arr with
    | no =>
      refine ⟨v, rfl, rfl, fun _ _ => rfl, ⟨T1, hT1, by rw [e1], fun _ => hcv1⟩, fun g => ?_, fun _ _ => rfl, fun _ _ _ _ => rfl⟩
      cases h : v.group? T.id g with
      | none => exact .inl ⟨rfl, rfl⟩
      | some G => exact .inr ⟨G, G, rfl, rfl, .refl G⟩
    | group =>
      have hN := State.Near.stopTimers T.id (s.cur.members.map (·.1)) v
      have hS := State.stopTimers_thread T.id (s.cur.members.map (·.1)) v
      have hk := State.stopTimers_kiln T.id (s.cur.members.map (·.1)) v
      refine ⟨v.stopTimers T.id (s.cur.members.map (·.1)), rfl, ?_⟩
      generalize v.stopTimers T.id (s.cur.members.map (·.1)) = w at hN hS hk ⊢
      obtain ⟨T2, hT2, e2⟩ := hN.team T1 hT1
      refine ⟨?_, hN.others, ⟨T2, hT2, by rw [e2, e1], fun _ => by rw [e2, hcv1]⟩, hN.group, fun g l => by rw [hS], fun t' g l r => ?_⟩
      · have h1 := hN.only
        rw [hk] at h1
        exact h1
      · have hrow : ∀ k, w.row k = v.row k := fun k => by unfold State.row; rw [hk]
        rw [State.reg_eq, State.reg_eq, hN.rowAt]
        simp only [hrow, hS]
    | set cv =>
      rw [ha] at viaTeam
      exact ⟨v.modTeam T.id (Team.endRendezvous cv), rfl, viaTeam (Team.endRendezvous cv) (fun _ => rfl) (fun h => nomatch h)⟩
    | team cv =>
      rw [ha] at viaTeam
      exact ⟨v.modTeam T.id (Team.endRendezvous cv), rfl, viaTeam (Team.endRendezvous cv) (fun _ => rfl) (fun h => nomatch h)⟩
  obtain ⟨w, hwe, honly, hothers, hteam, hgroup, hws, hwr⟩ := hfin
  rw [hwe]
  have hNN : ∀ g, (s.group? T.id g = none ∧ w.group? T.id g = none) ∨
      ∃ G G', s.group? T.id g = some G ∧ w.group? T.id g = some G' ∧ G.Near G' := by
    intro g
    rcases hnv.group g with ⟨a, b⟩ | ⟨G, G1, a, b, nn⟩
    · rcases hgroup g with ⟨c, d⟩ | ⟨_, _, c, d, -⟩
      · exact .inl ⟨a, d⟩
      · rw [b] at c; cases c
    · rcases hgroup g with ⟨c, d⟩ | ⟨G1', G2, c, d, nn'⟩
      · rw [b] at c; cases c
      · rw [b] at c; cases c
        exact .inr ⟨G, G2, a, d, nn.trans nn'⟩
  have hall : ∀ g l, (w.thread T.id g l).seen =
      if s.cur.has g l then (u.thread T.id g l).seen.next else (u.thread T.id g l).seen := fun g l => by rw [hws, hseen]
  have hmade : ∀ g l, made acts f g l ≠ none → s.cur.has g l = true := by
    intro g l hne
    cases hm : made acts f g l with
    | none => exact absurd hm hne
    | some r =>
      unfold made at hm
      simp only [Option.map_eq_some_iff] at hm
      obtain ⟨ln, hln, -⟩ := hm
      have hmem := List.mem_of_find?_eq_some hln
      have hp := List.find?_some hln
      obtain ⟨x, hx, l', hl', e1⟩ := State.mem_members (hacts ln hmem)
      subst e1
      simp only [Team.ln_g, Team.ln_l, Bool.and_eq_true, beq_iff_eq] at hp
      obtain ⟨rfl, rfl⟩ := hp
      have := mem_lanesOf.mp hl'
      unfold Cursor.has
      rw [List.any_eq_true]
      exact ⟨x, hx, by simp [this.1, this.2]⟩
  refine ⟨?_, fun t' ht => (hothers t' ht).trans (hnv.others t' ht), hteam, fun g G' hG' => ?_, fun g l => ?_, fun g l => ?_,
    fun g l hh => ?_, fun g l hh => ?_, fun g l => ⟨?_, ?_⟩, fun g l p hp => ?_, fun g l => ?_, fun t' g l r => ?_⟩
  · have h1 := hnv.only
    rw [h1] at honly
    rw [honly]
  · rcases hNN g with ⟨_, b⟩ | ⟨G, G2, a, b, nn⟩
    · rw [b] at hG'; cases hG'
    · rw [b] at hG'; cases hG'
      refine ⟨G, ?_, nn.eq⟩
      unfold State.group? at a
      rw [hTt] at a; exact a
  · rcases hNN g with ⟨a, b⟩ | ⟨G, G2, a, b, nn⟩
    · rw [State.thread_none a, State.thread_none b]; exact ⟨0, rfl⟩
    · rw [State.thread_some a, State.thread_some b]; exact nn.thread l
  · have e := congrArg Thread.pc (hall g l)
    have c := (hth g l).2.2.1
    have e' : (w.thread T.id g l).pc = if s.cur.has g l then (u.thread T.id g l).pc + 8#32 else (u.thread T.id g l).pc := by
      split
      · rename_i hh; rw [if_pos hh] at e; exact e
      · rename_i hh; rw [if_neg hh] at e; exact e
    rw [e', c]
    by_cases hh : s.cur.has g l = true
    · simp only [hh, if_true]
      cases hgo : (made acts f g l).bind (·.goto) with
      | none => rfl
      | some p => exact BitVec.sub_add_cancel p 8#32
    · simp only [hh, if_false]
      have hno : made acts f g l = none := by
        cases hm : made acts f g l with
        | none => rfl
        | some r => exact absurd (hmade g l (by rw [hm]; exact fun h => nomatch h)) hh
      rw [hno]; rfl
  · have e := hall g l
    rw [if_neg (by rw [hh]; exact fun h => nomatch h)] at e
    rw [e]
    have hno : made acts f g l = none := by
      cases hm : made acts f g l with
      | none => rfl
      | some r => rw [hmade g l (by rw [hm]; exact fun h => nomatch h)] at hh; cases hh
    rw [(hth g l).2.2.2.2.2 hno]
  · have e := hall g l
    rw [if_pos hh] at e
    exact ⟨congrArg Thread.arr e, congrArg Thread.wait e⟩
  · have e := congrArg Thread.clkLatch (hall g l)
    have e' : (w.thread T.id g l).clkLatch = (u.thread T.id g l).clkLatch := by split at e <;> exact e
    rw [e']
    exact (hth g l).2.2.2.1
  · have e := congrArg Thread.gtLatch (hall g l)
    have e' : (w.thread T.id g l).gtLatch = (u.thread T.id g l).gtLatch := by split at e <;> exact e
    rw [e']
    exact (hth g l).2.2.2.2.1
  · have e := congrArg Thread.preds (hall g l)
    have e' : (w.thread T.id g l).preds = (u.thread T.id g l).preds := by split at e <;> exact e
    rw [e']
    exact (hth g l).1 p hp
  · have e := congrArg Thread.tsw (hall g l)
    have e' : (w.thread T.id g l).tsw = (u.thread T.id g l).tsw := by split at e <;> exact e
    rw [e']
    exact (hth g l).2.1
  · rw [hwr, hvreg, hreg]
    by_cases ht : t' = T.id
    · simp only [ht, if_true]
      unfold made
      cases hf : acts.find? fun ln => ln.g == g && ln.l == l with
      | none => rfl
      | some ln =>
        rw [find_members hacts hf]
        rfl
    · simp only [ht, if_false]

/-! ## The two shapes -/

theorem State.AtLane.wide {s : State} {T : Team} {g : Nat} {m : BitVec 32} (h : s.AtLane T g m) : s.AtWide T :=
  ⟨h.team, fun x hx => by rw [h.here] at hx; simp only [List.mem_singleton] at hx; rw [hx]; exact h.group,
    by rw [h.here]; simp⟩

theorem State.mem_actors {s : State} {T : Team} {i : Iss} {ln : Ln} (h : ln ∈ s.actors T i) : ln ∈ s.members T :=
  (List.mem_filter.mp h).1

theorem State.actors_once {s : State} {T : Team} (i : Iss) (h : (s.cur.members.map (·.1)).Nodup) :
    ((s.actors T i).map fun ln => (ln.g, ln.l)).Nodup := (State.members_once h).sublist (List.Sublist.map _ List.filter_sublist)

theorem nullLanes_nil {lns : List Ln} {ns : List Nat} (h : ∀ ln ∈ lns, ∀ r ∈ ns, (ln.key? r).isSome = true) : nullLanes lns ns = [] := by
  unfold nullLanes
  rw [List.filter_eq_nil_iff]
  intro ln hln hc
  rw [List.any_eq_true] at hc
  obtain ⟨r, hr, hn⟩ := hc
  have := h ln hln r hr
  cases hk : ln.key? r <;> rw [hk] at this hn <;> simp at this hn

theorem any_poison_false {s : State} {ln : Ln} {src : List Nat} (h : ∀ r ∈ src, (s.rd ln r).poison = false) :
    (src.any fun r => (s.rd ln r).poison) = false := by
  rw [List.any_eq_false]
  intro r hr
  rw [h r hr]; exact fun h => nomatch h

/-- An instruction that acts lane by lane, where no lane faults: each executing lane writes what it makes of it (R51). -/
theorem State.perLane_runs {s : State} {T : Team} (hAt : s.AtWide T) {i : Iss} {n : Names} {f : Team → Ln → Res}
    (hready : ∀ ln ∈ s.actors T i, s.Ready T.id ln n)
    (hres : ∀ ln ∈ s.actors T i, (f T ln).Plain ∧ (f T ln).bad = none ∧ trapsFpx T.fpen (f T ln).flags = false ∧
      ∀ x ∈ (f T ln).v, x.1 ∈ n.dst) :
    GoesTo (s.perLane i n f) (Wrote s T n (s.actors T i) (f T)) := by
  have hnull : nullLanes (s.actors T i) (n.src ++ n.dst ++ n.also) = [] := nullLanes_nil fun ln h => (hready ln h).allotted
  have hr : ∀ ln ∈ s.actors T i, s.resultOf T n f ln = f T ln := by
    intro ln h
    unfold State.resultOf
    obtain ⟨-, hb, ht, -⟩ := hres ln h
    rw [any_poison_false (hready ln h).sound]
    simp [ht]
  have hmap : (s.actors T i).map (fun ln => (ln, s.resultOf T n f ln)) = (s.actors T i).map fun ln => (ln, f T ln) :=
    List.map_congr_left fun ln h => by rw [hr ln h]
  have hw : worstOf (((s.actors T i).map fun ln => (ln, f T ln)).filterMap (·.2.bad)) = none := by
    have : ((s.actors T i).map fun ln => (ln, f T ln)).filterMap (·.2.bad) = [] := by
      rw [List.filterMap_eq_nil_iff]
      intro x hx
      obtain ⟨ln, hln, rfl⟩ := List.mem_map.mp hx
      exact (hres ln hln).2.1
    rw [this]; rfl
  have hhold : ((s.actors T i).map fun ln => (ln, f T ln)).filter
      (fun x => x.2.bad.isNone || x.2.bad == some Code.fpx) = (s.actors T i).map fun ln => (ln, f T ln) := by
    rw [List.filter_eq_self]
    intro x hx
    obtain ⟨ln, hln, rfl⟩ := List.mem_map.mp hx
    simp [(hres ln hln).2.1]
  have hstay : (((s.actors T i).map fun ln => (ln, f T ln)).filter fun x => x.2.bad.isSome || x.2.hold.isSome) = [] := by
    rw [List.filter_eq_nil_iff]
    intro x hx
    obtain ⟨ln, hln, rfl⟩ := List.mem_map.mp hx
    simp [(hres ln hln).2.1, (hres ln hln).1.hold]
  have hcow : s.cowAll T.id (rowsOf (((s.actors T i).map fun ln => (ln, f T ln)).map (·.1)) n.dst) = .ok s := by
    refine State.cowAll_own _ (State.rowsOf_own fun ln hln r hr => ?_)
    simp only [List.map_map, List.mem_map, Function.comp] at hln
    obtain ⟨ln', h, rfl⟩ := hln
    exact (hready ln' h).owned r hr
  have hfold : ((s.actors T i).map fun ln => (ln, f T ln)).foldl (fun s1 x =>
      if x.2.bad.isNone then s1.put x.1 x.2 (s.tainted x.1 n) (s.unknown x.1 n)
      else if x.2.bad == some Code.fpx && (none : Option Code) == some Code.fpx then
        s1.modThread x.1.t x.1.g x.1.l fun th => th.orFlags x.2.flags
      else s1) s = s.puts (f T) (s.tainted · n) (s.unknown · n) (s.actors T i) := by
    unfold State.puts
    rw [List.foldl_map]
    have gen : ∀ (l : List Ln) (u : State), (∀ ln ∈ l, (f T ln).bad = none) →
        l.foldl (fun s1 ln => if (f T ln).bad.isNone then s1.put ln (f T ln) (s.tainted ln n) (s.unknown ln n)
          else if (f T ln).bad == some Code.fpx && (none : Option Code) == some Code.fpx then
            s1.modThread ln.t ln.g ln.l fun th => th.orFlags (f T ln).flags
          else s1) u = l.foldl (fun s1 ln => s1.put ln (f T ln) (s.tainted ln n) (s.unknown ln n)) u := by
      intro l
      induction l with
      | nil => intro u _; rfl
      | cons a l ih =>
        intro u h
        rw [List.foldl_cons, List.foldl_cons, ih _ (fun ln hl => h ln (by simp [hl])), h a (by simp)]
        rfl
    exact gen _ s fun ln h => (hres ln h).2.1
  refine ⟨(s.puts (f T) (s.tainted · n) (s.unknown · n) (s.actors T i)).retire [], ?_, ?_⟩
  · unfold State.perLane
    simp only [hAt.team, hnull, List.isEmpty_nil, Bool.not_true, Bool.false_eq_true, if_false, hmap, hw, hhold, hcow, hfold, hstay,
      List.map_nil]
  · exact State.wrote_of hAt (fun ln h => State.mem_actors h) (State.actors_once i hAt.once) (fun ln h => (hres ln h).1)
      (fun ln h x hx => (hready ln h).owned x.1 ((hres ln h).2.2.2 x hx)) _

/-- A single execution over its members, where it does not fault: each member lane writes what it gets (R121, R131). -/
theorem State.wide_runs {s : State} {T : Team} (hAt : s.AtWide T) {n : Names} {f : Team → List Ln → WideRes} {h : Ln → Res}
    (hready : ∀ ln ∈ s.members T, s.Ready T.id ln n) (hf : f T (s.members T) = .ok ((s.members T).map fun ln => (ln, h ln)))
    (hres : ∀ ln ∈ s.members T, (h ln).Plain ∧ ∀ x ∈ (h ln).v, x.1 ∈ n.dst) :
    GoesTo (s.wide n f) (Wrote s T n (s.members T) h) := by
  have hnull : nullLanes (s.members T) (n.src ++ n.dst ++ n.also) = [] := nullLanes_nil fun ln h => (hready ln h).allotted
  have hbad : ((s.members T).filter fun ln => n.src.any fun r => (s.rd ln r).poison) = [] := by
    rw [List.filter_eq_nil_iff]
    intro ln hln
    rw [any_poison_false (hready ln hln).sound]; exact fun h => nomatch h
  have hcow : s.cowAll T.id (rowsOf (((s.members T).map fun ln => (ln, h ln)).map (·.1)) n.dst) = .ok s := by
    refine State.cowAll_own _ (State.rowsOf_own fun ln hln r hr => ?_)
    simp only [List.map_map, List.mem_map, Function.comp] at hln
    obtain ⟨ln', h', rfl⟩ := hln
    exact (hready ln' h').owned r hr
  refine ⟨(s.puts h (s.tainted · n) (s.unknown · n) (s.members T)).retire [], ?_, ?_⟩
  · unfold State.wide State.puts
    simp only [hAt.team, hnull, hbad, List.isEmpty_nil, Bool.not_true, Bool.false_eq_true, if_false, hf, hcow, List.foldl_map]
  · exact State.wrote_of hAt (fun ln h => h) (State.members_once hAt.once) (fun ln h' => (hres ln h').1)
      (fun ln h' x hx => (hready ln h').owned x.1 ((hres ln h').2 x hx)) _

end Sys2Proof.Machine
end

