-- ==== Sys2Proof/Laws/Single.lean ====
section
/-! SUPPORT. What `State.single` and `State.once` answer where nothing faults (R108, R121). -/

namespace Sys2Proof.Machine

open Sys2Proof

/-- The members of a cursor go on. -/
theorem State.retire_wentOn {s : State} {T : Team} (h : s.AtWide T) : WentOn s (s.retire []) :=
  ⟨T, h, State.wrote_of (acts := []) h (fun _ h => nomatch h) List.nodup_nil (fun _ h => nomatch h) (fun _ h => nomatch h) fun _ => false⟩

/-- A single execution whose scalars can be read does what its function says. -/
theorem State.once_runs {s s' : State} {T : Team} (hT : s.team? s.cur.team = some T) {n : Names}
    {f : Team → List Ln → Except (Code × List Ln) State} (hsrc : s.Supplies T (n.src ++ n.also)) (hf : f T (s.members T) = .ok s') :
    s.once n f = .next s' := by
  have hlead : ∀ ln ∈ (s.members T).take 1, ∀ r ∈ n.src ++ n.also, (ln.key? r).isSome = true ∧ (s.rd ln r).poison = false := by
    intro ln hln
    refine hsrc ln ?_
    unfold State.leader
    cases hm : s.members T with
    | nil => rw [hm] at hln; cases hln
    | cons a as => rw [hm] at hln; simp at hln; simp [hln]
  have hnull : nullLanes ((s.members T).take 1) (n.src ++ n.also) = [] := nullLanes_nil fun ln h r hr => (hlead ln h r hr).1
  have hbad : (((s.members T).take 1).any fun ln => n.src.any fun r => (s.rd ln r).poison) = false := by
    rw [List.any_eq_false]
    intro ln hln
    rw [any_poison_false fun r hr => (hlead ln hln r (by simp [hr])).2]
    exact fun h => nomatch h
  unfold State.once
  simp only [hT, hnull, List.isEmpty_nil, Bool.not_true, Bool.false_eq_true, if_false, hbad, hf]

/-- The same, the members going on at the following word. -/
theorem State.single_runs {s s' : State} {T T' : Team} (hT : s.team? s.cur.team = some T) {n : Names}
    {f : Team → List Ln → Except (Code × List Ln) State} (hsrc : s.Supplies T (n.src ++ n.also)) (hf : f T (s.members T) = .ok s')
    (h' : s'.AtWide T') : GoesTo (s.single n f) (WentOn s') := by
  refine ⟨s'.retire [], ?_, State.retire_wentOn h'⟩
  unfold State.single
  exact State.once_runs hT hsrc (by rw [hf]; rfl)

end Sys2Proof.Machine
end

