-- ==== Sys2Proof/Laws/Shapes.lean ====
section
/-! SUPPORT. The shapes of the statements about instructions: what is left to show of one instruction. -/

namespace Sys2Proof.Machine

open Sys2Proof

/-- The lanes' results matter only in the lanes that carry out the instruction. -/
theorem Wrote.congr {s t : State} {T : Team} {n : Names} {acts : List Ln} {f f' : Ln → Res} (h : Wrote s T n acts f t)
    (hf : ∀ ln ∈ acts, f ln = f' ln) : Wrote s T n acts f' t := by
  have hm : made acts f = made acts f' := by
    funext g l
    unfold made
    cases hx : acts.find? fun ln => ln.g == g && ln.l == l with
    | none => rfl
    | some ln => simp only [Option.map_some, hf ln (List.mem_of_find?_eq_some hx)]
  refine ⟨h.only, h.others, h.team, h.group, h.thread, ?_, h.still, h.moved, ?_, ?_, ?_, ?_⟩ <;> rw [← hm]
  · exact h.pc
  · exact h.latch
  · exact h.preds
  · exact h.tsw
  · exact h.reg

/-- An instruction whose meaning is `perLane`. -/
theorem RunsLanes.of {ins : Instr} {i : Iss} {n : Names} {ok : State → Team → Ln → Prop} {f : State → Team → Ln → Res}
    {F : State → Team → Ln → Res} (hx : ∀ s, exec ins s = s.perLane i n (F s))
    (hf : ∀ s T ln, ln ∈ s.actors T i → ok s T ln → F s T ln = f s T ln ∧ (f s T ln).Plain ∧ (f s T ln).bad = none ∧
      ∀ x ∈ (f s T ln).v, x.1 ∈ n.dst) : RunsLanes ins i n ok f := by
  intro s T g m hat hok
  have key : ∀ ln ∈ s.actors T i, F s T ln = f s T ln := fun ln h => (hf s T ln h (hok ln h).2.1).1
  obtain ⟨t, ht, hw⟩ := State.perLane_runs hat.wide (i := i) (n := n) (f := F s) (fun ln h => (hok ln h).1) (by
    intro ln h
    obtain ⟨-, hp, hb, hv⟩ := hf s T ln h (hok ln h).2.1
    rw [key ln h]
    exact ⟨hp, hb, (hok ln h).2.2, hv⟩)
  exact ⟨t, by rw [hx]; exact ht, hw.congr key⟩

/-- An instruction whose meaning is `wide`. -/
theorem RunsOnce.of {ins : Instr} {n : Names} {ok : State → Team → Prop} {f : State → Team → Ln → Res}
    {F : State → Team → List Ln → WideRes} (hx : ∀ s, exec ins s = s.wide n (F s))
    (hf : ∀ s T, s.AtWide T → (∀ ln ∈ s.members T, s.Ready T.id ln n) → ok s T →
      F s T (s.members T) = .ok ((s.members T).map fun ln => (ln, f s T ln)) ∧
      ∀ ln ∈ s.members T, (f s T ln).Plain ∧ ∀ x ∈ (f s T ln).v, x.1 ∈ n.dst) : RunsOnce ins n ok f := by
  intro s T hat hready hok
  rw [hx]
  exact State.wide_runs hat hready (hf s T hat hready hok).1 (hf s T hat hready hok).2

theorem State.clatch_plain (s : State) (T : Team) (c : COp) : ∃ a b : Option (Option Word),
    ∀ th, s.clatch T c th = { th with clkLatch := a.getD th.clkLatch, gtLatch := b.getD th.gtLatch } := by
  cases c with
  | s n =>
    unfold State.clatch State.latch
    by_cases h : n = 10#8
    · exact ⟨some (some (highWord (s.clock T))), none, fun th => by simp [h]⟩
    · by_cases h' : n = 12#8
      · exact ⟨none, some (some (highWord s.gt)), fun th => by simp [h']⟩
      · exact ⟨none, none, fun th => by simp [h, h']⟩
  | _ => exact ⟨none, none, fun th => rfl⟩

/-- A result in one v register is plain, and so is one in one predicate or in none. -/
theorem Res.plain_of {r : Res} {s : State} {T : Team} {c : COp} (hh : r.hold = none) (hv : (r.v.map (·.1)).Nodup)
    (hq : (r.q.map (·.1)).Nodup) : (r.reading s T c).Plain := ⟨s.clatch_plain T c, hh, hv, hq⟩

theorem Res.plain_id {r : Res} (hl : r.latch = id) (hh : r.hold = none) (hv : (r.v.map (·.1)).Nodup)
    (hq : (r.q.map (·.1)).Nodup) : r.Plain := ⟨⟨none, none, fun th => by rw [hl]; rfl⟩, hh, hv, hq⟩

/-- An instruction over C alone. -/
theorem RunsLanes.opC {ins : Instr} {i : Iss} {d : VReg} {c : COp} {e : Ext} {f : Word → Word}
    (hx : ∀ s, exec ins s = s.opC i d c e f) : RunsLanes ins i (.toV c.regs d) (CanRead e c) fun s T ln =>
      (Res.reg d (f (s.cword T ln e c))).reading s T c := by
  refine RunsLanes.of hx fun s T ln _ ok => ⟨?_, Res.plain_of rfl (by simp [Res.reg]) (by simp [Res.reg]), rfl, by
    simp [Res.reading, Res.reg, Names.toV]⟩
  obtain ⟨x, hx⟩ := Option.isSome_iff_exists.mp ok
  unfold State.cword Res.reading
  rw [hx]; rfl

/-- An instruction over A and C. -/
theorem RunsLanes.opAC {ins : Instr} {i : Iss} {d a : VReg} {c : COp} {e : Ext} {f : Word → Word → Word}
    (hx : ∀ s, exec ins s = s.opAC i d a c e f) : RunsLanes ins i (.toV (a.toNat :: c.regs) d) (CanRead e c) fun s T ln =>
      (Res.reg d (f (s.v ln a) (s.cword T ln e c))).reading s T c := by
  refine RunsLanes.of hx fun s T ln _ ok => ⟨?_, Res.plain_of rfl (by simp [Res.reg]) (by simp [Res.reg]), rfl, by
    simp [Res.reading, Res.reg, Names.toV]⟩
  obtain ⟨x, hx⟩ := Option.isSome_iff_exists.mp ok
  unfold State.cword Res.reading State.v
  rw [hx]; rfl

/-- An instruction over A, B and C. -/
theorem RunsLanes.opABC {ins : Instr} {i : Iss} {d a b : VReg} {c : COp} {e : Ext} {f : Word → Word → Word → Word}
    (hx : ∀ s, exec ins s = s.opABC i d a b c e f) :
    RunsLanes ins i (.toV (a.toNat :: b.toNat :: c.regs) d) (CanRead e c) fun s T ln =>
      (Res.reg d (f (s.v ln a) (s.v ln b) (s.cword T ln e c))).reading s T c := by
  refine RunsLanes.of hx fun s T ln _ ok => ⟨?_, Res.plain_of rfl (by simp [Res.reg]) (by simp [Res.reg]), rfl, by
    simp [Res.reading, Res.reg, Names.toV]⟩
  obtain ⟨x, hx⟩ := Option.isSome_iff_exists.mp ok
  unfold State.cword Res.reading State.v
  rw [hx]; rfl

/-- The statement of an instruction with its results said in another way. -/
theorem RunsLanes.eq {ins : Instr} {i : Iss} {n : Names} {ok : State → Team → Ln → Prop} {f f' : State → Team → Ln → Res}
    (h : RunsLanes ins i n ok f) (hf : f = f') : RunsLanes ins i n ok f' := hf ▸ h

end Sys2Proof.Machine
end

