-- ==== Sys2Proof/Tests/Slice0.lean ====
section
/-! SUPPORT. The model's own tests: ill-formed instructions refused, words decoded as the spec writes them, single steps with results
worked out from the spec, and for every statement with hypotheses states and operands that meet them. -/

namespace Sys2Proof.Tests

open Sys2Proof Sys2Proof.Machine

set_option Elab.async false

/-! ## Small states -/

/-- Scope L, guard always. -/
def iL : Iss := { scope := .lane 7#3 false, wt := 0#8, ru := false }

/-- Scope G. -/
def iG : Iss := { scope := .group, wt := 0#8, ru := false }

/-- Scope T, on cv 0. -/
def iT : Iss := { scope := .team 0#4, wt := 0#8, ru := false }

/-- A live thread of lane 0 whose base rows are the first eight of its bank. -/
def th0 : Thread := benchThread .no

/-- A group whose lane 0 is a thread. -/
def grp (th : Thread) : Group := { benchGroup .no with threads := vset (.replicate 32 threadIdle) 0 th }

/-- Team 1, of one group. -/
def team (G : Group) : Team := { benchTeam 1 .no with groups := [G] }

/-- The bench of `State.withFetchWord` with a team, the cursor at an L-scope word in its lane 0. -/
def st (T : Team) : State :=
  { State.reset.bench 0#64 with teams := [T], cur := { team := 1, pc := 0#32, members := [(0, 1#32)], arr := .no } }

def tm0 : Team := team (grp th0)

def s0 : State := st tm0

/-- The lane at the cursor. -/
def ln0 : Ln := tm0.ln 0 0

/-! ## Its lane may use registers 0 to 63 -/

theorem thread_grp {G : Group} {th : Thread} (h : G.threads = vset (.replicate 32 threadIdle) 0 th) (l : Nat) :
    G.thread l = if l = 0 then th else threadIdle := by
  unfold Group.thread
  rw [h]
  by_cases hl : l < 32
  · simp only [vget, vset]
    rw [Vector.getElem?_eq_getElem hl, Vector.getElem_setIfInBounds hl]
    split
    · simp_all
    · have : ¬ l = 0 := by omega
      simp [this]
  · have : l ≠ 0 := by omega
    simp only [vget, vset, this, if_false]
    rw [Vector.getElem?_eq_none (by omega)]
    rfl

/-- What the lemmas below ask of a state: one team of one group, whose lane 0 alone is there, with the bench's rows. -/
structure Lone (s : State) (T : Team) (th : Thread) : Prop where
  teams : s.teams = [T]
  id : T.id = 1
  core : T.core = 0
  group : ∃ G, T.groups = [G] ∧ G.sub = 0 ∧ G.threads = vset (.replicate 32 threadIdle) 0 th
  rows : th.rows = th0.rows
  kiln : ∀ k < 8, (s.row k).count = 1 ∧ (s.row k).poison = 0#8

theorem rowAt_lone {s : State} {T : Team} {th : Thread} (h : Lone s T th) (t g l i : Nat) :
    s.rowAt t g l i = if t = 1 ∧ g = 0 ∧ l = 0 ∧ i < 8 then some i else none := by
  obtain ⟨hs, hi, hc, ⟨G, hg, hsub, hth⟩, hr, -⟩ := h
  unfold State.rowAt State.team?
  rw [hs]
  by_cases ht : t = 1
  · subst ht
    simp only [List.find?_cons, hi, beq_self_eq_true, true_and]
    have hln : (T.ln g l).th = if g = 0 ∧ l = 0 then th else threadIdle := by
      unfold Team.ln Team.group?
      rw [hg]
      cases g with
      | zero => simpa using thread_grp hth l
      | succ g => simp
    rw [hln]
    by_cases hgl : g = 0 ∧ l = 0
    · obtain ⟨rfl, rfl⟩ := hgl
      have : (T.ln 0 0).sub = 0 := by simp [Team.ln, Team.group?, hg, hsub]
      simp only [and_self, if_true, hr, true_and, this, hc]
      simp only [th0, benchThread, vget]
      by_cases h8 : i < 8
      · have h32 : i < 32 := by omega
        simp [h8, h32, rowKey]
      · by_cases h32 : i < 32
        · simp [h8, h32]
        · simp [h8, h32]
    · have h1 : ¬(g = 0 ∧ l = 0 ∧ i < 8) := fun x => hgl ⟨x.1, x.2.1⟩
      simp only [hgl, h1, if_false]
      simp only [threadIdle, vget]
      by_cases h32 : i < 32 <;> simp [h32]
  · have h1 : ¬(t = 1 ∧ g = 0 ∧ l = 0 ∧ i < 8) := fun x => ht x.1
    have h2 : (T.id == t) = false := by simp [hi]; omega
    simp [h2, ht]

theorem owns_lone {s : State} {T : Team} {th : Thread} (h : Lone s T th) {i : Nat} (hi : i < 8) : s.owns 1 0 0 i := by
  refine ⟨i, by simp [rowAt_lone h, hi], (h.kiln i hi).1, fun t' g' l' i' hr => ?_⟩
  rw [rowAt_lone h] at hr
  split at hr
  · rename_i hc
    cases hr
    exact ⟨hc.1, hc.2.1, hc.2.2.1, rfl⟩
  · cases hr

theorem key_lone {s : State} {T : Team} {th : Thread} (h : Lone s T th) {n : Nat} (hn : n < 64) :
    (T.ln 0 0).key? n = some (n / 8) := by
  have := rowAt_lone h 1 0 0 (n / 8)
  obtain ⟨hs, hi, -⟩ := h
  simp only [State.rowAt, State.team?, hs, List.find?_cons, hi, beq_self_eq_true, true_and] at this
  have h8 : n / 8 < 8 := by omega
  unfold Ln.key?
  simp only [h8, if_true] at this
  have e : (T.ln 0 0).core = T.core ∧ (T.ln 0 0).l = 0 := by unfold Team.ln; split <;> exact ⟨rfl, rfl⟩
  rw [e.1, e.2]
  exact this

theorem rd_lone {s : State} {T : Team} {th : Thread} (h : Lone s T th) {n : Nat} (hn : n < 64) :
    (s.rd (T.ln 0 0) n).poison = false := by
  unfold State.rd
  rw [key_lone h hn]
  simp [(h.kiln (n / 8) (by omega)).2]

/-- The registers below 64 of the lane are ready. -/
theorem ready_lone {s : State} {T : Team} {th : Thread} (h : Lone s T th) {n : Names}
    (hn : ∀ r ∈ n.src ++ n.dst ++ n.also, r < 64) : s.Ready 1 (T.ln 0 0) n := by
  have hgl : (T.ln 0 0).g = 0 ∧ (T.ln 0 0).l = 0 := by unfold Team.ln; split <;> exact ⟨rfl, rfl⟩
  refine ⟨fun r hr => ?_, fun r hr => ?_, fun r hr => ?_⟩
  · rw [key_lone h (hn r hr)]; rfl
  · exact rd_lone h (hn r (by simp [hr]))
  · rw [hgl.1, hgl.2]
    have := hn r (by simp [hr])
    exact owns_lone h (by omega)

/-- The cursor of these states. -/
theorem atLane_lone {s : State} {T : Team} {th : Thread} (h : Lone s T th) {pc : Word} {a : Arr} (ha : a.cv? = none)
    (hc : s.cur = { team := 1, pc, members := [(0, 1#32)], arr := a }) : s.AtLane T 0 1#32 := by
  obtain ⟨hs, hi, -, ⟨G, hg, -⟩, -⟩ := h
  refine ⟨?_, ?_, ?_, ?_⟩ <;> simp [hc, ha, State.team?, hs, hi, Team.group?, hg]

theorem atWide_lone {s : State} {T : Team} {th : Thread} (h : Lone s T th) {pc : Word} {a : Arr}
    (hc : s.cur = { team := 1, pc, members := [(0, 1#32)], arr := a }) : s.AtWide T := by
  obtain ⟨hs, hi, -, ⟨G, hg, -⟩, -⟩ := h
  refine ⟨?_, ?_, ?_⟩ <;> simp [hc, State.team?, hs, hi, Team.group?, hg]

theorem members_lone {s : State} {T : Team} {pc : Word} {a : Arr}
    (hc : s.cur = { team := 1, pc, members := [(0, 1#32)], arr := a }) : s.members T = [T.ln 0 0] := by
  unfold State.members
  rw [hc]
  have : lanesOf 1#32 = [0] := by decide
  simp [this]

theorem actors_lone {s : State} {T : Team} {pc : Word} {a : Arr} (i : Iss)
    (hc : s.cur = { team := 1, pc, members := [(0, 1#32)], arr := a }) (hi : i.scope = .lane 7#3 false ∨ i.scope = .group) :
    s.actors T i = [T.ln 0 0] := by
  unfold State.actors
  rw [members_lone hc]
  have : guardPasses i (T.ln 0 0).th = true := by
    unfold guardPasses
    rcases hi with h | h <;> rw [h] <;> simp [Thread.q]
  simp [this]

/-- What is true of the lane is true of every lane that executes. -/
theorem only {P : Ln → Prop} {xs : List Ln} {ln : Ln} (h : xs = [ln]) (hp : P ln) : ∀ x ∈ xs, P x := by simp [h, hp]

/-- What the only lane that executes is given. -/
theorem only_ok {α : Type} [DecidableEq α] {xs : List Ln} {ln : Ln} {f : Ln → Except Code α} {y : α} (h : xs = [ln])
    (hy : (match f ln with | .ok z => decide (z = y) | .error _ => false) = true) :
    xs.map (fun ln => (ln, f ln)) = [(ln, y)].map fun x => (x.1, .ok x.2) := by
  subst h
  cases hf : f ln with
  | error c => rw [hf] at hy; cases hy
  | ok z => rw [hf] at hy; simp [hf, of_decide_eq_true hy]

/-- Registers that are only read are ready where they are there and sound. -/
theorem ready_read {s : State} {t : Nat} {ln : Ln} {n : Names} (hd : n.dst = [])
    (ha : ∀ r ∈ n.src ++ n.dst ++ n.also, (ln.key? r).isSome = true) (hs : ∀ r ∈ n.src, (s.rd ln r).poison = false) : s.Ready t ln n :=
  ⟨ha, hs, by simp [hd]⟩

/-- The next state of an instruction, for the witnesses that start inside something. -/
def next (o : Out) (s : State) : State := match o with | .next t => t | _ => s

/-- Bytes placed at a virtual address of the bench. -/
def mem (s : State) (va n v : Nat) : State := s.setBytes (physKey 0 (0x200000 + va)) n v

theorem lone0 : Lone s0 tm0 th0 := ⟨rfl, rfl, rfl, ⟨_, rfl, rfl, rfl⟩, rfl, by decide⟩

/-- The same at a G-scope word, and at a T-scope word on cv 0. -/
def sG : State := { s0 with cur := { s0.cur with arr := .group } }
def sT : State := { s0 with cur := { s0.cur with arr := .team 0#4 } }

theorem loneG : Lone sG tm0 th0 := ⟨rfl, rfl, rfl, ⟨_, rfl, rfl, rfl⟩, rfl, by decide⟩
theorem loneT : Lone sT tm0 th0 := ⟨rfl, rfl, rfl, ⟨_, rfl, rfl, rfl⟩, rfl, by decide⟩

/-! ## Decoding (R68 to R79): a word of each opcode, its fields written out from the encodings of the spec -/

theorem test_decode_integer_1 :
    ([(0x00001C0000000000#64, .nop iL),
      (0x00201C0A00002200#64, .mov iL 5#8 (.v 17#8)),
      (0x00401C120000240B#64, .movs iL 9#8 18#8 true),
      (0xC0600A4200019001#64, .kset ⟨.team 5#4, 0#8, false⟩ 33#6 (.imm 200#8)),
      (0x00801C1212000201#64, .iadd iL 9#8 9#8 (.imm 1#8) false false),
      (0x40A000020400060A#64, .isub iG 1#8 2#8 (.k 3#6) true false),
      (0x00C01C0608000A14#64, .imul ⟨.lane 7#3 false, 0#8, true⟩ 3#8 4#8 (.v 5#8) false true),
      (0x00F03C0C0E001008#64, .imulh ⟨.lane 7#3 false, 129#8, false⟩ 6#8 7#8 (.v 8#8) true),
      (0x01001C141618021B#64, .imad iL 10#8 11#8 12#8 (.s 1#8) true true),
      (0x01201C0406080C00#64, .imadw iL 2#8 3#8 4#8 6#8 false),
      (0x01401C1014001818#64, .iaddw iL 8#8 10#8 (.v 12#8) true true),
      (0x01601C0204000608#64, .idiv iL 1#8 2#8 (.v 3#8) true)] : List (Dword × Instr)).all
      (fun x => (decode x.1).toOption == some x.2) = true := by decide

theorem test_decode_integer_2 :
    ([(0x01801C0E00000602#64, .irem iL 7#8 0#8 (.k 3#6) false),
      (0x01A01C0204000600#64, .imin iL 1#8 2#8 (.v 3#8) false),
      (0x01C01C080A01FE09#64, .imax iL 4#8 5#8 (.imm 255#8) true),
      (0x01E01C0800000A10#64, .iabs iL 4#8 (.v 5#8) true),
      (0x4200000228005001#64, .and iG 1#8 20#8 (.imm 40#8)),
      (0x02201C042A005201#64, .or iL 2#8 21#8 (.imm 41#8)),
      (0x424000062C005401#64, .xor iG 3#8 22#8 (.imm 42#8)),
      (0x02601C082E005601#64, .andn iL 4#8 23#8 (.imm 43#8)),
      (0x4280000A30005801#64, .shl iG 5#8 24#8 (.imm 44#8)),
      (0x02A01C0C32005A01#64, .shr iL 6#8 25#8 (.imm 45#8)),
      (0x42C0000E34005C01#64, .sar iG 7#8 26#8 (.imm 46#8)),
      (0x02E01C1036005E01#64, .rot iL 8#8 27#8 (.imm 47#8))] : List (Dword × Instr)).all
      (fun x => (decode x.1).toOption == some x.2) = true := by decide

theorem test_decode_integer_3 :
    ([(0x03001C0204060800#64, .shf iL 1#8 2#8 3#8 (.v 4#8)),
      (0x03201C0200000800#64, .popc iL 1#8 (.v 4#8)),
      (0x03401C0400007E02#64, .clz iL 2#8 (.k 63#6)),
      (0x03600A0600000C00#64, .brev ⟨.lane 2#3 true, 0#8, false⟩ 3#8 (.v 6#8)),
      (0x03801C0204000608#64, .bfx iL 1#8 2#8 (.v 3#8) true),
      (0x03A01C0204060800#64, .bfi iL 1#8 2#8 3#8 (.v 4#8)),
      (0x03C01C0C04069801#64, .prmt iL 6#8 2#8 3#8 (.imm 76#8)),
      (0x03E01C0800000412#64, .lea iL 4#8 0#8 (.k 2#6) 2#3),
      (0x04001C0204000668#64, .isel iL 1#8 2#8 (.v 3#8) 5#3 true),
      (0x04201C0202000812#64, .icmp iL 1#3 1#8 (.k 4#6) .lt false),
      (0x04401C0204064039#64, .plop iL 1#3 2#3 3#3 7#3 32#8),
      (0x04601C00AA001208#64, .pmov iL (.put 0x55#7 (.v 9#8)))] : List (Dword × Instr)).all
      (fun x => (decode x.1).toOption == some x.2) = true := by decide

theorem test_decode_control_1 :
    ([(0x06001C000001FA01#64, .bra iL (.imm 0xFD#8)),
      (0x06201C0C00001200#64, .call iL 6#8 (.v 9#8)),
      (0x06401C000C000000#64, .ret iL 6#8),
      (0x06601C0000000A01#64, .smeet iL (some (.imm 5#8))),
      (0x06801C0000000000#64, .exit iL),
      (0x46A0000000000000#64, .yield iG),
      (0x06C01C000000C801#64, .nap iL (.imm 100#8)),
      (0xC6E0060000000000#64, .bar ⟨.team 3#4, 0#8, false⟩),
      (0xC700001200001402#64, .cvset iT 9#4 (.k 10#6)),
      (0x4720000C00000000#64, .cvleave iG 6#4),
      (0x4740000208000008#64, .vote iG 1#8 4#3 false .some),
      (0x4760000608040249#64, .shfl iG 3#8 4#8 2#3 (.imm 1#8) .rot 2#2)] : List (Dword × Instr)).all
      (fun x => (decode x.1).toOption == some x.2) = true := by decide

theorem test_decode_control_2 :
    ([(0x4780000806000000#64, .redux iG 4#8 3#8 .add false),
      (0x47A0000204000038#64, .match_ iG 1#8 2#8 .order true),
      (0x07C01C0000000000#64, .trap iL),
      (0x07E01C0000000000#64, .bkpt iL),
      (0x4800000000060010#64, .tret iG .subst 3#8),
      (0x08201C0A00000E01#64, .csrr iL 5#8 7#8),
      (0xC84000000C000401#64, .csrw iT 2#8 6#8),
      (0x8860040600000000#64, .islast ⟨.set 2#4, 0#8, false⟩ 3#3),
      (0x08801C06080C0A11#64, .lnch iL 2#3 3#8 4#8 (.imm 5#8) 6#8),
      (0xC8A0000000000000#64, .succ iT),
      (0x48C0000000000020#64, .pwait iG 4#3)] : List (Dword × Instr)).all
      (fun x => (decode x.1).toOption == some x.2) = true := by decide

theorem test_decode_float_1 :
    ([(0x09001C02040006A8#64, .fadd iL 1#8 2#8 (.v 3#8) ⟨1#2, true, false, true, false⟩),
      (0x09201C0204000750#64, .fmul iL 1#8 2#8 (.v 3#8) ⟨2#2, false, true, false, true⟩),
      (0x09401C18080A0C8C#64, .ffma ⟨.lane 7#3 false, 0#8, true⟩ 12#8 4#8 5#8 (.v 6#8) ⟨1#2, false, false, true, false⟩),
      (0x09601C0204000660#64, .fmin iL 1#8 2#8 (.v 3#8) ⟨0#2, true, true, false, false⟩),
      (0x09801C0204000780#64, .fmax iL 1#8 2#8 (.v 3#8) ⟨0#2, false, false, true, true⟩),
      (0x09A01C0408000A78#64, .fcmp iL 2#3 4#8 (.v 5#8) .ord true),
      (0x09C01C0408000000#64, .fcls iL 2#8 4#8),
      (0x09E01C0E12000058#64, .frnd iL 7#8 9#8 ⟨3#2, false, true, false, false⟩),
      (0x0A001C0E12000128#64, .frcp iL 7#8 9#8 ⟨1#2, true, false, false, true⟩),
      (0x0A201C0E12000000#64, .frsq iL 7#8 9#8 ⟨0#2, false, false, false, false⟩),
      (0x0A401C0E12000010#64, .fsqrt iL 7#8 9#8 ⟨2#2, false, false, false, false⟩),
      (0x0A601C0204000618#64, .fdiv iL 1#8 2#8 (.v 3#8) ⟨3#2, false, false, false, false⟩)] : List (Dword × Instr)).all
      (fun x => (decode x.1).toOption == some x.2) = true := by decide

theorem test_decode_float_2 :
    ([(0x0A801C0E12000020#64, .fex2 iL 7#8 9#8 ⟨0#2, true, false, false, false⟩),
      (0x0AA01C0E12000048#64, .flg2 iL 7#8 9#8 ⟨1#2, false, true, false, false⟩),
      (0x0AC01C0204000600#64, .fgumb iL 1#8 2#8 (.v 3#8)),
      (0x0AE01C0204000602#64, .rngc iL 1#8 2#8 (.k 3#6)),
      (0x0B001C0E12000088#64, .f2i iL 7#8 9#8 ⟨1#2, false, false, true, false⟩),
      (0x0B201C0204000090#64, .i2f iL 1#8 2#8 2#2 true),
      (0x0B401C0E04300100#64, .fcvt iL 7#8 2#8 .e4m3 .f32 0#2 false false true),
      (0x0B601C0204000700#64, .hadd2 iL 1#8 2#8 (.v 3#8) ⟨0#2, false, false, false, true⟩),
      (0x0B801C0204000608#64, .hmul2 iL 1#8 2#8 (.v 3#8) ⟨1#2, false, false, false, false⟩),
      (0x0BA01C02040609A0#64, .hfma2 iL 1#8 2#8 3#8 (.v 4#8) ⟨0#2, true, false, true, true⟩),
      (0x0BC01C0204000648#64, .hmnx2 iL 1#8 2#8 (.v 3#8) ⟨1#2, false, true, false, false⟩),
      (0x0BE01C0204000768#64, .pk8 iL 1#8 2#8 (.v 3#8) true false true 1#2 true)] : List (Dword × Instr)).all
      (fun x => (decode x.1).toOption == some x.2) = true := by decide

theorem test_decode_float_3 :
    ([(0x0C001C0204000038#64, .upk8 iL 1#8 2#8 3#2 true),
      (0x0C201C02040006F0#64, .pk4 iL 1#8 2#8 (.v 3#8) 2#2 true 3#2),
      (0x0C401C0204000628#64, .upk4 iL 1#8 2#8 (.v 3#8) 5#3),
      (0x0C601C0204000688#64, .fscl iL 1#8 2#8 (.v 3#8) ⟨1#2, false, false, true, false⟩)] : List (Dword × Instr)).all
      (fun x => (decode x.1).toOption == some x.2) = true := by decide

theorem test_decode_memory_1 :
    ([(0x0E001C0E04060851#64, .ld iL 7#8 2#8 (.imm 4#8) ⟨.b32, .basin, false, 3#3⟩),
      (0x0E201C1008000D26#64, .st ⟨.lane 7#3 false, 0#8, true⟩ 8#8 4#8 (.k 6#6) ⟨.b128, .global, true, 0#3⟩),
      (0x0E401C1008000CF0#64, .ldc iL 8#8 4#8 (.v 6#8) ⟨.s16, .cistern, false, 0#3⟩),
      (0x0E601C0C06202059#64, .ldfe iL 6#8 3#8 (.imm 16#8) ⟨.b64, .basin, false, 0#3⟩ true),
      (0x0E801C0C060E2041#64, .stfe iL 6#8 3#8 (.imm 16#8) ⟨.b8, .basin, false, 7#3⟩),
      (0x0EA01C06100A0101#64, .atom iL 3#8 8#8 (.imm 0#8) 5#8 .add .device),
      (0x0EC01C0810180189#64, .acas iL 4#8 8#8 (.imm 0#8) 12#8 true .system),
      (0x0EE01C0A10120081#64, .afadd iL 5#8 8#8 (.imm 0#8) 9#8 .die),
      (0x0F000400040C0001#64, .ab2add ⟨.lane 1#3 false, 0#8, false⟩ 2#8 (.imm 0#8) 6#8 .team),
      (0x0F201C0010140109#64, .avimx iL 0#8 8#8 (.imm 0#8) 10#8 true .device),
      (0x0F401C0010160079#64, .red iL 8#8 (.imm 0#8) 11#8 .fadd .team),
      (0x0F601C00000000A0#64, .fence iL .device .acqrel)] : List (Dword × Instr)).all
      (fun x => (decode x.1).toOption == some x.2) = true := by decide

theorem test_decode_memory_2 :
    ([(0x0F801C00100080D1#64, .pref iL 8#8 (.imm 64#8) ⟨.b32, .cistern, false, 0#3⟩),
      (0xCFA0000000000018#64, .cctl iT .iinvall 0#8 (.v 0#8)),
      (0xCFC00006080C0E0A#64, .lsacq iT 1#3 3#8 4#8 6#8 (.k 7#6)),
      (0xCFE0000006000000#64, .lsrel iT 3#8)] : List (Dword × Instr)).all
      (fun x => (decode x.1).toOption == some x.2) = true := by decide

theorem test_decode_snapshot_1 :
    ([(0x12001C0412000008#64, .snap iL 1#3 2#4 9#8),
      (0x12201C0004000201#64, .rstr iL 2#4 (.imm 1#8)),
      (0x12401C080A000C18#64, .sprt iL 3#3 4#8 5#4 (.v 6#8)),
      (0x12601C1E00000000#64, .drop iL 15#4),
      (0x12801C0608000000#64, .hdup iL 3#4 4#4),
      (0x12A01C0608040041#64, .hspl iL 3#8 2#4 4#8 (.imm 0#8) true),
      (0x12C01C0408000029#64, .hldm iL 5#3 2#4 4#8 (.imm 0#8)),
      (0x12E01C0604000028#64, .hinf iL 3#8 2#4 .lane),
      (0x5300000200000010#64, .xacq iG 2#3 1#2),
      (0x5320000600000000#64, .xrel iG 3#2),
      (0x13401C0008004011#64, .spawn iL 2#3 4#8 (.imm 32#8)),
      (0x13601C0008100011#64, .qenq iL 2#3 4#8 (.imm 0#8) 8#8)] : List (Dword × Instr)).all
      (fun x => (decode x.1).toOption == some x.2) = true := by decide

theorem test_decode_snapshot_2 :
    ([(0x13801C1008000019#64, .qdeq iL 3#3 8#8 4#8 (.imm 0#8)),
      (0x53A0000E08120009#64, .csub iG 1#3 7#8 4#8 (.imm 0#8) 9#8),
      (0x13C01C000A000008#64, .esc iL 1#3 5#8),
      (0x13E01C0008000000#64, .cret iL 4#8)] : List (Dword × Instr)).all
      (fun x => (decode x.1).toOption == some x.2) = true := by decide

theorem test_decode_matrix :
    ([(0xD400000420000008#64, .slrsv iT 1#3 2#4 16#8),
      (0xD420001E00000000#64, .slrel iT 15#4),
      (0x9440020020040059#64, .mma ⟨.set 1#4, 0#8, false⟩ 0#2 16#8 2#4 (.imm 0#8) 11#4 false),
      (0xD460000020000001#64, .mmag iT 0#2 16#8 0#4 (.imm 0#8) 0#4),
      (0xD480000200000000#64, .mzero iT 1#2 false),
      (0x94A0045000000089#64, .mrd ⟨.set 2#4, 0#8, false⟩ 40#8 0#2 0#6 (.imm 0#8) .bf16 false false true),
      (0xD4C000061000080A#64, .mwr iT 3#2 8#8 (.k 4#6) true),
      (0xD4E000040E000000#64, .mscl iT 2#2 7#8),
      (0x9500120E04000008#64, .mchk ⟨.set 9#4, 0#8, false⟩ 7#8 2#2 true),
      (0xD520000408000001#64, .slcb iT 2#2 4#8 (.imm 0#8)),
      (0xD540000600000A0A#64, .mxcfg iT 3#4 (.k 5#6) true)] : List (Dword × Instr)).all
      (fun x => (decode x.1).toOption == some x.2) = true := by decide

theorem test_decode_engine_1 :
    ([(0xD600000810188009#64, .cpy iT 4#8 8#8 12#8 (.imm 64#8) 1#3),
      (0xD620000810188011#64, .cpyg iT 4#8 8#8 12#8 (.imm 64#8) 2#3),
      (0xD640000810180C3A#64, .cpys iT 4#8 8#8 12#8 (.k 6#6) 7#3),
      (0x16601C00080A1001#64, .carm iL 4#8 (.imm 8#8) 5#8),
      (0x96800806080A1001#64, .cwait ⟨.set 4#4, 0#8, false⟩ 3#8 4#8 (.imm 8#8) 5#8),
      (0x16A01C06080A1031#64, .ctest iL 6#3 3#8 4#8 (.imm 8#8) 5#8),
      (0xD6C00008020C1318#64, .mst iT 4#8 1#2 6#8 (.v 9#8) .i32 3#3),
      (0xD6E000080C100129#64, .coll iT 4#8 6#8 8#8 (.imm 0#8) .rsadd 5#3),
      (0x17001C1010200000#64, .phash iL 8#8 8#8 16#8),
      (0x17201C0010000029#64, .pgpin iL 5#3 8#8 (.imm 0#8)),
      (0x5740000010000609#64, .pgunpin iG 1#3 8#8 (.imm 3#8)),
      (0x17601C0C0A000E08#64, .slcommit iL 1#3 6#8 5#8 (.v 7#8))] : List (Dword × Instr)).all
      (fun x => (decode x.1).toOption == some x.2) = true := by decide

theorem test_decode_engine_2 :
    ([(0x17801C0C0A080030#64, .slqry iL 6#8 5#8 4#8 true .commit)] : List (Dword × Instr)).all
      (fun x => (decode x.1).toOption == some x.2) = true := by decide

/-- `iadd v1, v2 || fmul v6, v7` (R79), as the spec works it out. -/
theorem test_decode_pair : (decode 0x217008101DC0C0E0#64).toOption =
    some (.pairedWord ⟨.iadd, 7#3, false, 1#8, 2#8, false, 0#3⟩ ⟨.fmul, 7#3, false, 6#8, 7#8, false, 0#3⟩) := by decide

/-! ## Words and instructions that a rule refuses (R84, R94 to R98), one for each check -/

theorem test_refuses_words : ([
      -- an unassigned opcode (R94); G scope with PG = 7, as in the spec's example (R69); all ones (R98)
      (0x1FE01C0000000000#64, Reject.unassigned), (0x40801C1212000201#64, .sel), (0xFFFFFFFFFFFFFFFF#64, .pairForm),
      -- bit 0 of a paired word (R79); half opcode 0x3F (R96); a NOP half with D = 1 (R80)
      (0x217008101DC0C0E1#64, .pairForm), (0x3FF0081000000000#64, .half), (0x20700810000000E0#64, .nopHalf)] : List (Dword × Reject)).all
      (fun x => match decode x.1 with | .error why => why == x.2 | .ok _ => false) = true := by decide

theorem test_refuses_terms : ([
      -- IADD at T scope (R86); TRET.next with B = 1, which it does not use (R72); C of FGUMB a special register (R73)
      (.iadd iT 1#8 2#8 (.imm 1#8) false false, Reject.scope), (.tret iG .next 1#8, .field),
      (.rngc iL 1#8 2#8 (.s 1#8), .kind),
      -- MOVS.clr of a register other than TSW (R107); an odd pair (R77)
      (.movs iL 1#8 1#8 true, .modifier), (.imadw iL 1#8 2#8 4#8 6#8 false, .pair),
      -- two destinations in one bank (R81); a reserved HMOD bit (R82); an event (R84)
      (.pairedWord ⟨.iadd, 7#3, false, 1#8, 2#8, false, 0#3⟩ ⟨.iadd, 7#3, false, 5#8, 3#8, false, 0#3⟩, .bank),
      (.pairedWord ⟨.iadd, 7#3, false, 1#8, 2#8, false, 4#3⟩ ⟨.fmul, 7#3, false, 6#8, 7#8, false, 0#3⟩, .hmod),
      (.teamEnd 1, .notWord)] : List (Instr × Reject)).all (fun x => x.1.check == some x.2) = true := by decide

/-! ## Single steps: the worked examples of the spec, and the corners of its rules -/

/-- The state with registers 0 to 15 of the lane set. -/
def regs (xs : List Word) : State :=
  { s0 with kiln := (List.range 8).map fun j =>
      (j, { regs := Vector.ofFn fun i => xs.getD (8 * j + i.val) 0#32, pend := 0#8, poison := 0#8, count := 1, owner := 1, pool := .base 0 }) }

/-- A value of the next state. -/
def after {α : Type} (o : Out) (f : State → α) : Option α := match o with | .next t => some (f t) | _ => none

/-- A register of the lane afterwards. -/
def gives (o : Out) (n : Nat) : Option Word := after o fun t => (t.reg 1 0 0 n).val

/-- R109: the sum wraps. -/
theorem test_iadd_wraps : gives (exec (.iadd iL 1#8 1#8 (.imm 1#8) false false) (regs [0#32, 0xFFFFFFFF#32])) 1 = some 0#32 := by decide

/-- R109: the signed sum is clamped. -/
theorem test_iadd_clamps :
    gives (exec (.iadd iL 1#8 1#8 (.imm 1#8) true true) (regs [0#32, 0x7FFFFFFF#32])) 1 = some 0x7FFFFFFF#32 := by decide

/-- R111: −7 by 2 is −3, and −1 remains. -/
theorem test_idiv_truncates : gives (exec (.idiv iL 1#8 0#8 (.imm 2#8) true) (regs [0xFFFFFFF9#32])) 1 = some 0xFFFFFFFD#32 := by decide

theorem test_irem_sign : gives (exec (.irem iL 1#8 0#8 (.imm 2#8) true) (regs [0xFFFFFFF9#32])) 1 = some 0xFFFFFFFF#32 := by decide

/-- R111: by zero the quotient is 0 and IDZ (TSW bit 5) is set. -/
theorem test_idiv_zero : after (exec (.idiv iL 1#8 0#8 (.imm 0#8) true) (regs [5#32, 9#32])) (fun t =>
    ((t.reg 1 0 0 1).val, (t.thread 1 0 0).tsw &&& 0x20#32)) = some (0#32, 0x20#32) := by decide

/-- R112: 40 shifts everything out. -/
theorem test_sar_all : gives (exec (.sar iL 1#8 0#8 (.imm 40#8)) (regs [0x80000000#32])) 1 = some 0xFFFFFFFF#32 := by decide

/-- R114: the worked example. -/
theorem test_prmt : gives (exec (.prmt iL 6#8 2#8 3#8 (.imm 0x4C#8)) (regs [0#32, 0#32, 0x44332211#32, 0x88776655#32])) 6 =
    some 0x111155CC#32 := by decide

theorem test_prmt_selector :
    gives (exec (.prmt iL 6#8 2#8 3#8 (.v 4#8)) (regs [0#32, 0#32, 0x44332211#32, 0x88776655#32, 0xE4A1#32])) 6 = some 0x00558822#32 := by
  decide

/-- R117: the paired word of the worked example, and the unsigned full form. -/
theorem test_pair_icmp : after (exec (instrOf 0x2AF0182D05C12030#64) (regs [0#32, 0#32, 0#32, 0xFFFFFFFE#32, 0#32, 0#32, 0#32, 0#32, 0#32, 7#32]))
    (fun t => ((t.thread 1 0 0).q 3#3, (t.reg 1 0 0 9).val)) = some (true, 8#32) := by decide

theorem test_icmp_unsigned : after (exec (.icmp iL 3#3 3#8 (.imm 5#8) .lt false) (regs [0#32, 0#32, 0#32, 0xFFFFFFFE#32]))
    (fun t => (t.thread 1 0 0).q 3#3) = some false := by decide

/-- R158: 500.0 to E4M3 without saturation is NaN. -/
theorem test_fcvt_nsat : gives (exec (.fcvt iL 7#8 2#8 .e4m3 .f32 0#2 false false true) (regs [0#32, 0#32, 0x43FA0000#32])) 7 =
    some 0x7F#32 := by decide

theorem test_fcvt_exact : gives (exec (.fcvt iL 7#8 2#8 .e4m3 .f32 0#2 false false true) (regs [0#32, 0#32, 0x41600000#32])) 7 =
    some 0x56#32 := by decide

/-- R166: the paired word of the second example. -/
theorem test_pair_fp : after (exec (instrOf 0x26F0081027C0C060#64) (regs [0#32, 0x3F800000#32, 0x40000000#32, 0xC0200000#32]))
    (fun t => ((t.reg 1 0 0 1).val, (t.reg 1 0 0 6).val)) = some (0x40400000#32, 0xFFFFFFFE#32) := by decide

/-- R162: the third example. -/
theorem test_pk4 : gives (exec (.pk4 iL 8#8 4#8 (.v 5#8) 0#2 false 0#2)
    (regs [0#32, 0#32, 0#32, 0#32, 0x40A00000#32, 0xBE4CCCCD#32, 0#32, 0#32, 0x12345600#32])) 8 = some 0x12345606#32 := by decide

/-- R157. -/
theorem test_i2f_unsigned : gives (exec (.i2f iL 1#8 0#8 0#2 false) (regs [0xFFFFFFFF#32])) 1 = some 0x4F800000#32 := by decide

/-- R183: 2.5 with index 7 is kept; then 2.5 with index 3 is. -/
theorem test_vimx : AccOp.newValue .vimx 8 0 (BitVec.ofNat 512 (0x40200000 + 7 * 2 ^ 32)) = 0xC0200000FFFFFFF8 ∧
    AccOp.newValue .vimx 8 0xC0200000FFFFFFF8 (BitVec.ofNat 512 (0x40200000 + 3 * 2 ^ 32)) = 0xC0200000FFFFFFFC := by decide +kernel

/-- R165: the fourth example. -/
theorem test_fgumb : gives (exec (.fgumb iL 3#8 0#8 (.imm 0#8)) s0) 3 = some 0xC0368D1D#32 := by decide +kernel

/-- R127: CALL links the following word and goes to the target. -/
theorem test_call : after (exec (.call iL 3#8 (.v 1#8)) (regs [0#32, 0x40#32])) (fun t => ((t.reg 1 0 0 3).val, (t.thread 1 0 0).pc)) =
    some (8#32, 0x40#32) := by decide

/-- R127: an immediate target counts words. -/
theorem test_bra_back : after (exec (.bra iL (.imm 0xFD#8)) { s0 with cur := { s0.cur with pc := 0x18#32 } })
    (fun t => (t.thread 1 0 0).pc) = some 0#32 := by decide

/-- R172, R5: a word stored in Basin lies there little-endian. -/
theorem test_st_basin : after (exec (.st iL 1#8 0#8 (.imm 4#8) ⟨.b32, .basin, false, 0#3⟩) (regs [0x10#32, 0x11223344#32]))
    (fun t => (t.byte (basinKey 0 0x14), t.byte (basinKey 0 0x17), t.byte (basinKey 0 0x18))) = some (0x44#8, 0x11#8, 0#8) := by decide +kernel

/-- R168: a misaligned store ends the team and stores nothing. -/
theorem test_st_misaligned : after (exec (.st iL 1#8 0#8 (.imm 2#8) ⟨.b32, .basin, false, 0#3⟩) (regs [0x10#32, 0x11223344#32]))
    (fun t => (t.byte (basinKey 0 0x12), (t.team? 1).map (·.st))) = some (0#8, some (.ending true)) := by decide

/-- R275, R355: a trap with a handler set goes to TRAPVEC, and %fltcode is 0x10. -/
theorem test_trap_enters : after (exec (.trap iL) (st { tm0 with trapvec := 0x100#32 }))
    (fun t => ((t.thread 1 0 0).pc, ((t.group? 1 0).map (·.fltcode)))) = some (0x100#32, some 0x10#32) := by decide

/-- R250: arming 2 makes EXP 2. -/
theorem test_carm : (Bar.of 0).arm 2 = some { exp := 2, arr := 0, ph := 0, err := 0 } := by decide

/-- R122, R320: an instruction runs from reset: `iadd v9, v9, 1` in the bench. -/
theorem test_step_iadd : after (step (State.reset.withFetchWord 64 0x00801C1212000201)) (fun t =>
    ((t.reg 1 0 0 9).val, (t.thread 1 0 0).pc)) = some (1#32, 8#32) := by decide

/-- R108: `t(cv0).kset k3, 7` once its rendezvous is complete. -/
theorem test_step_kset : after (step (State.reset.withFetchWord 64 0xC060000600000E01)) (fun t =>
    ((t.team? 1).map (·.kreg 3), (t.thread 1 0 0).pc)) = some (some 7#32, 8#32) := by decide

/-! ## Witnesses: for every statement with hypotheses, states and operands that meet them -/

/-- The hypotheses of `RunsLanes` hold in `s0` at L scope and in `sG` at G scope. -/
def Met (n : Names) (ok : State → Team → Ln → Prop) : Prop :=
  s0.AtLane tm0 0 1#32 ∧ s0.actors tm0 iL = [ln0] ∧ sG.AtLane tm0 0 1#32 ∧ sG.actors tm0 iG = [ln0] ∧
  (∀ ln ∈ s0.actors tm0 iL, s0.Ready tm0.id ln n ∧ ok s0 tm0 ln ∧ ∀ fl, trapsFpx tm0.fpen fl = false) ∧
  ∀ ln ∈ sG.actors tm0 iG, sG.Ready tm0.id ln n ∧ ok sG tm0 ln ∧ ∀ fl, trapsFpx tm0.fpen fl = false

theorem met {n : Names} {ok : State → Team → Ln → Prop} (hn : ∀ r ∈ n.src ++ n.dst ++ n.also, r < 64) (h0 : ok s0 tm0 ln0)
    (hg : ok sG tm0 ln0) : Met n ok := by
  have hf : ∀ fl, trapsFpx tm0.fpen fl = false := by
    intro fl; have : tm0.fpen = 0#32 := rfl; simp [trapsFpx, this]
  exact ⟨atLane_lone lone0 rfl rfl, actors_lone iL rfl (.inl rfl), atLane_lone loneG rfl rfl, actors_lone iG rfl (.inr rfl),
    only (actors_lone iL rfl (.inl rfl)) ⟨ready_lone lone0 hn, h0, hf⟩, only (actors_lone iG rfl (.inr rfl)) ⟨ready_lone loneG hn, hg, hf⟩⟩

theorem witness_IntegerArithmetic :
    Met (.toV [1, 5] 3#8) (CanRead .sign (.v 5#8)) ∧ Met (.toV [1, 2] 3#8) (CanRead .sign (.imm 255#8)) ∧
    Met (.toV [1, 2, 5] 3#8) (CanRead .sign (.k 5#6)) ∧ Met (.toPair [1, 2, 4, 5] 6#8) Always ∧
    Met (.toPair [2, 3, 4, 5] 6#8) (fun s T ln => (s.cval64 T ln true (.v 4#8)).isSome = true) :=
  ⟨met (by decide) rfl rfl, met (by decide) rfl rfl, met (by decide) rfl rfl, met (by decide) trivial trivial, met (by decide) rfl rfl⟩

theorem witness_IntegerDivision : Met (.toV [1, 5] 3#8) (CanRead .sign (.v 5#8)) := met (by decide) rfl rfl

theorem witness_LogicAndBits :
    Met (.toV [1, 2, 5] 3#8) (CanRead .sign (.v 5#8)) ∧ Met (.toV [1, 2, 63] 3#8) (CanRead .zero (.v 63#8)) ∧
    Met { Names.toV [1, 5] 3#8 with qsrc := [2#3] } (CanRead .sign (.s 1#8)) :=
  ⟨met (by decide) rfl rfl, met (by decide) rfl rfl, met (by decide) rfl rfl⟩

theorem witness_Predicates :
    Met (.toQ [1, 5] 3#3) (CanRead .sign (.v 5#8)) ∧ Met { Names.toQ [] 1#3 with qsrc := [2#3, 3#3, 7#3] } Always ∧
    Met { Names.toV [] 3#8 with qsrc := (List.range 7).map fun k => BitVec.ofNat 3 k } Always ∧
    Met { src := [5] } (CanRead .zero (.v 5#8)) :=
  ⟨met (by decide) rfl rfl, met (by decide) trivial trivial, met (by decide) trivial trivial, met (by decide) rfl rfl⟩

theorem witness_FloatArithmetic :
    Met (.toV [1, 5] 3#8) (fun s T ln => (s.cfloat T ln (.v 5#8)).isSome = true) ∧ Met (.toV [1] 3#8) Always ∧
    Met (.toV [1, 5] 3#8) (CanRead .sign (.v 5#8)) :=
  ⟨met (by decide) rfl rfl, met (by decide) trivial trivial, met (by decide) rfl rfl⟩

theorem witness_FloatOther :
    Met (.toV [1, 5] 3#8) (fun s T ln => (s.cfloat T ln (.v 5#8)).isSome = true) ∧
    Met (.toQ [1, 5] 3#3) (fun s T ln => (s.cfloat T ln (.v 5#8)).isSome = true) ∧ Met (.toV [1] 3#8) Always ∧
    Met (.toV [1, 5] 3#8) (CanRead .zero (.v 5#8)) :=
  ⟨met (by decide) rfl rfl, met (by decide) rfl rfl, met (by decide) trivial trivial, met (by decide) rfl rfl⟩

theorem witness_FloatPacked :
    Met (.toV [1, 5] 3#8) (fun s T ln => (s.cpacked T ln (packedFmt ⟨0#2, false, false, false, true⟩) (.v 5#8)).isSome = true) ∧
    Met (.toV [3, 1, 5] 3#8) (fun s T ln => (s.cfloat T ln (.v 5#8)).isSome = true) ∧
    Met (.toV [1, 5] 3#8) (CanRead .zero (.v 5#8)) :=
  ⟨met (by decide) rfl rfl, met (by decide) rfl rfl, met (by decide) rfl rfl⟩

theorem witness_SpecialReads :
    Met {} Always ∧ Met (.toV [] 3#8) (fun s T ln => (s.special T ln 18#8).isSome = true) ∧
    Met (.toV [] 3#8) (fun s T ln => (s.csr T ln.sub 9#8).isSome = true) :=
  ⟨met (by decide) trivial trivial, met (by decide) (by decide) (by decide), met (by decide) (by decide) (by decide)⟩

theorem witness_PairedHalves :
    let x : Half := ⟨.iadd, 7#3, false, 1#8, 2#8, false, 0#3⟩
    let y : Half := ⟨.fmul, 7#3, false, 6#8, 7#8, false, 0#3⟩
    (Instr.pairedWord x y).check = none ∧ s0.AtLane tm0 0 1#32 ∧
    ∀ ln ∈ s0.members tm0, s0.Ready tm0.id ln { src := halfSrc x ++ halfSrc y, dst := halfDst x ++ halfDst y } ∧
      ∀ h ∈ [s0.halfRes tm0 ln x, s0.halfRes tm0 ln y], h.fpx = false :=
  ⟨by decide, atLane_lone lone0 rfl rfl, only (members_lone rfl) ⟨ready_lone lone0 (by decide), by decide⟩⟩

theorem witness_Branches : s0.AtLane tm0 0 1#32 ∧
    ∀ ln ∈ s0.actors tm0 iL, s0.Ready tm0.id ln (.toV [1] 3#8) ∧ s0.unknown ln { src := [1] } = false :=
  ⟨atLane_lone lone0 rfl rfl, only (actors_lone iL rfl (.inl rfl)) ⟨ready_lone lone0 (by decide), by decide⟩⟩

theorem witness_ThreadControl_smeet : s0.AtLane tm0 0 1#32 ∧
    ∀ ln ∈ s0.actors tm0 iL, s0.Ready tm0.id ln { src := [1] } ∧ ln.th.stack.length ≠ 8 :=
  ⟨atLane_lone lone0 rfl rfl, only (actors_lone iL rfl (.inl rfl)) ⟨ready_lone lone0 (by decide), by decide⟩⟩

theorem witness_ThreadControl_nap : (∃ pg pn, iL.scope = .lane pg pn) ∧
    (∀ ln ∈ s0.actors tm0 iL, s0.Ready tm0.id ln { src := [] } ∧ CanRead .zero (.imm 1#8) s0 tm0 ln ∧
      s0.cword tm0 ln .zero (.imm 1#8) ≠ 0#32) ∧
    sG.AtLane tm0 0 1#32 ∧ iG.scope = .group ∧ sG.Supplies tm0 [1] :=
  ⟨⟨_, _, rfl⟩, only (actors_lone iL rfl (.inl rfl)) ⟨ready_lone lone0 (by decide), rfl, by decide⟩, atLane_lone loneG rfl rfl, rfl,
    by unfold State.Supplies; decide⟩

theorem witness_ThreadControl_exit : s0.AtLane tm0 0 1#32 ∧ (∃ pg pn, iL.scope = .lane pg pn) ∧ sG.AtLane tm0 0 1#32 ∧ iG.scope = .group ∧
    s0.actors tm0 iL = [ln0] ∧ s0.pendingReady tm0.core 0 = false :=
  ⟨atLane_lone lone0 rfl rfl, ⟨_, _, rfl⟩, atLane_lone loneG rfl rfl, rfl, actors_lone iL rfl (.inl rfl), by decide⟩

theorem witness_GroupOperations : sG.AtWide tm0 ∧
    (∀ ln ∈ sG.members tm0, sG.Ready tm0.id ln { src := [2], dst := [3], also := [1], flt := dstV 3 }) ∧
    ∀ ln ∈ sG.members tm0, (sG.rd ln 1).poison = false :=
  ⟨atWide_lone loneG rfl, only (members_lone rfl) (ready_lone loneG (by decide)), by decide⟩

theorem witness_TeamInstructions : sT.AtWide tm0 ∧ sT.Supplies tm0 [1, 2] ∧ (9#8 : BitVec 8).toNat < 10 ∧
    sT.predEnded tm0 = some true ∧
    ({ sT with launches := [{ benchLaunch with pred := some 9#32 }, { benchLaunch with lnum := 9#32 }] } : State).predEnded tm0 = none :=
  ⟨atWide_lone loneT rfl, by unfold State.Supplies; decide, by decide, by decide, by decide⟩

/-- A result that is no fault. -/
def fine {ε α : Type} (x : Except ε α) : Bool := match x with | .ok _ => true | .error _ => false

/-- A team with a handler set. -/
def tmH : Team := { tm0 with trapvec := 0x100#32 }
def sH : State := st tmH

theorem loneH : Lone sH tmH th0 := ⟨rfl, rfl, rfl, ⟨_, rfl, rfl, rfl⟩, rfl, by decide⟩

theorem witness_SoftwareTraps : sH.AtLane tmH 0 1#32 ∧ sH.actors tmH iL = [ln0] ∧
    (tmH.group? 0 = some (grp th0) ∧ tmH.st = .run ∧ tmH.trapvec ≠ 0#32 ∧ (grp th0).handler = none ∧ (grp th0).trap = none ∧
      (grp th0).spec = none) ∧
    let fault (code : Code) : Raise := { code, t := 1, g := 0, lanes := 1#32, pc := 0#32, members := [0] }
    fine ((sH.retire [(0, 0)]).enterHandler (fault .swtrap)) = true ∧ fine ((sH.retire [(0, 0)]).enterHandler (fault .bkpt)) = true ∧
    fine (sH.enterHandler (fault .illop)) = true :=
  ⟨atLane_lone loneH rfl rfl, actors_lone iL rfl (.inl rfl), by decide, by decide⟩

theorem witness_HandlerEntry : sH.team? 1 = some tmH ∧ tmH.group? 0 = some (grp th0) ∧
    fine (sH.enterHandler { code := .swtrap, t := 1, g := 0, lanes := 1#32, pc := 0#32 }) = true := by decide

/-- In a handler: after `trap`; and after a trap whose destination is v7, and q1. -/
def sIn : State := next (exec (.trap iL) sH) sH
def inH (s : State) : Team := (s.team? 1).getD tm0
def dstIn (x : Word) : State := sIn.modGroup 1 0 fun G => { G with fltdst := x }

theorem witness_TrapReturn : sIn.AtLane (inH sIn) 0 1#32 ∧
    (∃ G h, (inH sIn).group? 0 = some G ∧ G.handler = some h ∧ h.arr.cv? = none ∧ G.fltdst = allOnes ∧ (4#8 : VReg).toNat % h.width = 0) ∧
    (∃ G h, (inH (dstIn 7#32)).group? 0 = some G ∧ G.handler = some h ∧ G.fltdst.toNat < 256 ∧
      (∀ x ∈ substRegs h G.fltdst 4#8, (((inH (dstIn 7#32)).ln 0 0).key? x.1).isSome = true ∧
        ((dstIn 7#32).rd ((inH (dstIn 7#32)).ln 0 0) x.1).poison = false ∧
        (let back := (dstIn 7#32).takeBackAll (inH (dstIn 7#32)) 0 h
         (back.rd { (inH (dstIn 7#32)).ln 0 0 with th := back.thread 1 0 0 } x.2).pend) = false) ∧
      (match ((dstIn 7#32).takeBackAll (inH (dstIn 7#32)) 0 h).cowAll 1 [(0, 0, 0)] with | .ok _ => true | _ => false) = true) ∧
    (∃ G, (inH (dstIn 0x101#32)).group? 0 = some G ∧ 256 ≤ G.fltdst.toNat ∧ G.fltdst ≠ allOnes) ∧
    sH.AtLane tmH 0 1#32 ∧ tmH.group? 0 = some (grp th0) ∧ (grp th0).handler = none ∧ (grp th0).spec = none :=
  ⟨⟨by decide, by decide, by decide, by decide⟩, ⟨_, _, rfl, rfl, by decide⟩, ⟨_, _, rfl, rfl, by decide⟩, ⟨_, rfl, by decide⟩,
    atLane_lone loneH rfl rfl, by decide⟩

/-- The lane's row 0 is poisoned in register 1. -/
def sP : State := { s0 with kiln := s0.kiln.map fun (k, r) => if k = 0 then (k, { r with poison := 2#8 }) else (k, r) }

theorem witness_Faults : s0.AtLane tm0 0 1#32 ∧ (∀ G, tm0.group? 0 = some G → G.spec = none) ∧
    (s0.actors tm0 iL).filter (fun ln => [200, 1, 2].any fun n => (ln.key? n).isNone) ≠ [] ∧
    sP.AtLane tm0 0 1#32 ∧ (sP.actors tm0 iL).filter (fun ln => [1, 2, 3].any fun n => (ln.key? n).isNone) = [] ∧
    (sP.actors tm0 iL).filter (fun ln => [1, 2].any fun n => (sP.rd ln n).poison) = sP.actors tm0 iL ∧ sP.actors tm0 iL ≠ [] ∧
    s0.team? 1 = some tm0 ∧ tm0.st = .run ∧ Code.unallot.cls = .team ∧ Code.wdog.cls = .system ∧ Code.swtrap.cls = .user ∧
    tm0.trapvec = 0#32 ∧ (st { tm0 with st := .ending true }).team? 1 = some { tm0 with st := .ending true } := by
  have h0 : s0.actors tm0 iL = [ln0] := actors_lone iL rfl (.inl rfl)
  have hp : sP.actors tm0 iL = [ln0] := actors_lone iL rfl (.inl rfl)
  rw [h0, hp]
  refine ⟨⟨by decide, by decide, rfl, rfl⟩, ?_, by decide, ⟨by decide, by decide, rfl, rfl⟩, by decide +kernel⟩
  intro G h; cases h; rfl

/-- The bench at `iadd v9, v9, 1`, and at `t(cv0).kset k3, 7`. -/
def sB : State := State.reset.bench 0x00801C1212000201#64
def sW : State := State.reset.bench 0xC060000600000E01#64

theorem witness_StepRuns :
    let T := benchTeam 1 .no
    let G := benchGroup .no
    let i : Instr := .iadd iL 9#8 9#8 (.imm 1#8) false false
    let r : Ready := { pc := 0#32, lanes := [0], i }
    let x : Seat := { T, g := 0, G }
    sB.m.stopped = false ∧ 4 ≤ sB.m.stage ∧ sB.inputDue = none ∧
    sB.nextTurn = some (.issue (.set x [r])) ∧ pick x.G [r] = some r ∧
    decode 0x00801C1212000201#64 = .ok i ∧ sB.wordAt x.T x.g x.G r.lanes r.pc = .ok 0x00801C1212000201#64 ∧
    i.arr = .no ∧ sB.inRunAhead 1 0 = false ∧ sB.rotates T i = false :=
  by and_intros <;> first | decide | rfl

theorem witness_StepRuns_wide :
    let T := benchTeam 1 (.team 0#4)
    let i : Instr := .kset iT 3#6 (.imm 7#8)
    let cur : Cursor := { team := 1, pc := 0#32, members := [(0, 1#32)], arr := .team 0#4 }
    sW.m.stopped = false ∧ 4 ≤ sW.m.stage ∧ sW.inputDue = none ∧
    sW.nextTurn = some (.wide T { cur, i }) ∧ (cur.members.map (·.1)).filter (sW.inRunAhead T.id) = [] ∧
    T.group? 0 = some (benchGroup (.team 0#4)) ∧ (benchGroup (.team 0#4)).live ≠ 0#32 ∧
    decode 0xC060000600000E01#64 = .ok i ∧
    sW.wordAt T 0 (benchGroup (.team 0#4)) (benchGroup (.team 0#4)).party 0#32 = .ok 0xC060000600000E01#64 ∧ sW.rotates T i = false :=
  by and_intros <;> first | decide | rfl

/-- Two groups in two sub-cores, at words at 0 and 8: TRAP, and an IADD of a group without rows. -/
def sTwo (pc : Word) : State :=
  let s := State.reset.bench 0x07c01c0000000000#64
  let T : Team := { team (grp th0) with trapvec := 0x100#32, groups :=
    [grp th0, { grp { th0 with pc, rows := .replicate 32 none } with sub := 1 }] }
  { s with mem := (s.setBytes (physKey 0 0x200008) 8 0x00801C1212000201).mem, teams := [T] }
def turnGroup (s : State) : Option Nat := match s.nextTurn with | some (.issue (.set x _)) => some x.g | _ => none

/-- A team fault goes before a user trap of a lower group, and of two user traps that of the lower group is delivered, alone (R354). -/
theorem test_one_fault_a_cycle : turnGroup (sTwo 8#32) = some 1 ∧ turnGroup (sTwo 0#32) = some 0 ∧
    (let u := next (step (sTwo 0#32)) s0
     ((u.group? 1 0).bind (·.handler)).isSome = true ∧ turnGroup u = none) := by decide +kernel

theorem witness_AddressChecks : 3 % 4 ≠ 0 ∧ (2 ^ 57) % 4 = 0 ∧ Space.global.wide = true ∧
    s0.translate tm0.part (s0.ctxOf tm0) (2 ^ 57) needR = none ∧ 4092 % 4 = 0 ∧ (2 ^ 40) % 4 = 0 ∧ s0.inSlip tm0 (2 ^ 40) 4 = false := by
  decide

/-- The place at offset 16 of the team's Basin, and at address 16. -/
def inBasin : Place := { ea := 16, ia := 0, keys := tm0.basinKeys 0 16 4 }
def inGlobal : Place := { ea := 16, ia := 16, keys := [] }

theorem witness_Loads : s0.AtLane tm0 0 1#32 ∧
    (∀ ln ∈ s0.actors tm0 iL, s0.Ready tm0.id ln { src := [2, 3], dst := [4] } ∧ s0.unknown ln { src := [2, 3] } = false) ∧
    (s0.actors tm0 iL).map (fun ln => (ln, (s0.at_ .basin 0 4 needR 2#8 (.imm 16#8) tm0 ln).2)) = [(ln0, .ok inBasin)] ∧
    s0.racers tm0 .basin [(ln0, inBasin)] = [] ∧
    (s0.actors tm0 iL).map (fun ln => (ln, (s0.at_ .global 0 4 needR 2#8 (.imm 16#8) tm0 ln).2)) = [(ln0, .ok inGlobal)] ∧
    s0.racers tm0 .global [(ln0, inGlobal)] = [] :=
  ⟨atLane_lone lone0 rfl rfl, only (actors_lone iL rfl (.inl rfl)) ⟨ready_lone lone0 (by decide), by decide⟩, by rfl, by decide, by rfl,
    by decide⟩

theorem witness_Stores :
    (∀ ln ∈ s0.actors tm0 iL, s0.Ready tm0.id ln { src := [2, 3, 4] } ∧ s0.unknown ln { src := [2, 3] } = false) ∧
    (s0.actors tm0 iL).map (fun ln => (ln, (s0.at_ .basin 0 4 needW 2#8 (.imm 16#8) tm0 ln).2)) = [(ln0, .ok inBasin)] ∧
    (s0.actors tm0 iL).map (fun ln => (ln, (s0.at_ .global 0 4 needW 2#8 (.imm 16#8) tm0 ln).2)) = [(ln0, .ok inGlobal)] ∧
    (s0.group? tm0.id 0).bind (·.spec) = none ∧ s0.detOf tm0 = none ∧ inBasin.keys.Nodup :=
  ⟨only (actors_lone iL rfl (.inl rfl)) ⟨ready_lone lone0 (by decide), by decide⟩, by rfl, by rfl, by decide, by decide, by decide⟩

theorem witness_Atomics : s0.AtLane tm0 0 1#32 ∧ s0.detOf tm0 = none ∧
    (∀ ln ∈ s0.actors tm0 iL, s0.Ready tm0.id ln { src := [2, 3, 4], dst := [6] } ∧ s0.unknown ln { src := [2, 3] } = false) ∧
    (s0.actors tm0 iL).map (fun ln => (ln, (s0.atomAt (.atom .add) true 4 2#8 (.imm 16#8) (s0.actors tm0 iL) tm0 ln).2)) =
      [(ln0, .ok inGlobal)] ∧
    (s0.actors tm0 iL).map (fun ln => (ln, (s0.atomAt .vimx false 8 2#8 (.imm 16#8) (s0.actors tm0 iL) tm0 ln).2)) =
      [(ln0, .ok inGlobal)] :=
  ⟨atLane_lone lone0 rfl rfl, by decide, only (actors_lone iL rfl (.inl rfl)) ⟨ready_lone lone0 (by decide), by decide⟩, by rfl, by rfl⟩

/-- A global store under way, then confirmed; its number is 2. -/
def sSt : State := next (exec (.st iL 4#8 2#8 (.imm 16#8) ⟨.b32, .global, false, 0#3⟩) s0) s0
def sSt1 : State := next (exec (.accessConfirmed 2) sSt) sSt

theorem witness_GlobalAccesses : (match sSt1.flight? 2 with
      | none => false
      | some f =>
        match f.lanes, sSt1.owner? f.team with
        | [a], some T => sSt1.mayGo f && f.op == .store false && f.remote && (apertureOf a.ia).isNone && sSt1.laneReady f a &&
            f.heads.contains a && a.todo && !sSt1.windowReset T.part a.ia && (sSt1.part (a.ia / 2 ^ 48)).fld 0x018 16 1 == 0 &&
            !sSt1.cxlDown (sSt1.accKey a)
        | _, _ => false) = true ∧ (s0.group? 1 0).isSome = true ∧ (s0.speculate 1 0 2).isSome = true := by decide +kernel

/-- A Basin load whose value has been read. -/
def sLd : State := next (exec (.ld iL 4#8 2#8 (.imm 16#8) ⟨.b32, .basin, false, 0#3⟩) s0) s0

theorem witness_LoadLands : (match sLd.flight? 2 with
      | none => false
      | some f =>
        match f.lane? 0 with
        | some a => a.val.isSome && (match a.dst with | some (k, pos) => decide (pos + f.nreg ≤ 8 ∧ (sLd.row k).count ≠ 0) | none => false)
        | none => false) = true := by decide +kernel

/-- A thread whose release is complete; one at the end of a nap, and one at the end of a G-scope nap. -/
def sRel : State := next (exec (.fence iL .device .rel) s0) s0
def sNap (a : Arr) : State := st (team (grp { th0 with wait := .nap 0, arr := a }))

theorem witness_MemoryEvents : sT.AtWide tm0 ∧ (∃ cv, iT.scope = .team cv) ∧ sT.Supplies tm0 [2, 3] ∧ s0.isDet tm0 = false ∧
    (∀ ln ∈ s0.actors tm0 iL, s0.Ready tm0.id ln { src := [2, 3] }) ∧
    ((sRel.team? 1).map fun U => sRel.fenceDone U 0 0) = some true ∧
    (((sNap .no).group? 1 0).map fun G => ((G.thread 0).wait, (G.thread 0).live, (G.thread 0).arr)) = some (.nap 0, true, .no) ∧
    (((sNap .group).group? 1 0).map fun G => ((G.thread 0).wait, (G.thread 0).live, (G.thread 0).arr)) = some (.nap 0, true, .group) ∧
    ((sSt.flight? 2).map fun f => (f.confirmed, f.op.steps, f.lanes.all fun b => sSt.found (sSt.partOf f) b.ia)) =
      some (false, false, true) :=
  ⟨atWide_lone loneT rfl, ⟨_, rfl⟩, by unfold State.Supplies; decide, by decide,
    only (actors_lone iL rfl (.inl rfl)) (ready_lone lone0 (by decide)), by decide +kernel⟩

/-- A lease of one line at address 0, for one tick: v2:v3 base, v4 length, v5 duration. -/
def sLs : State := { regs [0#32, 0#32, 0#32, 0#32, 128#32, 1#32] with cur := sT.cur }

theorem witness_CisternLeases : sT.AtWide tm0 ∧ sT.members tm0 ≠ [] ∧
    (∀ ln ∈ sT.members tm0, sT.Ready tm0.id ln { src := [2, 3, 4, 5], dst := [6] }) ∧ (sT.scalar tm0 .zero (.v 4#8)).toNat = 0 ∧
    sLs.AtWide tm0 ∧ (∀ ln ∈ sLs.members tm0, sLs.Ready tm0.id ln { src := [2, 3, 4, 5], dst := [6] }) ∧
    (sLs.scalar tm0 .zero (.v 4#8)).toNat = 128 ∧ (sLs.scalar tm0 .zero (.v 5#8)).toNat = 1 ∧
    sLs.leaseLines tm0 0 128 = some [0] ∧
    (List.range 64).find? (fun e => !((sLs.part tm0.part).leases.any (·.entry == e))) = some 0 ∧ sLs.leaseFits [0] = true :=
  have h : Lone sLs tm0 th0 := ⟨rfl, rfl, rfl, ⟨_, rfl, rfl, rfl⟩, rfl, by decide⟩
  ⟨atWide_lone loneT rfl, by rw [members_lone rfl]; simp, only (members_lone rfl) (ready_lone loneT (by decide)), by decide,
    atWide_lone h rfl, only (members_lone rfl) (ready_lone h (by decide)), by decide +kernel⟩

theorem witness_FullEmpty : s0.AtLane tm0 0 1#32 ∧
    (∀ ln ∈ s0.actors tm0 iL, s0.Ready tm0.id ln { src := [2], dst := [4] } ∧ s0.unknown ln { src := [2] } = false) ∧
    (s0.actors tm0 iL).map (fun ln => (ln, (s0.at_ .basin 0 4 needR 2#8 (.imm 16#8) tm0 ln).2)) = [(ln0, .ok inBasin)] ∧
    tm0.full.contains (tm0.granule (inBasin.keys.headD 0)) = false ∧
    (let T := { tm0 with full := [tm0.granule (inBasin.keys.headD 0)] }
     (st T).AtLane T 0 1#32 ∧ T.full.contains (T.granule (inBasin.keys.headD 0)) = true ∧
     ((st T).actors T iL).map (fun ln => (ln, ((st T).at_ .basin 0 4 needR 2#8 (.imm 16#8) T ln).2)) = [(T.ln 0 0, .ok inBasin)]) :=
  ⟨atLane_lone lone0 rfl rfl, only (actors_lone iL rfl (.inl rfl)) ⟨ready_lone lone0 (by decide), by decide⟩, by rfl, by decide,
    ⟨by decide, by decide, rfl, rfl⟩, by decide, by rfl⟩

theorem witness_ThreadArrives : s0.team? 1 = some tm0 ∧ s0.group? 1 0 = some (grp th0) ∧
    (lanesOf 1#32).filter (fun l => (grp th0).considered.contains l) ≠ [] ∧
    (vget tm0.cvs 15 cvReset).mask.getLsbD 0 = true ∧ (grp th0).handler = none := by decide

/-- A rendezvous that has waited its bound, of the group and on cv 0, where lane 1 has not arrived; a PC passed over to its bound; a
group that has starved in the pending set. -/
def tmR : Team := { team { grp { th0 with arr := .group } with timer := some 5 } with rdvwd := 5#32 }
def grpCv : Group :=
  { benchGroup .no with threads := vset (vset (.replicate 32 threadIdle) 0 { th0 with arr := .team 0#4 }) 1 { threadIdle with live := true } }
def tmCv : Team := { team grpCv with rdvwd := 5#32, cvs := vset tm0.cvs 0 { vget tm0.cvs 0 cvReset with timer := some 5 } }
def grpP : Group := { grp th0 with passed := [(0#32, Config.passBound)] }
def grpS : Group := { grp th0 with active := false, readySince := 1 }
def sS : State := { st (team grpS) with gt := 1 + Config.starveBound }

theorem witness_BoundsAndActiveSet :
    (st { tmR with groups := [{ grpCv with timer := some 5 }] }).team? 1 = some { tmR with groups := [{ grpCv with timer := some 5 }] } ∧
    tmR.st = .run ∧ tmR.rdvwd ≠ 0#32 ∧ tmR.rdvwd.toNat ≤ 5 ∧ tmR.rdvmis? = none ∧ tmCv.rdvmis? = none ∧
    ({ tmR with groups := [{ grpCv with timer := some 5 }] } : Team).rdvmis? = none ∧ ({ grpCv with timer := some 5 } : Group).met? = none ∧
    tmR.speculates = false ∧ tmCv.speculates = false ∧ (vget tmCv.cvs 0 cvReset).timer = some 5 ∧ (tmCv.arrivalsOn 0).head? = some (.team 0#4) ∧ tmCv.signedAll? 0 = none ∧
    grpP.overBound (((st (team grpP)).readySets (team grpP) 0 grpP).map (·.pc)) = some 0#32 ∧
    sS.starved { T := team grpS, g := 0, G := grpS } = true ∧ ((sS.seats 0 0).filter (·.G.active)).length < 8 := by decide

/-- Waits that are over: an LDFE of a full granule, a PWAIT, an XACQ, a trap. -/
def thF : Thread := { th0 with wait := .ldfe 4#8 .b32 16 0#3 false }
def tmF : Team := { team (grp thF) with full := [tm0.granule (inBasin.keys.headD 0)] }
def grpX : Group := grp { th0 with arr := .group, wait := .xacq 1#2 2#3 }
def trapAt : TrapReq :=
  { code := 0x10#32, lanes := 1#32, pc := 0#32, dst := allOnes, width := 1, members := [0], arr := .no, late := .no, waited := 0, skipped := 0 }
def tmT : Team := { team { grp th0 with trap := some trapAt } with trapvec := 0x100#32 }

theorem witness_WaitsEnd :
    0 ∈ lanesOf (grp thF).live ∧ (∀ j ∈ lanesOf (grp thF).live, j = 0) ∧
    tmF.full.contains (tmF.granule ((tmF.basinKeys 0 16 1).headD 0)) = true ∧
    (match (st tmF).cowAll 1 (rowsOf [tmF.ln 0 0] (span 4#8 1)) with | .ok _ => true | _ => false) = true ∧
    (grp { th0 with arr := .group, wait := .pwait 1#3 }).pwaiting = some (1#3, .group) ∧ s0.predEnded tm0 = some true ∧
    ((grpX.party.filter fun l => match (grpX.thread l).wait with | .xacq .. => true | _ => false).head?.map fun l => (grpX.thread l).wait) =
      some (.xacq 1#2 2#3) ∧ (st (team grpX)).blockReady (team grpX) 0 [(team grpX).ln 0 0] 1 = true ∧
    fine ((st tmT).enterHandler (trapAt.raise 1 0)) = true := by decide

/-- Waits that have lasted RDVWD cycles: an LDFE, a stall for rows, a request through the aperture. -/
def tmW (w : Wait) : Team := { team (grp { th0 with wait := w, waited := 5 }) with rdvwd := 5#32 }
def sRl : State :=
  let s := next (exec (.ld iL 4#8 2#8 (.imm 16#8) ⟨.b32, .global, false, 0#3⟩) s0) s0
  { ((s.modTeam 1 fun T => { T with rdvwd := 5#32 }).modGroup 1 0 fun G => { G with spec := none }) with
      flights := s.flights.map (fun f => { f with lanes := f.lanes.map fun a => { a with waited := 5 } }),
      outbox := [{ id := 3, part := 0, win := 0, path := 0, link := 0, addr := 0, op := .load false, bytes := [], len := 4,
                   flight := some (2, 0), cmd := none, team := 1, dead := false }] }

theorem witness_Watchdogs : (tmW thF.wait).st = .run ∧ (tmW thF.wait).wdrem = 0#32 ∧ (tmW thF.wait).speculates = false ∧
    (tmW thF.wait).overdue { th0 with wait := thF.wait, waited := 5 } = true ∧
    (lanesOf (grp th0).live).find? (fun j =>
      (tmW .kiln).rowsOverdue ((grp { th0 with wait := .kiln, waited := 5 }).thread j)) = some 0 ∧
    (match sRl.team? 1 with | some T => T.st == .run && T.wdrem == 0#32 && !T.speculates && (sRl.remoteLate T 0 0).isSome | none => false) = true := by
  decide +kernel

/-- Teams on their way out. -/
def recOut : FaultRec := s0.record { code := .wdog, t := 1, g := 0, lanes := 1#32, pc := 0#32 } 1#2
def tmE : Team := { tm0 with st := .ending true }
def tmO : Team := { tm0 with st := .stopping recOut }
def specAt : Spec := ((s0.group? 1 0).bind (·.spec)).getD
  { caps := [], olds := [], start := 2, runAhead := false, words := 0, lanes := 0#32, pc := 0#32, dst := allOnes, va := 0#64, pages := [] }
def tmQ : Team := { team { grp th0 with spec := some specAt } with st := .stopping recOut }

theorem witness_TeamsLeave : (st tmE).team? 1 = some tmE ∧ (st tmE).teamOver tmE = true ∧
    (st tmO).team? 1 = some tmO ∧ (st tmO).allConfirmed 1 = true ∧ tmO.speculates = false ∧ (st tmO).drained tmO = true ∧
    (st tmO).saveSlot tmO.part = none ∧ tmQ.speculates = true ∧ (st tmQ).allConfirmed 1 = true ∧
    (({ st tmO with parts := vset s0.parts 0 (benchPart.setReg 0xF30 1#64) } : State).saveSlot tmO.part) = some 0 := by decide

/-- A swapped-out team that the host has ended; and the store of `sSt` where no page is there, under the entry that it took. -/
def savedAt : Saved :=
  { slot := 0, team := { tm0 with st := .resuming 0 }, rows := [], entries := [], basin := [], slip := [], mx := none, poison := [],
    image := [(0, 1, 0)] }
def sEnded : State := { s0 with teams := [], saved := [{ savedAt with team := { tm0 with st := .ending true } }] }
def sAhead : State := { sSt with mem := [] }

theorem witness_EndSwapOutAndRunAhead :
    ((st tmE).team? 1 = some tmE ∧ (st tmE).teamOver tmE = true ∧ (st tmE).launch? 0 1#32 = some benchLaunch) ∧
    (sEnded.team? 1 = none ∧ sEnded.endedOut 1 = some { tm0 with st := .ending true } ∧ sEnded.launch? 0 1#32 = some benchLaunch) ∧
    (let s : State := { st tmO with parts := vset s0.parts 0 (benchPart.setReg 0xF30 1#64) }
     s.team? 1 = some tmO ∧ tmO.st = .stopping recOut ∧ s.allConfirmed 1 = true ∧ tmO.speculates = false ∧ s.drained tmO = true ∧
       s.saveSlot tmO.part = some 0) ∧
    ((sAhead.flight? 2).map fun f => (f.team, f.group, f.confirmed, f.op.steps,
      ((f.lanes.filter fun a => !sAhead.found (sAhead.partOf f) a.ia).map fun a => pageOf a.ia).eraseDups)) = some (1, 0, false, false, [0]) ∧
    ((sAhead.team? 1).map fun T => (T.st, T.aheadGroup)) = some (.run, none) ∧
    (((sAhead.group? 1 0).bind (·.spec)).map (·.runAhead)) = some false := by decide +kernel

/-- A thread past the end of the code; an access whose page is not there. -/
def grpEnd : Group := grp { th0 with pc := 0x10000#32 }
def sNo : State := (next (exec (.st iL 4#8 2#8 (.imm 16#8) ⟨.b32, .global, false, 0#3⟩) s0) s0).modGroup 1 0 fun G => { G with spec := none }

theorem witness_FetchAndPageFaults :
    (lanesOf 1#32).filter (fun l => grpEnd.considered.contains l) = [0] ∧ grpEnd.spec = none ∧
    (match (st (team grpEnd)).wordAt (team grpEnd) 0 grpEnd [0] 0x10000#32 with | .error c => c != .xlate | .ok _ => false) = true ∧
    (let s : State := { sNo with mem := [] }
     ((s.flight? 2).map fun f => (f.team, f.group, f.confirmed, f.lanes.any fun a => !s.found (s.partOf f) a.ia)) = some (1, 0, false, true) ∧
     ((s.group? 1 0).map fun G => G.spec.isNone) = some true ∧ ((s.team? 1).map (·.aheadGroup)) = some none) ∧
    s0.launchOf tm0 = some benchLaunch ∧ s0.loopWord tm0 0 0 [0] 8#32 = none ∧
    s0.translate 0 benchRec.ctx (benchRec.code.toNat + 8) needX = some 8 ∧ s0.icache = [] ∧
    (match s0.codeKey 0 8 with | .ok _ => true | .error _ => false) = true := by decide +kernel

/-- After `snap q1, h2, v9`: H2 names an entry. -/
def sSn : State := next (exec (.snap iL 1#3 2#4 9#8) s0) s0
def tmSn : Team := inH sSn
def okOf (x : Did) : Bool := match x with | .ok _ => true | .rows | .later => false

theorem witness_HandleInstructions :
    s0.AtLane tm0 0 1#32 ∧ (∀ ln ∈ s0.actors tm0 iL, s0.Ready 1 ln { src := [], also := [9] }) ∧
    sSn.team? 1 = some tmSn ∧ sSn.actors tmSn iL = [tmSn.ln 0 0] ∧
    sSn.Ready 1 (tmSn.ln 0 0) { src := [2, 3], also := [9] } ∧
    sSn.badHandle 2#4 true tmSn (tmSn.ln 0 0) = none ∧ sSn.badHandle 2#4 false tmSn (tmSn.ln 0 0) = none ∧
    sSn.badResume 2#4 (tmSn.ln 0 0) = false ∧ (sSn.cval tmSn (tmSn.ln 0 0) .sign (.imm 1#8)).isSome = true ∧
    sSn.spillFault tmSn (tmSn.ln 0 0) 2#4 true (sSn.ea tmSn (tmSn.ln 0 0) .global 2#8 (.imm 0#8)) = none ∧
    sSn.ea tmSn (tmSn.ln 0 0) .global 2#8 (.imm 0#8) % 128 = 0 ∧
    (match sSn.chain tmSn 0 0 (sSn.ea tmSn (tmSn.ln 0 0) .global 2#8 (.imm 0#8)) 6 with | .fault _ => false | _ => true) = true :=
  ⟨atLane_lone lone0 rfl rfl, only (actors_lone iL rfl (.inl rfl)) (ready_lone lone0 (by decide)), by decide +kernel, by decide +kernel,
    ready_read rfl (by decide +kernel) (by decide +kernel), by decide +kernel⟩

theorem witness_HandleInstructions_turns :
    let x (_ : Ln) : Word × Bool := (1#32, false)
    let ln := tmSn.ln 0 0
    okOf (s0.inTurn (snapLane 1#3 2#4 9#8) [ln0]) = true ∧ okOf (sSn.inTurn (rstrLane 2#4 x) [ln]) = true ∧
    okOf (sSn.inTurn (sprtLane 1#3 9#8 2#4 x) [ln]) = true ∧
    okOf (sSn.inTurn (fun s ln => .ok (s.setHandle (s.fresh_ ln) 2#4 0#32)) [ln]) = true ∧
    okOf (sSn.inTurn (fun s ln => .ok ((s.addRef ln.core ((s.fresh_ ln).handle 2#4)).setHandle ln 3#4 ((s.fresh_ ln).handle 2#4))) [ln]) = true ∧
    okOf (sSn.inTurn (fun s1 ln => match sSn.entryOf ln (ln.handle 2#4) with
      | some (_, E) => s1.writeReg ln 9 (sSn.entryItem ln E .depth) false
      | none => .ok s1) [ln]) = true ∧
    okOf (sSn.inTurn (fun s1 ln => match s1.team? ln.t with
      | some _ => hsplLane 9#8 2#4 true (fun _ => 0) s1 ln
      | none => .ok s1) [ln]) = true ∧
    okOf (sSn.inTurn (fun s1 ln => match s1.team? ln.t with
      | some _ => hldmLane 1#3 3#4 (fun _ => 0) s1 ln
      | none => .ok s1) [ln]) = true := by decide +kernel

theorem witness_HandleInstructions_snap : s0.thread 1 0 0 = th0 ∧ ln0.handle 2#4 = 0#32 ∧ (s0.group? 1 0).isSome = true ∧ ln0.l < 32 ∧
    th0.depth ≠ 7 ∧ s0.rowFull 0 0 0 th0.rows.toList = false ∧ (s0.freeSlot? 0 0).isSome = true ∧ okOf (snapLane 1#3 2#4 9#8 s0 ln0) = true ∧
    ({ th0 with depth := 7 } : Thread).depth = 7 ∧
    (st (team (grp { th0 with depth := 7 }))).thread 1 0 0 = { th0 with depth := 7 } := by decide +kernel

/-- A group that holds block 1; an allotment of none, of three, and one that is used up. -/
def grpB : Group := { grp th0 with xhold := 1#3 }

theorem witness_ExtendedBlocks : sG.AtWide tm0 ∧ sG.cur.members = [(0, 1#32)] ∧ tm0.group? 0 = some (grp th0) ∧
    grpB.xhold.getLsbD 0 = true ∧ (grp th0).xhold.getLsbD 0 = false ∧ (grp th0).blocks = 0 ∧ (0 : Nat) ≤ (grp th0).blocks ∧
    (grp th0).blocks < tm0.xblk ∧ sG.blockReady tm0 0 [ln0] 1 = true ∧
    (let s : State := { sG with kiln := sG.kiln ++ (List.range 24).map fun j =>
        (8 + j, { rowDefault with count := 1, owner := 1, pool := .ext 0 }) }
     s.blockReady tm0 0 [ln0] 1 = false) :=
  ⟨atWide_lone loneG rfl, by decide +kernel⟩

/-- A thread that holds an item of a cascade of one rung, at 0x800. -/
def tmC : Team := team (grp { th0 with held := some { casc := 0x800#64, rung := 0, index := 0#32, depth := 0 } })
def sC : State := mem (st tmC) 0x800 1 1
def itemAt : Item :=
  { casc := 0x800#64, rung := 0, index := 0#32, frame := [], time := 0, core := 0, group := 0, lane := 0, depth := 0, near := [],
    num := 0 }

theorem witness_Tasks : s0.AtLane tm0 0 1#32 ∧ s0.isDet tm0 = false ∧
    (∀ ln ∈ s0.actors tm0 iL, s0.Ready tm0.id ln { src := [2, 3] } ∧ s0.unknown ln { src := [2, 3] } = false) ∧
    (s0.actors tm0 iL).map (fun ln => (ln, (s0.objectAt false tm0 ln 2#8 (.imm 32#8) 32 1).2)) =
      [(ln0, (0, false))].map (fun x => (x.1, .ok x.2)) ∧
    s0.readsNow tm0 [ln0] (fun ln => [(s0.ea tm0 ln .global 2#8 (.imm 32#8), 32)]) ∧
    taskOk 0 = true ∧ tm0.depth < 8 ∧ s0.spawnCount 0 < Config.spawnMax ∧ taskOk 1 = false ∧
    (match sC.escDo tmC (tmC.ln 0 0) 4#8 with | .bad _ | .wait => false | _ => true) = true ∧
    (match sC.cretDo tmC (tmC.ln 0 0) 4#8 with | .ok (some _) => true | _ => false) = true ∧
    sC.partialDue { part := 0, lnum := 1#32, casc := 0x800#64, rung := 0, items := [itemAt] } = true := by
  refine ⟨atLane_lone lone0 rfl rfl, by decide +kernel, only (actors_lone iL rfl (.inl rfl)) ⟨ready_lone lone0 (by decide +kernel), by decide +kernel⟩,
    only_ok (actors_lone iL rfl (.inl rfl)) (by decide +kernel), by unfold State.readsNow; decide +kernel, ?_⟩
  decide +kernel

/-- A queue object at address 0 with two entries of room at 0x1000, empty, and with one entry. -/
def sQ (tail : Nat) : State :=
  mem s0 0 64 (tail * 2 ^ 32 + 2 * 2 ^ 64 + 2 * 2 ^ 96 + 1 * 2 ^ 128 + 0x1000 * 2 ^ 256)
def accQ : LaneAcc :=
  { lane := 0, va := 0#64, ia := 0, keys := [], data := 7#512, dst := none, val := none, todo := true }

theorem witness_QueueSteps : s0.AtLane tm0 0 1#32 ∧ s0.isDet tm0 = false ∧
    (∀ op, op = AccOp.qenq 1#3 ∨ op = .qdeq 1#3 8#8 →
      (s0.actors tm0 iL).map (fun ln => (ln, (s0.stepAt op iL 2#8 (.imm 0#8) tm0 ln).2)) = [(ln0, .ok { ea := 0, ia := 0, keys := [] })]) ∧
    (s0.actors tm0 iL).map (fun ln => (ln, (s0.csubAt 1#3 8#8 iL 2#8 (.imm 0#8) tm0 ln).2)) = [(ln0, .ok { ea := 0, ia := 0, keys := [] })] ∧
    (4#8 : VReg).toNat + s0.frameLen tm0 ln0 0 0 ≤ 256 ∧
    (∀ ln ∈ s0.actors tm0 iL, s0.unknown ln { src := [2, 3] } = false ∧ s0.Ready tm0.id ln { src := [2, 3, 4, 5, 6, 7] } ∧
      s0.Ready tm0.id ln { src := [2, 3], dst := [8, 9, 10, 11] } ∧ s0.Ready tm0.id ln { src := [2, 3], dst := [8] }) ∧
    ((sQ 0).queueAt tm0 accQ).map (fun q => (q.depth, q.cap, fine ((sQ 0).ringKey tm0 (q.entry q.tail) needW))) = some (0, 2, true) ∧
    ((sQ 1).queueAt tm0 accQ).map (fun q => (q.depth, fine ((sQ 1).ringKey tm0 (q.entry q.head) needR))) = some (1, true) ∧
    (s0.locked 0x1000 16 = false ∧ fine (s0.ringKey tm0 (2 ^ 57) needR) = false ∧ fine (s0.ringKey tm0 (2 ^ 57) needW) = false) ∧
    ((sQ 2).queueAt tm0 accQ).map (fun q => q.depth) = some 2 ∧ (s0.queueAt tm0 accQ).isNone = true :=
by
  refine ⟨atLane_lone lone0 rfl rfl, by decide +kernel, ?_, by rfl, by decide +kernel, only (actors_lone iL rfl (.inl rfl))
    ⟨by decide +kernel, ready_lone lone0 (by decide), ready_lone lone0 (by decide), ready_lone lone0 (by decide)⟩, ?_⟩
  · rintro op (rfl | rfl) <;> rfl
  · decide +kernel

/-- Matrix state: record 1 is live (INT8, one chunk of one block), and so is record 2, of MXFP4; slots 2 and 3 are of integers. -/
def imgI : RecW := #v[0#32, 2048#32, 0x24#32, 0x10001#32, 0#32, 0x3F800000#32, 0#32, 0#32]
def imgX : RecW := #v[0x800#32, 0x1000#32, 0x202D#32, 0x10001#32, 0x800#32, 0x3F800000#32, 0#32, 0#32]
def mxI : Mx :=
  { mxReset with
    recs := vset (vset mxReset.recs 1 (makeLive imgI)) 2 (makeLive imgX),
    slots := #v[accReset, accReset, { accReset with i40 := true }, { accReset with i40 := true }] }
def sM : State := sT.setMx 0 mxI

theorem loneM : Lone sM tm0 th0 := ⟨rfl, rfl, rfl, ⟨_, rfl, rfl, rfl⟩, rfl, by decide⟩

theorem witness_MatrixRecords : sM.AtWide tm0 ∧ sM.isMtx tm0 = true ∧ sM.members tm0 = [ln0] ∧ sM.Supplies tm0 (span 8#8 8) ∧
    recordOk imgI = true ∧ recordOk imgX = true ∧ recsOverlap imgI imgX = false ∧ recordOk (vset imgI 0 0x1#32) = false ∧
    recordOk (vset imgI 1 0x780#32) = false ∧
    recLive (vget mxI.recs 1 imgI) = true ∧ sM.Supplies tm0 [2, 3] ∧ sM.ea tm0 ln0 .global 2#8 (.imm 0#8) % 128 = 0 ∧
    (sM.readsNow tm0 [ln0] fun _ => [(0, 1024)]) ∧
    (let w := sM.afterReads tm0 [ln0] fun _ => [(0, 1024)]
     (w.team? 1).any fun W => fine (w.readTable W 0 0 0)) = true := by
  refine ⟨atWide_lone loneM rfl, by decide, members_lone rfl, by unfold State.Supplies; decide +kernel, ?_⟩
  unfold State.Supplies State.readsNow
  decide +kernel

/-- The same with six groups, the threads in the first, at an execution of the first `n`. -/
def grpNone : Group := { benchGroup .no with threads := .replicate 32 threadIdle }
def tm6 : Team := { tm0 with groups := grp th0 :: List.replicate 5 grpNone }
def s6 (n : Nat) : State :=
  { sM with teams := [tm6], cur := { sT.cur with members := (0, 1#32) :: (List.range (n - 1)).map fun j => (j + 1, 0#32) } }

theorem wide6 {n : Nat} (h : n = 1 ∨ n = 2 ∨ n = 3 ∨ n = 6) : (s6 n).AtWide tm6 ∧ (s6 n).members tm6 = [tm6.ln 0 0] ∧
    (∀ ln ∈ (s6 n).members tm6, (s6 n).Ready 1 ln { src := span 16#8 17 }) := by
  have hm : (s6 n).members tm6 = [tm6.ln 0 0] := by rcases h with rfl | rfl | rfl | rfl <;> decide +kernel
  refine ⟨?_, hm, only hm (ready_read rfl ?_ ?_)⟩
  · rcases h with rfl | rfl | rfl | rfl <;> exact ⟨by decide, by decide, by decide⟩
  all_goals rcases h with rfl | rfl | rfl | rfl <;> decide +kernel

/-- MMA and MMAG, with the least and the greatest number of members; and the positions that are just outside. -/
theorem witness_MatrixInstructions_products :
    (∀ n, n = 1 ∨ n = 2 ∨ n = 3 ∨ n = 6 → (s6 n).AtWide tm6 ∧ (s6 n).isMtx tm6 = true ∧ (s6 n).cur.members.length = n ∧
      (∀ ln ∈ (s6 n).members tm6, (s6 n).Ready 1 ln { src := span 16#8 17 })) ∧
    mmaOk mxI (makeLive imgI) 2#2 16#8 0#32 1 = true ∧ mmaOk mxI (makeLive imgI) 3#2 240#8 0#32 1 = true ∧
    mmaOk mxI (makeLive imgX) 1#2 16#8 0#32 1 = true ∧ mmaOk mxI (makeLive imgX) 1#2 240#8 0#32 1 = false ∧
    mmaOk mxI (makeLive imgI) 0#2 16#8 0#32 1 = false ∧ mmaOk mxI (makeLive imgI) 2#2 16#8 1#32 1 = false ∧
    mmaOk mxI (makeLive imgI) 2#2 16#8 0#32 2 = false := by
  refine ⟨fun n h => ?_, by decide +kernel⟩
  obtain ⟨h1, -, h3⟩ := wide6 h
  refine ⟨h1, ?_, ?_, h3⟩ <;> rcases h with rfl | rfl | rfl | rfl <;> decide

/-- A team whose cluster has both cores of a pair. -/
def tmPr : Team := { tm0 with cores := [0, 1] }
def sPr : State := { sM with teams := [tmPr] }

theorem witness_MatrixInstructions : sM.AtWide tm0 ∧ sM.isMtx tm0 = true ∧
    (∀ ln ∈ sM.members tm0, sM.Ready 1 ln { src := span 16#8 8 } ∧ sM.Ready 1 ln { dst := span 16#8 8 }) ∧
    (sPr.AtWide tmPr ∧ sPr.isMtx tmPr = true ∧ tmPr.grid = true ∧ tmPr.cores.contains (partnerCore tmPr.core) = true ∧
      tmPr.cores.contains tmPr.core = true ∧ sPr.pairClash tmPr (makeLive imgI) = false) ∧
    (let T : Team := { tm0 with lnum := 2#32 }
     let u : State := { sM with teams := [T], launches := [{ benchLaunch with lnum := 2#32, r := { benchRec with mtx := false } }] }
     u.AtWide T ∧ u.isMtx T = false ∧ u.members T ≠ [] ∧ ∀ x ∈ u.cur.members, ∀ G, T.group? x.1 = some G → G.spec = none) := by
  refine ⟨atWide_lone loneM rfl, by decide, only (members_lone rfl) ⟨ready_lone loneM (by decide), ready_lone loneM (by decide)⟩,
    ⟨⟨by decide, by decide, by decide⟩, by decide +kernel⟩, ⟨by decide, by decide, by decide⟩, by decide, by decide, ?_⟩
  intro x hx G hG
  have : x = (0, 1#32) := by simpa [sM, State.setMx, sT, s0, st] using hx
  subst this
  cases hG
  rfl

/-- Windows at the ends of the columns, and the tags of the slots. -/
theorem witness_MatrixInstructions_windows :
    (windowOk 0 8 1 = true ∧ windowOk (376 * 256 + 64) 8 1 = true ∧ windowOk 0 8 3 = true ∧ windowOk (377 * 256) 8 1 = false ∧
      windowOk 65 8 1 = false ∧ windowOk 0 (mrdCols .f32) 1 = true ∧ windowOk (352 * 256) (mrdCols .fp8) 1 = true) ∧
    mxI.tag 2#2 = true ∧ mxI.tag 0#2 = false ∧ mxI.tag 1#2 = false := by decide

/-- A queue headed by MZERO, one headed by a paired MMA, and the unit at work. -/
def opZ : MxOp :=
  { team := 1, pc := 0#32, arr := .team 0#4, members := [(0, 1#32)], work := .mzero 1#2 true, cycles := 8, time := 0, after := 0, again := 0, waited := 0, skipped := 0, failed := false, held := false }
def opP : MxOp := { opZ with work := .pair 2#2 [] 1#4 16 0#32 { img := makeLive imgI, num := 1#4, kc := 0, cb := 1, panels := [], bad := false }, cycles := 32 }
def mxQ (o : MxOp) : Mx := { mxI with queue := [o] }
def tmB : Team := { tmPr with id := 2, core := 1, rank := 1 }
def sPs : State := ({ sPr with teams := [tmPr, tmB], tokens := [(0, tmPr.cid)] }.setMx 0 (mxQ opP)).setMx 1 (mxQ { opP with team := 2 })

theorem witness_MatrixUnit :
    (let u := { sM.setMx 0 (mxQ opZ) with gt := 1 }
     u.starting? 0 = some opZ ∧ u.team? opZ.team = some tm0 ∧ opZ.after < u.gt) ∧
    (let u := sM.setMx 0 { mxI with busy := [(0, opZ)] }
     ((u.mxOf 0).busy.find? fun x => x.1 ≤ u.gt) = some (0, opZ) ∧ opZ.work = .mzero 1#2 true ∧ (1#2 : SlotN) ≠ 0#2) ∧
    (sPs.pairReady 0 = some (tmPr, opP) ∧ sPs.pairReady 1 = some (tmB, { opP with team := 2 }) ∧ tmPr.part = tmB.part ∧
      tmPr.lnum = tmB.lnum ∧ tmPr.cluster = tmB.cluster ∧ pairAgrees opP.work opP.work = true ∧ pairFormats opP opP = true ∧
      (sPs.mxOf 0).pairAt = none ∧
      (let u := { sPs.setPairAt 0 (some 4) with gt := 4 }
       (u.mxOf 0).pairAt = some 4 ∧ opP.after < u.gt ∧ (u.mxOf 0).busy = [] ∧ (u.mxOf 1).busy = [] ∧
         u.pairReady 0 = some (tmPr, opP) ∧ u.pairReady 1 = some (tmB, { opP with team := 2 }))) ∧
    (let T : Team := { tm0 with rdvwd := 5#32 }
     let o : MxOp := { opP with waited := 5 }
     let u : State := { sM with teams := [T] }.setMx 0 (mxQ o)
     (u.mxOf 0).queue.find? (·.work.isPair) = some o ∧ u.team? 1 = some T ∧ T.st = .run ∧ T.rdvwd ≠ 0#32 ∧ T.rdvwd.toNat ≤ o.waited ∧
       T.wdrem = 0#32) ∧
    (let T : Team := { tm0 with core := 7 * Config.coresPerDie }
     T.core / Config.coresPerDie = 7 ∧ ({ sT with teams := [T], mx := [] } : State).mx = []) := by decide +kernel

/-- The lane's registers, by number. -/
def set (s : State) (xs : List (Nat × Word)) : State :=
  { s with kiln := s.kiln.map fun (k, r) =>
      (k, { r with regs := Vector.ofFn fun i => (xs.lookup (8 * k + i.val)).getD (vget r.regs i.val 0#32) }) }

/-- D at 0x400 of the Basin in v8 and v9, A at 0 of the context in v16 and v17; in v24 to v27 the length, the control word and an index
array of one row. -/
def cpyRegs (len ctl : Word) : List (Nat × Word) :=
  [(8, 0x400#32), (9, 0#32), (16, 0#32), (17, 0#32), (24, len), (25, ctl), (26, 1#32), (27, 0#32)]
def sCp (len ctl : Word) : State := set sM (cpyRegs len ctl)

theorem loneCp : Lone (sCp 64#32 4#32) tm0 th0 := ⟨rfl, rfl, rfl, ⟨_, rfl, rfl, rfl⟩, rfl, by decide⟩

/-- One line of a collective: its table at 0x1000, eight words of 32 bits from 0 to 0x100. -/
def sCo : State := set sM
  [(8, 0x100#32), (9, 0#32), (16, 0#32), (17, 0#32), (24, 8#32), (25, 0x05000000#32), (26, 0x1000#32), (27, 0#32)]

theorem loneCo : Lone sCo tm0 th0 := ⟨rfl, rfl, rfl, ⟨_, rfl, rfl, rfl⟩, rfl, by decide⟩

theorem witness_EngineCommands :
    (sCp 64#32 4#32).AtWide tm0 ∧ sM.isDet tm0 = false ∧ firstLanes ((sCp 64#32 4#32).members tm0) = [ln0] ∧
    (sCp 64#32 4#32).Ready 1 ln0 { src := span 8#8 2 ++ span 16#8 2 ++ span 24#8 4 } ∧
    (∀ len, len = 0#32 ∨ len = 16#32 ∨ len = 16777200#32 → (sCp len 4#32).slice tm0 .plain 8#8 16#8 24#8 (.imm 0#8) ln0 ≠ .illop) ∧
    (sCp 16777216#32 4#32).slice tm0 .plain 8#8 16#8 24#8 (.imm 0#8) ln0 = .illop ∧
    (sCp 64#32 4#32).slice tm0 .gather 8#8 16#8 24#8 (.imm 0#8) ln0 ≠ .illop ∧
    (sCp 64#32 0#32).slice tm0 .scatter 8#8 16#8 24#8 (.imm 0#8) ln0 ≠ .illop ∧
    (sCp 64#32 4#32).cmdCount 0 + 1 ≤ Config.cmdMax ∧
    (let u : State := { sCp 64#32 4#32 with cmds := (List.range Config.cmdMax).map fun j =>
       (sM.newCmd tm0 j [0] 0#3 0 (.va 0) 0 16 .coll false) }
     Config.cmdMax < u.cmdCount 0 + 1) := by
  refine ⟨atWide_lone loneCp rfl, by decide +kernel, by rw [members_lone rfl]; rfl, ready_lone loneCp (by decide +kernel), ?_, by decide +kernel⟩
  rintro len (rfl | rfl | rfl) <;> decide +kernel

theorem witness_EngineCommands_mst :
    let ctl := 0x100000
    let s : State := set sM [(8, 0x400#32), (9, 0#32), (24, 128#32), (25, 0x100000#32)]
    s.AtWide tm0 ∧ s.isMtx tm0 = true ∧ s.Supplies tm0 (span 8#8 2 ++ span 24#8 2) ∧ (s.v ln0 24#8).toNat = 128 ∧
    (s.rd ln0 25).val.toNat = ctl ∧ ctlOk ctl = true ∧ ctlSsp ctl = 0 ∧ ctlDsp ctl ≠ 2 ∧ bits ctl 29 3 = 0 ∧ bits ctl 20 4 = 1 ∧
    bits ctl 24 4 + bits ctl 20 4 ≤ 12 ∧ 32 * mstBytes .f32 ≤ 128 ∧ (s.mxOf 0).tag 0#2 = false ∧ (s.mxOf 0).tag 2#2 = true ∧
    s.locOf tm0 0 0 0x400 0 = some (.va 0x400) ∧ (Loc.va 0x400).foreign tm0 = false ∧ s.barrierOk 1 0 = true ∧ s.barrierOk 1 4088 = true :=
  ⟨⟨by decide, by decide, by decide⟩, by decide, by unfold State.Supplies; decide, by decide +kernel⟩

theorem witness_EngineCommands_coll :
    let ctl := 0x05000000
    sCo.AtWide tm0 ∧ sCo.Supplies tm0 (span 8#8 2 ++ span 16#8 2 ++ span 24#8 4) ∧ (sCo.v ln0 24#8).toNat = 8 ∧
    (sCo.rd ln0 25).val.toNat = ctl ∧ ctlOk ctl = true ∧ ctlSsp ctl = 0 ∧ ctlDsp ctl = 0 ∧ collType .aradd (bits ctl 20 4) = true ∧
    collType .aravimx 3 = true ∧ collType .aradd 3 = false ∧ 8 * collBytes 0 % 16 = 0 ∧ 8 * collBytes 0 ≤ sliceMax ∧
    (sCo.rd ln0 26).val.toNat % 64 = 0 ∧ sCo.barrierOk 1 0 = true ∧
    sCo.tagBusy 0 5 = false ∧ sCo.cmdCount 0 < Config.cmdMax ∧
    (match exec (.coll iT 8#8 16#8 24#8 (.imm 0#8) .aradd 1#3) sCo with
      | .next u => u.tagBusy 0 5 | _ => false) = true ∧
    (let k (s : State) : Cmd := s.collCmd tm0 ln0 8#8 16#8 24#8 (.imm 0#8) .gather 1#3
     let late : State := set { sCo with flights := sLd.flights } [(25, 0x05000400#32)]
     sCo.acquireMet (k sCo) = true ∧ (match sCo.engineRead tm0 (k sCo) (.va 0x1000) with
       | .val h => !collOver .gather 32 ((sCo.collOf ln0 8#8 16#8 24#8 .gather).headed h).nn | _ => false) = true ∧
       late.acquireMet { k late with bound := 3 } = false) :=
  ⟨atWide_lone loneCo rfl, by unfold State.Supplies; decide, by decide +kernel⟩

/-- Barrier words at the ends of their ranges, one for each clause. -/
theorem witness_Barriers_words :
    (let b : Bar := { exp := 2 ^ 24 - 1, arr := 2 ^ 24 - 2, ph := 1, err := 0 }
     b.ph ≤ 1 ∧ b.exp < 2 ^ 32 ∧ b.arr < 2 ^ 24 ∧ b.err < 128 ∧ b.exp ≠ 0 ∧ b.exp = b.arr + 1 ∧ b.arr + 1 < 2 ^ 24) ∧
    (let b : Bar := { exp := 2 ^ 32 - 1, arr := 2 ^ 24 - 2, ph := 0, err := 0 }
     b.exp < 2 ^ 32 ∧ b.arr + 1 < b.exp ∧ b.arr + 1 < 2 ^ 24 ∧ 2 ^ 24 ≤ b.arr + 2) ∧
    (let b : Bar := { exp := 0, arr := 0, ph := 0, err := 127 }
     b.err < 128 ∧ b.err ≠ 0) ∧
    (let b : Bar := { exp := 2 ^ 24 - 2, arr := 0, ph := 0, err := 0 }
     b.arr < b.exp + 1 ∧ b.exp + 1 < 2 ^ 24 ∧ 2 ^ 24 ≤ b.exp + 2) := by decide

/-- A thread at CWAIT of a word whose phase has flipped, alone and with its group. -/
def sBar (a : Arr) : State := st (team (grp { th0 with arr := a, wait := .cwait none 9#8 8 true }))

theorem loneBar (a : Arr) : Lone (sBar a) (team (grp { th0 with arr := a, wait := .cwait none 9#8 8 true }))
    { th0 with arr := a, wait := .cwait none 9#8 8 true } := ⟨rfl, rfl, rfl, ⟨_, rfl, rfl, rfl⟩, rfl, by
    have h : ∀ k < 8, (s0.row k).count = 1 ∧ (s0.row k).poison = 0#8 := by decide
    exact h⟩

theorem witness_Barriers :
    (s0.AtLane tm0 0 1#32 ∧ s0.isDet tm0 = false ∧
      (s0.actors tm0 iL).map (fun ln => (ln, (s0.barAt tm0 ln 2#8 (.imm 0#8)).2)) =
        [(ln0, { ea := 0, ia := 0, keys := s0.teams.flatMap fun T => T.basinKeys 0 0 8 })].map (fun x => (x.1, .ok x.2)) ∧
      (∀ ln ∈ s0.actors tm0 iL, s0.unknown ln { src := [2] } = false) ∧ (∃ pg pn, iL.scope = .lane pg pn)) ∧
    (∀ ln ∈ s0.actors tm0 iL, s0.Ready 1 ln { src := [2, 3], dst := [9] }) ∧
    ((set s0 [(3, 1#32)]).armAll tm0 3#8 [(ln0, { ea := 0, ia := 0, keys := [] })]).2 = [] ∧
    ((s0.bar tm0 0).flipped true = true ∧ (s0.bar tm0 0).flipped false = false) ∧
    (sT.AtWide tm0 ∧ (∀ pg pn, iT.scope ≠ .lane pg pn) ∧ sT.members tm0 = [ln0] ∧
      sT.Ready 1 ln0 { src := [2, 3] } ∧ sT.Ready 1 ln0 { dst := [9] } ∧
      (match (sT.barAt tm0 ln0 2#8 (.imm 0#8)).2 with | .ok x => ((sT.bar tm0 x.ea).arm 1).isSome | .error _ => false) = true) ∧
    (∀ a : Arr, a = .no ∨ a = .group → let T := team (grp { th0 with arr := a, wait := .cwait none 9#8 8 true })
      (sBar a).team? 1 = some T ∧ (T.ln 0 0).th.live = true ∧ (T.ln 0 0).th.wait = .cwait none 9#8 8 true ∧
      ((sBar a).bar T 8).flipped true = true ∧ (sBar a).owns 1 0 0 (9 / 8) ∧ 0 < T.groups.length ∧
      ∀ x ∈ T.waitPeers 0 0, (sBar a).owns 1 x.1 x.2 (9 / 8)) := by
  refine ⟨⟨atLane_lone lone0 rfl rfl, by decide, only_ok (actors_lone iL rfl (.inl rfl)) (by decide +kernel),
      only (actors_lone iL rfl (.inl rfl)) (by decide), ⟨_, _, rfl⟩⟩,
    only (actors_lone iL rfl (.inl rfl)) (ready_lone lone0 (by decide)), by decide +kernel, by decide +kernel,
    ⟨atWide_lone loneT rfl, by simp [iT], members_lone rfl, ready_lone loneT (by decide), ready_lone loneT (by decide), by decide +kernel⟩, ?_⟩
  intro a ha
  have ho := owns_lone (loneBar a) (i := 9 / 8) (by decide)
  have hp : ∀ x ∈ (team (grp { th0 with arr := a, wait := .cwait none 9#8 8 true })).waitPeers 0 0, x = (0, 0) := by
    rcases ha with rfl | rfl <;> decide
  refine ⟨?_, ?_, ?_, ?_, ho, Nat.one_pos, fun x hx => by rw [hp x hx]; exact ho⟩ <;> rcases ha with rfl | rfl <;> decide +kernel

/-- A collective of two nodes, of which this is node 0, the root, and awaits one chunk of 16 bytes; and one that has it. -/
def collAt : CollSt :=
  { op := .aradd, ty := 0, tag := 0, n := 4, table := 0, src := 0, dst := 0x100, nn := 2, self := 0, parents := [0xFFFF, 0],
    peers := [{ node := 1, port := 0, silent := 5, skipped := 0 }], own := [], phase := 2, tab := [], shards := [], sent := [], stored := false }
def cmdAt (x : CollSt) : Cmd :=
  { s0.newCmd tm0 2 [0] 0#3 0 (.va 0x100) 0 16 .coll false with started := true, coll := some x }
def collAll : CollSt := { collAt with shards := [{ node := 1, chunk := 0, hops := 1, data := List.replicate 16 1#8 }], sent := [(1, 0, 0)] }
def sCmd (c : Cmd) : State := { s0 with cmds := [c] }

theorem witness_CommandEvents :
    (let c := cmdAt { collAll with stored := true }
     (sCmd c).cmd? 2 = some c ∧ (sCmd c).cmdDone c = true) ∧
    (let c : Cmd := { cmdAt collAt with err := some 127#7 }
     (sCmd c).cmd? 2 = some c ∧ c.err = some 127#7 ∧ (sCmd c).cmdQuiet c = true) ∧
    (let c := cmdAt collAt
     (sCmd c).cmd? 2 = some c ∧ c.exchanging = some collAt ∧ collAt.expected.contains 1 = true ∧ 0 < collAt.chunks ∧
       collAt.has 1 0 = false ∧ (List.replicate 16 1#8).length = min chunkBytes (collAt.shardBytes - 0 * chunkBytes) ∧
       collAt.nn ≤ 2 ∧ 1 < collAt.nn ∧ chunkSumOf (List.replicate 16 1#8) = 0x0A0A0A0A#32 ∧
       ({ sCmd c with teams := [{ tm0 with rdvwd := 5#32 }] } : State).collLate c = true) ∧
    (let c : Cmd := { cmdAt collAt with page := some 3 }
     (sCmd c).cmd? 2 = some c ∧ c.page = some 3 ∧ (((sCmd c).part (3 / 2 ^ 32)).efaults.map (·.1)).contains 3 = false) ∧
    (let c := cmdAt collAll
     (sCmd c).cmd? 2 = some c ∧ c.gathered = some collAll ∧ (sCmd c).team? c.team = some tm0 ∧ c.page = none ∧
       granulesOf collAll.result ≠ [] ∧ (sCmd c).firstStuck tm0 0x100 (List.range (granulesOf collAll.result).length) = none) ∧
    (let x := { collAll with dst := 2 ^ 57 }
     let c := cmdAt x
     c.gathered = some x ∧ (match (sCmd c).firstStuck tm0 x.dst (List.range (granulesOf x.result).length) with
       | some (.err _) => true | _ => false) = true) ∧
    (let x := { collAll with n := 0 }
     (cmdAt x).gathered = some x ∧ granulesOf x.result = []) := by decide +kernel

/-- A thread at PGPIN of virtual address 0, alone and with its group. -/
def sPin (a : Arr) : State := st (team (grp { th0 with arr := a, wait := .pin 0 1#3 true }))

theorem witness_GenerationLoop :
    Met (.toV (2 :: span 16#8 16) 9#8) Always ∧ s0.AtLane tm0 0 1#32 ∧ s0.isDet tm0 = false ∧
    (∀ ln ∈ s0.actors tm0 iL, s0.Ready 1 ln { src := [2, 3, 4], dst := [9] } ∧ s0.unknown ln { src := [2, 3] } = false) ∧
    (s0.v ln0 2#8).toNat < slotMax ∧ ((set s0 [(2, 4095#32)]).v ln0 2#8).toNat < slotMax ∧
    ¬ ((set s0 [(2, 4096#32)]).v ln0 2#8).toNat < slotMax ∧
    (s0.actors tm0 iL).map (fun ln => (ln, (s0.pinAt 2#8 (.imm 0#8) tm0 ln).2)) = [(ln0, 0)].map (fun x => (x.1, .ok x.2)) ∧
    (∀ a, a = Arr.no ∨ a = .group → ∃ U G, (sPin a).team? 1 = some U ∧ (sPin a).group? 1 0 = some G ∧ U.st = .run ∧
      G.pinSet 0 = [(0, 0, 1#3, true)] ∧ (G.thread 0).arr = a ∧ 0 ∈ (G.pinSet 0).map (·.1) ∧
      (sPin a).pinFree 0 true = true ∧ ((sPin a).walk 0).isSome = true) := by
  refine ⟨met (by decide) trivial trivial, atLane_lone lone0 rfl rfl, by decide,
    only (actors_lone iL rfl (.inl rfl)) ⟨ready_lone lone0 (by decide), by decide⟩, by decide, by decide, by decide,
    only_ok (actors_lone iL rfl (.inl rfl)) (by decide +kernel), ?_⟩
  rintro a (rfl | rfl)
  all_goals exact ⟨_, _, rfl, rfl, by decide +kernel⟩

/-- Partition 0 with its queue 0 enabled, of two slots at `base` × 128 of HBM5, with one record accepted. -/
def partQ (base : Nat) : Part :=
  (((benchPart.setFld 0x800 7 41 base).setFld 0x808 4 1 1).setFld 0x810 0 32 1)
def sLq (base : Nat) (L : List Launch) : State :=
  { State.reset.bench 0#64 with teams := [], launches := L, parts := vset (.replicate 8 partReset) 0 (partQ base) }

/-- A record at 0x8000: one team of one group; and the same with a semaphore at 0x40. -/
def recBytes (sema : Nat) : Nat :=
  0x00014C52 + 0x10000 * 2 ^ 128 + 1 * 2 ^ 160 + 0x11000000 * 2 ^ 192 + 256 * 2 ^ 224 + 2 ^ 320 + 2 ^ 352 + 2 ^ 384 + 0xFF00 * 2 ^ 416 +
    sema * 2 ^ 448
def sLr (sema : Nat) : State := (sLq 0x100 []).setBytes (physKey 0 0x8000) 640 (recBytes sema)

theorem witness_Launches_dequeue :
    (sLq 0x100 []).resumable 0 = none ∧ (sLq 0x100 []).places 0 < Config.launchMax ∧ (sLq 0x100 []).m.resetting 0 = false ∧
    bestHead ((sLq 0x100 []).heads 0) = some 0 ∧ bestHead ((sLr 0).heads 0) = some 0 ∧
    ((sLq 0x100 []).part 0).slotKey 0 0 = physKey 0 0x8000 ∧
    (sLq 0x100 []).poisonedIn (physKey 0 0x8000) 640 = false ∧
    ({ sLq 0x100 [] with poison := [physKey 0 0x8000] } : State).poisonedIn (physKey 0 0x8000) 640 = true ∧
    (partQ 0x100).malformed (recordOf 0) = true ∧ (partQ 0x100).malformed (recordOf (recBytes 0)) = false ∧
    (recordOf (recBytes 0)).sema = 0#64 ∧ (partQ 0x100).malformed (recordOf (recBytes 0x40)) = false ∧
    (recordOf (recBytes 0x40)).sema ≠ 0#64 ∧ (sLr 0x40).bytes (physKey 0 0x8000) 640 = recBytes 0x40 ∧
    (sLq 0x100 [{ benchLaunch with st := .reading }]).resumable 0 = some { benchLaunch with st := .reading } := by decide +kernel

/-- A launch that waits for its semaphore. -/
def lSem (v : Word) (a : Dword) : Launch := { benchLaunch with st := .sema, r := { benchRec with sema := a, semv := v } }

/-- The launch is the one that its queue polls for. -/
def waitsSem (v : Word) (a : Dword) : Prop :=
  ((sLq 0 [lSem v a]).inFlight 0).find? (fun L => L.queue == 0 && L.st == .sema) = some (lSem v a) ∧ (lSem v a).page = none ∧
    (lSem v a).req = none

/-- Launches at each of their stages, and a round of a deterministic launch. -/
def detAt (u : Option Nat) : Det := { round := 1, opening := [], openGt := 0, until_ := u, own := [], commit := false }
def lDet (u : Option Nat) : Launch := { benchLaunch with r := { benchRec with det := true }, det := some (detAt u) }
def sDet (u : Option Nat) (wct : Nat) : State :=
  { sLq 0 [{ lDet u with wct }] with teams := [team (grp { th0 with closed := true })] }

theorem witness_Launches :
    (s0.AtLane tm0 0 1#32 ∧ s0.isDet tm0 = false ∧ (∀ ln ∈ s0.actors tm0 iL, s0.Ready 1 ln { src := [2, 3, 4], dst := [9] } ∧
      s0.unknown ln { src := [2, 3] } = false) ∧
      (s0.actors tm0 iL).map (fun ln => (ln, (s0.recordAt false tm0 ln 2#8 (.imm 0#8)).2)) =
        [(ln0, (List.range 20).map fun _ => (0, false))].map (fun x => (x.1, .ok x.2)) ∧
      s0.readsNow tm0 [ln0] fun ln => [(s0.ea tm0 ln .global 2#8 (.imm 0#8), 640)]) ∧
    waitsSem 0#32 0x40#64 ∧ waitsSem 1#32 0x40#64 ∧ waitsSem 0#32 0x7FFF0000#64 ∧
    (sLq 0 []).launchWord (lSem 0#32 0x40#64) 0x40 = .ok 0 ∧ (sLq 0 []).launchWord (lSem 0#32 0x7FFF0000#64) 0x7FFF0000 = .fail ∧
    ((sLq 0 [{ benchLaunch with nextCluster := 0 }]).nextPlaced 0).isSome = true ∧
    (let L := { benchLaunch with st := .waiting }
     (sLq 0 [L]).launch? 0 1#32 = some L ∧ (sLq 0 [L]).mayAdmit L = true) ∧
    (let L := { benchLaunch with nextCluster := 0 }
     ({ sLq 0 [L] with gt := 65536 } : State).overdue L = true) ∧
    (sLq 0 [benchLaunch]).allEnded benchLaunch = true ∧
    (let L := { benchLaunch with st := .finishing .ok }
     (sLq 0 [L]).launch? 0 1#32 = some L ∧ L.wct ≤ (sLq 0 [L]).gt ∧ L.page = none ∧ (sLq 0 [L]).writesUnderWay L = false ∧ L.r.cmpl = 0#64 ∧ L.r.msie = false ∧ L.part < 8) ∧
    ((sDet (some 0) 0).detLaunch 0 = some ({ lDet (some 0) with wct := 0 }, detAt (some 0)) ∧ 0 ≤ (sDet (some 0) 0).gt) ∧
    (∀ w ∈ [0, 1], (sDet none w).detLaunch 0 = some ({ lDet none with wct := w }, detAt none) ∧
      (sDet none w).roundClosed { lDet none with wct := w } = true ∧ (sDet none w).nextEntry { lDet none with wct := w } = none ∧
      (sDet none w).roundWct { lDet none with wct := w } = w ∧ (sDet none w).gt = 0) := by
  refine ⟨⟨atLane_lone lone0 rfl rfl, by decide, only (actors_lone iL rfl (.inl rfl)) ⟨ready_lone lone0 (by decide), by decide +kernel⟩,
    only_ok (actors_lone iL rfl (.inl rfl)) (by decide +kernel), by unfold State.readsNow; decide +kernel⟩, ?_⟩
  unfold waitsSem
  decide +kernel

/-- Commands to a team, and queues with room for one record and for none; a save slot that holds a team. -/
def partN (index : Nat) : Part := (partQ 0).setFld 0xF40 0 24 index |>.setFld 0xF40 32 32 1
def sN (T : Team) (p : Part) : State := { st T with parts := vset s0.parts 0 p }
def sRs (image : List (Nat × Nat × Nat)) : State :=
  { sLq 0 [benchLaunch] with
    saved := [{ savedAt with image }], parts := vset s0.parts 0 { benchPart with resuming := some 1 },
    m := { moduleInit with stage := 4, diepart := 8#64, replan := (List.range 79).map fun j => (j + 1, 0) } }

theorem witness_HostQueues :
    ((benchPart.setFld 0x808 4 1 1).qslots 0 = 2 ∧ (benchPart.setFld 0x808 4 1 1).qcount 0 + 2 ≤ 2 ∧
      (benchPart.setFld 0x808 4 1 1).qdev 0 = false ∧ (partQ 0).qslots 0 < (partQ 0).qcount 0 + 2) ∧
    ((partN 0).busy = false ∧ (sN tm0 (partN 7)).named? 0 7 1#32 = none ∧ (partN 7).fld 0xF40 0 24 = 7) ∧
    (∀ T ∈ [tm0, { tm0 with st := .inPlace }, { tm0 with st := .inPlace, broken := true }, tmO],
      (sN T (partN 0)).named? 0 0 1#32 = some T ∧ (sN T (partN 0)).team? 1 = some T ∧ (sN T (partN 0)).saved = [] ∧
        (sN T (partN 0)).isDet T = false ∧ T.numbered.all (fun x => !(x.2.spec.map (·.runAhead)).getD false) = true ∧
        (sN T (partN 0)).unposted T = false) ∧
    (tm0.st = .run ∧ tmO.st = .stopping recOut ∧ tm0.broken = false) ∧
    ({ sN tm0 (partN 0) with launches := [lDet none] } : State).isDet tm0 = true ∧
    (let T : Team := { tm0 with st := .out 0 }
     ({ sN tm0 (partN 0) with teams := [], saved := [{ savedAt with team := T }] } : State).named? 0 0 1#32 = some T) ∧
    ((partN 0).setFld 0xF48 2 1 1).busy = true ∧
    (∀ x ∈ [0, 1], ((sRs [(0, 1, x)]).part 0).resuming = some 1 ∧ (sRs [(0, 1, x)]).team? 1 = none ∧
      (sRs [(0, 1, x)]).saved.find? (·.team.id == 1) = some { savedAt with image := [(0, 1, x)] } ∧
      (sRs [(0, 1, x)]).unposted savedAt.team = false ∧ (sRs [(0, 1, x)]).imageIntact { savedAt with image := [(0, 1, x)] } = (x == 0)) ∧
    (sRs [(0, 1, 0)]).resumeSpots savedAt = [(0, 0, 0)] := by decide +kernel

/-- A migration queue with one descriptor, of the 2 MiB page 0 of the window to 0x400000; the page pinned or not; a wrong one; and a
migration under way. -/
def partMq : Part := (benchPart.setFld 0x048 4 44 0x800).setFld 0x058 0 32 1
def descAt (dst : Nat) : Nat := 1 + dst * 2 ^ 64
def sMq (desc pin : Nat) : State :=
  (({ s0 with parts := vset s0.parts 0 partMq }).setBytes (physKey 0 0x8000) 16 desc).setBytes (physKey 0 0x3000) 8 (0x200003 + pin * 2 ^ 48)
def migAt : Mig := { big := true, page := 0, leaf := physKey 0 0x3000, src := physKey 0 0x200000, dst := physKey 0 0x400000 }

theorem witness_MemoryService :
    s0.serving 0 = true ∧ ({ benchPart with drops := [none, some 3] } : Part).drops ≠ [] ∧
    (sMq (descAt 0x400000) 0).migrateReady 0 = true ∧ (sMq (descAt 0x400000) 0).migOf 0 (descAt 0x400000) = some migAt ∧
    (sMq (descAt 0x400000) 0).bytes (physKey 0 0x8000) 16 = descAt 0x400000 ∧
    (sMq (descAt 0x400000) 0).migOf 0 (descAt 0x400001) = none ∧ (sMq (descAt 0x400000) 0).migOf 0 (descAt 0x200000) = none ∧
    ptePin ((sMq (descAt 0x400000) 0).bytes migAt.leaf 8) = 0 ∧ ptePin ((sMq (descAt 0x400000) 65535).bytes migAt.leaf 8) = 65535 ∧
    s0.migPoison migAt = none ∧ s0.cxlDown migAt.dst = false ∧ ({ s0 with poison := [physKey 0 0x3FFF80] } : State).migPoison migAt = some 16383 ∧
    (benchPart.setFld 0x068 0 1 1 |>.setFld (handleOff 63) 3 2 1).handleAct 63 = 1 ∧
    (benchPart.setFld 0x068 0 1 1 |>.setFld (handleOff 0) 3 2 2).handleAct 0 = 2 ∧ 4095 < slotMax := by decide +kernel

/-- Landing window 0, of 64 KiB from 0 of BAR2 to virtual address 0, for reads, writes and AtomicOps; and an outbound read. -/
def partIn : Part := (benchPart.setFld 0x1000 0 4 15).setFld 0x1010 0 25 1
def sInb : State :=
  { s0 with parts := vset s0.parts 0 partIn, m := { s0.m with pcie := .replicate 2 .up, links := vset s0.m.links 0 { linkDefault with st := .up } } }
def outAt : OutReq :=
  { id := 3, part := 0, win := 0, path := 0, link := 0, addr := 0, op := .load false, bytes := [], len := 4, flight := none, cmd := none,
    team := 1, dead := false }
def inTo (off : Nat) : List (Nat × Nat) := (List.range 4).map fun j => (off + j, physKey 0 (0x200000 + off + j))

theorem witness_OutsideRequests :
    sInb.reaches 0 0 = true ∧ sInb.reaches 2 0 = true ∧ sInb.reaches 3 0 = false ∧ sInb.reaches 0 1 = false ∧
    (∀ off ∈ [0, 0xFFFC], sInb.writeReady 0 7 0 off 4 = true ∧ sInb.aopReady 0 7 0 off 4 = true ∧ sInb.inOrder 0 7 = true ∧
      (match sInb.inbound 0 off 4 .write with | .ok x => decide (x = inTo off) | .error _ => false) = true ∧
      (match sInb.inbound 0 off 4 .read with | .ok x => decide (x = inTo off) | .error _ => false) = true ∧
      (match sInb.inbound 0 off 4 .atomic with | .ok x => decide (x = inTo off) | .error _ => false) = true ∧
      (∀ x ∈ inTo off, sInb.cxlDown x.2 = false) ∧ ((inTo off).map (·.2)).Nodup ∧
      sInb.poisonedIn (physKey 0 (0x200000 + off)) 4 = false ∧ off % 4 = 0) ∧
    (∀ x ∈ linesOf (inTo 0), (sInb.part (x.1 / 2 ^ 48)).fld 0x018 16 1 = 0) ∧
    (match sInb.inbound 0 0xFFFD 4 .write with | .ok _ => false | .error w => w == some 0) = true ∧
    (match sInb.inbound 0 0x10000 4 .read with | .ok _ => false | .error w => w == none) = true ∧
    ({ s0 with outbox := [outAt] } : State).outReq? 3 = some outAt ∧ outAt.op = .load false ∧
    ({ s0 with outbox := [{ outAt with op := .store false }] } : State).outReq? 3 = some { outAt with op := .store false } := by
  decide +kernel

theorem witness_ModuleEvents :
    (15 < 16 ∧ LinkSt.training ≠ .down) ∧
    ({ s0 with m := { s0.m with links := vset s0.m.links 15 { linkDefault with st := .recovery, time := 850000 } } } : State).recoveryOver 15 =
      true ∧
    1 < (s0.part 7).bme.length ∧ s0.serving 0 = true ∧ 639 < Config.cores ∧ s0.mayReplan 639 = true ∧ (s0.m.age 639).replans ≠ allOnes := by
  decide +kernel

theorem witness_ResetAndBringup :
    (let h : Module := { s0.m with hold := 3#8 }
     h.mayMove 8 (ownerIn h.diepart) (ownerIn (0x98888888#64 &&& 0xFFFFFFFF#64)) = true ∧
     s0.m.mayMove 8 (ownerIn s0.m.diepart) (ownerIn (0x98888888#64 &&& 0xFFFFFFFF#64)) = false ∧
     h.mayMove 16 (ownerIn h.linkpart) (ownerIn 0x9888888888888888#64) = true ∧
     h.mayMove 4 (ownerIn h.cxlpart) (ownerIn (0x9888#64 &&& 0xFFFF#64)) = true) ∧
    ((0x80#8).getLsbD 7 = true ∧ s0.m.hold.getLsbD 7 = false ∧ ∀ k, k < 8 → (0#8).getLsbD k = true → s0.m.hold.getLsbD k = true) ∧
    ({ s0 with m := { s0.m with inrst := 0x80#8 } } : State).inrstReady 7 = true ∧
    ({ s0.m with inReset := true } : Module).inReset = true ∧
    (State.reset.m.bringing = true ∧ State.reset.m.stage < 3 ∧ ({ State.reset.m with stage := 3 } : Module).bringing = true) := by
  decide +kernel

/-- A command posted in the mailbox. -/
def mbox (stage : Nat) (code : BitVec 16) (w : Word) : State :=
  { s0 with m := { s0.m with stage, mbcmd := code, mbdb := true, mbdata := Sparse.set 0#32 [] 0 w } }

/-- Of the other fused limits nothing is known: 0 is within every ceiling, and a limit is not below itself. -/
theorem witness_MailboxAndRegisters_limits :
    (∀ d, ((mbox 4 3#16 0#32).m.mbWord (4 + 4 * d)).toNat ≤ (Config.fusedDieCeiling d).toNat) ∧
    (Config.fusedTrip ≠ 0#32 → ((mbox 4 4#16 0#32).m.mbWord 0).toNat < Config.fusedTrip.toNat) ∧
    Config.fusedTrip.toNat ≤ ((mbox 4 4#16 allOnes).m.mbWord 0).toNat := by
  have z : ∀ c o, (mbox 4 c 0#32).m.mbWord o = 0#32 := by
    intro c o
    have : (mbox 4 c 0#32).m.mbdata = [] := rfl
    rw [Module.mbWord, this]
    rfl
  have top : (mbox 4 4#16 allOnes).m.mbWord 0 = allOnes := by decide +kernel
  refine ⟨fun d => by rw [z]; exact Nat.zero_le _, fun h => ?_, ?_⟩
  · rw [z]
    exact Nat.pos_of_ne_zero fun e => h (BitVec.eq_of_toNat_eq e)
  · rw [top]
    exact Nat.le_pred_of_lt Config.fusedTrip.isLt

theorem witness_MailboxAndRegisters :
    (∀ c ∈ [1, 2, 3, 4, 5], ∀ n ∈ [3, 4], (mbox n (BitVec.ofNat 16 c) 0#32).m.posted c = true ∧ (mbox n (BitVec.ofNat 16 c) 0#32).m.stage = n) ∧
    (((mbox 4 3#16 0#32).m.mbWord 0).toNat ≤ Config.fusedCeiling.toNat ∧ Config.fusedCeiling.toNat < ((mbox 4 3#16 allOnes).m.mbWord 0).toNat) ∧
    ((mbox 4 5#16 639#32).m.mbWord 0 = 639#32 ∧ (mbox 4 5#16 640#32).m.mbWord 0 = 640#32 ∧ 639 < Config.cores ∧ Config.cores ≤ 640) ∧
    ((mbox 4 0#16 0#32).m.mbdb = true ∧ (mbox 4 0#16 0#32).m.mbcmd.toNat = 0 ∧ 5 < (mbox 4 6#16 0#32).m.mbcmd.toNat) ∧
    (s0.serving 0 = true ∧ 0x30 % 8 = 0 ∧ 0x1308 % 8 = 0 ∧ 0x1310 % 8 = 0) ∧ s0.serving ((16 - 1) % 8) = false := by decide +kernel

/-! ## Further forms and clauses of the statements -/

theorem witness_SpecialReads_values : tm0.group? ln0.g = some (grp th0) ∧ s0.launchOf tm0 = some benchLaunch ∧ tm0.grid = true ∧
    ({ tm0 with grid := false } : Team).grid = false := by decide +kernel

/-- Guards that pass, that of q7 and one of a predicate that is known, and one that fails. -/
theorem witness_PairedHalves_values : ln0.th.q 7#3 ≠ false ∧ (ln0.th.q 1#3 ≠ true ∧ ln0.th.unkQ.getLsbD 1 = false) ∧
    ln0.th.q 7#3 = true ∧ (5#3 : BitVec 3).toNat < 6 := by decide +kernel

theorem witness_ThreadControl_scalars : sG.Supplies tm0 [] ∧ sG.scalar tm0 .zero (.imm 0#8) = 0#32 ∧
    sG.scalar tm0 .zero (.imm 1#8) ≠ 0#32 ∧ ln0.th.live = true := by
  unfold State.Supplies
  decide +kernel

theorem witness_TrapReturn_members : ∀ s ∈ [sIn, dstIn 7#32, dstIn 0x101#32], s.members (inH s) = [(inH s).ln 0 0] ∧
    (((inH s).ln 0 0).key? 4).isSome = true ∧ (s.rd ((inH s).ln 0 0) 4).poison = false := by decide +kernel

/-- A Basin store that the core still holds, and a load of its bytes. -/
def sHeld : State := next (exec (.st iL 4#8 2#8 (.imm 16#8) ⟨.b32, .basin, false, 0#3⟩) sSt) sSt
def sBehind : State := { s0 with flights := sHeld.flights }

theorem witness_Loads_behind : s0.behindHeld tm0.id 0 [(0, inBasin.keys)] = false ∧ sBehind.behindHeld tm0.id 0 [(0, inBasin.keys)] = true ∧
    (sBehind.actors tm0 iL).map (fun ln => (ln, (sBehind.at_ .basin 0 4 needR 2#8 (.imm 16#8) tm0 ln).2)) = [(ln0, .ok inBasin)] ∧
    sBehind.racers tm0 .basin [(ln0, inBasin)] = [] := by
  refine ⟨by decide +kernel, by decide +kernel, by rfl, by decide +kernel⟩

/-- An atomic under way and confirmed; its number is 2. -/
def sAtom (op : AccOp) : State :=
  let i : Instr := match op with
    | .atom o => .atom iL 6#8 2#8 (.imm 16#8) 4#8 o .device
    | .cas => .acas iL 6#8 2#8 (.imm 16#8) 4#8 false .device
    | .fadd => .afadd iL 6#8 2#8 (.imm 16#8) 4#8 .device
    | .b2add => .ab2add iL 2#8 (.imm 16#8) 4#8 .device
    | _ => .avimx iL 0#8 2#8 (.imm 16#8) 4#8 false .device
  let s := next (exec i s0) s0
  next (exec (.accessConfirmed 2) s) s

/-- Lane 0 of access 2 is the one that comes next at the home, with its half `h` of an AB2ADD. -/
def atHome (s : State) (h : Nat) : Bool :=
  match s.flight? 2 with
  | none => false
  | some f => match f.heads.filter (s.laneReady f), s.owner? f.team with
    | [a], some T => s.mayGo f && f.remote && (apertureOf a.ia).isNone && !s.windowReset T.part (a.ia + 2 * h) &&
        !s.poisonedIn (s.accKey a + 2 * h) f.size && !s.cxlDown (s.accKey a + 2 * h) &&
        (s.part ((a.ia + 2 * h) / 2 ^ 48)).fld 0x018 16 1 == 0 && a.half == decide (h = 1)
    | _, _ => false

theorem witness_GlobalAccesses_atomics :
    (∀ op ∈ [AccOp.atom .add, .cas, .fadd, .vimx, .b2add], atHome (sAtom op) 0 = true ∧
      ((sAtom op).flight? 2).map (·.op) = some op) ∧
    atHome (next (exec (.reachesHome 2) (sAtom .b2add)) s0) 1 = true ∧
    ((sAtom .cas).flight? 2).bind (fun f => (f.lane? 0).map fun a => a.dst.isSome) = some true := by decide +kernel

/-- A global load of the word at 16, confirmed; and the same with an L1 copy of its line. -/
def sLdG : State :=
  let s := next (exec (.ld iL 4#8 2#8 (.imm 16#8) ⟨.b32, .global, false, 0#3⟩) s0) s0
  next (exec (.accessConfirmed 2) s) s
def sLdC : State := { sLdG with l1 := [{ holder := 0, line := 0, data := 0#1024, poison := false, began := 0, ends := 9, rrpv := 0 }] }

/-- Lane 0 of the load is alone at its line, with an L1 copy that it may hit or without. -/
def comesNext (s : State) (id : Nat) (hit : Bool) : Bool :=
  match s.flight? id with
  | none => false
  | some f => match f.lane? 0, s.owner? f.team with
    | some a, some T => f.op == AccOp.load false && f.remote && !f.object && a.val.isNone && a.todo && (apertureOf a.ia).isNone &&
        s.loadReady f a && f.lineOf a == [a] && (s.detOf T).isNone && !s.windowReset T.part a.ia &&
        (match a.dst with | some (k, pos) => decide (pos + f.nreg ≤ 8 ∧ (s.row k).count ≠ 0) | none => false) &&
        (s.flights.all fun x => decide (id ≤ x.id) || !x.staged && !s.ahead x) && !(f.cistern && s.leased T.part a.ia) &&
        (s.l1Hit (s.l1Holder T a.ia) (a.ia / 128) (max T.since (s.thread 1 0 0).acqTime)).isSome == hit &&
        decide (a.ia % 16 ≤ s.accKey a)
    | _, _ => false

theorem witness_LoadLands_global : comesNext sLdG 2 false = true ∧ comesNext sLdC 2 true = true ∧
    ((sLd.flight? 2).map (·.object)) = some false := by decide +kernel

theorem witness_MemoryEvents_prefetch : (∀ ln ∈ s0.actors tm0 iL, s0.unknown ln { src := [2, 3] } = false) ∧
    ∀ p, (s0.part p).fld 0x018 16 1 = 0 := by
  refine ⟨only (actors_lone iL rfl (.inl rfl)) (by decide), fun p => ?_⟩
  by_cases h : p < 8
  · have : ∀ q < 8, (s0.part q).fld 0x018 16 1 = 0 := by decide +kernel
    exact this p h
  · have : s0.part p = partReset := by
      unfold State.part vget
      rw [Vector.getElem?_eq_none (by omega)]
      rfl
    rw [this]
    decide +kernel

/-- A full table of leases, a slice without room, and a range that no range register covers. -/
def leaseAt (e n : Nat) : Lease := { entry := e, gen := 0, lines := (List.range n).map fun j => 192 * j, ends := 9 }
def sFull : State := sLs.modPart 0 fun pt => { pt with leases := (List.range 64).map fun e => leaseAt e 0 }
def sNoRoom : State := sLs.modPart 0 fun pt => { pt with leases := [leaseAt 0 4096] }

theorem witness_CisternLeases_refused :
    (sFull.leaseLines tm0 0 128 = some [0] ∧ ∀ e, e < 64 → (sFull.part tm0.part).leases.any (·.entry == e) = true) ∧
    (sNoRoom.leaseLines tm0 0 128 = some [0] ∧ sNoRoom.leaseFits [0] = false) ∧
    (let u := set sLs [(3, 0x2000000#32)]
     ((u.leader tm0).map fun ln => u.rdPair ln 2) = some (2 ^ 57) ∧ u.leaseLines tm0 (2 ^ 57) 128 = none) ∧
    (∀ G, tm0.group? sLs.curGroup = some G → G.spec = none) := by
  refine ⟨by decide +kernel, by decide +kernel, by decide +kernel, ?_⟩
  intro G h
  cases h
  rfl
theorem witness_FullEmpty_order : s0.behindHeld tm0.id 0 [(0, inBasin.keys)] = false ∧
    (st tmF).behindHeld 1 0 [(0, tmF.basinKeys 0 16 4)] = false := by decide +kernel

theorem witness_EndSwapOutAndRunAhead_lost : ((sAhead.flight? 2).map fun f => (sAhead.lostLanes f).length) = some 1 ∧
    (let s : State := { sNo with mem := [] }
     (s.flight? 2).map fun f => (s.lostLanes f).length) = some 1 := by decide +kernel

/-- The same where the team has a second group, and no row of the sub-core but those in use. -/
def tm2 : Team := { tm0 with groups := [grp th0, { benchGroup .no with threads := .replicate 32 threadIdle }] }
def sSn2 : State := next (exec (.snap iL 1#3 2#4 9#8) (st tm2)) (st tm2)
def tmSn2 : Team := inH sSn2
def tmPoor : Team := { tmSn with snaprows := 0 }
/-- The entry that H2 names there. -/
def entSn : Nat × Entry := (sSn.entryOf (tmSn.ln 0 0) ((tmSn.ln 0 0).handle 2#4)).getD
  (0, { cap := th0.capture, resume := 0#8, owner := 0, refs := 0, lane := 0, spill := 0#64 })
/-- Its image at 0x1000. -/
def sImg : State := mem sSn 0x1000 (32 * 16) ((sSn.imageOf 0 0 entSn.2 true).foldr (fun x n => x + 2 ^ 256 * n) 0)
def isImages (s : State) (T : Team) (va : Nat) : Bool := match s.chain T 0 0 va 6 with | .images (_ :: _) => true | _ => false
def loadedAt (s : State) (T : Team) (va : Nat) : Option (List (Nat × Nat)) := match s.chain T 0 0 va 6 with
  | .images (im :: rest) =>
    (s.loadRows T 0 0 (im :: rest) (bits im.header 896 256) ((List.range 32).filter fun j => bits im.header (32 + j) 1 == 1)).map (·.2)
  | _ => none

theorem witness_HandleInstructions_entries :
    (sSn.thread 1 0 0 = (tmSn.ln 0 0).th ∧ sSn.team? 1 = some tmSn ∧ (tmSn.group? 0).isSome = true ∧
      sSn.entryOf (tmSn.ln 0 0) ((tmSn.ln 0 0).handle 2#4) = some entSn ∧ okOf (rstrLane 2#4 (fun _ => (5#32, false)) sSn (tmSn.ln 0 0)) = true ∧
      tmSn.siblingSlot 0 0 = none) ∧
    (sSn2.thread 1 0 0 = (tmSn2.ln 0 0).th ∧ sSn2.team? 1 = some tmSn2 ∧ tmSn2.siblingSlot 0 0 = some 1 ∧
      sSn2.rowFull 0 0 0 th0.rows.toList = false ∧ (sSn2.entryOf (tmSn2.ln 0 0) ((tmSn2.ln 0 0).handle 2#4)).isSome = true ∧
      okOf (sprtLane 1#3 9#8 2#4 (fun _ => (5#32, false)) sSn2 (tmSn2.ln 0 0)) = true) ∧
    (let u : State := { sSn2 with kiln := sSn2.kiln.map fun x => (x.1, { x.2 with count := 255 }) }
     u.rowFull 0 0 0 th0.rows.toList = true ∧ s0.rowFull 0 0 0 th0.rows.toList = false) ∧
    (let keys := (th0.rows.toList.filterMap fun o => o.map fun i => rowKey 0 0 0 i)
     keys.Nodup ∧ ∀ k ∈ keys, (sSn.row k).count < 255) := by decide +kernel

theorem witness_HandleInstructions_images :
    (∀ r ∈ entSn.2.cap.keys 0 0 0, (sSn.row r).pend = 0#8) ∧
    (let u : State := { sSn with kiln := sSn.kiln.map fun x => (x.1, { x.2 with pend := 1#8 }) }
     u.entryOf (tmSn.ln 0 0) ((tmSn.ln 0 0).handle 2#4) = some entSn ∧ ∃ r ∈ entSn.2.cap.keys 0 0 0, (u.row r).pend ≠ 0#8) ∧
    isImages sImg tmSn 0x1000 = true ∧ isImages sImg tmSn 0x2000 = false ∧ (loadedAt sImg tmSn 0x1000).isSome = true ∧
    loadedAt sImg tmPoor 0x1000 = none ∧ (sImg.freeSlot? 0 0).isSome = true := by decide +kernel

/-- Copy on write: a row with one holder, with two, with two and a value on its way, and with two where the budget is spent. -/
theorem witness_HandleInstructions_copies :
    (sSn.team? 1 = some tmSn ∧ ((tmSn.group? 0).map fun G => (G.sub, vget (G.thread 0).rows 0 none, vget (G.thread 0).rows 1 none)) =
      some (0, some 0, some 8)) ∧
    ((sSn.row (rowKey 0 0 0 8)).count ≤ 1 ∧ 2 ≤ (sSn.row (rowKey 0 0 0 0)).count ∧ (sSn.row (rowKey 0 0 0 0)).pend = 0#8) ∧
    (let u : State := { sSn with kiln := sSn.kiln.map fun x => (x.1, { x.2 with pend := 1#8 }) }
     2 ≤ (u.row (rowKey 0 0 0 0)).count ∧ (u.row (rowKey 0 0 0 0)).pend ≠ 0#8) ∧
    sSn.budgetRow? tmSn 0 0 = some 9 ∧ sSn.budgetRow? tmPoor 0 0 = none ∧
    (sSn.actors tmSn iL = [tmSn.ln 0 0] ∧ (∀ n ∈ [1, 2], (sSn.rd (tmSn.ln 0 0) n).poison = false ∧ (tmSn.ln 0 0).key? n = some 0) ∧
      (match sSn.cowAll 1 (rowsOf (sSn.actors tmSn iL) [1]) with | .ok u => u.kiln != sSn.kiln | _ => false) = true) := by decide +kernel

/-- A command with a plan; index arrays of it begin at 0 of the Basin. -/
def cmdOf (p : CmdPlan) : Cmd := s0.newCmd tm0 2 [0] 0#3 0 (.va 0x100) 0 16 p false
def engineOk (g : Except Got (Nat × Nat)) : Bool := match g with | .ok (ia, k) => !s0.cxlDown k && !s0.locked ia 16 | .error _ => false
/-- The same launch in a round of deterministic execution. -/
def sRound : State := { sT with launches := [lDet none] }

theorem witness_CommandEvents_moves :
    (s0.slipOk tm0 (.va 0) 64 = true ∧ s0.slipOk tm0 (.va 0x400) 64 = true ∧ 0 + 4 * 2 ≤ tm0.basinLen ∧
      (∀ k ∈ tm0.basinKeys 0 0 (4 * 2), s0.poisonedAt k = false) ∧ 16 % 16 = 0 ∧ 16 ≤ 16) ∧
    (engineOk (s0.engineIa tm0 0 needR) = true ∧ engineOk (s0.engineIa tm0 0x100 needW) = true ∧ s0.poison = [] ∧
      (cmdOf .coll).opening = none ∧ s0.issuerPending (cmdOf .coll) 0 = false) ∧
    (let c : Cmd := { cmdOf .coll with opening := some [], late := false }
     c.opening = some [] ∧ sRound.detClass tm0 0 = .shared ∧ engineOk (sRound.engineIa tm0 0 needR) = true) ∧
    ((match s0.basinGranule 1 16 3#3 with
        | some (_, keys) => decide keys.Nodup && !s0.issuerHolds (cmdOf .coll) keys && keys.all fun k => !s0.poisonedAt k
        | none => false) = true ∧
      sM.inSlip tm0 0 16 = true ∧ sM.issuerHolds (cmdOf .coll) ((List.range 16).map (slipKey 0 0 + ·)) = false ∧
      sM.poisonedIn (slipKey 0 0) 16 = false) ∧
    (let m : Move := { src := .inr 5#128, dst := .va 0x100, req := none }
     m.req = none ∧ (∀ i, m.dst ≠ .buf i ∧ m.dst ≠ .tab i) ∧
      (match s0.engineRead tm0 (cmdOf .coll) (.va 0) with | .val _ => true | _ => false) = true ∧
      (match s0.engineWrite tm0 3 5#128 m.dst with | .done .. => true | _ => false) = true) ∧
    (cmdOf (.tile (.va 0))).plan = .tile (.va 0) ∧ accReset.poison = [] := by
  refine ⟨by decide +kernel, by decide +kernel, by decide +kernel, by decide +kernel, ⟨rfl, fun i => ⟨nofun, nofun⟩, ?_⟩, rfl, rfl⟩
  decide +kernel

/-- What the step of a lane finds at a queue object, as the machine then knows it; and at a cascade. -/
theorem witness_QueueSteps_home :
    (let k0 := (sQ 0).knowQueue tm0 0
     ((sQ 0).queueAt tm0 accQ).map (fun q => (q.isOver, fine (k0.ringKey tm0 (q.entry q.tail) needW), fine (k0.ringKey tm0 (q.entry q.head) needR))) =
       some (false, true, true) ∧ (match k0.ringKey tm0 0x1000 needW with | .ok (ia, _) => !k0.locked ia 16 | .error _ => false) = true ∧
       fine (k0.ringKey tm0 (2 ^ 57) needW) = false ∧ fine (k0.ringKey tm0 (2 ^ 57) needR) = false) ∧
    (match s0.cascadeAt tm0 0 0 (2 ^ 57) 0 with | .error _ => true | .ok _ => false) = true ∧
    (match s0.cascadeAt tm0 0 0 0x800 0 with | .ok v => v.rung.isNone | .error _ => false) = true ∧
    (match sC.cascadeAt tmC 0 0 0x800 0 with | .ok v => v.rung.isSome | .error _ => false) = true := by decide +kernel

theorem witness_Tasks_partial : 8 ≤ ({ tm0 with depth := 8 } : Team).depth ∧
    ({ sC with packers := [{ part := 0, lnum := 1#32, casc := 0x800#64, rung := 0, items := [itemAt] }] } : State).packers[0]?.isSome = true := by
  decide +kernel

theorem witness_MatrixRecords_unit :
    let b : BRead := { img := makeLive imgI, num := 1#4, kc := 0, cb := 1, panels := [(0, 0)], bad := false }
    let o : MxOp := { opZ with work := .mrd 16#8 0#2 .f32 false none (some 0x3F800000#32) 0 0 }
    (b.bad = false ∧ mxI.cbBad b = false ∧ (∀ c, sM.badProduct c = none) ∧ b.panels.length ≤ 12) ∧
    (let vals : List (Nat × List Word) := [(0, List.replicate 8 0#32), (95, List.replicate 8 0#32)]
     (vals.map (·.1)).Nodup ∧ (∀ x ∈ vals, x.2.length = 8) ∧ 376 + 8 ≤ 384) ∧
    ((sM.slot 0 0#2).i40 = false ∧ (16#8 : VReg).toNat % 8 = 0 ∧ sM.opLanes o = [(ln0, 0)]) ∧
    (∃ k, ln0.key? (16#8 : VReg).toNat = some k) ∧ sM.OwnRows o 16#8 ∧
    (∀ fl, trapsFpx (((sM.team? o.team).map (·.fpen)).getD 0#32) fl = false) := by
  have h : sM.opLanes { opZ with work := .mrd 16#8 0#2 .f32 false none (some 0x3F800000#32) 0 0 } = [(ln0, 0)] := by decide +kernel
  have hk : ln0.key? (16#8 : VReg).toNat = some 2 := by decide +kernel
  refine ⟨⟨rfl, by decide +kernel, fun c => rfl, by decide⟩, by decide +kernel, ⟨by decide +kernel, by decide, h⟩, ⟨_, hk⟩, ?_, ?_⟩
  · unfold State.OwnRows
    rw [h]
    refine ⟨?_, by simp, ?_⟩
    · intro x hx
      rw [List.mem_singleton.mp hx]
      exact ⟨_, hk⟩
    · intro x hx y hy _
      rw [List.mem_singleton.mp hx, List.mem_singleton.mp hy]
  · intro fl
    have : (((sM.team? opZ.team).map (·.fpen)).getD 0#32) = 0#32 := by decide +kernel
    simp [trapsFpx, this]

theorem witness_MatrixUnit_pairs :
    (let T : Team := { tm0 with rdvwd := 5#32 }
     let u : State := { sM with teams := [T] }.setMx 0 (mxQ { opP with waited := 5 })
     T.wdSet ≠ u.gt + 1 ∧ u.pairOver 0 = false) ∧
    ({ s0 with gt := 4096 } : State).ringReady 7 = true := by decide +kernel

theorem witness_MemoryService_wide : (0x10000 : Nat) % 8 = 0 ∧ (0x1FFF8 : Nat) % 8 = 0 ∧ (0x1FFF8 : Nat) < 0x20000 ∧ 0x10000 = 0x10000 + 16 * 0 ∧
    (0 : Nat) / 2 ^ 32 = 0 := by decide

/-- A read of BAR0 that is answered, by the management function and by that of a partition, and one that is not. -/
theorem witness_OutsideRequests_bar0 :
    sInb.bar0Open 0 1 0x10000 = true ∧ sInb.bar0Open 0 0 0x800 = true ∧ sInb.bar0Open 0 2 0x10000 = false ∧ sInb.bar0Open 3 1 0x10000 = false ∧
    (0x10002 : Nat) % 4 ≠ 0 ∧ 7 < 8 ∧ 4095 < slotMax ∧ sInb.inOrder 0 7 = true := by decide +kernel

theorem witness_ResetAndBringup_owners :
    let h : Module := { s0.m with hold := 3#8 }
    (s0.m.mayMove 16 (ownerIn s0.m.linkpart) (ownerIn 0x9888888888888888#64) = false ∧
      s0.m.mayMove 4 (ownerIn s0.m.cxlpart) (ownerIn (0x9888#64 &&& 0xFFFF#64)) = false) ∧
    (let units (y : Dword) : Nat := ((List.range 8).map fun k => y.toNat / 2 ^ (8 * k) % 128).sum
     let y := 0x0140#64 &&& 0x7F7F7F7F7F7F7F7F#64
     let z := 0x013F#64 &&& 0x7F7F7F7F7F7F7F7F#64
     64 < units y ∧ units z ≤ 64 ∧ h.mayMove 64 (unitOwner h.lpdq) (unitOwner z) = true ∧
       s0.m.mayMove 64 (unitOwner s0.m.lpdq) (unitOwner z) = false) ∧
    (∀ k, k < 8 → k ≠ 7 → (0x80#8).getLsbD k = true → s0.m.hold.getLsbD k = true) := by decide +kernel

/-- Registers of a partition written whole and by halves. -/
theorem witness_MailboxAndRegisters_writes :
    (0x1308 % 8 = 0 ∧ 0x130C % 8 = 4 ∧ (0x1308 : Nat) < 0x10000 ∧ 0x20000 ≤ 0x2FFF8) ∧
    (rwFields 0x1308 ≠ [] ∧ rwFields 0x068 ≠ [] ∧ rwFields 0x800 ≠ []) ∧ s0.detInFlight 0 = false ∧
    (regValid 0x1308 5 = true ∧ rwFields 0x018 ≠ [] ∧ regValid 0x018 (2 ^ 16) = false) := by decide +kernel

/-! ## What is said of every instruction and of every step -/

theorem witness_EncodeDecode_word : decode 0x00801C1212000201#64 = .ok (.iadd iL 9#8 9#8 (.imm 1#8) false false) := by rfl

theorem witness_EncodeDecode : (Instr.iadd iL 255#8 0#8 (.imm 0xFF#8) true true).check = none ∧
    (Instr.tret { iG with scope := .group } .subst 3#8).check = none :=
  ⟨by decide, by decide⟩

/-- R22: a step from a state in canonical form writes a byte; see `test_` of stores for what it writes. -/
theorem witness_MemoryCanonical : Memory.wf s0.mem = true ∧ ∃ t, step State.reset = .next t :=
  ⟨by decide +kernel, _, rfl⟩

theorem witness_StoppedModule :
    (let s := { State.reset with m := { State.reset.m with frozen := true } }
     s.m.stopped = true ∧ s.agenda = []) ∧
    (∀ i ∈ [Instr.moduleReset, .mainRailLoss, .readOut 0, .thermalTrip, .freeze],
      let s := { State.reset with m := { State.reset.m with frozen := true }, agenda := [(0, i)] }
      s.m.stopped = true ∧ s.agenda = [(0, i)] ∧ s.m.frozen = true ∧ 0 ≤ s.gt) ∧
    Instr.moduleReset.whileStopped = true ∧ Instr.freeze.whileStopped = false ∧ Instr.freeze ≠ .thermalTrip := by decide +kernel

theorem witness_BringupHasNoTeams : State.reset.m.stage < 4 ∧ State.reset.teams = [] ∧ ∃ t, step State.reset = .next t :=
  ⟨by decide, rfl, _, rfl⟩

end Sys2Proof.Tests
end

section
/-! SUPPORT. O41 fails: `State.OwnRows` asks that the rows behind a destination be distinct, not that they be held (R16), and a word written
to a row that nothing holds is lost. -/

namespace Sys2Proof.Machine

open Sys2Proof

/-! ## A row that nothing holds -/

/-- What is put in a row that nothing holds and nothing will land in is lost: the row is free (R16). -/
theorem State.row_putRow_free (s : State) (k : Nat) {r : Row} (hc : r.count = 0) (hp : r.pend = 0#8) :
    (s.putRow k r).row k = rowDefault := by
  unfold State.putRow State.setRow State.row
  rw [if_pos ⟨hc, hp⟩]
  exact Sparse.get_set_eq rowDefault s.kiln k rowDefault

/-- A free row stays free when a register of it is written. -/
theorem State.row_wr_free {s : State} {t g l n k : Nat} (v : Word) (b : Bool) (h : s.rowAt t g l (n / 8) = some k)
    (hf : s.row k = rowDefault) : (s.wr t g l n v b).row k = rowDefault := by
  rw [State.wr_eq v b h, State.row_modThread]
  exact State.row_putRow_free s k (by rw [hf]; rfl) (by rw [hf]; rfl)

/-! ## What MCHK leaves of it -/

/-- Lanes that move on write no row. -/
theorem State.moveOn_kiln (t : Nat) (ms : List (Nat × List Nat)) (s : State) : (s.moveOn t ms).kiln = s.kiln := by
  unfold State.moveOn
  induction ms generalizing s with
  | nil => rfl
  | cons x ms ih => rw [List.foldl_cons, ih]; rfl

/-- The end of a rendezvous writes no row. -/
theorem State.release_kiln (s : State) (t : Nat) (arr : Arr) (ms : List Nat) : (s.release t arr ms).kiln = s.kiln := by
  cases arr with
  | no => rfl
  | group => exact State.stopTimers_kiln t ms s
  | set cv => rfl
  | team cv => rfl

/-- Members that go on after the unit has performed their instruction write no row. -/
theorem State.resume_kiln (s : State) (o : MxOp) : (s.resume o).kiln = s.kiln := by
  have moved : s.resume o =
      (s.moveOn o.team (o.members.map fun x => (x.1, lanesOf x.2))).release o.team o.arr (o.members.map (·.1)) := by
    unfold State.resume State.moveOn
    rw [List.foldl_map]
  rw [moved, State.release_kiln, State.moveOn_kiln]

/-- An MCHK of one lane whose destination lies in a free row leaves the row free: the status word is lost. -/
theorem State.row_finishMchk_free {s : State} {core : Nat} {o : MxOp} {d : VReg} {a : SlotN} {ln : Ln} {e k : Nat}
    (hl : s.opLanes o = [(ln, e)]) (h : s.rowAt ln.t ln.g ln.l (d.toNat / 8) = some k) (hf : s.row k = rowDefault) :
    (s.finishMchk core o d a false).row k = rowDefault := by
  have written := State.row_wr_free (vget (s.mxOf core).slots a.toNat accReset).status false h hf
  unfold State.finishMchk
  rw [hl]
  unfold State.row at written ⊢
  rw [State.resume_kiln]
  exact written

/-! ## A machine in which it happens -/

/-- The team of the bench, slot 0 of its core with FAIL set, and a Kiln in which the rows that its thread names are free. -/
def freeRowState : State :=
  { State.reset with
    teams := [benchTeam 1 .no],
    mx := [(0, { mxReset with slots := vset mxReset.slots 0 { accReset with fail := true } })] }

/-- MCHK V0 of slot 0, without CLR, for the one lane of the team. -/
def freeRowCheck : MxOp :=
  { team := 1, pc := 0#32, arr := .group, members := [(0, 1#32)], work := .mchk 0#8 0#2 false, cycles := 1, time := 0, after := 0,
    waited := 0, skipped := 0, failed := false, held := false, again := 0 }

/-- Its lane. -/
def freeRowLane : Ln := (benchTeam 1 .no).ln 0 0

theorem freeRowState_opLanes : freeRowState.opLanes freeRowCheck = [(freeRowLane, 0)] := by decide +kernel

theorem freeRowLane_key : freeRowLane.key? 0 = some 0 := by decide +kernel

theorem freeRowState_rowAt : freeRowState.rowAt freeRowLane.t freeRowLane.g freeRowLane.l 0 = some 0 := by decide +kernel

/-- The lane has a row of its own in the sense of the statement. -/
theorem freeRowState_ownRows : freeRowState.OwnRows freeRowCheck 0#8 := by
  unfold State.OwnRows
  rw [freeRowState_opLanes]
  refine ⟨?_, List.nodup_cons.mpr ⟨List.not_mem_nil, List.nodup_nil⟩, ?_⟩
  · intro x hx
    rw [List.mem_singleton.mp hx]
    exact ⟨0, freeRowLane_key⟩
  · intro x hx y hy _
    rw [List.mem_singleton.mp hx, List.mem_singleton.mp hy]

/-- The status word that the MCHK reads: FAIL alone (R243). -/
theorem freeRowState_status : (freeRowState.slot 0 0#2).status = 0x10000#32 := by decide +kernel

/-- V0 of the lane reads 0 once the unit has performed the MCHK. -/
theorem freeRowState_opReg : (freeRowState.finishWork 0 freeRowCheck).opReg freeRowLane 0 = some 0#32 := by
  have free : (freeRowState.finishWork 0 freeRowCheck).row 0 = rowDefault :=
    State.row_finishMchk_free freeRowState_opLanes freeRowState_rowAt rfl
  unfold State.opReg
  rw [freeRowLane_key, Option.map_some, free]
  rfl

end Sys2Proof.Machine

open Sys2Proof Sys2Proof.Machine

/-- Refutes O41, by its clause on MCHK: where the row behind the destination of a lane is held by nothing (count 0, no register pending),
`State.putRow` frees it again, and the lane reads 0 in place of the status word. `UnitLeaves` asks of the rows only that they be
there and distinct (`State.OwnRows`), not that they be held, as `State.owns` does elsewhere. -/
theorem not_matrixRecords : ¬ Obligations.MatrixRecords := by
  unfold Obligations.MatrixRecords
  rintro ⟨unit, -⟩
  obtain ⟨-, -, -, -, -, -, -, mchk⟩ := unit freeRowState 0 freeRowCheck
  obtain ⟨status, -⟩ := mchk 0#8 0#2 false rfl freeRowState_ownRows
  have reads : some 0#32 = some 0x10000#32 := by
    calc some 0#32 = (freeRowState.finishWork 0 freeRowCheck).opReg freeRowLane 0 := freeRowState_opReg.symm
      _ = some (freeRowState.slot 0 0#2).status := status freeRowLane 0 (by rw [freeRowState_opLanes]; exact List.mem_singleton_self _)
      _ = some 0x10000#32 := by rw [freeRowState_status]
  exact absurd reads (by decide)
end

section
/-! SUPPORT. Software traps: what a fault that every executing lane raises comes to (R51, R355), and when a user trap enters the handler
at once (R353, R355). -/

namespace Sys2Proof.Machine

open Sys2Proof

/-! ## Lanes that fault and stay -/

/-- The lanes of the cursor but for those that stay move on, and the rendezvous is over. -/
theorem State.retire_eq (s : State) (stay : List (Nat × Nat)) : s.retire stay =
    (s.moveOn s.cur.team (s.cur.members.map fun x => (x.1, (lanesOf x.2).filter fun l => !stay.contains (x.1, l)))).release
      s.cur.team s.cur.arr (s.cur.members.map (·.1)) := by
  unfold State.retire State.moveOn
  rw [List.foldl_map]

/-- The end of a rendezvous at L or G scope stops timers only. -/
theorem State.Near.release {arr : Arr} (t : Nat) (ms : List Nat) (s : State) (h : arr.cv? = none) : s.Near t (s.release t arr ms) := by
  cases arr with
  | no => exact .refl t s
  | group => exact .stopTimers t ms s
  | set cv => cases h
  | team cv => cases h

theorem State.Near.retire {s : State} (h : s.cur.arr.cv? = none) (stay : List (Nat × Nat)) : s.Near s.cur.team (s.retire stay) := by
  rw [State.retire_eq]
  exact (State.Near.moveOn _ _ s).trans (.release _ _ _ h)

/-- Of faults that are all one, that one is delivered. -/
theorem worstOf_same {c : Code} {cs : List Code} (h : ∀ x ∈ cs, x = c) (hne : cs ≠ []) : worstOf cs = some c := by
  obtain ⟨x, cs, rfl⟩ := List.exists_cons_of_ne_nil hne
  obtain rfl : x = c := h x List.mem_cons_self
  have none_of {k : Class} (hk : x.cls ≠ k) : (x :: cs).find? (·.cls == k) = none := by
    rw [List.find?_eq_none]
    intro y hy he
    rw [h y hy] at he
    exact hk (eq_of_beq he)
  have first {k : Class} (hk : x.cls = k) : (x :: cs).find? (·.cls == k) = some x :=
    List.find?_cons_of_pos (by rw [hk]; exact beq_self_eq_true k)
  unfold worstOf
  cases hc : x.cls with
  | team => rw [first hc, Option.some_or]
  | system => rw [none_of (by rw [hc]; decide), first hc, Option.none_or, Option.some_or]
  | user => rw [none_of (by rw [hc]; decide), none_of (by rw [hc]; decide), Option.none_or, Option.none_or, List.head?_cons]

/-- The same of lanes' results that are all bad with one fault. -/
theorem worstOf_results {c : Code} {rs : List (Ln × Res)} (h : ∀ x ∈ rs, x.2.bad = some c) (hne : rs ≠ []) :
    worstOf (rs.filterMap (·.2.bad)) = some c := by
  refine worstOf_same (fun y hy => ?_) fun hnil => ?_
  · obtain ⟨x, hx, hy⟩ := List.mem_filterMap.mp hy
    rw [h x hx] at hy
    exact (Option.some.inj hy).symm
  · obtain ⟨x, hx⟩ := List.exists_mem_of_ne_nil rs hne
    have hx' := List.filterMap_eq_nil_iff.mp hnil x hx
    rw [h x hx] at hx'
    cases hx'

/-- A fold whose steps all leave its start as it was ends there. -/
theorem foldl_of_fixed {α β : Type} {f : β → α → β} {u : β} (l : List α) (h : ∀ x ∈ l, f u x = u) : l.foldl f u = u := by
  induction l with
  | nil => rfl
  | cons x l ih =>
    rw [List.foldl_cons, h x List.mem_cons_self]
    exact ih fun y hy => h y (List.mem_cons_of_mem x hy)

/-- An instruction that names no register and raises one fault in every executing lane: nothing is written, those lanes stay, the others
go on, and the fault is raised. -/
theorem State.perLane_raises {s : State} {T : Team} (hT : s.team? s.cur.team = some T) {i : Iss} {c : Code} (hc : c ≠ .fpx)
    (hacts : s.actors T i ≠ []) : s.perLane i {} (fun _ _ => { bad := some c }) =
      .next (s.raising T.id ((s.cur.members.head?.map (·.1)).getD 0)
        ((s.retire ((s.actors T i).map fun ln => (ln.g, ln.l))).raise (s.faultOf c (s.actors T i) {}))) := by
  have hnull : nullLanes (s.actors T i) [] = [] := nullLanes_nil fun _ _ _ h => nomatch h
  have hfpx : (some c == some Code.fpx) = false := beq_eq_false_iff_ne.mpr fun h => hc (Option.some.inj h)
  -- the lanes with their results, which are all bad with `c`
  obtain ⟨rs, hrs⟩ : ∃ rs, rs = (s.actors T i).map fun ln => (ln, s.resultOf T {} (fun _ _ => { bad := some c }) ln) := ⟨_, rfl⟩
  have hbad : ∀ x ∈ rs, x.2.bad = some c := by
    intro x hx
    rw [hrs] at hx
    obtain ⟨ln, -, rfl⟩ := List.mem_map.mp hx
    rfl
  have hlanes : rs.map (·.1) = s.actors T i := by
    rw [hrs, List.map_map]
    exact List.map_id _
  have hworst : worstOf (rs.filterMap (·.2.bad)) = some c := by
    refine worstOf_results hbad fun h => hacts ?_
    rw [← hlanes, h]
    rfl
  have hholders : (rs.filter fun x => x.2.bad.isNone || x.2.bad == some .fpx) = [] := by
    rw [List.filter_eq_nil_iff]
    intro x hx
    rw [hbad x hx, hfpx]
    exact fun h => nomatch h
  have hcow : s.cowAll T.id (rowsOf ([] : List Ln) []) = .ok s := rfl
  have hfold : rs.foldl (fun s1 x =>
      if x.2.bad.isNone then s1.put x.1 x.2 (s.tainted x.1 {}) (s.unknown x.1 {})
      else if x.2.bad == some Code.fpx && some c == some Code.fpx then
        s1.modThread x.1.t x.1.g x.1.l fun th => th.orFlags x.2.flags
      else s1) s = s := by
    refine foldl_of_fixed rs fun x hx => ?_
    rw [hbad x hx, hfpx]
    rfl
  have hstay : (rs.filter fun x => x.2.bad.isSome || x.2.hold.isSome) = rs := by
    rw [List.filter_eq_self]
    intro x hx
    rw [hbad x hx]
    rfl
  have hhit : (rs.filter fun x => x.2.bad == some c) = rs := by
    rw [List.filter_eq_self]
    intro x hx
    rw [hbad x hx]
    exact beq_self_eq_true _
  have hstays : (rs.map fun x => (x.1.g, x.1.l)) = (s.actors T i).map fun ln => (ln.g, ln.l) := by
    rw [← hlanes, List.map_map]
    rfl
  unfold State.perLane
  simp only [hT, List.append_nil, hnull, List.isEmpty_nil, Bool.not_true, Bool.false_eq_true, if_false, ← hrs, hworst, hholders,
    List.map_nil, hcow, hfold, hstay, hhit, hlanes, hstays]

/-! ## A user trap that enters the handler -/

/-- The group takes a user trap: its team runs with a handler set, and it is neither in a handler nor waiting to enter one (R353, R355). -/
structure State.TrapsIn (s : State) (t g : Nat) (T : Team) (G : Group) : Prop where
  team : s.team? t = some T
  group : T.group? g = some G
  runs : T.st = .run
  vector : T.trapvec ≠ 0#32
  handler : G.handler = none
  trap : G.trap = none

theorem State.TrapsIn.group? {s : State} {t g : Nat} {T : Team} {G : Group} (h : s.TrapsIn t g T G) : s.group? t g = some G := by
  unfold State.group?
  rw [h.team]
  exact h.group

/-- It still does when threads have moved on. -/
theorem State.TrapsIn.near {s u : State} {t g : Nat} {T : Team} {G : Group} (h : s.TrapsIn t g T G) (hn : s.Near t u) :
    ∃ T' G', u.TrapsIn t g T' G' := by
  obtain ⟨T', hT', eT⟩ := hn.team T h.team
  rcases hn.group g with ⟨hG, -⟩ | ⟨G₀, G', hG, hG', near⟩
  · rw [h.group?] at hG; cases hG
  · rw [h.group?] at hG
    cases hG
    refine ⟨T', G', hT', ?_, ?_, ?_, ?_, ?_⟩
    · unfold State.group? at hG'
      rw [hT'] at hG'
      exact hG'
    · rw [eT]; exact h.runs
    · rw [eT]; exact h.vector
    · rw [near.eq]; exact h.handler
    · rw [near.eq]; exact h.trap

/-- A user trap of a group that takes it enters the handler where an entry is to be had (R353, R355). -/
theorem State.raise_enters {s t : State} {r : Raise} {T : Team} {G : Group} (h : s.TrapsIn r.t r.g T G) (hc : r.code.cls = .user)
    (he : s.enterHandler r = .ok t) : s.raise r = t := by
  have takes : s.takes r.t r.code.cls = true := by
    unfold State.takes
    simp only [h.team, h.runs]
  have delivered : s.deliverFault r = t := by
    unfold State.deliverFault
    simp [hc, h.team, h.group?, h.vector, h.handler, h.trap, he]
  unfold State.raise
  rw [if_pos takes, delivered]

/-- Outside speculation a fault is delivered (R362). -/
theorem State.raising_of_no_spec {s d : State} {t g : Nat} {G : Group} (hG : s.group? t g = some G) (h : G.spec = none) :
    s.raising t g d = d := by
  unfold State.raising
  rw [hG, Option.bind_some, h]

/-- The fault of a word of L or G scope is its group's (R101). -/
theorem State.AtLane.faultOf_eq {s : State} {T : Team} {g : Nat} {m : BitVec 32} (h : s.AtLane T g m) (hm : m ≠ 0#32) (c : Code)
    (lns : List Ln) : s.faultOf c lns {} =
      { code := c, t := T.id, g, lanes := lanesIn g lns, pc := s.cur.pc, arr := s.cur.arr, members := [g] } := by
  unfold State.faultOf
  simp [h.here, hm, State.team?_id h.team]

/-! ## TRAP, BKPT and words that are no instruction -/

/-- A user trap that an instruction of L or G scope raises in every executing lane: the lanes that raise it stay at the word, the others
go on, and the group enters the handler. -/
theorem State.perLane_enters {s t : State} {T : Team} {g : Nat} {m : BitVec 32} {G : Group} (h : s.AtLane T g m)
    (htraps : s.TrapsIn T.id g T G) (hs : G.spec = none) {i : Iss} {c : Code} (hc : c.cls = .user) (hf : c ≠ .fpx)
    (hacts : s.actors T i ≠ []) (hm : m ≠ 0#32)
    (he : (s.retire ((s.actors T i).map fun ln => (ln.g, ln.l))).enterHandler
      { code := c, t := T.id, g, lanes := lanesIn g (s.actors T i), pc := s.cur.pc, arr := s.cur.arr, members := [g] } = .ok t) :
    s.perLane i {} (fun _ _ => { bad := some c }) = .next t := by
  have near := State.Near.retire h.scope ((s.actors T i).map fun ln => (ln.g, ln.l))
  rw [← State.team?_id h.team] at near
  obtain ⟨T', G', htraps'⟩ := htraps.near near
  rw [State.perLane_raises h.team hf hacts, h.faultOf_eq hm, State.raise_enters htraps' hc he]
  simp only [h.here, List.head?_cons, Option.map_some, Option.getD_some, State.raising_of_no_spec htraps.group? hs]

/-- A word that is no instruction raises ILLOP in every thread that reaches it, and none goes on. -/
theorem execIllop_enters {s t : State} {T : Team} {g : Nat} {m : BitVec 32} {G : Group} (w : Dword) (h : s.AtLane T g m)
    (htraps : s.TrapsIn T.id g T G) (hs : G.spec = none) (hm : m ≠ 0#32)
    (he : s.enterHandler
      { code := .illop, t := T.id, g, lanes := lanesIn g (s.members T), pc := s.cur.pc, arr := s.cur.arr, members := [g] } = .ok t) :
    execIllop w s = .next t := by
  unfold execIllop
  simp only [h.team, h.faultOf_eq hm, State.raise_enters htraps rfl he]
  simp only [h.here, List.head?_cons, Option.map_some, Option.getD_some, State.raising_of_no_spec htraps.group? hs]

/-- TRAP raises SWTRAP in the lanes whose guard passes (R275). -/
theorem exec_trap (i : Iss) (s : State) : exec (.trap i) s = s.perLane i {} fun _ _ => { bad := some .swtrap } := rfl

/-- BKPT raises BKPT there (R275). -/
theorem exec_bkpt (i : Iss) (s : State) : exec (.bkpt i) s = s.perLane i {} fun _ _ => { bad := some .bkpt } := rfl

theorem exec_illop (w : Dword) (s : State) : exec (.illop w) s = execIllop w s := rfl

end Sys2Proof.Machine

open Sys2Proof Sys2Proof.Machine

/-- Settles O14: lanes that raise a trap write nothing, and the others that go on leave the team, its vector and the group's handler as
they were (`State.Near`), so that the trap, a user one, is delivered by entering the handler. -/
theorem softwareTraps : Obligations.SoftwareTraps := by
  unfold Obligations.SoftwareTraps
  intro i w s T g m G hat hG runs vector handler trap spec
  have team : s.team? T.id = some T := by
    rw [State.team?_id hat.team]
    exact hat.team
  have htraps : s.TrapsIn T.id g T G := ⟨team, hG, runs, vector, handler, trap⟩
  refine ⟨fun t acts hm he => ?_, fun t acts hm he => ?_, fun t hm he => ?_⟩
  · rw [exec_trap]
    exact State.perLane_enters hat htraps spec rfl (by decide) acts hm he
  · rw [exec_bkpt]
    exact State.perLane_enters hat htraps spec rfl (by decide) acts hm he
  · rw [exec_illop]
    exact execIllop_enters w hat htraps spec hm he
end

section
/-! SUPPORT. Integer, logic and predicate instructions (R107 to R119): what their operations compute, in the words of the statements, and
the shapes of lane by lane instructions that read C in other ways than `State.opC`, `State.opAC` and `State.opABC` do. -/

namespace Sys2Proof.Machine

open Sys2Proof

/-! ## Words as integers (R103, R109 to R111) -/

/-- A word read as an integer and stored again is itself. -/
@[simp] theorem ofInt_readInt (sgn : Bool) (x : Word) : BitVec.ofInt 32 (readInt sgn x) = x := by
  cases sgn with
  | true => exact BitVec.ofInt_toInt
  | false => exact (BitVec.ofInt_natCast 32 x.toNat).trans (BitVec.ofNat_toNat 32 x |>.trans (BitVec.setWidth_eq x))

/-- The lesser of two words is the lesser integer stored. -/
theorem ite_le_eq_min (sgn : Bool) (x y : Word) :
    (if readInt sgn x ≤ readInt sgn y then x else y) = BitVec.ofInt 32 (min (readInt sgn x) (readInt sgn y)) := by
  rw [Int.min_def, apply_ite (BitVec.ofInt 32), ofInt_readInt, ofInt_readInt]

/-- The greater of two words is the greater integer stored. -/
theorem ite_le_eq_max (sgn : Bool) (x y : Word) :
    (if readInt sgn x ≤ readInt sgn y then y else x) = BitVec.ofInt 32 (max (readInt sgn x) (readInt sgn y)) := by
  rw [Int.max_def, apply_ite (BitVec.ofInt 32), ofInt_readInt, ofInt_readInt]

/-- Dividing by 2^32 rounds down, so that the quotient is the upper word of the number mod 2^64, for negative numbers too. -/
theorem ofInt_div_eq_upperWord (p : Int) : BitVec.ofInt 32 (p / 2 ^ 32) = (BitVec.ofInt 64 p >>> 32).setWidth 32 := by
  apply BitVec.eq_of_toNat_eq
  simp only [BitVec.toNat_ofInt, BitVec.toNat_setWidth, BitVec.toNat_ushiftRight, Nat.shiftRight_eq_div_pow]
  omega

theorem mulhOp_eq (sgn : Bool) (a c : Word) :
    mulhOp sgn a c = (BitVec.ofInt 64 (readInt sgn a * readInt sgn c) >>> 32).setWidth 32 := ofInt_div_eq_upperWord _

theorem divRem_of_zero {sgn : Bool} {a c : Word} (h : readInt sgn c = 0) : divRem sgn a c = (0, readInt sgn a, true) :=
  if_pos (beq_iff_eq.mpr h)

theorem divRem_of_ne_zero {sgn : Bool} {a c : Word} (h : readInt sgn c ≠ 0) :
    divRem sgn a c = ((readInt sgn a).tdiv (readInt sgn c), (readInt sgn a).tmod (readInt sgn c), false) :=
  if_neg fun h' => h (beq_iff_eq.mp h')

theorem divRem_quotient (sgn : Bool) (a c : Word) : BitVec.ofInt 32 (divRem sgn a c).1 =
    if readInt sgn c = 0 then 0#32 else BitVec.ofInt 32 ((readInt sgn a).tdiv (readInt sgn c)) := by
  split
  · next h => rw [divRem_of_zero h]; rfl
  · next h => rw [divRem_of_ne_zero h]

theorem divRem_remainder (sgn : Bool) (a c : Word) : BitVec.ofInt 32 (divRem sgn a c).2.1 =
    if readInt sgn c = 0 then a else BitVec.ofInt 32 ((readInt sgn a).tmod (readInt sgn c)) := by
  split
  · next h => rw [divRem_of_zero h]; exact ofInt_readInt sgn a
  · next h => rw [divRem_of_ne_zero h]

theorem divRem_byZero (sgn : Bool) (a c : Word) : (divRem sgn a c).2.2 = decide (readInt sgn c = 0) := by
  by_cases h : readInt sgn c = 0
  · rw [divRem_of_zero h, decide_eq_true h]
  · rw [divRem_of_ne_zero h, decide_eq_false h]

/-! ## Shifts and bits (R112) -/

/-- Shifting left by 32 leaves nothing, as every greater amount does. -/
theorem shlOp_eq (a c : Word) : shlOp a c = a <<< min (c.toNat % 256) 32 := by
  show (if c.toNat % 256 ≥ 32 then 0#32 else a <<< (c.toNat % 256)) = _
  split
  · next h => rw [Nat.min_eq_right h, BitVec.shiftLeft_eq_zero (Nat.le_refl 32)]
  · next h => rw [Nat.min_eq_left (Nat.le_of_not_ge h)]

/-- Shifting right by 32 leaves nothing, as every greater amount does. -/
theorem shrOp_eq (a c : Word) : shrOp a c = a >>> min (c.toNat % 256) 32 := by
  show (if c.toNat % 256 ≥ 32 then 0#32 else a >>> (c.toNat % 256)) = _
  split
  · next h => rw [Nat.min_eq_right h, BitVec.ushiftRight_eq_zero (Nat.le_refl 32)]
  · next h => rw [Nat.min_eq_left (Nat.le_of_not_ge h)]

/-- An arithmetic shift by all the bits but the sign leaves copies of the sign, as a shift by all of them does. -/
theorem sshiftRight_31_eq_32 (a : Word) : a.sshiftRight 31 = a.sshiftRight 32 := by
  refine BitVec.eq_of_getLsbD_eq fun j _ => ?_
  rw [BitVec.getLsbD_sshiftRight, BitVec.getLsbD_sshiftRight, if_neg (Nat.not_lt.mpr (Nat.le_add_right 32 j))]
  split
  · next h => rw [show j = 0 by omega, BitVec.msb_eq_getLsbD_last]
  · rfl

theorem sarOp_eq (a c : Word) : sarOp a c = a.sshiftRight (min (c.toNat % 256) 32) := by
  unfold sarOp
  rcases Nat.lt_or_ge (c.toNat % 256) 32 with h | h
  · rw [Nat.min_eq_left (Nat.le_of_lt_succ h), Nat.min_eq_left (Nat.le_of_lt h)]
  · rw [Nat.min_eq_right (Nat.le_of_succ_le h), Nat.min_eq_right h, sshiftRight_31_eq_32]

/-- The first `k` steps of a reversal have placed the bits below `k`. -/
theorem bitReverse_fold {n : Nat} (x : BitVec n) (k : Nat) {j : Nat} (hj : j < n) :
    ((List.range k).foldl (fun r i => if x.getLsbD (n - 1 - i) then r ||| (1#n <<< i) else r) 0#n).getLsbD j =
      (decide (j < k) && x.getLsbD (n - 1 - j)) := by
  induction k with
  | zero => simp
  | succ k ih =>
    rw [List.range_succ, List.foldl_append, List.foldl_cons, List.foldl_nil]
    by_cases hne : j = k
    · subst hne
      have placed : (1#n <<< j).getLsbD j = true := by
        rw [← BitVec.twoPow_eq, BitVec.getLsbD_twoPow]
        simp [hj]
      cases hx : x.getLsbD (n - 1 - j) <;> simp [ih, placed, hx]
    · have other : (1#n <<< k).getLsbD j = false := by
        rw [← BitVec.twoPow_eq, BitVec.getLsbD_twoPow]
        simp [Ne.symm hne]
      have same : decide (j < k + 1) = decide (j < k) := decide_eq_decide.mpr (by omega)
      rw [same, ← ih]
      split
      · rw [BitVec.getLsbD_or, other, Bool.or_false]
      · rfl

theorem bitReverse_eq_reverse {n : Nat} (x : BitVec n) : bitReverse x = x.reverse := by
  refine BitVec.eq_of_getLsbD_eq fun j hj => ?_
  rw [BitVec.getLsbD_reverse, BitVec.getMsbD_eq_getLsbD]
  exact bitReverse_fold x n hj

/-! ## Comparisons and predicates (R117, R119) -/

theorem icmpOp_eq (sgn : Bool) (a c : Word) : icmpOp .eq sgn a c = decide (readInt sgn a = readInt sgn c) :=
  Bool.beq_eq_decide_eq _ _

theorem icmpOp_ne (sgn : Bool) (a c : Word) : icmpOp .ne sgn a c = decide (readInt sgn a ≠ readInt sgn c) := by
  show (!(readInt sgn a == readInt sgn c)) = _
  rw [Bool.beq_eq_decide_eq, decide_not]

/-- A predicate as a binary digit of an index. -/
theorem ite_one_zero_eq_toNat (b : Bool) : (if b then 1 else 0) = b.toNat := (Bool.cond_eq_ite b 1 0).symm

/-- PMOV.put writes each predicate once. -/
theorem pmovBits_nodup (mask : BitVec 7) (x : Word) : ((pmovBits mask x).map (·.1)).Nodup := by
  have names : (pmovBits mask x).map (·.1) = ((List.range 7).filter fun k => mask.getLsbD k).map fun k => BitVec.ofNat 3 k := by
    unfold pmovBits
    rw [List.map_map]
    rfl
  have all : ((List.range 7).map fun k => BitVec.ofNat 3 k).Nodup := by decide
  rw [names]
  exact all.sublist (List.filter_sublist.map _)

/-! ## Instructions that read C in other ways -/

/-- A result that its lane can write as it stands: no fault, no wait, each register and predicate once, no v register but the destinations. -/
structure Res.Within (r : Res) (n : Names) : Prop where
  hold : r.hold = none
  bad : r.bad = none
  regs : (r.v.map (·.1)).Nodup
  preds : (r.q.map (·.1)).Nodup
  dst : ∀ x ∈ r.v, x.1 ∈ n.dst

theorem Res.reg_within (d : VReg) (x : Word) {n : Names} (h : n.dst = [d.toNat]) : (Res.reg d x).Within n :=
  ⟨rfl, rfl, List.pairwise_singleton _ _, List.nodup_nil, by simp [Res.reg, h]⟩

theorem Res.pair_within (src : List Nat) (d : VReg) (x : Dword) : (Res.pair d x).Within (.toPair src d) :=
  ⟨rfl, rfl, by simp [Res.pair], List.nodup_nil, by simp [Res.pair, Names.toPair]⟩

theorem Res.Within.setIdz {r : Res} {n : Names} (h : r.Within n) (z : Bool) : { r with idz := z }.Within n :=
  ⟨h.hold, h.bad, h.regs, h.preds, h.dst⟩

theorem Res.pred_within (d : PReg) (b : Bool) (n : Names) : (Res.pred d b).Within n :=
  ⟨rfl, rfl, List.nodup_nil, List.pairwise_singleton _ _, fun _ h => nomatch h⟩

/-- An instruction that makes its result of what it reads at C; where C cannot be read it raises ILLOP (R101), and nothing is said of it. -/
theorem RunsLanes.ofRead {α : Type} {ins : Instr} {i : Iss} {n : Names} {c : COp} {read : State → Team → Ln → Option α} {dflt : α}
    {F : State → Team → Ln → Res} {G : State → Ln → α → Res} (hx : ∀ s, exec ins s = s.perLane i n (F s))
    (hG : ∀ s ln x, (G s ln x).Within n) (hF : ∀ s T ln x, read s T ln = some x → F s T ln = (G s ln x).reading s T c) :
    RunsLanes ins i n (fun s T ln => (read s T ln).isSome = true) fun s T ln => (G s ln ((read s T ln).getD dflt)).reading s T c := by
  refine RunsLanes.of hx fun s T ln _ ok => ?_
  obtain ⟨x, hread⟩ := Option.isSome_iff_exists.mp ok
  have h := hG s ln x
  rw [hread]
  exact ⟨hF s T ln x hread, Res.plain_of h.hold h.regs h.preds, h.bad, h.dst⟩

/-- The same, where C is read as a word. -/
theorem RunsLanes.ofWord {ins : Instr} {i : Iss} {n : Names} {c : COp} {e : Ext} {F : State → Team → Ln → Res}
    {G : State → Ln → Word → Res} (hx : ∀ s, exec ins s = s.perLane i n (F s)) (hG : ∀ s ln x, (G s ln x).Within n)
    (hF : ∀ s T ln x, s.cval T ln e c = some x → F s T ln = (G s ln x).reading s T c) :
    RunsLanes ins i n (CanRead e c) fun s T ln => (G s ln (s.cword T ln e c)).reading s T c :=
  RunsLanes.ofRead hx hG hF

/-- An instruction that reads no C. -/
theorem RunsLanes.ofNoC {ins : Instr} {i : Iss} {n : Names} {F : State → Ln → Res}
    (hx : ∀ s, exec ins s = s.perLane i n fun _ ln => F s ln) (hF : ∀ s ln, (F s ln).Within n ∧ (F s ln).latch = id) :
    RunsLanes ins i n Always fun s _ ln => F s ln := by
  refine RunsLanes.of hx fun s T ln _ _ => ?_
  obtain ⟨h, hl⟩ := hF s ln
  exact ⟨rfl, Res.plain_id hl h.hold h.regs h.preds, h.bad, h.dst⟩

end Sys2Proof.Machine

open Sys2Proof Sys2Proof.Machine

/-- Settles O1: each instruction has one of the shared shapes; the upper word of a product, the lesser and the greater of two words and
the wrapped sum of IMADW are said in the words of the statement. -/
theorem integerArithmetic : Obligations.IntegerArithmetic := by
  unfold Obligations.IntegerArithmetic
  intro i d a b c' c sgn sat
  refine ⟨?iadd, ?isub, ?imul, ?imulh, ?imad, ?imadw, ?iaddw, ?imin, ?imax, ?iabs⟩
  case iadd => exact .opAC (f := fun x y => fit sgn sat (readInt sgn x + readInt sgn y)) fun _ => rfl
  case isub => exact .opAC (f := fun x y => fit sgn sat (readInt sgn x - readInt sgn y)) fun _ => rfl
  case imul => exact .opAC (f := fun x y => fit sgn sat (readInt sgn x * readInt sgn y)) fun _ => rfl
  case imulh =>
    simp only [← mulhOp_eq]
    exact .opAC fun _ => rfl
  case imad => exact .opABC (f := fun x y z => fit sgn sat (readInt sgn x * readInt sgn y + readInt sgn z)) fun _ => rfl
  case imadw =>
    simp only [← BitVec.ofInt_natCast, ← BitVec.ofInt_add]
    exact .ofNoC (fun _ => rfl) fun s ln => ⟨Res.pair_within _ d _, rfl⟩
  case iaddw =>
    exact .ofRead (G := fun s ln y => Res.pair d (fit64 sgn sat
        ((if sgn then (BitVec.ofNat 64 (s.rdPair ln a.toNat)).toInt else s.rdPair ln a.toNat) + y)))
      (fun _ => rfl) (fun s ln y => Res.pair_within _ d _) fun s T ln y h => by rw [h]; rfl
  case imin =>
    simp only [← ite_le_eq_min]
    exact .opAC (f := fun x y => if readInt sgn x ≤ readInt sgn y then x else y) fun _ => rfl
  case imax =>
    simp only [← ite_le_eq_max]
    exact .opAC (f := fun x y => if readInt sgn x ≤ readInt sgn y then y else x) fun _ => rfl
  case iabs => exact .opC (f := fun x => fit true sat x.toInt.natAbs) fun _ => rfl

/-- Settles O2: both instructions write a part of `divRem`, whose third part is the flag. -/
theorem integerDivision : Obligations.IntegerDivision := by
  unfold Obligations.IntegerDivision
  intro i d a c sgn
  constructor
  case left =>
    refine (RunsLanes.ofWord (G := fun s ln y => { Res.reg d (BitVec.ofInt 32 (divRem sgn (s.v ln a) y).1) with
        idz := (divRem sgn (s.v ln a) y).2.2 })
      (fun _ => rfl) (fun s ln y => (Res.reg_within d _ rfl).setIdz _) fun s T ln y h => by rw [h]; rfl).eq ?_
    funext s T ln
    rw [divRem_quotient, divRem_byZero]
    rfl
  case right =>
    refine (RunsLanes.ofWord (G := fun s ln y => { Res.reg d (BitVec.ofInt 32 (divRem sgn (s.v ln a) y).2.1) with
        idz := (divRem sgn (s.v ln a) y).2.2 })
      (fun _ => rfl) (fun s ln y => (Res.reg_within d _ rfl).setIdz _) fun s T ln y h => by rw [h]; rfl).eq ?_
    funext s T ln
    rw [divRem_remainder, divRem_byZero]
    rfl

/-- Settles O3: each instruction has one of the shared shapes; the shifts and the reversal are said in the words of the statement. -/
theorem logicAndBits : Obligations.LogicAndBits := by
  unfold Obligations.LogicAndBits
  constructor
  case left =>
    intro i d a b c sh p neg
    refine ⟨?mov, ?and, ?or, ?xor, ?andn, ?shl, ?shr, ?sar, ?rot, ?shf, ?lea, ?isel⟩
    case mov => exact .opC (f := id) fun _ => rfl
    case and => exact .opAC (f := fun x y => x &&& y) fun _ => rfl
    case or => exact .opAC (f := fun x y => x ||| y) fun _ => rfl
    case xor => exact .opAC (f := fun x y => x ^^^ y) fun _ => rfl
    case andn => exact .opAC (f := fun x y => x &&& ~~~y) fun _ => rfl
    case shl =>
      simp only [← shlOp_eq]
      exact .opAC fun _ => rfl
    case shr =>
      simp only [← shrOp_eq]
      exact .opAC fun _ => rfl
    case sar =>
      simp only [← sarOp_eq]
      exact .opAC fun _ => rfl
    case rot => exact .opAC (f := rotOp) fun _ => rfl
    case shf => exact .opABC (f := shfOp) fun _ => rfl
    case lea => exact .opAC (f := fun x y => (x <<< sh.toNat) + y) fun _ => rfl
    case isel =>
      refine .ofWord (G := fun s ln y => Res.reg d (if ln.th.q p = neg then y else s.v ln a)) (fun _ => rfl)
        (fun s ln y => Res.reg_within d _ rfl) fun s T ln y h => ?_
      simp only [h, bne_iff_ne, ne_eq, ite_not]
      rfl
  case right =>
    intro i d a b c sgn
    refine ⟨?popc, ?clz, ?brev, ?bfx, ?bfi, ?prmt⟩
    case popc => exact .opC (f := popcount) fun _ => rfl
    case clz => exact .opC (f := leadingZeros) fun _ => rfl
    case brev =>
      simp only [← bitReverse_eq_reverse]
      exact .opC fun _ => rfl
    case bfx => exact .opAC (f := bfxOp sgn) fun _ => rfl
    case bfi => exact .opABC (f := bfiOp) fun _ => rfl
    case prmt => exact .opABC (f := prmtOp) fun _ => rfl

/-- Settles O4: ICMP and PMOV.put make their predicates of C, the other two read no C. -/
theorem predicates : Obligations.Predicates := by
  unfold Obligations.Predicates
  intro i d a p q x y c cond sgn lut mask
  refine ⟨?icmp, ?plop, ?get, ?put⟩
  case icmp =>
    refine (RunsLanes.ofWord (G := fun s ln z => Res.pred p (icmpOp cond sgn (s.v ln a) z)) (fun _ => rfl)
      (fun s ln z => Res.pred_within p _ _) fun s T ln z h => by rw [h]; rfl).eq ?_
    funext s T ln
    cases cond with
    | eq => rw [icmpOp_eq]
    | ne => rw [icmpOp_ne]
    | lt | le | gt | ge => rfl
  case plop =>
    simp only [← ite_one_zero_eq_toNat]
    exact .ofNoC (fun _ => rfl) fun s ln => ⟨Res.pred_within p _ _, rfl⟩
  case get => exact .ofNoC (fun _ => rfl) fun s ln => ⟨Res.reg_within d _ rfl, rfl⟩
  case put =>
    exact .ofWord (G := fun s ln z => { q := pmovBits mask z }) (fun _ => rfl)
      (fun s ln z => ⟨rfl, rfl, List.nodup_nil, pmovBits_nodup mask z, fun _ h => nomatch h⟩) fun s T ln z h => by rw [h]; rfl
end

section
/-! SUPPORT. FP32 arithmetic, selection, comparison and conversion, packed pairs and the packing of FP8 and E2M1 (R145 to R165): the
shapes that these instructions share, and what each comes to in a lane. -/

namespace Sys2Proof.Machine

open Sys2Proof

/-! ## Instructions that read C as a float or as a packed pair (R145) -/

/-- C is read as an FP32 word. -/
theorem RunsLanes.ofFloat {ins : Instr} {i : Iss} {n : Names} {c : COp} {F : State → Team → Ln → Res} {G : State → Ln → Word → Res}
    (hx : ∀ s, exec ins s = s.perLane i n (F s)) (hG : ∀ s ln y, (G s ln y).Within n)
    (hF : ∀ s T ln y, s.cfloat T ln c = some y → F s T ln = (G s ln y).reading s T c) :
    RunsLanes ins i n (fun s T ln => (s.cfloat T ln c).isSome = true) fun s T ln => (G s ln (s.cfword T ln c)).reading s T c :=
  .ofRead hx hG hF

/-- C is read as a packed pair. -/
theorem RunsLanes.ofPacked {ins : Instr} {i : Iss} {n : Names} {c : COp} {fm : Fmt} {F : State → Team → Ln → Res}
    {G : State → Ln → Word → Res} (hx : ∀ s, exec ins s = s.perLane i n (F s)) (hG : ∀ s ln y, (G s ln y).Within n)
    (hF : ∀ s T ln y, s.cpacked T ln fm c = some y → F s T ln = (G s ln y).reading s T c) :
    RunsLanes ins i n (fun s T ln => (s.cpacked T ln fm c).isSome = true) fun s T ln =>
      (G s ln ((s.cpacked T ln fm c).getD 0#32)).reading s T c :=
  .ofRead hx hG hF

/-! ## Results with flags (R147) -/

theorem Res.Within.setFlags {r : Res} {n : Names} (h : r.Within n) (fl : BitVec 5) : { r with flags := fl }.Within n :=
  ⟨h.hold, h.bad, h.regs, h.preds, h.dst⟩

theorem fpRes_within (d : VReg) (x : Nat × BitVec 5) (fl : BitVec 5) {n : Names} (h : n.dst = [d.toNat]) :
    (fpRes d x fl).Within n := (Res.reg_within d _ h).setFlags _

/-- A result of which the rounding alone raises flags. -/
theorem fpRes_zero (d : VReg) (x : Nat × BitVec 5) : fpRes d x 0#5 = { Res.reg d (BitVec.ofNat 32 x.1) with flags := x.2 } := by
  unfold fpRes
  rw [BitVec.or_zero]

/-! ## FP32 arithmetic (R149, R151) -/

/-- An exact result with its flags, rounded once to FP32 into a register. -/
def fpOut (d : VReg) (m : FpMod) (r : Val × BitVec 5) : Res := fpRes d (fp32.round m.rm m.ftz false r.1) r.2

theorem fpOut_within (d : VReg) (m : FpMod) (r : Val × BitVec 5) {n : Names} (h : n.dst = [d.toNat]) : (fpOut d m r).Within n :=
  fpRes_within d _ _ h

/-- An arithmetic instruction over A alone. -/
theorem RunsLanes.fpA {ins : Instr} {i : Iss} {d a : VReg} {m : FpMod} {f : Val → Val × BitVec 5}
    (hx : ∀ s, exec ins s = s.fpA i d a m f) : RunsLanes ins i (.toV [a.toNat] d) Always fun s _ ln =>
      fpOut d m (f (prepA fp32 m true (s.v ln a).toNat)) :=
  .ofNoC hx fun _ _ => ⟨fpOut_within d m _ rfl, rfl⟩

/-- An arithmetic instruction over A and C. -/
theorem RunsLanes.fpAC {ins : Instr} {i : Iss} {d a : VReg} {c : COp} {m : FpMod} {f : Val → Val → Val × BitVec 5}
    (hx : ∀ s, exec ins s = s.fpAC i d a c m f) :
    RunsLanes ins i (.toV (a.toNat :: c.regs) d) (fun s T ln => (s.cfloat T ln c).isSome = true) fun s T ln =>
      (fpOut d m (f (prepA fp32 m true (s.v ln a).toNat) (prepC fp32 m (s.cfword T ln c).toNat))).reading s T c :=
  .ofFloat (G := fun s ln y => fpOut d m (f (prepA fp32 m true (s.v ln a).toNat) (prepC fp32 m y.toNat)))
    hx (fun _ _ _ => fpOut_within d m _ rfl) fun s T ln y h => by rw [h]; rfl

/-! ## FSCL (R153) -/

/-- A value scaled by a power of two; where the amount is the NaN of E8M0, the result is NaN and raises no flag. -/
def fsclRes (d : VReg) (m : FpMod) (v : Val) : Option Int → Res
  | none => Res.reg d (BitVec.ofNat 32 fp32.nan)
  | some n => fpRes d (fp32.round m.rm m.ftz false (fsclOp v n)) 0#5

theorem fsclRes_within (d : VReg) (m : FpMod) (v : Val) (k : Option Int) {n : Names} (h : n.dst = [d.toNat]) :
    (fsclRes d m v k).Within n := by
  cases k with
  | none => exact Res.reg_within d _ h
  | some k => exact fpRes_within d _ _ h

/-! ## Selection and comparison (R150, R154) -/

/-- The lesser or the greater of A and C. -/
theorem RunsLanes.fpPick {ins : Instr} {i : Iss} {d a : VReg} {c : COp} {m : FpMod} {greater : Bool}
    (hx : ∀ s, exec ins s = s.fpPick i d a c m greater) :
    RunsLanes ins i (.toV (a.toNat :: c.regs) d) (fun s T ln => (s.cfloat T ln c).isSome = true) fun s T ln =>
      (Res.reg d (BitVec.ofNat 32 (rnd32 (Val.minmax greater (prepA fp32 m true (s.v ln a).toNat)
        (prepC fp32 m (s.cfword T ln c).toNat))))).reading s T c :=
  .ofFloat (G := fun s ln y => Res.reg d (BitVec.ofNat 32 (rnd32 (Val.minmax greater (prepA fp32 m true (s.v ln a).toNat)
      (prepC fp32 m y.toNat)))))
    hx (fun _ _ _ => Res.reg_within d _ rfl) fun s T ln y h => by rw [h]; rfl

/-- A condition of FCMP as a test of the outcome of a comparison, which is `none` where an operand is NaN. -/
def fcmpOn (cond : FCond) (o : Option Ordering) : Bool :=
  match cond with
  | .eq => o == some .eq
  | .ne => o != some .eq
  | .lt => o == some .lt
  | .le => o == some .lt || o == some .eq
  | .gt => o == some .gt
  | .ge => o == some .gt || o == some .eq
  | .un => o == none
  | .ord => o != none

theorem fcmpOp_eq (cond : FCond) (x y : Val) : fcmpOp cond x y = fcmpOn cond (Val.cmp x y) := by
  unfold fcmpOp
  cases Val.cmp x y with
  | none => cases cond <;> rfl
  | some o => cases cond <;> cases o <;> rfl

/-! ## Packed pairs and packing (R159, R160, R162) -/

theorem packRes_within (d : VReg) (e : Nat → Nat × BitVec 5) {n : Names} (h : n.dst = [d.toNat]) : (packRes d e).Within n :=
  (Res.reg_within d _ h).setFlags _

/-- An element of a packed result: its exact value rounded, the flags of the operation and of the rounding together. -/
def packElem (fm : Fmt) (m : FpMod) (op : Nat → Val × BitVec 5) (k : Nat) : Nat × BitVec 5 :=
  let x := fm.round m.rm m.ftz false (op k).1
  (x.1, x.2 ||| (op k).2)

/-- A packed instruction over A and C. -/
theorem RunsLanes.packAC {ins : Instr} {i : Iss} {d a : VReg} {c : COp} {m : FpMod} {f : Val → Val → Val × BitVec 5}
    (hx : ∀ s, exec ins s = s.packAC i d a c m f) :
    RunsLanes ins i (.toV (a.toNat :: c.regs) d) (fun s T ln => (s.cpacked T ln (packedFmt m) c).isSome = true) fun s T ln =>
      (packRes d (packElem (packedFmt m) m fun k => f (prepA (packedFmt m) m false (half (s.v ln a) k))
        (prepC (packedFmt m) m (half ((s.cpacked T ln (packedFmt m) c).getD 0#32) k)))).reading s T c :=
  .ofPacked (G := fun s ln y => packRes d (packElem (packedFmt m) m fun k =>
      f (prepA (packedFmt m) m false (half (s.v ln a) k)) (prepC (packedFmt m) m (half y k))))
    hx (fun _ _ _ => packRes_within d _ rfl) fun s T ln y h => by dsimp only; rw [h]; rfl

/-- Two rounded elements put side by side into `w` bits of D from bit `lo` on, the second `base` times as heavy as the first; the other
bits of D are as they were. -/
def insertRes (d : VReg) (old : Word) (lo w base : Nat) (x y : Nat × BitVec 5) : Res :=
  { Res.reg d (insertBits old lo w (x.1 + base * y.1)) with flags := x.2 ||| y.2 }

theorem insertRes_within (d : VReg) (old : Word) (lo w base : Nat) (x y : Nat × BitVec 5) {n : Names} (h : n.dst = [d.toNat]) :
    (insertRes d old lo w base x y).Within n := (Res.reg_within d _ h).setFlags _

end Sys2Proof.Machine

open Sys2Proof Sys2Proof.Machine

/-- Settles O5: FFMA reads B besides A and C, and FSCL takes an amount at C; the others have one of the two shared shapes. -/
theorem floatArithmetic : Obligations.FloatArithmetic := by
  unfold Obligations.FloatArithmetic
  intro i d a b c m two one
  refine ⟨?fadd, ?fmul, ?fdiv, ?ffma, ?frcp, ?frsq, ?fsqrt, ?fex2, ?flg2, ?fscl⟩
  case fadd | fmul | fdiv => exact .fpAC fun _ => rfl
  case frcp | frsq | fsqrt | flg2 => exact .fpA fun _ => rfl
  case fex2 => exact .fpA (f := fun x => (x.exp2, 0#5)) fun _ => rfl
  case ffma =>
    exact .ofFloat (G := fun s ln y => fpOut d m (Val.fma m.rm (prepA fp32 m true (s.v ln a).toNat)
        (fp32.read m.ftz (s.v ln b).toNat) (prepC fp32 m y.toNat)))
      (fun _ => rfl) (fun _ _ _ => fpOut_within d m _ rfl) fun s T ln y h => by rw [h]; rfl
  case fscl =>
    refine (RunsLanes.ofWord (G := fun s ln y => fsclRes d m (prepA fp32 m true (s.v ln a).toNat) (fsclAmount m.nc y))
      (fun _ => rfl) (fun _ _ _ => fsclRes_within d m _ _ rfl) fun s T ln y h => by rw [h]; rfl).eq ?_
    funext s T ln
    cases fsclAmount m.nc (s.cword T ln .sign c) with
    | none => rfl
    | some n => exact congrArg (·.reading s T c) (fpRes_zero d _)

/-- Settles O6: selection, RNGC and FGUMB have a shared shape, FCMP tests the outcome of a comparison, and the others read no C. -/
theorem floatOther : Obligations.FloatOther := by
  unfold Obligations.FloatOther
  intro i d a p c m cond ftz sgn na nsat dst src rm pick
  refine ⟨?fmin, ?fmax, ?fcmp, ?fcls, ?frnd, ?f2i, ?i2f, ?fcvt, ?rngc, ?fgumb⟩
  case fmin | fmax => exact .fpPick fun _ => rfl
  case fcmp =>
    refine (RunsLanes.ofFloat (G := fun s ln y => Res.pred p (fcmpOp cond (fp32.read ftz (s.v ln a).toNat) (fp32.read ftz y.toNat)))
      (fun _ => rfl) (fun _ _ _ => Res.pred_within p _ _) fun s T ln y h => by rw [h]; rfl).eq ?_
    funext s T ln
    rw [fcmpOp_eq]
    rfl
  case fcls | frnd => exact .ofNoC (fun _ => rfl) fun _ _ => ⟨Res.reg_within d _ rfl, rfl⟩
  case f2i => exact .ofNoC (fun _ => rfl) fun _ _ => ⟨(Res.reg_within d _ rfl).setFlags _, rfl⟩
  case i2f | fcvt =>
    simp only [← fpRes_zero]
    exact .ofNoC (fun _ => rfl) fun _ _ => ⟨fpRes_within d _ _ rfl, rfl⟩
  case rngc => exact .opAC (f := rngcOp) fun _ => rfl
  case fgumb => exact .opAC (f := fgumbOp) fun _ => rfl

/-- Settles O7: the packed instructions make their two elements alike, PK8 and PK4 put two elements into D as it was read, and UPK8 and
UPK4 widen one element exactly. -/
theorem floatPacked : Obligations.FloatPacked := by
  unfold Obligations.FloatPacked
  intro i d a b c m hi e5 ftz nsat rm n k fm pair two
  refine ⟨?hadd2, ?hmul2, ?hfma2, ?hmnx2, ?pk8, ?upk8, ?pk4, ?upk4⟩
  case hadd2 | hmul2 => exact .packAC fun _ => rfl
  case hfma2 =>
    exact .ofPacked (G := fun s ln y => packRes d (packElem fm m fun k => Val.fma m.rm (prepA fm m false (half (s.v ln a) k))
        (fm.read m.ftz (half (s.v ln b) k)) (prepC fm m (half y k))))
      (fun _ => rfl) (fun _ _ _ => packRes_within d _ rfl) fun s T ln y h => by dsimp only; rw [h]; rfl
  case hmnx2 =>
    exact .ofPacked (G := fun s ln y => packRes d fun k => ((fm.round rne false false (Val.minmax (m.rm.getLsbD 0)
        (prepA fm m false (half (s.v ln a) k)) (prepC fm m (half y k)))).1, 0#5))
      (fun _ => rfl) (fun _ _ _ => packRes_within d _ rfl) fun s T ln y h => by dsimp only; rw [h]; rfl
  case pk8 =>
    exact .ofFloat (G := fun s ln y => insertRes d (s.v ln d) (if hi then 16 else 0) 16 256
        ((if e5 then e5m2 else e4m3).round rm ftz nsat (fp32.read ftz (s.v ln a).toNat))
        ((if e5 then e5m2 else e4m3).round rm ftz nsat (fp32.read ftz y.toNat)))
      (fun _ => rfl) (fun _ _ _ => insertRes_within d _ _ _ _ _ _ rfl) fun s T ln y h => by rw [h]; rfl
  case upk8 => exact .ofNoC (fun _ => rfl) fun _ _ => ⟨Res.reg_within d _ rfl, rfl⟩
  case pk4 =>
    exact .ofFloat (G := fun s ln y => insertRes d (s.v ln d) (8 * n.toNat) 8 16
        (e2m1.round rm ftz false (fp32.read ftz (s.v ln a).toNat)) (e2m1.round rm ftz false (fp32.read ftz y.toNat)))
      (fun _ => rfl) (fun _ _ _ => insertRes_within d _ _ _ _ _ _ rfl) fun s T ln y h => by rw [h]; rfl
  case upk4 =>
    exact .ofWord (G := fun s ln y => Res.reg d (BitVec.ofNat 32 (rnd32
        (if (s.v ln a).toNat / 2 ^ (4 * k.toNat) % 16 = 8 then bf16.value (y.toNat % 2 ^ 16)
          else e2m1.value ((s.v ln a).toNat / 2 ^ (4 * k.toNat) % 16)))))
      (fun _ => rfl) (fun _ _ _ => Res.reg_within d _ rfl) fun s T ln y h => by rw [h]; rfl
end

section
/-! SUPPORT. Instructions whose faults R176 orders, where no lane faults: the lanes of their places, the reads and the rows that are there
at once, and the turn of a commit that is not waited for (R18, R174, R176, R344). -/

namespace Sys2Proof.Machine

open Sys2Proof

/-! ## Lanes and what each of them finds -/

/-- Lanes listed with what each comes to are the lanes of that list, each of which comes to it. -/
theorem lanes_of_map_eq {α β : Type} {lns : List Ln} {r : Ln → β} {f : α → β} {accs : List (Ln × α)}
    (h : lns.map (fun ln => (ln, r ln)) = accs.map fun x => (x.1, f x.2)) :
    lns = accs.map (·.1) ∧ ∀ x ∈ accs, r x.1 = f x.2 := by
  have lanes : lns = accs.map (·.1) := by
    have := congrArg (List.map (·.1)) h
    rwa [List.map_map, List.map_map, show ((·.1) ∘ fun ln => (ln, r ln)) = (id : Ln → Ln) from rfl, List.map_id] at this
  refine ⟨lanes, fun x hx => ?_⟩
  rw [lanes, List.map_map] at h
  exact (Prod.mk.inj (List.map_inj_left.mp h x hx)).2

/-- A filter that keeps each of some items as it is keeps the list. -/
theorem filterMap_eq_self {α : Type} {f : α → Option α} {l : List α} (h : ∀ x ∈ l, f x = some x) : l.filterMap f = l := by
  induction l with
  | nil => rfl
  | cons x l ih =>
    rw [List.filterMap_cons, h x List.mem_cons_self]
    exact congrArg (x :: ·) (ih fun y hy => h y (List.mem_cons_of_mem x hy))

@[simp] theorem firstOf_nil : firstOf [] = none := rfl

/-! ## The order of faults, where there is none (R176) -/

/-- Where every executing lane may carry the instruction out, knows its address and finds its place, the instruction goes on with the lanes
and their places. -/
theorem State.ordered_runs {α : Type} {s : State} {T : Team} (hT : s.team? s.cur.team = some T) {i : Iss} {n : Names} {addr : List Nat}
    {illop : Team → Ln → Bool} {place : Team → Ln → Nat × Except Code α} {k : State → Team → List (Ln × α) → Out}
    {accs : List (Ln × α)} (hill : ∀ ln ∈ s.actors T i, illop T ln = false)
    (hready : ∀ ln ∈ s.actors T i, s.Ready T.id ln { src := n.src, dst := n.dst, also := n.also })
    (hknown : ∀ ln ∈ s.actors T i, s.unknown ln { src := addr } = false)
    (hlie : (s.actors T i).map (fun ln => (ln, (place T ln).2)) = accs.map fun x => (x.1, .ok x.2)) :
    s.ordered i n addr illop place k = k s T accs := by
  obtain ⟨lanes, found⟩ := lanes_of_map_eq hlie
  have ills : (s.actors T i).filter (illop T) = [] := by
    rw [List.filter_eq_nil_iff]
    intro ln hln
    rw [hill ln hln]
    exact Bool.false_ne_true
  have nulls : nullLanes (s.actors T i) (n.src ++ n.dst ++ n.also) = [] := nullLanes_nil fun ln hln => (hready ln hln).allotted
  have bad : ((s.actors T i).filter fun ln => n.src.any fun r => (s.rd ln r).poison) = [] := by
    rw [List.filter_eq_nil_iff]
    intro ln hln
    rw [any_poison_false (hready ln hln).sound]
    exact Bool.false_ne_true
  have lost : ((s.actors T i).filter fun ln => s.unknown ln { src := addr }) = [] := by
    rw [List.filter_eq_nil_iff]
    intro ln hln
    rw [hknown ln hln]
    exact Bool.false_ne_true
  have known : ((s.actors T i).filter fun ln => !s.unknown ln { src := addr }) = accs.map (·.1) := by
    rw [← lanes, List.filter_eq_self]
    intro ln hln
    rw [hknown ln hln]
    rfl
  unfold State.ordered
  simp only [hT, ills, nulls, bad, lost, known, List.isEmpty_nil, Bool.not_true, Bool.false_eq_true, if_false, List.map_map,
    List.filterMap_map]
  rw [List.filterMap_eq_nil_iff.mpr fun x hx => by simp only [Function.comp, found x hx],
    filterMap_eq_self fun x hx => by simp only [Function.comp, found x hx]]
  rfl

/-! ## What stands ready -/

theorem State.curGroup_of_members {s : State} {g : Nat} {m : BitVec 32} (h : s.cur.members = [(g, m)]) : s.curGroup = g := by
  unfold State.curGroup
  rw [h]
  rfl

theorem State.AtLane.curGroup_eq {s : State} {T : Team} {g : Nat} {m : BitVec 32} (h : s.AtLane T g m) : s.curGroup = g :=
  State.curGroup_of_members h.here

/-- Outside deterministic launches an instruction waits for no turn (R344). -/
theorem State.atTurn_of_not_det {s : State} {T : Team} (h : s.isDet T = false) (turn : Bool) (lns : List Ln) (k : Out) :
    s.atTurn T turn lns k = k := by
  unfold State.atTurn
  rw [h]
  rfl

/-- Destinations in rows of their own need no copies (R18). -/
theorem State.withRows_own {s : State} {T : Team} {lns : List Ln} {dst : List Nat}
    (h : ∀ ln ∈ lns, ∀ r ∈ dst, s.owns T.id ln.g ln.l (r / 8)) (k : State → Out) : s.withRows T lns dst k = k s := by
  unfold State.withRows
  rw [State.cowAll_own _ (State.rowsOf_own h)]

/-- Reads that are there at once are not waited for (R174, R391). -/
theorem State.withReads_now {s : State} {T : Team} {lns : List Ln} {reads : Ln → List (Nat × Nat)} (h : s.readsNow T lns reads)
    (k : State → Out) : s.withReads T lns reads k = k (s.afterReads T lns reads) := by
  have pieces : ((lns.map fun ln => (ln, chunksOf (reads ln))).map fun x =>
      (x.1, (x.2.map fun y => (s.wants T x.1.g x.1.l y.1 y.2).pieces).flatten)).any (fun x => !x.2.isEmpty) = false := by
    rw [List.any_eq_false]
    intro x hx
    rw [List.map_map] at hx
    obtain ⟨ln, hln, rfl⟩ := List.mem_map.mp hx
    have nothing : ((chunksOf (reads ln)).map fun y => (s.wants T ln.g ln.l y.1 y.2).pieces).flatten = [] := by
      rw [List.flatten_eq_nil_iff]
      intro ps hps
      obtain ⟨y, hy, rfl⟩ := List.mem_map.mp hps
      rw [h ln hln y hy]
    simp only [Function.comp, nothing]
    exact Bool.false_ne_true
  have own : ((lns.map fun ln => (ln, chunksOf (reads ln))).any fun x => x.2.any fun y => (s.wants T x.1.g x.1.l y.1 y.2).own) = false := by
    rw [List.any_eq_false]
    intro x hx
    obtain ⟨ln, hln, rfl⟩ := List.mem_map.mp hx
    rw [List.any_eq_true]
    rintro ⟨y, hy, hown⟩
    rw [h ln hln y hy] at hown
    exact Bool.false_ne_true hown
  unfold State.withReads
  dsimp only
  rw [pieces, own]
  rfl

end Sys2Proof.Machine
end

section
/-! SUPPORT. A thread's loads leave the cursor and the launches as they are (R171, R205, R282 to R287). -/

namespace Sys2Proof.Machine

open Sys2Proof

/-- The updated state has the cursor and the launches of the other. -/
structure State.SameCourse (s u : State) : Prop where
  cur : u.cur = s.cur
  launches : u.launches = s.launches

namespace State.SameCourse

theorem refl (s : State) : s.SameCourse s := ⟨rfl, rfl⟩

theorem trans {s u v : State} (h : s.SameCourse u) (h' : u.SameCourse v) : s.SameCourse v :=
  ⟨h'.cur.trans h.cur, h'.launches.trans h.launches⟩

/-- `trans` with the later update first, from which the state between is read off. -/
theorem after {s u v : State} (last : u.SameCourse v) (first : s.SameCourse u) : s.SameCourse v := first.trans last

theorem fold {α : Type} (f : State → α → State) (h : ∀ s a, State.SameCourse s (f s a)) (l : List α) (s : State) :
    s.SameCourse (l.foldl f s) := by
  induction l generalizing s with
  | nil => exact refl s
  | cons a l ih => exact (h s a).trans (ih (f s a))

theorem isDet {s u : State} (h : s.SameCourse u) (T : Team) : u.isDet T = s.isDet T := by
  unfold State.isDet State.launchOf State.launch?
  rw [h.launches]

/-! ## What the memory side reports and counts (R291, R292) -/

theorem setBytes (s : State) (k n v : Nat) : s.SameCourse (s.setBytes k n v) := by
  obtain ⟨m, h⟩ := s.setBytes_frame k n v
  rw [h]
  exact ⟨rfl, rfl⟩

theorem modPart (s : State) (p : Nat) (f : Part → Part) : s.SameCourse (s.modPart p f) := ⟨rfl, rfl⟩

theorem msix (s : State) (p v : Nat) : s.SameCourse (s.msix p v) := by
  unfold State.msix
  dsimp only
  split
  · exact refl s
  · split <;> exact ⟨rfl, rfl⟩

theorem notify (s : State) (p kind req val ia : Nat) : s.SameCourse (s.notify p kind req val ia) := by
  unfold State.notify
  dsimp only
  split
  · exact ⟨rfl, rfl⟩
  · exact after (msix _ _ _) (after (modPart _ _ _) (setBytes s _ _ _))

theorem hot (s : State) (ia key req : Nat) : s.SameCourse (s.hot ia key req) := by
  unfold State.hot
  dsimp only
  split
  · exact refl s
  · split
    · exact refl s
    · split
      · exact (setBytes s _ _ _).trans (notify _ _ _ _ _ _)
      · exact setBytes s _ _ _

theorem cache (s : State) (ia : Nat) : s.SameCourse (s.cache ia) := by
  unfold State.cache
  split
  · exact refl s
  · split <;> exact ⟨rfl, rfl⟩

/-! ## The caches (R284, R287) -/

theorem nextOut (s : State) (ls : List CLine) : s.SameCourse (s.nextOut ls).2 := by
  unfold State.nextOut
  dsimp only
  split <;> exact ⟨rfl, rfl⟩

theorem writeBack (s : State) (v : CLine) : s.SameCourse (s.writeBack v) := by
  unfold State.writeBack
  split
  · exact cache s _
  · exact refl s

theorem llcFill (s : State) (line : Nat) (dirty : Bool) : s.SameCourse (s.llcFill line dirty) := by
  unfold State.llcFill
  dsimp only
  split
  · exact ⟨rfl, rfl⟩
  · split
    · exact ⟨rfl, rfl⟩
    · split
      · exact ⟨rfl, rfl⟩
      · have out := nextOut s (s.firstOut (s.llc.partition fun x => s.llcPlace x.line == s.llcPlace line).1)
        split
        · next v u h =>
          rw [h] at out
          exact ⟨Eq.trans (writeBack _ v).cur out.cur, Eq.trans (writeBack _ v).launches out.launches⟩
        · next u h =>
          rw [h] at out
          exact ⟨out.cur, out.launches⟩

theorem evictL2 (s : State) (line : Nat) : s.SameCourse (s.evictL2 line) := by
  unfold State.evictL2
  exact after (llcFill _ _ _) ⟨rfl, rfl⟩

theorem l2Fill (s : State) (line pos : Nat) : s.SameCourse (s.l2Fill line pos) := by
  unfold State.l2Fill
  dsimp only
  split
  · exact ⟨rfl, rfl⟩
  · split
    · exact ⟨rfl, rfl⟩
    · split
      · exact ⟨rfl, rfl⟩
      · have out := nextOut s (s.victims (s.l2.partition fun x => s.l2Place x.line == s.l2Place line).1)
        split
        · next v u h =>
          rw [h] at out
          exact ⟨Eq.trans (evictL2 _ v.line).cur out.cur, Eq.trans (evictL2 _ v.line).launches out.launches⟩
        · next u h =>
          rw [h] at out
          exact out

theorem reach (s : State) (ia key req pos : Nat) : s.SameCourse (s.reach ia key req pos) := by
  unfold State.reach
  dsimp only
  split
  · exact l2Fill s _ _
  · split
    · exact (llcFill s _ _).trans (l2Fill _ _ _)
    · exact ((hot s _ _ _).trans (llcFill _ _ _)).trans (l2Fill _ _ _)

theorem l1Room (s : State) (holder line : Nat) : s.SameCourse (s.l1Room holder line) := by
  unfold State.l1Room
  dsimp only
  split
  · exact refl s
  · split
    · exact refl s
    · have out := nextOut s (((s.l1.filter (·.holder == holder)).filter fun c =>
        Config.l1Set c.line % 128 == Config.l1Set line % 128).map fun c => { line := c.line, rrpv := c.rrpv })
      split
      · next v u h =>
        rw [h] at out
        exact ⟨out.cur, out.launches⟩
      · next u h =>
        rw [h] at out
        exact out

theorem l1Fill (s : State) (holder line key length pos : Nat) : s.SameCourse (s.l1Fill holder line key length pos) := by
  unfold State.l1Fill
  dsimp only
  exact ⟨(l1Room _ holder line).cur, (l1Room _ holder line).launches⟩

/-! ## Loads (R171, R205) -/

theorem loadAt (s : State) (T : Team) (f : Flight) (a : LaneAcc) (since : Nat) : s.SameCourse (s.loadAt T f a since).2.2 := by
  have hit (h l : Nat) : s.SameCourse (s.l1Touch h l) := ⟨rfl, rfl⟩
  have bypass (k die : Nat) : s.SameCourse ((s.dropLine T a.ia).reach a.ia k die anyPos) := after (reach _ _ _ _ _) ⟨rfl, rfl⟩
  have miss (h l j n k die : Nat) : s.SameCourse ((s.l1Fill h l j n f.pos).reach a.ia k die f.pos) :=
    after (reach _ _ _ _ _) (l1Fill s h l j n f.pos)
  unfold State.loadAt
  dsimp only
  split
  · exact refl s
  · split
    · dsimp only
      split
      · exact bypass _ _
      · split
        · exact hit _ _
        · exact miss _ _ _ _ _ _
    · split
      · exact bypass _ _
      · split
        · exact hit _ _
        · exact miss _ _ _ _ _ _

theorem touch (s : State) (T : Team) (g l va n : Nat) : s.SameCourse (s.touch T g l va n) := by
  unfold State.touch
  split
  · split
    · exact refl s
    · exact ⟨Eq.trans (cache _ _).cur (loadAt s T _ _ _).cur, Eq.trans (cache _ _).launches (loadAt s T _ _ _).launches⟩
  · exact refl s

theorem passAcq (s : State) (t g : Nat) (lanes : List Nat) : s.SameCourse (s.passAcq t g lanes) := by
  unfold State.passAcq
  split
  · exact refl s
  · refine fold _ (fun _ _ => ?_) lanes s
    exact ⟨rfl, rfl⟩

theorem afterReads (s : State) (T : Team) (lns : List Ln) (reads : Ln → List (Nat × Nat)) : s.SameCourse (s.afterReads T lns reads) := by
  unfold State.afterReads
  refine fold _ (fun u ln => ?_) lns s
  split
  · exact refl u
  · exact (passAcq u _ _ _).trans (fold _ (fun w x => touch w _ _ _ _ _) _ _)

end State.SameCourse

end Sys2Proof.Machine
end

section
/-! SUPPORT. XACQ and XREL (R207): what the release of a block leaves. -/

namespace Sys2Proof.Machine

open Sys2Proof

/-! ## Row pointers that are made null -/

/-- Pointers that are made null, and those that were, are null. -/
theorem vget_foldl_vset_none {α : Type} {n : Nat} (is : List Nat) (v : Vector (Option α) n) {j : Nat} (hj : j < n)
    (h : j ∈ is ∨ vget v j none = none) : vget (is.foldl (fun v i => vset v i none) v) j none = none := by
  induction is generalizing v with
  | nil => exact h.resolve_left List.not_mem_nil
  | cons i is ih =>
    rw [List.foldl_cons]
    refine ih _ ?_
    rw [vget_vset]
    by_cases hi : j = i
    · exact .inr (if_pos ⟨hi, hi ▸ hj⟩)
    · rw [if_neg fun hc => hi hc.1]
      exact h.imp_left fun hm => (List.mem_cons.mp hm).resolve_left hi

theorem mem_blockRows {n r : Nat} : r ∈ blockRows n ↔ 8 * n ≤ r ∧ r < 8 * n + 8 := by
  unfold blockRows
  simp only [List.mem_map, List.mem_range]
  exact ⟨fun ⟨j, hj, e⟩ => by omega, fun ⟨h, h'⟩ => ⟨r - 8 * n, by omega, by omega⟩⟩

/-- Holders taken from rows change the Kiln only. -/
theorem State.foldl_decRow_frame (ks : List Nat) (s : State) : ∃ k, ks.foldl State.decRow s = { s with kiln := k } := by
  induction ks generalizing s with
  | nil => exact ⟨s.kiln, rfl⟩
  | cons x ks ih =>
    obtain ⟨k, h⟩ := ih (s.decRow x)
    exact ⟨k, h⟩

/-! ## One lane's release -/

/-- A thread with the pointers of a block null. -/
def Thread.dropBlock (n : Nat) (th : Thread) : Thread := { th with rows := (blockRows n).foldl (fun r i => vset r i none) th.rows }

/-- A lane lets the rows of a block go, and its pointers are null. -/
def State.dropBlock (n : Nat) (s : State) (ln : Ln) : State :=
  (((blockRows n).filterMap fun i => ln.key? (8 * i)).foldl State.decRow s).modThread ln.t ln.g ln.l (Thread.dropBlock n)

/-- The pointers of a block are null in a lane. -/
def State.BlockGone (n t g l : Nat) (s : State) : Prop :=
  ∀ r, 8 * n ≤ r → r < 8 * n + 8 → vget (s.thread t g l).rows r none = none

theorem Thread.rows_dropBlock {n r : Nat} (hn : n < 4) (h : 8 * n ≤ r) (h' : r < 8 * n + 8) (th : Thread) :
    vget (th.dropBlock n).rows r none = none :=
  vget_foldl_vset_none _ _ (by omega) (.inl (mem_blockRows.mpr ⟨h, h'⟩))

theorem threadIdle_rows (r : Nat) : vget threadIdle.rows r none = none := by
  show vget (Vector.replicate 32 (none : Option Nat)) r none = none
  unfold vget
  by_cases h : r < 32
  · simp [h]
  · rw [Vector.getElem?_eq_none (by omega)]
    rfl

/-- Another lane's release leaves a thread as it is, its own makes the pointers null. -/
theorem State.thread_dropBlock (n : Nat) (s : State) (ln : Ln) (t g l : Nat) : (s.dropBlock n ln).thread t g l =
    if t = ln.t ∧ g = ln.g ∧ l = ln.l ∧ ln.l < 32 ∧ (s.group? ln.t ln.g).isSome = true then (s.thread ln.t ln.g ln.l).dropBlock n
    else s.thread t g l := by
  obtain ⟨k, hk⟩ := State.foldl_decRow_frame ((blockRows n).filterMap fun i => ln.key? (8 * i)) s
  unfold State.dropBlock
  rw [hk, State.thread_modThread]
  rfl

theorem State.BlockGone.dropBlock {n t g l : Nat} {s : State} (hn : n < 4) (h : s.BlockGone n t g l) (ln : Ln) :
    (s.dropBlock n ln).BlockGone n t g l := by
  intro r hr hr'
  rw [State.thread_dropBlock]
  split
  · exact Thread.rows_dropBlock hn hr hr' _
  · exact h r hr hr'

theorem State.blockGone_dropBlock {n : Nat} (hn : n < 4) (s : State) (ln : Ln) : (s.dropBlock n ln).BlockGone n ln.t ln.g ln.l := by
  intro r hr hr'
  rw [State.thread_dropBlock]
  split
  · exact Thread.rows_dropBlock hn hr hr' _
  · next h =>
    -- there is no such lane
    have idle : s.thread ln.t ln.g ln.l = threadIdle := by
      by_cases hl : ln.l < 32
      · refine State.thread_none (Option.isNone_iff_eq_none.mp ?_)
        rw [← Option.not_isSome]
        simpa [hl] using h
      · exact State.thread_ge (Nat.le_of_not_lt hl)
    rw [idle]
    exact threadIdle_rows r

/-- Releases leave the cursor, the memory and what each group holds as they were. -/
theorem State.dropBlock_frame (n : Nat) (s : State) (ln : Ln) : (s.dropBlock n ln).cur = s.cur ∧ (s.dropBlock n ln).mem = s.mem ∧
    ∀ t g, ((s.dropBlock n ln).group? t g).map (·.xhold) = (s.group? t g).map (·.xhold) := by
  obtain ⟨k, hk⟩ := State.foldl_decRow_frame ((blockRows n).filterMap fun i => ln.key? (8 * i)) s
  unfold State.dropBlock
  rw [hk]
  refine ⟨rfl, rfl, fun t g => ?_⟩
  unfold State.modThread
  rw [State.group?_modGroup, Option.map_map]
  refine congrArg (Option.map · (s.group? t g)) (funext fun G => ?_)
  simp only [Function.comp]
  split <;> rfl

/-! ## XREL -/

/-- The lanes let the rows of a block go, and the group holds it no more (R207). -/
def State.unmapBlock (s : State) (t g : Nat) (lns : List Ln) (n : Nat) : State :=
  (lns.foldl (State.dropBlock n) s).modGroup t g fun G => { G with xhold := setBit G.xhold (n - 1) false }

theorem State.foldl_dropBlock_frame (n : Nat) (lns : List Ln) (s : State) :
    (lns.foldl (State.dropBlock n) s).cur = s.cur ∧ (lns.foldl (State.dropBlock n) s).mem = s.mem ∧
    ∀ t g, ((lns.foldl (State.dropBlock n) s).group? t g).map (·.xhold) = (s.group? t g).map (·.xhold) := by
  induction lns generalizing s with
  | nil => exact ⟨rfl, rfl, fun _ _ => rfl⟩
  | cons ln lns ih =>
    obtain ⟨cur, mem, hold⟩ := State.dropBlock_frame n s ln
    obtain ⟨cur', mem', hold'⟩ := ih (s.dropBlock n ln)
    exact ⟨cur'.trans cur, mem'.trans mem, fun t g => (hold' t g).trans (hold t g)⟩

theorem State.blockGone_foldl {n t g l : Nat} (hn : n < 4) (lns : List Ln) {s : State}
    (h : s.BlockGone n t g l ∨ ∃ ln ∈ lns, ln.t = t ∧ ln.g = g ∧ ln.l = l) : (lns.foldl (State.dropBlock n) s).BlockGone n t g l := by
  induction lns generalizing s with
  | nil => exact h.resolve_right fun ⟨_, hm, _⟩ => List.not_mem_nil hm
  | cons x lns ih =>
    refine ih ?_
    rcases h with h | ⟨ln, hm, rfl, rfl, rfl⟩
    · exact .inl (h.dropBlock hn x)
    · rcases List.mem_cons.mp hm with rfl | hm
      · exact .inl (State.blockGone_dropBlock hn s ln)
      · exact .inr ⟨ln, hm, rfl, rfl, rfl⟩

/-- Of every member the pointers of the block are null. -/
theorem State.unmapBlock_rows {n : Nat} (hn : n < 4) {s : State} {T : Team} (g : Nat) {ln : Ln} (h : ln ∈ s.members T) :
    (s.unmapBlock T.id g (s.members T) n).BlockGone n T.id ln.g ln.l := by
  have gone : ((s.members T).foldl (State.dropBlock n) s).BlockGone n T.id ln.g ln.l := by
    obtain ⟨x, -, l, -, rfl⟩ := State.mem_members h
    exact State.blockGone_foldl hn _ (.inr ⟨_, h, Team.ln_t T x.1 l, rfl, rfl⟩)
  intro r hr hr'
  have same : (s.unmapBlock T.id g (s.members T) n).thread T.id ln.g ln.l =
      ((s.members T).foldl (State.dropBlock n) s).thread T.id ln.g ln.l := by
    unfold State.unmapBlock State.thread
    rw [State.group?_modGroup]
    cases ((s.members T).foldl (State.dropBlock n) s).group? T.id ln.g with
    | none => rfl
    | some G =>
      simp only [Option.map_some]
      split <;> rfl
  rw [same]
  exact gone r hr hr'

/-- The group holds what it held but for the block. -/
theorem State.unmapBlock_xhold {s : State} {t g : Nat} {G : Group} (h : s.group? t g = some G) (lns : List Ln) (n : Nat) :
    ((s.unmapBlock t g lns n).group? t g).map (·.xhold) = some (setBit G.xhold (n - 1) false) := by
  obtain ⟨-, -, hold⟩ := State.foldl_dropBlock_frame n lns s
  have before := hold t g
  rw [h] at before
  unfold State.unmapBlock
  rw [State.group?_modGroup]
  obtain ⟨G', hG', hx⟩ := Option.map_eq_some_iff.mp before
  rw [hG']
  simp [hx]

/-! ## The two instructions -/

theorem State.supplies_nil (s : State) (T : Team) : s.Supplies T [] := fun _ _ _ h => nomatch h

/-- A state at the same cursor, of one group, which is there. -/
theorem State.atWide_of_group {u : State} {g : Nat} {m : BitVec 32} (h : u.cur.members = [(g, m)])
    (hG : (u.group? u.cur.team g).isSome = true) : ∃ T, u.AtWide T := by
  unfold State.group? at hG
  cases hT : u.team? u.cur.team with
  | none => rw [hT] at hG; cases hG
  | some T =>
    rw [hT] at hG
    refine ⟨T, hT, fun x hx => ?_, ?_⟩
    · rw [h] at hx
      rw [List.mem_singleton.mp hx]
      exact hG
    · rw [h]
      exact List.pairwise_singleton _ _

/-- What XREL makes of the state before its members go on. -/
theorem exec_xrel (i : Iss) (n : BitVec 2) (s : State) : exec (.xrel i n) s = s.single {} fun T lns =>
    match T.group? s.curGroup with
    | none => .ok s
    | some G => if G.xhold.getLsbD (n.toNat - 1) then .ok (s.unmapBlock T.id s.curGroup lns n.toNat) else .ok s := rfl

/-- XREL of a block that the group holds (R207). -/
theorem exec_xrel_held {s : State} {T : Team} {g : Nat} {m : BitVec 32} {G : Group} (hAt : s.AtWide T) (here : s.cur.members = [(g, m)])
    (hG : T.group? g = some G) (i : Iss) {n : BitVec 2} (held : G.xhold.getLsbD (n.toNat - 1) = true) :
    GoesTo (exec (.xrel i n) s) (WentOn (s.unmapBlock T.id g (s.members T) n.toNat)) := by
  have id := State.team?_id hAt.team
  have group : s.group? T.id g = some G := by
    unfold State.group?
    rw [id, hAt.team]
    exact hG
  have stands : ∃ T', (s.unmapBlock T.id g (s.members T) n.toNat).AtWide T' := by
    have cur : (s.unmapBlock T.id g (s.members T) n.toNat).cur = s.cur := (State.foldl_dropBlock_frame _ _ _).1
    refine State.atWide_of_group (by rw [cur]; exact here) ?_
    rw [cur, ← id, ← Option.isSome_map, State.unmapBlock_xhold group]
    rfl
  obtain ⟨T', hT'⟩ := stands
  rw [exec_xrel]
  refine State.single_runs hAt.team (State.supplies_nil s T) ?_ hT'
  simp only [State.curGroup_of_members here, hG, held, if_true]

/-- XREL of a block that the group does not hold. -/
theorem exec_xrel_not_held {s : State} {T : Team} {g : Nat} {m : BitVec 32} {G : Group} (hAt : s.AtWide T)
    (here : s.cur.members = [(g, m)]) (hG : T.group? g = some G) (i : Iss) {n : BitVec 2}
    (held : G.xhold.getLsbD (n.toNat - 1) = false) : GoesTo (exec (.xrel i n) s) (WentOn s) := by
  rw [exec_xrel]
  refine State.single_runs hAt.team (State.supplies_nil s T) ?_ hAt
  simp only [State.curGroup_of_members here, hG, held, Bool.false_eq_true, if_false]

/-- XACQ in one group (R207). -/
theorem exec_xacq {s : State} {T : Team} {g : Nat} {m : BitVec 32} {G : Group} (hAt : s.AtWide T) (here : s.cur.members = [(g, m)])
    (hG : T.group? g = some G) (i : Iss) (p : PReg) (n : BitVec 2) : exec (.xacq i p n) s = .next (
      let all (u : State) (b : Bool) : State := ((s.members T).foldl (fun u ln => u.setPred ln p b) u).retire []
      if G.xhold.getLsbD (n.toNat - 1) = true then all s true
      else if T.xblk ≤ G.blocks then all s false
      else if s.blockReady T g (s.members T) n.toNat = true then all (s.mapBlock T g (s.members T) n.toNat) true
      else s.park (.xacq n p)) := by
  show execXacq i p n s = _
  unfold execXacq
  refine State.once_runs hAt.team (State.supplies_nil s T) ?_
  simp only [State.curGroup_of_members here, hG]
  split
  · rfl
  · split
    · rfl
    · split <;> rfl

end Sys2Proof.Machine

open Sys2Proof Sys2Proof.Machine

/-- Settles O38: XACQ is its four cases, and XREL goes on from the state in which the block is unmapped. -/
theorem extendedBlocks : Obligations.ExtendedBlocks := by
  unfold Obligations.ExtendedBlocks
  intro i p n s T g m G hAt here hG all
  have acq := exec_xacq hAt here hG i p n
  refine ⟨?granted, ?refused, ?mapped, ?waits, ?released, exec_xrel_not_held hAt here hG i⟩
  case granted =>
    intro held
    rw [acq, held, if_pos rfl]
  case refused =>
    intro held full
    rw [acq, held, if_neg Bool.false_ne_true, if_pos full]
  case mapped =>
    intro held room ready
    rw [acq, held, if_neg Bool.false_ne_true, if_neg (Nat.not_le.mpr room), ready, if_pos rfl]
  case waits =>
    intro held room ready
    rw [acq, held, if_neg Bool.false_ne_true, if_neg (Nat.not_le.mpr room), ready, if_neg Bool.false_ne_true]
  case released =>
    intro held
    obtain ⟨u, runs, went⟩ := exec_xrel_held hAt here hG i held
    have group : s.group? T.id g = some G := by
      unfold State.group?
      rw [State.team?_id hAt.team, hAt.team]
      exact hG
    refine ⟨u, runs, _, went, fun ln hln => State.unmapBlock_rows n.isLt g hln, fun G' hG' => ?_, (State.foldl_dropBlock_frame _ _ _).2.1⟩
    have hold := State.unmapBlock_xhold group (s.members T) n.toNat
    rw [hG'] at hold
    exact Option.some.inj hold
end

section
/-! SUPPORT. SPAWN, ESC, CRET and partial groups outside deterministic launches (R209 to R211, R217 to R219). -/

namespace Sys2Proof.Machine

open Sys2Proof

/-! ## SPAWN (R209 to R211) -/

/-- A next team index is taken from the launch and leaves the units that wait. -/
theorem State.takeIndex_pending (s : State) (p : Nat) (lnum : Word) : (s.takeIndex p lnum).2.pending = s.pending := by
  unfold State.takeIndex
  split <;> rfl

/-- A lane of SPAWN fails where its descriptor is poisoned or out of range, or where the depth or the list allows no more. -/
theorem State.spawnLane_fails {s : State} {T : Team} {d : Nat × Bool}
    (h : d.2 = true ∨ taskOk d.1 = false ∨ 8 ≤ T.depth ∨ Config.spawnMax ≤ s.spawnCount T.part) (p : PReg) (ln : Ln) :
    s.spawnLane T p ln d = s.setPred ln p false := by
  have fails : (d.2 || !taskOk d.1 || decide (T.depth ≥ 8) || decide (s.spawnCount T.part ≥ Config.spawnMax)) = true := by
    rcases h with h | h | h | h <;> simp [h]
  unfold State.spawnLane
  rw [fails]
  rfl

/-- Else its task joins the list. -/
theorem State.spawnLane_adds {s : State} {T : Team} {d : Nat} (hd : taskOk d = true) (depth : T.depth < 8)
    (room : s.spawnCount T.part < Config.spawnMax) (p : PReg) (ln : Ln) :
    s.spawnLane T p ln (d, false) = (s.addTask T ln d).setPred ln p true := by
  have fails : (false || !taskOk d || decide (T.depth ≥ 8) || decide (s.spawnCount T.part ≥ Config.spawnMax)) = false := by
    rw [hd, decide_eq_false (Nat.not_le.mpr depth), decide_eq_false (Nat.not_le.mpr room)]
    rfl
  unfold State.spawnLane
  rw [fails]
  rfl

/-- SPAWN whose descriptors are there at once (R210). -/
theorem exec_spawn {s : State} {T : Team} {g : Nat} {m : BitVec 32} (hAt : s.AtLane T g m) (hdet : s.isDet T = false) {i : Iss}
    {p : PReg} {a : VReg} {off : COp} {accs : List (Ln × (Nat × Bool))}
    (hready : ∀ ln ∈ s.actors T i, s.Ready T.id ln { src := baseRegs .global a ++ off.regs })
    (hknown : ∀ ln ∈ s.actors T i, s.unknown ln { src := baseRegs .global a ++ off.regs } = false)
    (hlie : (s.actors T i).map (fun ln => (ln, (s.objectAt false T ln a off 32 1).2)) = accs.map fun x => (x.1, .ok x.2))
    (hnow : s.readsNow T (s.actors T i) fun ln => [(s.ea T ln .global a off, 32)]) :
    exec (.spawn i p a off) s = .next (
      let w := s.afterReads T (s.actors T i) fun ln => [(s.ea T ln .global a off, 32)]
      let u := accs.foldl (fun u x => u.spawnLane T p x.1 x.2) w
      if w.spawnCount T.part < u.spawnCount T.part ∧ Config.spawnHigh < u.spawnCount T.part then
        (u.retire []).holdOut T.id g (accs.map fun x => x.1.l) .spawnHold
      else u.retire []) := by
  obtain ⟨lanes, -⟩ := lanes_of_map_eq hlie
  have course := State.SameCourse.afterReads s T (s.actors T i) fun ln => [(s.ea T ln .global a off, 32)]
  have here : (s.afterReads T (s.actors T i) fun ln => [(s.ea T ln .global a off, 32)]).curGroup = g :=
    State.curGroup_of_members (by rw [course.cur]; exact hAt.here)
  have reads : s.objectReads false T a off 32 = fun ln => [(s.ea T ln .global a off, 32)] := rfl
  show s.spawnNow false i p a off = _
  unfold State.spawnNow
  rw [State.ordered_runs hAt.team (fun _ _ => rfl) hready hknown hlie]
  dsimp only
  rw [← lanes, reads, State.withReads_now hnow, State.atTurn_of_not_det ((course.isDet T).trans hdet), here]
  simp only [Bool.and_eq_true, decide_eq_true_eq]

/-! ## ESC (R218) -/

/-- ESC whose lanes all find what they need, outside deterministic launches. -/
theorem exec_esc {s : State} {T : Team} {g : Nat} {m : BitVec 32} (hAt : s.AtLane T g m) (hdet : s.isDet T = false) {i : Iss}
    {a : VReg} (h : ∀ ln ∈ s.actors T i, s.escDo T ln a ≠ .wait ∧ ∀ c, s.escDo T ln a ≠ .bad c) (p : PReg) :
    exec (.esc i p a) s = .next (
      let gone := (s.actors T i).filter fun ln => match s.escDo T ln a with | .go .. => true | _ => false
      s.prompted ((((s.actors T i).foldl (fun u ln => u.escLane T ln p (s.escDo T ln a)) s).retire
        (gone.map fun ln => (ln.g, ln.l))).exitLanes T.id g (gone.map (·.l)) false) T.id) := by
  have waits : (((s.actors T i).map fun ln => (ln, s.escDo T ln a)).any fun x => x.2 == .wait) = false := by
    rw [List.any_eq_false]
    intro x hx
    obtain ⟨ln, hln, rfl⟩ := List.mem_map.mp hx
    exact fun he => (h ln hln).1 (eq_of_beq he)
  show s.escNow false i p a = _
  unfold State.escNow
  rw [hAt.team]
  dsimp only
  rw [List.filterMap_eq_nil_iff.mpr ?noFault, firstOf_nil]
  case noFault =>
    intro x hx
    obtain ⟨ln, hln, rfl⟩ := List.mem_map.mp hx
    dsimp only
    split
    · next c hc => exact absurd hc ((h ln hln).2 c)
    · rfl
  dsimp only
  rw [waits, if_neg Bool.false_ne_true, State.atTurn_of_not_det hdet, hAt.curGroup_eq]
  simp only [List.foldl_map, List.filter_map, List.map_map]
  rfl

/-! ## CRET (R219) -/

/-- CRET whose lanes all have an item and a place for its result, outside deterministic launches. -/
theorem exec_cret {s : State} {T : Team} {g : Nat} {m : BitVec 32} (hAt : s.AtLane T g m) (hdet : s.isDet T = false) {i : Iss}
    {a : VReg} {oks : List (Ln × (Held × Nat × Nat))}
    (h : (s.actors T i).map (fun ln => (ln, s.cretDo T ln a)) = oks.map fun x => (x.1, .ok (some x.2))) :
    exec (.cret i a) s = .next (
      let sizes := (oks.map fun x => x.2.2.2).eraseDups
      let u := sizes.foldl (fun u size => u.sendCret T g size ((oks.filter fun x => x.2.2.2 == size).map fun x =>
        (x.1, s.cretAccs T x.1 a x.2.1 x.2.2.1 x.2.2.2)))
        (oks.foldl (fun u x => u.reachRung T x.2.1.casc.toNat x.2.1.rung) (s.retire ((s.actors T i).map fun ln => (ln.g, ln.l))))
      u.awaitAccess T.id g (u.nextId - 1) ((s.actors T i).map (·.l))) := by
  show execCret i a s = _
  unfold execCret
  rw [hAt.team]
  dsimp only
  rw [h]
  simp only [List.filterMap_map, List.length_map]
  rw [List.filterMap_eq_nil_iff.mpr fun x _ => by rfl, firstOf_nil, filterMap_eq_self fun x _ => by rfl]
  dsimp only
  rw [if_neg (Nat.lt_irrefl _), hAt.curGroup_eq, hdet, if_neg Bool.false_ne_true]

end Sys2Proof.Machine

open Sys2Proof Sys2Proof.Machine

/-- Settles O39: SPAWN, ESC and CRET run where no lane faults or waits, a lane of SPAWN adds its task or fails, and a partial group that is
due is launched. -/
theorem tasks : Obligations.Tasks := by
  unfold Obligations.Tasks
  intro i p a off s T g m hAt hdet acts addr
  refine ⟨?spawn, ?lane, ?esc, ?cret, ?partialGroup⟩
  case spawn =>
    intro accs hlanes hlie reads hnow w u
    exact exec_spawn hAt hdet (fun ln hln => (hlanes ln hln).1) (fun ln hln => (hlanes ln hln).2) hlie hnow
  case lane =>
    intro ln d
    refine ⟨fun hd depth room => ⟨State.spawnLane_adds hd depth room p ln, ?_⟩,
      fun h => State.spawnLane_fails (.inr h) p ln, State.spawnLane_fails (.inl rfl) p ln⟩
    refine ⟨_, congrArg (· ++ [_]) (State.takeIndex_pending s T.part T.lnum), rfl, rfl, rfl, rfl, rfl, rfl, rfl, rfl⟩
  case esc => exact fun h => exec_esc hAt hdet h p
  case cret => exact fun oks h => exec_cret hAt hdet h
  case partialGroup =>
    intro n k hk due
    show execPartialGroup n s = _
    unfold execPartialGroup
    rw [hk]
    exact if_pos due
end

section
/-! SUPPORT. Steps of task queues and cascades (R213, R216): how they leave the core, and what each comes to at the home of its object. -/

namespace Sys2Proof.Machine

open Sys2Proof

/-! ## QENQ and QDEQ leave the core (R213) -/

/-- QENQ whose lanes all find their object. -/
theorem exec_qenq {s : State} {T : Team} {g : Nat} {m : BitVec 32} (hAt : s.AtLane T g m) (hdet : s.isDet T = false) {i : Iss}
    {p : PReg} {a b : VReg} {off : COp} {accs : List (Ln × Place)}
    (hready : ∀ ln ∈ s.actors T i, s.Ready T.id ln { src := baseRegs .global a ++ off.regs ++ span b 4 })
    (hknown : ∀ ln ∈ s.actors T i, s.unknown ln { src := baseRegs .global a ++ off.regs } = false)
    (hlie : (s.actors T i).map (fun ln => (ln, (s.stepAt (.qenq p) i a off T ln).2)) = accs.map fun x => (x.1, .ok x.2)) :
    exec (.qenq i p a off b) s =
      .next (s.sendStep T g (flightOf s T g (.qenq p) 64 0 (accs.map fun x => stepLane x.1 x.2 (s.data x.1 b 4)))) := by
  show s.qenqNow false i p a off b = _
  unfold State.qenqNow
  rw [State.ordered_runs hAt.team (fun _ _ => rfl) hready hknown hlie]
  dsimp only
  rw [State.atTurn_of_not_det hdet, hAt.curGroup_eq, if_neg Bool.false_ne_true]

/-- QDEQ whose lanes all find their object: its registers are pending, and land where they are now. -/
theorem exec_qdeq {s : State} {T : Team} {g : Nat} {m : BitVec 32} (hAt : s.AtLane T g m) (hdet : s.isDet T = false) {i : Iss}
    {p : PReg} {d a : VReg} {off : COp} {accs : List (Ln × Place)}
    (hready : ∀ ln ∈ s.actors T i, s.Ready T.id ln { src := baseRegs .global a ++ off.regs, dst := span d 4 })
    (hknown : ∀ ln ∈ s.actors T i, s.unknown ln { src := baseRegs .global a ++ off.regs } = false)
    (hlie : (s.actors T i).map (fun ln => (ln, (s.stepAt (.qdeq p d) i a off T ln).2)) = accs.map fun x => (x.1, .ok x.2)) :
    exec (.qdeq i p d a off) s = .next (
      let u := accs.foldl (fun u x => (List.range 4).foldl (fun u j => u.pendReg T.id x.1.g x.1.l (d.toNat + j)) u) s
      u.sendStep T g { flightOf s T g (.qdeq p d) 64 4 (accs.map fun x =>
        { stepLane x.1 x.2 0#512 with dst := s.landing T.id x.1.g x.1.l d.toNat }) with taint := false }) := by
  obtain ⟨lanes, -⟩ := lanes_of_map_eq hlie
  show s.qdeqNow false i p d a off = _
  unfold State.qdeqNow
  rw [State.ordered_runs hAt.team (fun _ _ => rfl) hready hknown hlie]
  dsimp only
  rw [← lanes, State.withRows_own fun ln hln => (hready ln hln).owned, State.atTurn_of_not_det hdet, hAt.curGroup_eq,
    if_neg Bool.false_ne_true]

/-! ## CSUB leaves the core (R216) -/

/-- The registers of the frame that a lane's CSUB supplies are there, sound and not pending. -/
def State.FrameReady (s : State) (T : Team) (a b : VReg) (off : COp) (ln : Ln) : Prop :=
  let n := s.frameLen T ln (s.ea T ln .global a off) 0
  b.toNat + n ≤ 256 ∧ ∀ r ∈ frameRegs b n, (ln.key? r).isSome = true ∧ (s.rd ln r).poison = false ∧ (s.rd ln r).pend = false

/-- Lanes with the frames that they supply. -/
def State.frames (s : State) (T : Team) (a b : VReg) (off : COp) (lns : List Ln) : List (Ln × List Nat) :=
  lns.map fun ln => (ln, frameRegs b (s.frameLen T ln (s.ea T ln .global a off) 0))

section
variable {s : State} {T : Team} {a b : VReg} {off : COp} {lns : List Ln}

theorem State.mem_frames {x : Ln × List Nat} (h : ∀ ln ∈ lns, s.FrameReady T a b off ln) (hx : x ∈ s.frames T a b off lns) :
    x.1 ∈ lns ∧ ∀ r ∈ x.2, (x.1.key? r).isSome = true ∧ (s.rd x.1 r).poison = false ∧ (s.rd x.1 r).pend = false := by
  obtain ⟨ln, hln, rfl⟩ := List.mem_map.mp hx
  exact ⟨hln, (h ln hln).2⟩

theorem State.framePending_of_ready (h : ∀ ln ∈ lns, s.FrameReady T a b off ln) : s.framePending (s.frames T a b off lns) = false := by
  unfold State.framePending
  rw [List.any_eq_false]
  intro x hx
  rw [List.any_eq_true]
  rintro ⟨r, hr, pend⟩
  obtain ⟨-, -, arrived⟩ := (State.mem_frames h hx).2 r hr
  exact Bool.false_ne_true (arrived.symm.trans pend)

theorem State.frames_allotted (h : ∀ ln ∈ lns, s.FrameReady T a b off ln) :
    ((s.frames T a b off lns).filter fun x => x.2.any fun n => decide (n < 256) && (x.1.key? n).isNone) = [] := by
  rw [List.filter_eq_nil_iff]
  intro x hx
  rw [List.any_eq_true]
  rintro ⟨r, hr, null⟩
  obtain ⟨there, -, -⟩ := (State.mem_frames h hx).2 r hr
  rw [Bool.and_eq_true, ← Option.not_isSome, there] at null
  exact Bool.false_ne_true null.2

theorem State.frames_sound {addr : List Nat} (h : ∀ ln ∈ lns, s.FrameReady T a b off ln)
    (haddr : ∀ ln ∈ lns, ∀ r ∈ addr, (s.rd ln r).poison = false) :
    ((s.frames T a b off lns).filter fun x => (addr ++ x.2).any fun n => (s.rd x.1 n).poison) = [] := by
  rw [List.filter_eq_nil_iff]
  intro x hx
  obtain ⟨hln, frame⟩ := State.mem_frames h hx
  rw [any_poison_false fun r hr => (List.mem_append.mp hr).elim (haddr x.1 hln r) fun hf => (frame r hf).2.1]
  exact Bool.false_ne_true

end

/-- CSUB whose lanes all find their object and have their frames. -/
theorem exec_csub {s : State} {T : Team} {g : Nat} {m : BitVec 32} (hAt : s.AtLane T g m) (hdet : s.isDet T = false) {i : Iss}
    {p : PReg} {d a b : VReg} {off : COp} {accs : List (Ln × Place)}
    (hready : ∀ ln ∈ s.actors T i, s.Ready T.id ln { src := baseRegs .global a ++ off.regs, dst := [d.toNat] })
    (hframe : ∀ ln ∈ s.actors T i, s.FrameReady T a b off ln)
    (hknown : ∀ ln ∈ s.actors T i, s.unknown ln { src := baseRegs .global a ++ off.regs } = false)
    (hlie : (s.actors T i).map (fun ln => (ln, (s.csubAt p d i a off T ln).2)) = accs.map fun x => (x.1, .ok x.2)) :
    exec (.csub i p d a off b) s = .next (s.sendStep T g (flightOf s T g (.csub p d) 64 0 (accs.map fun x =>
      stepLane x.1 x.2 (BitVec.ofNat 512 (fromWords ((s.words x.1 (frameRegs b 16)).map (·.toNat))))))) := by
  obtain ⟨lanes, -⟩ := lanes_of_map_eq hlie
  have addrKnown : ∀ ln ∈ s.actors T i,
      ((baseRegs .global a ++ off.regs).all fun r => (ln.key? r).isSome && !(s.rd ln r).poison) = true := by
    intro ln hln
    rw [List.all_eq_true]
    intro r hr
    have there := (hready ln hln).allotted r (List.mem_append_left _ (List.mem_append_left _ hr))
    rw [there, (hready ln hln).sound r hr]
    rfl
  show s.csubNow false i p d a off b = _
  unfold State.csubNow
  rw [hAt.team]
  dsimp only
  -- every lane knows its address, so that its frame is the one that its cascade asks for
  rw [show ((s.actors T i).map fun ln => (ln, frameRegs b _)) = s.frames T a b off (s.actors T i) from
    List.map_congr_left fun ln hln => by rw [if_pos (addrKnown ln hln)]]
  rw [State.framePending_of_ready hframe, State.frames_allotted hframe, State.frames_sound hframe fun ln hln => (hready ln hln).sound]
  simp only [List.map_nil, List.isEmpty_nil, Bool.not_true, Bool.and_false, Bool.false_eq_true, if_false]
  rw [State.ordered_runs hAt.team ?short hready hknown hlie]
  case short =>
    intro ln hln
    refine decide_eq_false (Nat.not_lt.mpr ?_)
    rw [if_pos (addrKnown ln hln)]
    exact (hframe ln hln).1
  rw [← lanes, State.withRows_own fun ln hln => (hready ln hln).owned, State.atTurn_of_not_det hdet, hAt.curGroup_eq]

/-! ## QENQ at the home (R213) -/

section
variable {s : State} {T : Team} {f : Flight} {x : LaneAcc} {q : QObj}

theorem State.qenqStep_none (h : s.queueAt T x = none) (p : PReg) : s.qenqStep T f x p = .done (s.stepPred T f x p false) false := by
  unfold State.qenqStep
  rw [h]

theorem State.qenqStep_full (h : s.queueAt T x = some q) (full : q.depth = q.cap) (p : PReg) :
    s.qenqStep T f x p = .done ((s.knowQueue T x.ia).stepPred T f x p false) false := by
  unfold State.qenqStep
  rw [h]
  exact if_pos full

theorem State.qenqStep_fault (h : s.queueAt T x = some q) (room : q.depth ≠ q.cap) {c : Code}
    (bad : (s.knowQueue T x.ia).ringKey T (q.entry q.tail) needW = .error c) (p : PReg) :
    s.qenqStep T f x p = .fault c (q.entry q.tail) := by
  unfold State.qenqStep
  rw [h]
  dsimp only
  rw [if_neg room, bad]

theorem State.qenqStep_room (h : s.queueAt T x = some q) (room : q.depth ≠ q.cap) {ia k : Nat}
    (entry : (s.knowQueue T x.ia).ringKey T (q.entry q.tail) needW = .ok (ia, k)) (free : (s.knowQueue T x.ia).locked ia 16 = false)
    (p : PReg) : s.qenqStep T f x p =
      let q1 := { q with tail := (q.tail + 1) % 2 ^ 32 }
      let w := (s.knowQueue T x.ia).stepWrite T f x.lane ia k 16 (x.data.toNat % 2 ^ 128)
      let u := (w.stepWrite T f x.lane x.ia (w.accKey x + 4) 4 q1.tail).stepPred T f x p true
      if q1.hiwm < q1.depth then .done (u.setOver T f x true) true else .done u false := by
  unfold State.qenqStep
  rw [h]
  dsimp only
  rw [if_neg room, entry]
  dsimp only
  rw [free, if_neg Bool.false_ne_true]

/-! ## QDEQ at the home (R213, R314) -/

theorem State.qdeqStep_none (h : s.queueAt T x = none) (p : PReg) (d : VReg) :
    s.qdeqStep T f x p d = .done ((s.unpend x.dst 4).stepPred T f x p false) false := by
  unfold State.qdeqStep
  rw [h]

theorem State.qdeqStep_empty (h : s.queueAt T x = some q) (empty : q.depth = 0) (p : PReg) (d : VReg) :
    s.qdeqStep T f x p d = .done (((s.knowQueue T x.ia).unpend x.dst 4).stepPred T f x p false) false := by
  unfold State.qdeqStep
  rw [h]
  exact if_pos empty

theorem State.qdeqStep_fault (h : s.queueAt T x = some q) (more : q.depth ≠ 0) {c : Code}
    (bad : (s.knowQueue T x.ia).ringKey T (q.entry q.head) needR = .error c) (p : PReg) (d : VReg) :
    s.qdeqStep T f x p d = .fault c (q.entry q.head) := by
  unfold State.qdeqStep
  rw [h]
  dsimp only
  rw [if_neg more, bad]

theorem State.qdeqStep_entry (h : s.queueAt T x = some q) (more : q.depth ≠ 0) {ia k : Nat}
    (entry : (s.knowQueue T x.ia).ringKey T (q.entry q.head) needR = .ok (ia, k)) (p : PReg) (d : VReg) : s.qdeqStep T f x p d =
      let k0 := s.knowQueue T x.ia
      let q1 := { q with head := (q.head + 1) % 2 ^ 32 }
      let w := k0.reach ia k (s.standsOn T) anyPos
      let u := w.stepWrite T f x.lane x.ia (w.accKey x) 4 q1.head
      let u := if q.isOver = true ∧ q1.depth ≤ q1.lowm then u.setOver T f x false else u
      .done ((u.landAt x.dst 4 (BitVec.ofNat 128 (k0.readKey k 16).1) (k0.readKey k 16).2).modThread T.id f.group x.lane fun th =>
        { (th.acquired w.gt f.id x.lane).setQ p true with
          taint := (List.range 4).foldl (fun b j => setBit b (d.toNat + j) false) th.taint,
          unkV := (List.range 4).foldl (fun b j => setBit b (d.toNat + j) false) th.unkV }) false := by
  unfold State.qdeqStep
  rw [h]
  dsimp only
  rw [if_neg more, entry]
  rfl

/-! ## CSUB at the home (R216) -/

theorem State.csubStep_fault {c : Code} (h : s.cascadeAt T f.group x.lane x.va.toNat 0 = .error c) (p : PReg) (d : VReg) :
    s.csubStep T f x p d = .fault c x.va.toNat := by
  unfold State.csubStep
  rw [h]

theorem State.csubStep_invalid {hdr : Option (Nat × Nat)}
    (h : s.cascadeAt T f.group x.lane x.va.toNat 0 = .ok { header := hdr, rung := none }) (p : PReg) (d : VReg) :
    s.csubStep T f x p d =
      .done (((s.reachRung T x.va.toNat 0).wr T.id f.group x.lane d.toNat allOnes false).stepPred T f x p false) false := by
  unfold State.csubStep
  rw [h]

/-- The item that a lane's CSUB hands over: the frame from the lane's data, the count as it stood, and where and when. -/
def csubItem (T : Team) (f : Flight) (x : LaneAcc) (r : Rung) (index time : Nat) : Item :=
  { casc := x.va, rung := 0, index := BitVec.ofNat 32 index,
    frame := (List.range r.frame).map fun j => BitVec.ofNat 32 (x.data.toNat / 2 ^ (32 * j)), time, core := T.core, group := f.group,
    lane := x.lane, depth := T.depth, near := T.core :: T.cores, num := 0 }

theorem State.csubStep_counts {hdr : Option (Nat × Nat)} {r : Rung}
    (h : s.cascadeAt T f.group x.lane x.va.toNat 0 = .ok { header := hdr, rung := some r }) (p : PReg) (d : VReg) :
    s.csubStep T f x p d =
      let n := s.bytes (s.accKey x + 4) 4
      let u := (s.reachRung T x.va.toNat 0).stepWrite T f x.lane x.ia (s.accKey x + 4) 4 ((n + 1) % 2 ^ 32)
      .done (((u.deliver T.part T.lnum (csubItem T f x r n u.gt)).wr T.id f.group x.lane d.toNat (BitVec.ofNat 32 n) false).stepPred
        T f x p true) false := by
  unfold State.csubStep
  rw [h]
  rfl

end

/-! ## Items in packers (R217) -/

theorem mem_insertItem (l : List Item) (x : Item) : x ∈ insertItem l x := by
  induction l with
  | nil => exact List.mem_cons_self
  | cons y l ih =>
    unfold insertItem
    split
    · exact List.mem_cons_self
    · exact List.mem_cons_of_mem y ih

/-- The packer of a rung, found or made, is for it. -/
theorem Packer.isFor_getD (ks : List Packer) (p : Nat) (lnum : Word) (casc : Dword) (rung : Nat) :
    ((ks.find? (·.isFor p lnum casc rung)).getD { part := p, lnum, casc, rung, items := [] }).isFor p lnum casc rung = true := by
  cases h : ks.find? (·.isFor p lnum casc rung) with
  | some K => exact List.find?_some (p := fun K : Packer => K.isFor p lnum casc rung) h
  | none => simp [Packer.isFor]

/-- An item delivered, with its number, is held by a packer of its rung. -/
theorem State.deliver_holds (s : State) (p : Nat) (lnum : Word) (x : Item) :
    ∃ num, ∃ K ∈ (s.deliver p lnum x).packers, K.isFor p lnum x.casc x.rung = true ∧ { x with num := num } ∈ K.items := by
  unfold State.deliver
  dsimp only
  refine ⟨_, _, List.mem_append_right _ (List.mem_singleton_self _), ?_, mem_insertItem _ _⟩
  exact Packer.isFor_getD _ p lnum x.casc x.rung

end Sys2Proof.Machine

open Sys2Proof Sys2Proof.Machine

/-- Settles O40: the three instructions send their steps, and each step is one of its cases at the home. -/
theorem queueSteps : Obligations.QueueSteps := by
  unfold Obligations.QueueSteps
  intro i p d a b off s T addr
  refine ⟨?sent, fun f x => ⟨?noQueue, ?queue, ?csubFault, ?csubInvalid, ?csubCounts⟩⟩
  case sent =>
    intro g m accs hAt hdet hknown lie
    exact ⟨fun hlie hready => exec_qenq hAt hdet hready hknown hlie, fun hlie hready => exec_qdeq hAt hdet hready hknown hlie,
      fun hlie h => exec_csub hAt hdet (fun ln hln => (h ln hln).1) (fun ln hln => (h ln hln).2) hknown hlie⟩
  case noQueue => exact fun h => ⟨State.qenqStep_none h p, State.qdeqStep_none h p d⟩
  case queue =>
    intro q h k0
    exact ⟨fun full => State.qenqStep_full h full p, fun empty => State.qdeqStep_empty h empty p d,
      fun ia k room entry free => State.qenqStep_room h room entry free p, fun c room bad => State.qenqStep_fault h room bad p,
      fun ia k more entry => State.qdeqStep_entry h more entry p d, fun c more bad => State.qdeqStep_fault h more bad p d⟩
  case csubFault => exact fun c h => State.csubStep_fault h p d
  case csubInvalid => exact fun hdr h => State.csubStep_invalid h p d
  case csubCounts =>
    intro hdr r h k n u
    exact ⟨csubItem T f x r n u.gt, rfl, rfl, rfl, rfl, rfl, rfl, rfl, rfl, rfl, State.csubStep_counts h p d,
      State.deliver_holds u T.part T.lnum _⟩
end

section
/-! SUPPORT. The matrix instructions at their execution (R221, R222, R230 to R243): when `State.mxWide` gives its function's answer, and when
it is the ILLOP of a team without the declaration. -/

namespace Sys2Proof.Machine

open Sys2Proof

/-! ## What each instruction is -/

theorem exec_mma_eq (i : Iss) (d : SlotN) (a : VReg) (b : RecN) (c : COp) (nb : BitVec 4) (pair : Bool) (s : State) :
    exec (.mma i d a b c nb pair) s = execMma i d a b c nb pair s := rfl

theorem exec_mmag_eq (i : Iss) (d : SlotN) (a : VReg) (b : RecN) (c : COp) (nb : BitVec 4) (s : State) :
    exec (.mmag i d a b c nb) s = execMmag i d a b c nb s := rfl

theorem exec_mwr_eq (i : Iss) (d : SlotN) (a : VReg) (c : COp) (i32 : Bool) (s : State) :
    exec (.mwr i d a c i32) s = execMwr i d a c i32 s := rfl

theorem exec_mscl_eq (i : Iss) (d : SlotN) (a : VReg) (s : State) : exec (.mscl i d a) s = execMscl i d a s := rfl

theorem exec_mrd_eq (i : Iss) (v : VReg) (sl : SlotN) (kb : KReg) (c : COp) (fmt : MrdFmt) (e5 scl guid : Bool) (s : State) :
    exec (.mrd i v sl kb c fmt e5 scl guid) s = execMrd i v sl kb c fmt e5 scl guid s := rfl

theorem exec_mchk_eq (i : Iss) (v : VReg) (sl : SlotN) (clr : Bool) (s : State) :
    exec (.mchk i v sl clr) s = execMchk i v sl clr s := rfl

/-! ## Operands (R222) -/

theorem COp.scalarRegs_eq_regs (c : COp) : c.scalarRegs = c.regs := by cases c <;> rfl

/-- The leading lane can read the scalars. -/
theorem State.Supplies.lead {s : State} {T : Team} {c : List Nat} (h : s.Supplies T c) :
    ∀ ln ∈ (s.members T).take 1, ∀ r ∈ c, (ln.key? r).isSome = true ∧ (s.rd ln r).poison = false := by
  intro ln hln
  refine h ln ?_
  unfold State.leader
  cases hm : s.members T with
  | nil => rw [hm] at hln; cases hln
  | cons x xs =>
    rw [hm] at hln
    exact congrArg some (List.mem_singleton.mp hln).symm

/-- In a team with the declaration, where no lane faults, the instruction does what its function says. -/
theorem State.mxWide_runs {s s' : State} {T : Team} (hT : s.team? s.cur.team = some T) (mtx : s.isMtx T = true) {n : Names} {c : List Nat}
    {f : Team → List Ln → Except (Code × List Ln) State} (scalars : s.Supplies T c)
    (allotted : ∀ ln ∈ s.members T, ∀ r ∈ n.src ++ n.dst ++ n.also, (ln.key? r).isSome = true)
    (sound : ∀ ln ∈ s.members T, ∀ r ∈ n.src, (s.rd ln r).poison = false) (hf : f T (s.members T) = .ok s') :
    s.mxWide n c f = .next s' := by
  have nulls : nullLanes (s.members T) (n.src ++ n.dst ++ n.also) = [] := nullLanes_nil allotted
  have bad : ((s.members T).filter fun ln => n.src.any fun r => (s.rd ln r).poison) = [] := by
    rw [List.filter_eq_nil_iff]
    intro ln hln
    rw [any_poison_false (sound ln hln)]
    exact Bool.false_ne_true
  have leadNulls : nullLanes ((s.members T).take 1) c = [] := nullLanes_nil fun ln h r hr => (scalars.lead ln h r hr).1
  have leadBad : (((s.members T).take 1).any fun ln => c.any fun r => (s.rd ln r).poison) = false := by
    rw [List.any_eq_false]
    intro ln hln
    rw [any_poison_false fun r hr => (scalars.lead ln hln r hr).2]
    exact Bool.false_ne_true
  unfold State.mxWide
  simp only [hT, mtx, nulls, bad, leadNulls, leadBad, hf, List.isEmpty_nil, Bool.not_true, Bool.false_eq_true, if_false]

/-- The same for an instruction whose members hold what it reads. -/
theorem State.mxWide_held {s s' : State} {T : Team} (hT : s.team? s.cur.team = some T) (mtx : s.isMtx T = true) {src c : List Nat}
    {f : Team → List Ln → Except (Code × List Ln) State} (scalars : s.Supplies T c)
    (held : ∀ ln ∈ s.members T, s.Ready T.id ln { src }) (hf : f T (s.members T) = .ok s') : s.mxWide { src } c f = .next s' :=
  State.mxWide_runs hT mtx scalars (fun ln h => (held ln h).allotted) (fun ln h => (held ln h).sound) hf

/-- The same for an instruction that tests the registers which the unit will write. -/
theorem State.mxWide_gives {s s' : State} {T : Team} (hT : s.team? s.cur.team = some T) (mtx : s.isMtx T = true) {dst c : List Nat}
    {flt : Word} {width : Nat} {f : Team → List Ln → Except (Code × List Ln) State} (scalars : s.Supplies T c)
    (gives : ∀ ln ∈ s.members T, s.Ready T.id ln { dst }) (hf : f T (s.members T) = .ok s') :
    s.mxWide { also := dst, flt, width } c f = .next s' :=
  State.mxWide_runs hT mtx scalars (fun ln h r hr => (gives ln h).allotted r (List.mem_append_left _ hr))
    (fun _ _ _ hr => nomatch hr) hf

/-- Destinations in rows of their own need no copies (R18). -/
theorem State.cowAll_gives {s : State} {T : Team} {dst : List Nat} (gives : ∀ ln ∈ s.members T, s.Ready T.id ln { dst }) :
    s.cowAll T.id (rowsOf (s.members T) dst) = .ok s :=
  State.cowAll_own _ (State.rowsOf_own fun ln h => (gives ln h).owned)

/-! ## Teams without the declaration (R221) -/

/-- The group of the first member, where some lane takes part. -/
theorem State.AtWide.curGroup_mem {s : State} {T : Team} (h : s.AtWide T) (nonempty : s.members T ≠ []) :
    ∃ x ∈ s.cur.members, ∃ G, s.curGroup = x.1 ∧ T.group? x.1 = some G := by
  cases hm : s.cur.members with
  | nil => exact absurd (by unfold State.members; rw [hm]; rfl) nonempty
  | cons x xs =>
    have hx : x ∈ s.cur.members := hm ▸ List.mem_cons_self
    obtain ⟨G, hG⟩ := Option.isSome_iff_exists.mp (h.groups x hx)
    refine ⟨x, List.mem_cons_self, G, ?_, hG⟩
    unfold State.curGroup
    rw [hm]
    rfl

/-- It is ILLOP in every lane, before any operand is tested (log entry 25). -/
theorem State.mxWide_illop {s : State} {T : Team} (hAt : s.AtWide T) (mtx : s.isMtx T = false) (nonempty : s.members T ≠ [])
    (plain : ∀ x ∈ s.cur.members, ∀ G, T.group? x.1 = some G → G.spec = none) (n : Names) (c : List Nat)
    (f : Team → List Ln → Except (Code × List Ln) State) :
    s.mxWide n c f = .next (s.raise (s.faultOf .illop (s.members T) { flt := n.flt, width := n.width })) := by
  obtain ⟨x, hx, G, hcur, hG⟩ := hAt.curGroup_mem nonempty
  have group : s.group? T.id s.curGroup = some G := by
    unfold State.group?
    rw [State.team?_id hAt.team, hAt.team, hcur]
    exact hG
  unfold State.mxWide
  simp only [hAt.team, mtx, Bool.not_false, if_true]
  rw [State.raising_of_no_spec group (plain x hx G hG)]
  rfl

/-! ## MMA and MMAG (R231 to R233, R236) -/

/-- A product passes its checks with a live record only (R231). -/
theorem recLive_of_mmaOk {m : Mx} {r : RecW} {d : SlotN} {a : VReg} {pos : Word} {nb : Nat} (h : mmaOk m r d a pos nb = true) :
    recLive r = true := by
  unfold mmaOk at h
  simp only [Bool.and_eq_true] at h
  exact h.1.1.1.1.1

/-- The registers of the rows that a product with a live record reads (R230). -/
theorem State.rowRegs_of_live {s : State} {T : Team} (hT : s.team? s.cur.team = some T) {b : RecN} (a : VReg)
    (live : recLive (vget (s.mxOf T.core).recs b.toNat (.replicate 8 0#32)) = true) :
    s.rowRegs b a = span a (rowWidth (recAfmt (vget (s.mxOf T.core).recs b.toNat (.replicate 8 0#32)))) := by
  unfold State.rowRegs
  simp only [hT, live, if_true]

/-- GDEG of the cv of a single execution set (R237). -/
def State.degrade (s : State) (t : Nat) (arr : Arr) : State :=
  match arr.cv? with
  | some cv => s.modTeam t fun T => { T with cvs := vset T.cvs cv.toNat { vget T.cvs cv.toNat cvReset with gdeg := true } }
  | none => s

section

variable {s : State} {T : Team} (hAt : s.AtWide T) (mtx : s.isMtx T = true)
include hAt mtx

section

variable {d : SlotN} {a : VReg} {b : RecN} {c : COp} {nb : BitVec 4} (scalars : s.Supplies T c.regs)
  (held : ∀ ln ∈ s.members T, s.Ready T.id ln
    { src := span a (rowWidth (recAfmt (vget (s.mxOf T.core).recs b.toNat (.replicate 8 0#32)))) })
  (ok : mmaOk (s.mxOf T.core) (vget (s.mxOf T.core).recs b.toNat (.replicate 8 0#32)) d a (s.scalar T .zero c) (nb.toNat + 1) = true)
include scalars held ok

/-- A product in a team with the declaration, whose checks pass and whose members hold their rows, does what its function says. -/
theorem State.mxWide_product {s' : State} {f : Team → List Ln → Except (Code × List Ln) State} (hf : f T (s.members T) = .ok s') :
    s.mxWide { src := s.rowRegs b a } c.regs f = .next s' := by
  rw [State.rowRegs_of_live hAt.team a (recLive_of_mmaOk ok)]
  exact State.mxWide_held hAt.team mtx scalars held hf

/-- MMA on its own core (R231). -/
theorem exec_mma (i : Iss) (atLeast : 1 ≤ s.cur.members.length) (few : s.cur.members.length ≤ 3) :
    exec (.mma i d a b c nb false) s =
      let r := vget (s.mxOf T.core).recs b.toNat (.replicate 8 0#32)
      let pos := s.scalar T .zero c
      let rows := s.latched T i.ru a (recAfmt r) s.cur.members
      .next (((s.setMx T.core rows.2).enqueue T (.mma d rows.1
        (s.readB T.core r b (bits pos.toNat 0 16) (bits pos.toNat 16 4) (nb.toNat + 1))) 32).retire []) := by
  rw [exec_mma_eq]
  unfold execMma
  refine State.mxWide_product hAt mtx scalars held ok ?_
  have enough : ¬ s.cur.members.length = 0 := by omega
  simp [ok, enough, Nat.not_lt.mpr few]

/-- MMA of a pair (R233): of the two, only the even core reads B. -/
theorem exec_mma_pair (i : Iss) (atLeast : 1 ≤ s.cur.members.length) (few : s.cur.members.length ≤ 3) (grid : T.grid = true)
    (partner : T.cores.contains (partnerCore T.core) = true) (own : T.cores.contains T.core = true)
    (agree : s.pairClash T (vget (s.mxOf T.core).recs b.toNat (.replicate 8 0#32)) = false) :
    exec (.mma i d a b c nb true) s =
      let r := vget (s.mxOf T.core).recs b.toNat (.replicate 8 0#32)
      let pos := s.scalar T .zero c
      let rows := s.latched T i.ru a (recAfmt r) s.cur.members
      .next (((s.setMx T.core rows.2).enqueue T (.pair d rows.1 b (nb.toNat + 16) pos
        (s.readB T.core r b (bits pos.toNat 0 16) (bits pos.toNat 16 4) (if T.core % 2 = 1 then 0 else nb.toNat + 1))) 32).retire []) := by
  rw [exec_mma_eq]
  unfold execMma
  refine State.mxWide_product hAt mtx scalars held ok ?_
  have enough : ¬ s.cur.members.length = 0 := by omega
  simp [ok, enough, Nat.not_lt.mpr few, grid, List.contains_iff_mem.mp partner, List.contains_iff_mem.mp own, agree]

/-- MMAG (R236, R237). -/
theorem exec_mmag (i : Iss) (size : s.cur.members.length = 2 ∨ s.cur.members.length = 4 ∨ s.cur.members.length = 6)
    (ok' : mmaOk (s.mxOf T.core) (vget (s.mxOf T.core).recs b.toNat (.replicate 8 0#32)) (d + 1#2) a (s.scalar T .zero c)
      (nb.toNat + 1) = true) : exec (.mmag i d a b c nb) s =
      let r := vget (s.mxOf T.core).recs b.toNat (.replicate 8 0#32)
      let pos := s.scalar T .zero c
      let rows := s.latched T i.ru a (recAfmt r) s.cur.members
      let n := s.cur.members.length
      let lo := (s.cur.members.take (n / 2)).any fun x => x.2 != 0#32
      let hi := (s.cur.members.drop (n / 2)).any fun x => x.2 != 0#32
      let mh := 32 * (n / 2)
      let u := (s.setMx T.core rows.2).enqueue T (.mmag d (rows.1.take mh) (rows.1.drop mh) lo hi
        (s.readB T.core r b (bits pos.toNat 0 16) (bits pos.toNat 16 4) (nb.toNat + 1))) (if 2 * mh ≤ 96 then 32 else 64)
      .next ((if lo = true ∧ hi = true then u else u.degrade T.id s.cur.arr).retire []) := by
  rw [exec_mmag_eq]
  unfold execMmag
  refine State.mxWide_product hAt mtx scalars held ok ?_
  have sizes : (s.cur.members.length == 2 || s.cur.members.length == 4 || s.cur.members.length == 6) = true := by
    simpa [or_assoc] using size
  simp only [sizes, ok, ok', halves, Bool.not_true, Bool.or_false, Bool.false_eq_true, if_false, Bool.and_eq_true]
  rfl

end

/-! ## Accumulator access (R239 to R243) -/

/-- MWR (R240). -/
theorem exec_mwr (i : Iss) (d : SlotN) {a : VReg} {c : COp} {i32 : Bool} (scalars : s.Supplies T c.regs)
    (held : ∀ ln ∈ s.members T, s.Ready T.id ln { src := span a 8 })
    (window : windowOk (s.scalar T .zero c).toNat 8 s.cur.members.length = true) (tag : (s.mxOf T.core).tag d = i32) :
    exec (.mwr i d a c i32) s =
      let pos := s.scalar T .zero c
      .next ((s.enqueue T (.mwr d i32 (bits pos.toNat 8 9) ((s.members T).map fun ln =>
        (bits pos.toNat 0 7 + elementOf (s.cur.members.map (·.1)) ln,
          (List.range 8).map fun j => (s.rd ln (a.toNat + j)).val))) 4).retire []) := by
  rw [exec_mwr_eq]
  unfold execMwr
  refine State.mxWide_held hAt.team mtx scalars held ?_
  simp [window, tag, State.slotRows, Function.comp_def]

/-- MSCL (R241). -/
theorem exec_mscl (i : Iss) {d : SlotN} {a : VReg} (held : ∀ ln ∈ s.members T, s.Ready T.id ln { src := [a.toNat] })
    (tag : (s.mxOf T.core).tag d = false) (few : s.cur.members.length ≤ 3) : exec (.mscl i d a) s =
      .next ((s.enqueue T (.mscl d ((s.members T).map fun ln =>
        (elementOf (s.cur.members.map (·.1)) ln, (s.rd ln a.toNat).val))) 32).retire []) := by
  rw [exec_mscl_eq]
  unfold execMscl
  refine State.mxWide_held hAt.team mtx (State.supplies_nil s T) held ?_
  simp [tag, Nat.not_lt.mpr few, State.slotRows, Function.comp_def]

/-- MRD (R242): its members wait for the unit. -/
theorem exec_mrd (i : Iss) {v : VReg} {sl : SlotN} (kb : KReg) {c : COp} {fmt : MrdFmt} (e5 scl : Bool) {guid : Bool}
    (scalars : s.Supplies T c.regs) (gives : ∀ ln ∈ s.members T, s.Ready T.id ln { dst := span v 8 })
    (window : windowOk (s.scalar T .zero c).toNat (mrdCols fmt) s.cur.members.length = true)
    (tags : guid = true → (s.mxOf T.core).tag sl = false ∧ (s.mxOf T.core).tag (sl + 1#2) = false) :
    exec (.mrd i v sl kb c fmt e5 scl guid) s =
      let pos := s.scalar T .zero c
      .next ((s.enqueue T (.mrd v sl fmt e5 (if scl then some (T.kreg kb.toNat) else none) (if guid then some T.gscale else none)
        (bits pos.toNat 0 7) (bits pos.toNat 8 9)) (if guid then 8 else 4)).park .matrix) := by
  have plain : (guid && ((s.mxOf T.core).tag sl || (s.mxOf T.core).tag (sl + 1#2))) = false := by
    cases guid with
    | false => rfl
    | true => rw [(tags rfl).1, (tags rfl).2]; rfl
  rw [exec_mrd_eq]
  unfold execMrd
  refine State.mxWide_gives hAt.team mtx scalars gives ?_
  simp only [window, plain, State.cowAll_gives gives, Bool.not_true, Bool.or_false, Bool.false_eq_true, if_false]
  rfl

/-- MCHK (R243): its members wait for the unit. -/
theorem exec_mchk (i : Iss) {v : VReg} (sl : SlotN) (clr : Bool) (gives : ∀ ln ∈ s.members T, s.Ready T.id ln { dst := [v.toNat] }) :
    exec (.mchk i v sl clr) s = .next ((s.enqueue T (.mchk v sl clr) 1).park .matrix) := by
  rw [exec_mchk_eq]
  unfold execMchk
  refine State.mxWide_gives hAt.team mtx (State.supplies_nil s T) gives ?_
  simp only [State.cowAll_gives gives]
  rfl

end

end Sys2Proof.Machine

open Sys2Proof Sys2Proof.Machine

/-- Settles O42: where the checks are met `State.mxWide` answers what the instruction's function says, which is the state with the
instruction in the queue; in a team without the declaration it is ILLOP whatever the function. -/
theorem matrixInstructions : Obligations.MatrixInstructions := by
  unfold Obligations.MatrixInstructions
  intro i d sl v a b kb c nb pair i32 e5 scl guid clr fmt s T hAt m r pos blocks lns n read rows held gives
  rw [COp.scalarRegs_eq_regs]
  refine ⟨fun mtx scalars => ⟨fun rowsHeld ok => ⟨?mma, ?pair, ?mmag⟩, ?mwr, ?mrd⟩, ?mscl, ?mchk, ?illop⟩
  case mma => exact exec_mma hAt mtx scalars rowsHeld ok i
  case pair => exact exec_mma_pair hAt mtx scalars rowsHeld ok i
  case mmag =>
    intro size ok'
    rw [exec_mmag hAt mtx scalars rowsHeld ok i size ok']
    unfold State.degrade
    cases s.cur.arr.cv? with
    | some cv => rfl
    | none => simp only [ite_self]; rfl
  case mwr => exact exec_mwr hAt mtx i d scalars
  case mrd => exact exec_mrd hAt mtx i kb e5 scl scalars
  case mscl => exact fun mtx => exec_mscl hAt mtx i
  case mchk => exact fun mtx => exec_mchk hAt mtx i sl clr
  case illop =>
    intro mtx nonempty plain
    have ill := State.mxWide_illop hAt mtx nonempty plain
    simp only [exec_mma_eq, exec_mmag_eq, exec_mwr_eq, exec_mscl_eq, exec_mrd_eq, exec_mchk_eq]
    exact ⟨ill _ _ _, ill _ _ _, ill _ _ _, ill _ _ _, ill _ _ _, ill _ _ _⟩
end

section
/-! SUPPORT. The matrix unit (R223, R233, R235, R334, R401, R408): a core's matrix state after a write, which instruction of a queue may
start, and what a fault of a team leaves of it. -/

namespace Sys2Proof.Machine

open Sys2Proof

/-! ## The matrix state of a core after a write -/

theorem Sparse.lookup_getD {α : Type} (dflt : α) (m : List (Nat × α)) (i : Nat) : (m.lookup i).getD dflt = Sparse.get dflt m i := by
  induction m with
  | nil => rfl
  | cons e rest ih =>
    obtain ⟨k, x⟩ := e
    rw [List.lookup_cons]
    unfold Sparse.get
    by_cases h : i = k
    · rw [if_pos h, beq_iff_eq.mpr h]
      rfl
    · rw [if_neg h, beq_eq_false_iff_ne.mpr h]
      exact ih

@[simp] theorem State.mxOf_setMx (s : State) (core : Nat) (m : Mx) : (s.setMx core m).mxOf core = m := by
  unfold State.mxOf State.setMx
  rw [Sparse.lookup_getD]
  exact Sparse.get_set_eq mxReset s.mx core m

@[simp] theorem State.mxOf_setSlot (s : State) (core : Nat) (a : SlotN) (f : Acc → Acc) : (s.setSlot core a f).mxOf core =
    { s.mxOf core with slots := vset (s.mxOf core).slots a.toNat (f (vget (s.mxOf core).slots a.toNat accReset)) } :=
  State.mxOf_setMx s core _

@[simp] theorem State.slots_unitDone (s : State) (core : Nat) (o : MxOp) : ((s.unitDone core o).mxOf core).slots = (s.mxOf core).slots := by
  unfold State.unitDone
  rw [State.mxOf_setMx]

@[simp] theorem State.busy_unitDone (s : State) (core : Nat) (o : MxOp) :
    ((s.unitDone core o).mxOf core).busy = (s.mxOf core).busy.filter (·.2 != o) := by
  unfold State.unitDone
  rw [State.mxOf_setMx]

/-! ## Which instruction may start (R223, R244, R408) -/

/-- What meets none of some instructions' slots, records and tables meets those of no one of them. -/
theorem meets_flatten {xss : List (List (Nat × Nat))} {ys : List (Nat × Nat)} (h : meets xss.flatten ys = false) :
    ∀ xs ∈ xss, meets xs ys = false := by
  intro xs hxs
  unfold meets at h ⊢
  rw [List.any_eq_false] at h ⊢
  exact fun x hx => h x (List.mem_flatten_of_mem hxs hx)

theorem meets_append (xs ys zs : List (Nat × Nat)) : meets (xs ++ ys) zs = (meets xs zs || meets ys zs) := List.any_append

/-- The instruction that may start stands behind none that has failed and none that touches what it touches. -/
structure MayStart (gt : Nat) (ok : MxOp → Bool) (taken : List (Nat × Nat)) (q : List MxOp) (o : MxOp) : Prop where
  place : ∃ pre post, q = pre ++ o :: post ∧ ∀ x ∈ pre, x.failed = false ∧ meets x.work.uses o.work.uses = false
  free : meets taken o.work.uses = false
  sound : o.failed = false
  later : o.after < gt
  passes : ok o = true

theorem mayStart_of_startable {gt : Nat} {ok : MxOp → Bool} (q : List MxOp) {taken : List (Nat × Nat)} {o : MxOp}
    (h : startable gt ok taken q = some o) : MayStart gt ok taken q o := by
  induction q generalizing taken with
  | nil => cases h
  | cons x q ih =>
    unfold startable at h
    split at h
    · cases h
    · next hx =>
      have sound : x.failed = false := by
        cases hf : x.failed with
        | false => rfl
        | true => exact absurd (by rw [hf]; rfl) hx
      split at h
      · next starts =>
        cases h
        simp only [Bool.and_eq_true, Bool.not_eq_true', decide_eq_true_eq] at starts
        obtain ⟨⟨free, later⟩, passes⟩ := starts
        exact ⟨⟨[], q, rfl, fun _ h => nomatch h⟩, free, sound, later, passes⟩
      · obtain ⟨⟨pre, post, hq, before⟩, free, sound', later, passes⟩ := ih h
        rw [meets_append, Bool.or_eq_false_iff] at free
        refine ⟨⟨x :: pre, post, by rw [hq]; rfl, fun y hy => ?_⟩, free.1, sound', later, passes⟩
        rcases List.mem_cons.mp hy with rfl | hy
        · exact ⟨sound, free.2⟩
        · exact before y hy

/-! ## Starting and finishing (R223, R408) -/

/-- The unit that may start an instruction starts it, under the cap of its team (R235). -/
theorem exec_matrixUnitPerform {s : State} {core : Nat} {o : MxOp} {T : Team} (h : s.starting? core = some o)
    (hT : s.team? o.team = some T) : exec (.matrixUnitPerform core) s = .next (s.startAt core o (T.burstcap.toNat % 256)) := by
  show execMatrixUnitPerform core s = _
  unfold execMatrixUnitPerform
  rw [h]
  simp only [hT, Option.map_some, Option.getD_some]

/-- The instruction that a unit starts stands in its queue, clear of those before it and of those being performed. -/
theorem State.mayStart_of_starting {s : State} {core : Nat} {o : MxOp} (h : s.starting? core = some o) :
    MayStart s.gt (fun o => !o.work.isPair && match s.team? o.team with
      | some T => T.performs && s.mayBurst T (s.mxOf core) o
      | none => false) ((s.mxOf core).busy.map (·.2.work.uses)).flatten (s.mxOf core).queue o :=
  mayStart_of_startable _ h

/-- The team of the instruction that starts goes on; a paired MMA does not start so. -/
theorem State.team_of_starting {s : State} {core : Nat} {o : MxOp} (h : s.starting? core = some o) :
    o.work.isPair = false ∧ ∃ T, s.team? o.team = some T := by
  have passes := (State.mayStart_of_starting h).passes
  simp only [Bool.and_eq_true, Bool.not_eq_true'] at passes
  refine ⟨passes.1, ?_⟩
  cases hT : s.team? o.team with
  | none => simp [hT] at passes
  | some T => exact ⟨T, rfl⟩

/-- A unit that starts an instruction takes it from its queue, and touches with it what the instruction touches. -/
theorem State.mxOf_startAt (s : State) (core : Nat) (o : MxOp) (cap : Nat) : ∃ w, w.uses = o.work.uses ∧
    ((s.startAt core o cap).mxOf core).busy = (s.mxOf core).busy ++ [(s.gt + o.cycles - 1, { o with work := w })] ∧
    ((s.startAt core o cap).mxOf core).queue = (s.mxOf core).queue.erase o := by
  unfold State.startAt
  rw [State.mxOf_setMx]
  refine ⟨_, ?_, rfl, rfl⟩
  cases o.work <;> rfl

theorem exec_matrixInstructionFinish {s : State} {core t : Nat} {o : MxOp}
    (h : ((s.mxOf core).busy.find? fun x => x.1 ≤ s.gt) = some (t, o)) :
    exec (.matrixInstructionFinish core) s = .next (s.finishWork core o) := by
  show execMatrixInstructionFinish core s = _
  unfold execMatrixInstructionFinish
  rw [h]

/-- MZERO performed (R238). -/
theorem State.finishWork_mzero {s : State} {core : Nat} {o : MxOp} {d : SlotN} {i40 : Bool} (h : o.work = .mzero d i40) :
    s.finishWork core o = (s.setSlot core d fun a =>
      { a with cells := [], poison := [], i40, sat := false, miss := false }).unitDone core o := by
  unfold State.finishWork
  rw [h]

/-- A slot after a slot has been replaced. -/
theorem vget_vset_slot (v : Vector Acc 4) (d e : SlotN) (x : Acc) :
    vget (vset v d.toNat x) e.toNat accReset = if e = d then x else vget v e.toNat accReset := by
  rw [vget_vset]
  simp only [BitVec.toNat_inj, d.isLt, and_true]

/-! ## Paired MMA (R233, R334) -/

section

variable {s : State} {core : Nat} {A B : Team} {a b : MxOp} (evenReady : s.pairReady (core - core % 2) = some (A, a))
  (oddReady : s.pairReady (core - core % 2 + 1) = some (B, b))
include evenReady oddReady

/-- Two units that are ready for sides that agree start four cycles later. -/
theorem exec_pairedStart_agree (part : A.part = B.part) (lnum : A.lnum = B.lnum) (cluster : A.cluster = B.cluster)
    (agrees : pairAgrees a.work b.work = true) (formats : pairFormats a b = true) (fresh : (s.mxOf (core - core % 2)).pairAt = none) :
    exec (.pairedStart core) s = .next (s.setPairAt (core - core % 2) (some (s.gt + 4))) := by
  show execPairedStart core s = _
  unfold execPairedStart
  simp only [evenReady, oddReady, fresh, part, lnum, cluster, agrees, formats, bne_self_eq_false, Bool.or_false, Bool.not_true,
    Bool.false_eq_true, if_false]

/-- When that cycle has come and what they touch is free they start together, with the even core's B. -/
theorem exec_pairedStart_start {t : Nat} (agreed : (s.mxOf (core - core % 2)).pairAt = some t) (come : t ≤ s.gt) (evenLater : a.after < s.gt)
    (oddLater : b.after < s.gt) (evenFree : ∀ x ∈ (s.mxOf (core - core % 2)).busy, meets x.2.work.uses a.work.uses = false)
    (oddFree : ∀ x ∈ (s.mxOf (core - core % 2 + 1)).busy, meets x.2.work.uses b.work.uses = false) :
    exec (.pairedStart core) s =
      .next (((s.setPairAt (core - core % 2) none).startPair (core - core % 2) A a a).startPair (core - core % 2 + 1) B b a) := by
  have clear {c : Nat} {o : MxOp} (h : ∀ x ∈ (s.mxOf c).busy, meets x.2.work.uses o.work.uses = false) :
      ((s.mxOf c).busy.any fun x => meets x.2.work.uses o.work.uses) = false := by
    rw [List.any_eq_false]
    intro x hx
    rw [h x hx]
    exact Bool.false_ne_true
  show execPairedStart core s = _
  unfold execPairedStart
  simp only [evenReady, oddReady, agreed, clear evenFree, clear oddFree, come, evenLater, oddLater, decide_true, Bool.not_false, Bool.and_true,
    if_true]

end

/-! ## Team faults (R353) -/

@[simp] theorem State.unpend_teams (s : State) (dst : Option (Nat × Nat)) (n : Nat) : (s.unpend dst n).teams = s.teams := by
  unfold State.unpend
  split <;> rfl

/-- A fold whose steps leave the teams alone does. -/
theorem State.foldl_teams {α : Type} {f : State → α → State} (h : ∀ u x, (f u x).teams = u.teams) (l : List α) (s : State) :
    (l.foldl f s).teams = s.teams := by
  induction l generalizing s with
  | nil => rfl
  | cons x l ih => rw [List.foldl_cons, ih, h]

@[simp] theorem State.dropFlights_teams (s : State) (p : Flight → Bool) : (s.dropFlights p).teams = s.teams := by
  unfold State.dropFlights
  exact State.foldl_teams (fun u (f : Flight) => State.foldl_teams (fun w (a : LaneAcc) => State.unpend_teams w a.dst f.nreg) f.lanes u) _ _

/-- A team that is stopped where it stands ends. -/
theorem State.team?_stopTeam {s : State} {t : Nat} {T : Team} (h : s.team? t = some T) :
    (s.stopTeam T).team? t = some { T with st := .ending true } := by
  obtain rfl := State.team?_id h
  unfold State.stopTeam
  refine State.team?_modTeam_eq (fun T => { T with st := .ending true }) (fun _ => rfl) ?_
  unfold State.team?
  rw [State.dropFlights_teams]
  exact h

/-- A running team that raises a team fault ends. -/
theorem State.ends_of_teamFault {s : State} {r : Raise} {T : Team} (h : s.team? r.t = some T) (run : T.st = .run) (cls : r.code.cls = .team) :
    ∃ U, (s.raise r).team? r.t = some U ∧ U.st = .ending true := by
  have takes : s.takes r.t r.code.cls = true := by
    unfold State.takes
    simp only [h, run]
  have noted : (s.setFlt r).team? r.t = some (T.modGroup r.g fun G =>
      { G with fltmask := r.lanes, fltpc := r.pc, fltcode := BitVec.ofNat 32 r.code.num, fltdst := r.dst }) :=
    State.team?_modTeam_eq (·.modGroup r.g _) (fun _ => rfl) h
  have faulted : s.raise r = s.teamFault r := by
    unfold State.raise State.deliverFault
    rw [if_pos takes, cls]
  rw [faulted]
  unfold State.teamFault
  simp only [noted]
  exact ⟨_, State.team?_stopTeam noted, rfl⟩

/-- The wait of a paired MMA that reaches RDVWD ends its team, where no WDREM cycles were skipped (R233). -/
theorem exec_pairedMmaTimeout {s : State} {core : Nat} {o : MxOp} {T : Team} (ho : (s.mxOf core).queue.find? (·.work.isPair) = some o)
    (hT : s.team? o.team = some T) (run : T.st = .run) (on : T.rdvwd ≠ 0#32) (waited : T.rdvwd.toNat ≤ o.waited)
    (unset : T.wdSet ≠ s.gt + 1) (waits : s.pairOver core = false) (fewSkipped : T.wdrem = 0#32 ∨ o.skipped < T.wdrem.toNat) :
    exec (.pairedMmaTimeout core) s =
      let u := s.setMx core { s.mxOf core with queue := (s.mxOf core).queue.erase o }
      .next (u.raise (u.opRaise o .rdvtmo)) := by
  have late : (T.wdrem != 0#32 && decide (T.wdrem.toNat ≤ o.skipped)) = false := by
    rcases fewSkipped with h | h
    · rw [h]; rfl
    · rw [decide_eq_false (Nat.not_le.mpr h), Bool.and_false]
  show execPairedMmaTimeout core s = _
  unfold execPairedMmaTimeout
  simp [ho, hT, run, on, waited, unset, waits, late]

/-! ## Power tokens (R235, R401) -/

/-- The token of a die's ring passes to a cluster that has a team there, where no unit keeps it for a pair. -/
theorem exec_powerToken {s : State} {die cluster : Nat} (unkept : ∀ c m, (c, m) ∈ s.mx → c / Config.coresPerDie = die → s.pairReady c = none)
    (ready : s.ringReady die = true) (team : ∃ T ∈ s.teams, T.cid = cluster ∧ T.core / Config.coresPerDie = die) :
    exec (.powerToken die cluster) s =
      .next { s with tokens := (die, cluster) :: s.tokens.filter fun x => x.1 != die,
                     m := { s.m with dies := vset s.m.dies die { vget s.m.dies die dieDefault with passed := s.gt } } } := by
  have kept : (s.mx.any fun x => x.1 / Config.coresPerDie == die && (s.pairReady x.1).isSome) = false := by
    rw [List.any_eq_false]
    rintro ⟨c, m⟩ hc h
    obtain ⟨onDie, waits⟩ := Bool.and_eq_true_iff.mp h
    rw [unkept c m hc (beq_iff_eq.mp onDie)] at waits
    exact Bool.false_ne_true waits
  have there : (s.teams.any fun T => T.cid == cluster && T.core / Config.coresPerDie == die) = true := by
    obtain ⟨T, hT, cid, core⟩ := team
    rw [List.any_eq_true]
    exact ⟨T, hT, by simp [cid, core]⟩
  show execPowerToken die cluster s = _
  unfold execPowerToken
  simp only [kept, ready, there, Bool.not_false, Bool.and_true, if_true]

end Sys2Proof.Machine

open Sys2Proof Sys2Proof.Machine

/-- Settles O43: an instruction that starts is one that `startable` picks from the queue, the unit's state after a start or a finish is that of
one write to it, and the timeout of a pair is a team fault of a running team. -/
theorem matrixUnit : Obligations.MatrixUnit := by
  unfold Obligations.MatrixUnit
  intro core die cluster s
  refine ⟨?starts, ?taken, ?finishes, ?pairs, ?timeout, exec_powerToken⟩
  case starts =>
    intro o h
    obtain ⟨place, free, sound, later, -⟩ := State.mayStart_of_starting h
    obtain ⟨single, T, hT⟩ := State.team_of_starting h
    refine ⟨place, fun x hx => ?_, sound, single, later, T, hT, exec_matrixUnitPerform h hT⟩
    exact meets_flatten free _ (List.mem_map_of_mem hx)
  case taken =>
    intro o cap
    obtain ⟨w, uses, busy, queue⟩ := State.mxOf_startAt s core o cap
    exact ⟨{ o with work := w }, busy, rfl, uses, queue⟩
  case finishes =>
    intro t o h
    refine ⟨exec_matrixInstructionFinish h, fun d i40 work e ne => ?_⟩
    rw [State.finishWork_mzero work]
    simp [vget_vset_slot, Ne.symm ne]
  case pairs =>
    intro A a B b evenReady oddReady part lnum cluster agrees formats
    exact ⟨exec_pairedStart_agree evenReady oddReady part lnum cluster agrees formats, fun t => exec_pairedStart_start evenReady oddReady⟩
  case timeout =>
    intro o T ho hT run on waited unset waits fewSkipped
    exact ⟨_, exec_pairedMmaTimeout ho hT run on waited unset waits fewSkipped, State.ends_of_teamFault hT run rfl⟩
end
